-- ==== Sys2Proof/Word.lean ====
section
/-! DEFINITION. The word types: every width 00_scope.md R9 fixes. -/

namespace Sys2Proof

/-- An I2C data byte, a register address or a register value (u8, 00_scope.md R9). -/
abbrev Byte := BitVec 8

/-- A length, an index or a 16-bit CSR (u16, 00_scope.md R9, 10_state.md R40). -/
abbrev Half := BitVec 16

/-- A command word, a buffer handle, a timeout or a tick reading (u32, 00_scope.md R9). -/
abbrev Word := BitVec 32

end Sys2Proof
end

