-- ==== Sys2Proof/Syntax.lean ====
section
/-! DEFINITION. The command words and the instructions: one constructor per row of spec/opcode_table.json
(30_encoding.md R100 to R104). -/

namespace Sys2Proof

/-- A command: the header word H and the argument words A0, A1, A2 (30_encoding.md R100). -/
structure Words where
  h  : Word
  a0 : Word
  a1 : Word
  a2 : Word
  deriving DecidableEq, Repr

/-- The address mode bit AM: 0 is 7-bit, 1 is 10-bit (30_encoding.md R100). -/
inductive AddrMode where
  | seven
  | ten
  deriving DecidableEq, Repr

/-- The direction of a transfer: Write is 0 and Read is 1 (30_encoding.md R107, R110). -/
inductive Dir where
  | write
  | read
  deriving DecidableEq, Repr

/-- The transfer mode: Polling is 0 and Interrupt is 1 (30_encoding.md R107). -/
inductive TransferMode where
  | polling
  | interrupt
  deriving DecidableEq, Repr

/-- The instructions, in the order of spec/opcode_table.json. `inst` is the instance index INST (H[11:8]); the
other operands are the fields 30_encoding.md R102 gives the command. -/
inductive Instr where
  | init (inst : Nat)
  | deinit (inst : Nat)
  | setTransferMode (inst : Nat) (mode : TransferMode)
  | setCallback (inst : Nat) (cb : Word) (ud : Word)
  | isInitialized (inst : Nat)
  | isBusBusy (inst : Nat)
  | getConfig (inst : Nat)
  | softwareReset (inst : Nat)
  | getXferStatus (inst : Nat)
  | encodeAddress (am : AddrMode) (rw : Dir) (addr : BitVec 10)
  | masterTransmit (inst : Nat) (am : AddrMode) (addr : BitVec 10) (buf : Word) (len : Half) (tmo : Word)
  | masterReceive (inst : Nat) (am : AddrMode) (addr : BitVec 10) (buf : Word) (len : Half) (tmo : Word)
  | masterWriteReg (inst : Nat) (am : AddrMode) (addr : BitVec 10) (reg : Byte) (val : Byte) (tmo : Word)
  | masterReadReg (inst : Nat) (am : AddrMode) (addr : BitVec 10) (reg : Byte) (out : Word) (tmo : Word)
  | masterWriteRegs (inst : Nat) (am : AddrMode) (addr : BitVec 10) (reg : Byte) (buf : Word) (len : Half) (tmo : Word)
  | masterReadRegs (inst : Nat) (am : AddrMode) (addr : BitVec 10) (reg : Byte) (buf : Word) (len : Half) (tmo : Word)
  | scanBus (inst : Nat) (buf : Word) (maxCount : Half)
  | blStart (inst : Nat)
  | blStop (inst : Nat)
  | blRestart (inst : Nat)
  | blSendByte (inst : Nat) (val : Byte)
  | blReceiveByte (inst : Nat) (ack : Bool)
  | evIrq (inst : Nat)
  | erIrq (inst : Nat)
  deriving DecidableEq, Repr

end Sys2Proof
end

