-- ==== Sys2Proof/Machine/Names.lean ====
section
/-! DEFINITION. The names the parameters and the state share: statuses, registers, lines, flags, pin modes, and the
transfer state. -/

namespace Sys2Proof.Machine

/-- The status codes 0 to 8, in order (30_encoding.md R106). -/
inductive Status where
  | ok
  | notInitialized
  | invalidParameter
  | gpioFailure
  | busy
  | timeout
  | nack
  | arbitrationLost
  | busError
  deriving DecidableEq, Repr

/-- The registers of P[i] (10_state.md R41 to R49). -/
inductive Reg where
  | cr1
  | cr2
  | oar1
  | oar2
  | dr
  | sr1
  | sr2
  | ccr
  | trise
  deriving DecidableEq, Repr

/-- The two lines of a bus (10_state.md R38). -/
inductive Line where
  | scl
  | sda
  deriving DecidableEq, Repr

/-- A pin write or a delay: what the bit-level sequences are made of (40_bit_level.md R140). -/
inductive LineOp where
  | pin (l : Line) (v : Bool)
  | delay
  deriving DecidableEq, Repr

/-- The SR1 flags a wait can name (44_hw_blocking.md R280). -/
inductive Flag where
  | sb
  | addr
  | add10
  | txe
  | rxne
  | btf
  deriving DecidableEq, Repr

/-- The pin modes INIT asks for (40_bit_level.md R142, 46_instance.md R361). -/
inductive PinMode where
  | openDrainOutput
  | altFunctionOpenDrain
  deriving DecidableEq, Repr

/-- The states of the interrupt transfer state machine, in order of their codes 0 to 4 (10_state.md R33). -/
inductive XState where
  | idle
  | startSent
  | addressPhase
  | dataPhase
  | complete
  deriving DecidableEq, Repr

/-- The interrupt transfer state `inst[i].xfer`, and its snapshot in a response (10_state.md R32, 45_hw_interrupt.md R336). -/
structure Xfer where
  state      : XState
  buf        : Word
  len        : Half
  idx        : Half
  addr       : Half
  dir        : Dir
  lastStatus : Status
  deriving DecidableEq, Repr

end Sys2Proof.Machine
end

