-- ==== Sys2Proof/Config.lean ====
section
/-! DEFINITION. The parameters of 00_scope.md R8, the configuration record of 10_state.md R30, and the free values. -/

namespace Sys2Proof

/-- The engine that serves an instance (10_state.md R30). -/
inductive Kind where
  | sw
  | hw
  deriving DecidableEq, Repr

/-- The configuration record `Config` (10_state.md R30). R30 gives port, pin and peripheral ids no width: that they are
numbers of no fixed width is a DESIGN CHOICE (log entry 32). -/
structure InstConfig where
  kind         : Kind
  sclPort      : Nat
  sclPin       : Nat
  sdaPort      : Nat
  sdaPin       : Nat
  bitDelayUs   : Word
  periph       : Nat
  clockSpeedHz : Word
  ownAddress   : Half
  deriving DecidableEq, Repr

/-- The clock-control values `SPEED_REGS(c)`: the fields of CR2, CCR and TRISE that INIT writes
(10_state.md R42, R48, R49). -/
structure SpeedRegs where
  freq  : BitVec 6
  fast  : Bool
  duty  : Bool
  ccr   : BitVec 12
  trise : BitVec 6
  deriving DecidableEq, Repr, Inhabited

/-- The OPEN parameters whose value is something the block does (00_scope.md R8). -/
inductive OpenParam where
  | hwSoftwareReset
  | deinitWhilePending
  deriving DecidableEq, Repr

/-- A field of an instance's row that a parameter's program can look at (10_state.md R24, R32). -/
inductive RowField where
  | initialized
  | transferMode
  | callback
  | userData
  | lastError
  | nvicEn
  | xferState
  | xferBuf
  | xferLen
  | xferIdx
  | xferAddr
  | xferDir
  | xferStatus
  deriving DecidableEq, Repr

/-- A word a parameter's program computes from its variables and its instance's row. -/
inductive PolicyExpr where
  | const (v : Word)
  | var (k : Nat)
  | row (f : RowField)
  | add (a b : PolicyExpr)
  | sub (a b : PolicyExpr)
  | and (a b : PolicyExpr)
  | or (a b : PolicyExpr)
  | xor (a b : PolicyExpr)
  | shl (a b : PolicyExpr)
  | shr (a b : PolicyExpr)
  deriving DecidableEq, Repr

/-- What a parameter's program can ask. -/
inductive PolicyTest where
  | eq (a b : PolicyExpr)
  /-- `a < b`, unsigned. -/
  | less (a b : PolicyExpr)
  deriving DecidableEq, Repr

/-- A write of one of the fields the controller writes (10_state.md R50), with the value: the low bits of a word. -/
inductive CsrField where
  | pe (v : Bool)
  | start
  | stop
  | ack (v : Bool)
  /-- Under HW_SOFTWARE_RESET alone (10_state.md R50, 43_hw_peripheral.md R264). -/
  | swrst (v : Bool)
  /-- The fields of CR2 named, in one read-modify-write (45_hw_interrupt.md R321, R331). -/
  | cr2 (freq : Option PolicyExpr) (iterren itevten itbufen : Option Bool)
  /-- ADDMODE and the address; bit 14 is kept at 1 and the reserved bits are written 0 (10_state.md R43). -/
  | oar1 (addMode : Bool) (add : PolicyExpr)
  | dr (b : PolicyExpr)
  | ccr (fast duty : Bool) (v : PolicyExpr)
  | trise (v : PolicyExpr)
  /-- The clear-by-0 write of the flags named. -/
  | clear (berr arlo af : Bool)
  deriving DecidableEq, Repr

/-- A change of an instance's row: one field, to the low bits of a word where it is a number, or every field but `config`
to its reset value (10_state.md R24, R32). The claim `opActive` ends at the command's return (46_instance.md R369). -/
inductive RowAct where
  | initialized (v : Bool)
  | transferMode (m : TransferMode)
  | callback (cb : PolicyExpr)
  | userData (ud : PolicyExpr)
  | lastError (st : Machine.Status)
  | nvicEn (v : Bool)
  | xferState (x : Machine.XState)
  | xferBuf (e : PolicyExpr)
  | xferLen (e : PolicyExpr)
  | xferIdx (e : PolicyExpr)
  | xferAddr (e : PolicyExpr)
  | xferDir (d : Dir)
  | xferStatus (st : Machine.Status)
  | reset
  deriving DecidableEq, Repr

/-- One thing a value of HW_SOFTWARE_RESET or DEINIT_WHILE_PENDING can have the block do on its instance (00_scope.md R8):
a micro-step of 20_memory.md R94, a call of the pin collaborator, or a write of a variable or of the row. An act that reads
leaves what it read in variable `k`. -/
inductive PolicyAct where
  | set (k : Nat) (e : PolicyExpr)
  | pin (l : Machine.Line) (v : Bool)
  /-- `delayMicroseconds` (10_state.md R55). -/
  | delay (us : PolicyExpr)
  /-- `RD_SCL()` or `RD_SDA()`. -/
  | sample (k : Nat) (l : Machine.Line)
  /-- `enablePinClock` of the line's port. -/
  | enableClock (l : Machine.Line)
  /-- `configurePin` of the line's pin; it reads the result. -/
  | configurePin (k : Nat) (l : Machine.Line) (mode : Machine.PinMode)
  | write (f : CsrField)
  /-- A read of a register, with its side effects (43_hw_peripheral.md R256). -/
  | read (k : Nat) (r : Machine.Reg)
  /-- `Now()`. -/
  | now (k : Nat)
  /-- `MemRead(buf, idx)` (20_memory.md R81). -/
  | memRead (k : Nat) (buf idx : PolicyExpr)
  /-- `MemWrite(buf, idx, v)` (20_memory.md R81). -/
  | memWrite (buf idx v : PolicyExpr)
  | store (a : RowAct)
  deriving DecidableEq, Repr

/-- A program of a parameter's value. `rest` goes on with the rest of the command. `jump k` goes on with entry `k` of the
program's table, after a turn of the other agents: so a program can wait, for a flag, a time or a field of the row. -/
inductive PolicyProg where
  /-- The parameter's refusal. -/
  | refuse
  /-- `return st`. -/
  | ret (st : Machine.Status)
  | rest
  | act (a : PolicyAct) (next : PolicyProg)
  | test (t : PolicyTest) (yes no : PolicyProg)
  | jump (k : Nat)
  deriving DecidableEq, Repr

/-- A value of HW_SOFTWARE_RESET or DEINIT_WHILE_PENDING (00_scope.md R8): a program that branches on what it reads, and the
table its jumps go through. DESIGN CHOICE, unsafe: what a program is made of (log entries 9 and 10). -/
structure Policy where
  start : PolicyProg
  jumps : List PolicyProg
  deriving DecidableEq, Repr

/-- A program that stores to a buffer on some path. -/
def PolicyProg.stores : PolicyProg → Bool
  | .refuse => false
  | .ret _ => false
  | .rest => false
  | .act (.memWrite _ _ _) _ => true
  | .act _ next => next.stores
  | .test _ yes no => yes.stores || no.stores
  | .jump _ => false

/-- A value that stores to a buffer on some path. -/
def Policy.stores (p : Policy) : Bool := p.start.stores || p.jumps.any PolicyProg.stores

/-- The default setting of both parameters (40_bit_level.md R149, 46_instance.md R362). -/
def Policy.refuse : Policy := ⟨.refuse, []⟩

/-- The parameters that belong to one instance: `configValid(CONFIG[i])`, `SPEED_REGS(CONFIG[i])`, `CSR_BASE[i]`, and
what `HW_SOFTWARE_RESET(i)` and `DEINIT_WHILE_PENDING(i)` apply (00_scope.md R8, 40_bit_level.md R149, 46_instance.md
R362). DESIGN CHOICE, safe: a value per instance, not a function of the record, since CONFIG[i] is fixed (log entry 8).
CSR_BASE[i] is a number of no fixed width: R8 leaves it OPEN and no rule bounds it (log entry 8). -/
structure InstParams where
  configValid        : Bool
  speed              : SpeedRegs
  csrBase            : Nat
  hwSoftwareReset    : Policy
  deinitWhilePending : Policy
  deriving DecidableEq, Repr

/-- The parameters of 00_scope.md R8 (N_INST is the length of the instance table; MAX_LEN and TICK_HZ are in the
widths). No step writes them. -/
structure Params where
  scanProbeTimeoutMs : Word
  pinSpeed           : Nat
  prioEv             : Nat
  prioEr             : Nat
  insts              : List InstParams
  deriving DecidableEq, Repr

/-! Free values: nothing is known of them. -/

/-- The peers' drive at a sample that no script fixes, by draw number (40_bit_level.md R141, 93 U25). -/
opaque Config.freeSample : Nat → Bool

/-- The result of a `configurePin` that no script fixes, by draw number (20_memory.md R91, 93 U27). -/
opaque Config.freePinResult : Nat → Bool

/-- The tick counter at power-on (70_reset_and_hazards.md R451, 93 U24). -/
opaque Config.ticksAtReset : Word

/-- The host's byte at a buffer address the memory does not list (70_reset_and_hazards.md R451, 93 U29). -/
opaque Config.hostByte : Nat → Byte

/-- `SPEED_REGS` of the reset state's configurations (00_scope.md R8, 92 D50). -/
opaque Config.speedRegs : InstConfig → SpeedRegs

/-- `CSR_BASE` of the reset state's instances (00_scope.md R8, 92 D23). -/
opaque Config.csrBase : Nat → Nat

/-- `SCAN_PROBE_TIMEOUT_MS` of the reset state (00_scope.md R8, 92 D22). -/
opaque Config.scanProbeTimeoutMs : Word

/-- `PIN_SPEED` of the reset state (00_scope.md R8, 92 D52). -/
opaque Config.pinSpeed : Nat

/-- CONFIG[0] of the common launch of 95_test_vectors.md: SW, bitDelayUs 5, ownAddress 0. -/
def Config.sw0 : InstConfig :=
  { kind := .sw, sclPort := 0, sclPin := 0, sdaPort := 0, sdaPin := 1, bitDelayUs := 5, periph := 0,
    clockSpeedHz := 0, ownAddress := 0 }

/-- CONFIG[1] of the common launch of 95_test_vectors.md: HW, clockSpeedHz 100000, ownAddress 0. -/
def Config.hw1 : InstConfig :=
  { kind := .hw, sclPort := 1, sclPin := 0, sdaPort := 1, sdaPin := 1, bitDelayUs := 0, periph := 0,
    clockSpeedHz := 100000, ownAddress := 0 }

/-- The configuration table of the reset state. DESIGN CHOICE, unsafe: 00_scope.md R8 leaves N_INST and CONFIG open;
this is the common launch of 95_test_vectors.md, N_INST = 2 (log entry 8). -/
def Config.table : List InstConfig := [Config.sw0, Config.hw1]

/-- The parameters of the reset state: the default settings of HW_SOFTWARE_RESET and DEINIT_WHILE_PENDING, every
configuration valid, the error line above the event line. DESIGN CHOICE, unsafe (log entry 8). -/
def Config.params : Params :=
  { scanProbeTimeoutMs := Config.scanProbeTimeoutMs
    pinSpeed := Config.pinSpeed
    prioEv := 0
    prioEr := 1
    insts :=
      [⟨true, Config.speedRegs Config.sw0, Config.csrBase 0, .refuse, .refuse⟩,
        ⟨true, Config.speedRegs Config.hw1, Config.csrBase 1, .refuse, .refuse⟩] }

end Sys2Proof
end

