-- ==== Sys2Proof/WellFormed.lean ====
section
/-! DEFINITION. Which instructions an encoding can hold. Every operand but the instance index is a bit field of
exactly its width, so the index is the one operand that needs a check (30_encoding.md R100: INST is 0..15). -/

namespace Sys2Proof

/-- The instance index of an instruction; ENCODE_ADDRESS takes none (30_encoding.md R102). -/
def Instr.index : Instr → Option Nat
  | .init i => some i
  | .deinit i => some i
  | .setTransferMode i _ => some i
  | .setCallback i _ _ => some i
  | .isInitialized i => some i
  | .isBusBusy i => some i
  | .getConfig i => some i
  | .softwareReset i => some i
  | .getXferStatus i => some i
  | .encodeAddress _ _ _ => none
  | .masterTransmit i _ _ _ _ _ => some i
  | .masterReceive i _ _ _ _ _ => some i
  | .masterWriteReg i _ _ _ _ _ => some i
  | .masterReadReg i _ _ _ _ _ => some i
  | .masterWriteRegs i _ _ _ _ _ _ => some i
  | .masterReadRegs i _ _ _ _ _ _ => some i
  | .scanBus i _ _ => some i
  | .blStart i => some i
  | .blStop i => some i
  | .blRestart i => some i
  | .blSendByte i _ => some i
  | .blReceiveByte i _ => some i
  | .evIrq i => some i
  | .erIrq i => some i

/-- The instance index fits the 4-bit INST field (30_encoding.md R100). -/
def Instr.wf (i : Instr) : Bool :=
  match i.index with
  | some n => decide (n < 16)
  | none => true

/-- The instruction is one of the two internal handler entries, which the host never issues (30_encoding.md R104). -/
def Instr.internal : Instr → Bool
  | .evIrq _ => true
  | .erIrq _ => true
  | _ => false

end Sys2Proof
end

