-- ==== Sys2Proof/Decode.lean ====
section
/-! DEFINITION. Decoding by match and mask (30_encoding.md R100 to R105, R114, R117), and the encoder, written from
the same tables. -/

namespace Sys2Proof

/-- Why four words are no command (30_encoding.md R103, R104, R114). -/
inductive Reject where
  /-- OP is not in the table of R104. -/
  | reservedOp (op : Byte)
  /-- A reserved bit, or a header field the command does not use, is not 0. -/
  | reservedBits (h : Word)
  /-- OP 0x30 or 0x31 from the host: the handler entries are internal. -/
  | internalOp (op : Byte)
  deriving DecidableEq, Repr

/-! The header fields of R100 and the argument fields of R101. -/

def opOf (h : Word) : Byte := h.extractLsb' 0 8
def instOf (h : Word) : Nat := (h.extractLsb' 8 4).toNat
def amOf (h : Word) : AddrMode := if h.getLsbD 12 then .ten else .seven
def dirOf (h : Word) : Dir := if h.getLsbD 13 then .read else .write
def modeOf (h : Word) : TransferMode := if h.getLsbD 13 then .interrupt else .polling
def ackOf (h : Word) : Bool := h.getLsbD 13
def addrOf (h : Word) : BitVec 10 := h.extractLsb' 16 10
def regOf (a0 : Word) : Byte := a0.extractLsb' 0 8
def valOf (a0 : Word) : Byte := a0.extractLsb' 8 8
def lenOf (a0 : Word) : Half := a0.extractLsb' 16 16

/-! The four masks of R105. -/

def maskInst : Word := 0xFFFFF0FF#32
def maskInstFl : Word := 0xFFFFD0FF#32
def maskAmFlAddr : Word := 0xFC00CFFF#32
def maskInstAmAddr : Word := 0xFC00E0FF#32

/-- R105: a header selects a row when `H & M = OP`. -/
def selects (mask h : Word) : Bool := (h &&& mask) == (opOf h).setWidth 32

/-- The instruction of a row, if the header selects it. -/
def tableRow (mask : Word) (w : Words) (i : Instr) : Except Reject Instr :=
  if selects mask w.h then .ok i else .error (.reservedBits w.h)

/-- Every row of spec/opcode_table.json, the two internal ones among them (30_encoding.md R104, R105). -/
def decode (w : Words) : Except Reject Instr :=
  let i := instOf w.h
  match (opOf w.h).toNat with
  | 0x01 => tableRow maskInst w (.init i)
  | 0x02 => tableRow maskInst w (.deinit i)
  | 0x03 => tableRow maskInstFl w (.setTransferMode i (modeOf w.h))
  | 0x04 => tableRow maskInst w (.setCallback i w.a1 w.a2)
  | 0x05 => tableRow maskInst w (.isInitialized i)
  | 0x06 => tableRow maskInst w (.isBusBusy i)
  | 0x07 => tableRow maskInst w (.getConfig i)
  | 0x08 => tableRow maskInst w (.softwareReset i)
  | 0x09 => tableRow maskInst w (.getXferStatus i)
  | 0x0A => tableRow maskAmFlAddr w (.encodeAddress (amOf w.h) (dirOf w.h) (addrOf w.h))
  | 0x10 => tableRow maskInstAmAddr w (.masterTransmit i (amOf w.h) (addrOf w.h) w.a1 (lenOf w.a0) w.a2)
  | 0x11 => tableRow maskInstAmAddr w (.masterReceive i (amOf w.h) (addrOf w.h) w.a1 (lenOf w.a0) w.a2)
  | 0x12 => tableRow maskInstAmAddr w (.masterWriteReg i (amOf w.h) (addrOf w.h) (regOf w.a0) (valOf w.a0) w.a2)
  | 0x13 => tableRow maskInstAmAddr w (.masterReadReg i (amOf w.h) (addrOf w.h) (regOf w.a0) w.a1 w.a2)
  | 0x14 => tableRow maskInstAmAddr w (.masterWriteRegs i (amOf w.h) (addrOf w.h) (regOf w.a0) w.a1 (lenOf w.a0) w.a2)
  | 0x15 => tableRow maskInstAmAddr w (.masterReadRegs i (amOf w.h) (addrOf w.h) (regOf w.a0) w.a1 (lenOf w.a0) w.a2)
  | 0x16 => tableRow maskInst w (.scanBus i w.a1 (lenOf w.a0))
  | 0x20 => tableRow maskInst w (.blStart i)
  | 0x21 => tableRow maskInst w (.blStop i)
  | 0x22 => tableRow maskInst w (.blRestart i)
  | 0x23 => tableRow maskInst w (.blSendByte i (valOf w.a0))
  | 0x24 => tableRow maskInstFl w (.blReceiveByte i (ackOf w.h))
  | 0x30 => tableRow maskInst w (.evIrq i)
  | 0x31 => tableRow maskInst w (.erIrq i)
  | _ => .error (.reservedOp (opOf w.h))

/-- A command word of the host: the handler entries are refused (30_encoding.md R103, R104). -/
def decodeHost (w : Words) : Except Reject Instr :=
  match decode w with
  | .ok i => if i.internal then .error (.internalOp (opOf w.h)) else .ok i
  | .error r => .error r

/-! The encoder. -/

def AddrMode.bit : AddrMode → Bool
  | .seven => false
  | .ten => true

def Dir.bit : Dir → Bool
  | .write => false
  | .read => true

def TransferMode.bit : TransferMode → Bool
  | .polling => false
  | .interrupt => true

/-- The header word from its fields, reserved bits 0 (30_encoding.md R100). -/
def header (op : Byte) (inst : Nat) (am fl : Bool) (addr : BitVec 10) : Word :=
  op.setWidth 32 ||| (BitVec.ofNat 4 inst).setWidth 32 <<< 8 ||| (BitVec.ofBool am).setWidth 32 <<< 12 |||
    (BitVec.ofBool fl).setWidth 32 <<< 13 ||| addr.setWidth 32 <<< 16

/-- The argument word A0 from its fields (30_encoding.md R101). -/
def argWord (len : Half) (val reg : Byte) : Word :=
  reg.setWidth 32 ||| val.setWidth 32 <<< 8 ||| len.setWidth 32 <<< 16

/-- A command that uses INST alone. -/
def plain (op : Byte) (inst : Nat) : Words := ⟨header op inst false false 0, 0, 0, 0⟩

/-- The four words of an instruction; argument bits the command does not read are 0 (30_encoding.md R101, R102, R104). -/
def encode : Instr → Words
  | .init i => plain 0x01 i
  | .deinit i => plain 0x02 i
  | .setTransferMode i m => ⟨header 0x03 i false m.bit 0, 0, 0, 0⟩
  | .setCallback i cb ud => ⟨header 0x04 i false false 0, 0, cb, ud⟩
  | .isInitialized i => plain 0x05 i
  | .isBusBusy i => plain 0x06 i
  | .getConfig i => plain 0x07 i
  | .softwareReset i => plain 0x08 i
  | .getXferStatus i => plain 0x09 i
  | .encodeAddress am rw a => ⟨header 0x0A 0 am.bit rw.bit a, 0, 0, 0⟩
  | .masterTransmit i am a buf len tmo => ⟨header 0x10 i am.bit false a, argWord len 0 0, buf, tmo⟩
  | .masterReceive i am a buf len tmo => ⟨header 0x11 i am.bit false a, argWord len 0 0, buf, tmo⟩
  | .masterWriteReg i am a reg val tmo => ⟨header 0x12 i am.bit false a, argWord 0 val reg, 0, tmo⟩
  | .masterReadReg i am a reg out tmo => ⟨header 0x13 i am.bit false a, argWord 0 0 reg, out, tmo⟩
  | .masterWriteRegs i am a reg buf len tmo => ⟨header 0x14 i am.bit false a, argWord len 0 reg, buf, tmo⟩
  | .masterReadRegs i am a reg buf len tmo => ⟨header 0x15 i am.bit false a, argWord len 0 reg, buf, tmo⟩
  | .scanBus i buf max => ⟨header 0x16 i false false 0, argWord max 0 0, buf, 0⟩
  | .blStart i => plain 0x20 i
  | .blStop i => plain 0x21 i
  | .blRestart i => plain 0x22 i
  | .blSendByte i val => ⟨header 0x23 i false false 0, argWord 0 val 0, 0, 0⟩
  | .blReceiveByte i ack => ⟨header 0x24 i false ack 0, 0, 0, 0⟩
  | .evIrq i => plain 0x30 i
  | .erIrq i => plain 0x31 i

/-- The command whose bits are `w`, H in bits 31:0, A0 in 63:32, A1 in 95:64, A2 in 127:96; bits from `nbits` up are 0
(command words are whole 32-bit values, 20_memory.md R87, R88). -/
def tableWords (nbits w : Nat) : Words :=
  let v := w % 2 ^ nbits
  ⟨BitVec.ofNat 32 v, BitVec.ofNat 32 (v / 2 ^ 32), BitVec.ofNat 32 (v / 2 ^ 64), BitVec.ofNat 32 (v / 2 ^ 96)⟩

/-- What the decoder reads from a row's bits. -/
def decodeTableWord (nbits w : Nat) : Option Instr :=
  match decode (tableWords nbits w) with
  | .ok i => some i
  | .error _ => none

end Sys2Proof
end

