-- ==== Sys2Proof/Machine/State.lean ====
section
/-! DEFINITION. The state of the machine (10_state.md, 43_hw_peripheral.md R250, 70_reset_and_hazards.md R450) as plain
data, the reasons a step can stop (60_exceptions.md R401), and the state after reset. -/

namespace Sys2Proof.Machine

/-! ## Transfer state and response -/

/-- The reset column of 10_state.md R32. -/
def Xfer.reset : Xfer :=
  { state := .idle, buf := 0, len := 0, idx := 0, addr := 0, dir := .write, lastStatus := .ok }

/-- A command's response: a field its rule does not name is 0, false or empty (00_scope.md R14). -/
structure Response where
  status : Status := .ok
  byte   : Byte := 0
  byte1  : Byte := 0
  n      : Byte := 0
  flag   : Bool := false
  found  : Half := 0
  config : Option InstConfig := none
  xfer   : Option Xfer := none
  deriving DecidableEq, Repr

/-! ## The instance table -/

/-- One row of the Instance State Table (10_state.md R24). -/
structure Inst where
  config       : InstConfig
  initialized  : Bool
  transferMode : TransferMode
  callback     : Word
  userData     : Word
  lastError    : Status
  opActive     : Bool
  xfer         : Xfer
  nvicEn       : Bool
  drvSCL       : Bool
  drvSDA       : Bool
  deriving DecidableEq, Repr

/-- A row at the reset column of 10_state.md R24. -/
def Inst.reset (c : InstConfig) : Inst :=
  { config := c, initialized := false, transferMode := .polling, callback := 0, userData := 0, lastError := .ok,
    opActive := false, xfer := Xfer.reset, nvicEn := false, drvSCL := true, drvSDA := true }

/-! ## The peripheral -/

/-- The phase `ph` of the peripheral (43_hw_peripheral.md R250). -/
inductive Phase where
  | idle
  | start
  | hdr10
  | addrDone
  | tx
  | rx
  | rxEnd
  | held
  deriving DecidableEq, Repr

/-- What an HW bus shows: S, Sr, P, A, N, `[b]`, `<b>` (30_encoding.md R112) and `release` (43_hw_peripheral.md R264). -/
inductive BusSym where
  | start
  | restart
  | stop
  | ack
  | nack
  | sent (b : Byte)
  | received (b : Byte)
  | release
  deriving DecidableEq, Repr

/-- The peripheral P[i]: its registers, its hidden state (43_hw_peripheral.md R250), and what its bus has shown,
newest first. -/
structure Periph where
  cr1    : Half
  cr2    : Half
  oar1   : Half
  oar2   : Half
  dr     : Half
  sr1    : Half
  sr2    : Half
  ccr    : Half
  trise  : Half
  ph     : Phase
  pendDR : Bool
  arw    : Bool
  snap   : Half
  wire   : List BusSym
  deriving DecidableEq, Repr

/-- The reset values of 70_reset_and_hazards.md R450, the bus having shown `wire`. -/
def Periph.resetWith (wire : List BusSym) : Periph :=
  { cr1 := 0, cr2 := 0, oar1 := 0, oar2 := 0, dr := 0, sr1 := 0, sr2 := 0, ccr := 0, trise := 2,
    ph := .idle, pendDR := false, arw := false, snap := 0, wire := wire }

def Periph.reset : Periph := Periph.resetWith []

/-! ## Micro-operations of a command, and its position (10_state.md R23) -/

/-- How a `Poll` ended (44_hw_blocking.md R280); `err` carries the error bits of SR1 it saw. -/
inductive PollResult where
  | ok
  | timeout
  | err (e : Half)
  deriving DecidableEq, Repr

/-- One micro-operation of a command's sequence. Each line of a command's pseudocode is one of these, or a short list. -/
inductive Op where
  /-- `SCL(v)`, `SDA(v)` or `D()` (40_bit_level.md R140). -/
  | line (op : LineOp)
  /-- `SDA(b[k])` for the byte `b` being sent (40_bit_level.md R146). -/
  | pinBit (k : Nat)
  /-- `v[k] <- RD_SDA()` for the byte `v` being received (40_bit_level.md R147). -/
  | sampleBit (k : Nat)
  /-- `s <- RD_SDA()` in the ninth clock of a sent byte (40_bit_level.md R146). -/
  | sampleAck
  /-- The test of SendChecked: on a NACK, `stop(); return Nack` (42_transactions.md R204). -/
  | needAck
  /-- The SW bus-busy check; a busy bus returns Busy (42_transactions.md R200 step 5, R201, R211). -/
  | swBusy
  /-- The byte the next operations send. -/
  | byte (b : Byte)
  /-- `response.flag <- (r = ACK)` (40_bit_level.md R153). -/
  | ackToFlag
  /-- `response.byte <-` the byte received (40_bit_level.md R154). -/
  | byteToResponse
  /-- `MemRead(buf, k)` (20_memory.md R81). -/
  | memRead (buf : Word) (k : Nat)
  /-- `MemWrite(buf, k, v)` of the byte received (20_memory.md R81). -/
  | memWrite (buf : Word) (k : Nat)
  /-- `if found = maxCount: break` of a scan (42_transactions.md R211, 44_hw_blocking.md R295). -/
  | scanBreak (max : Half)
  /-- `if r = ACK: MemWrite(BUF, found, a); found <- found + 1` (42_transactions.md R211). -/
  | scanRecord (buf : Word) (a : Byte)
  /-- `WaitNotBusy(tmo)` (44_hw_blocking.md R284). -/
  | waitNotBusy (tmo : Word)
  /-- `WaitFlag(F, tmo)` (44_hw_blocking.md R282). -/
  | waitFlag (f : Flag) (tmo : Word)
  /-- `if p = Ok: p <- Poll(F, T)` of a scan probe (44_hw_blocking.md R295). -/
  | probePoll (f : Flag) (tmo : Word)
  /-- `if p = Ok: DR <- b` of a scan probe (44_hw_blocking.md R295). -/
  | probeDR (b : Byte)
  /-- The end of a scan probe, by its result `p` (44_hw_blocking.md R295). -/
  | probeEnd (buf : Word) (a : Byte)
  /-- A CSR write of the bits in `mask` (10_state.md R50, 43_hw_peripheral.md R256, R264). -/
  | csr (reg : Reg) (mask v : Half)
  /-- `DR <-` the byte being sent (43_hw_peripheral.md R256). -/
  | writeDR
  | readSR1
  | readSR2
  /-- `read DR`, the byte received (43_hw_peripheral.md R256). -/
  | readDR
  /-- The atomic claim of an asynchronous start (45_hw_interrupt.md R321, R322, 20_memory.md R96). -/
  | asyncClaim (buf : Word) (len : Half) (addr : BitVec 10) (dir : Dir)
  /-- `enablePinClock(port)` (20_memory.md R85, R91). -/
  | enableClock (port : Nat)
  /-- `configurePin(port, pin, mode, PIN_SPEED)`; a failure returns GpioFailure (46_instance.md R360). -/
  | configPin (port pin : Nat) (mode : PinMode)
  /-- `inst[i].nvicEn <- v`. -/
  | setNvic (v : Bool)
  /-- What DEINIT does to an HW instance that is initialized, before it resets the row (46_instance.md R362). -/
  | shutDown
  /-- `initialized <- true; transferMode <- Polling; xfer <- reset value` (46_instance.md R360, R361). -/
  | initRow
  /-- Every field of the row but `config` to its reset value (46_instance.md R362); `opActive` follows in the return. -/
  | resetRow
  /-- `inst[i].transferMode <- m` (46_instance.md R363). -/
  | setMode (m : TransferMode)
  /-- `if pending(i): xfer.state <- Idle; xfer.buf <- 0` (46_instance.md R363). -/
  | abandon
  /-- `apply HW_SOFTWARE_RESET(i)` or `apply DEINIT_WHILE_PENDING(i)`, the parameter having the value `pol`
  (40_bit_level.md R149, 46_instance.md R362). -/
  | apply (p : OpenParam) (pol : Policy)
  deriving DecidableEq, Repr

/-- The local variables of a command: the byte in hand, the last acknowledge, the start time of the wait in progress,
the result `p` of a scan probe, and the response built so far; and of a parameter's program, its variables (an unlisted one
is 0), whether it has made a micro-step, and the table entry it goes on with. -/
structure Scratch where
  byte : Byte := 0
  ack  : Bool := false
  t0   : Option Word := none
  p    : PollResult := .ok
  resp : Response := {}
  vars  : List Word := []
  acted : Bool := false
  next  : Option Nat := none
  deriving DecidableEq, Repr

/-- `seq[i]`: the command in progress, its instance, its four words as issued, and the micro-operations still to run
(10_state.md R23, 60_exceptions.md R401). -/
structure Seq where
  inst  : Nat
  cmd   : Instr
  words : Words
  ops   : List Op
  scr   : Scratch
  deriving DecidableEq, Repr

/-! ## Observation, host and environment -/

/-- The events of the observation trace (00_scope.md R13), each with its instance. A CSR write names the bits it
writes by `mask`. -/
inductive Event where
  | pin (inst : Nat) (l : Line) (v : Bool)
  | delay (inst : Nat) (us : Word)
  | sample (inst : Nat) (l : Line) (v : Bool)
  | csrW (inst : Nat) (reg : Reg) (mask v : Half)
  | csrR (inst : Nat) (reg : Reg) (v : Half)
  | callback (inst : Nat) (st : Status) (userData : Word)
  | resp (cmd : Instr) (r : Response)
  deriving DecidableEq, Repr

/-- A call made of the pin collaborator besides pin writes and reads (20_memory.md R85). -/
inductive PinCall where
  | enableClock (port : Nat)
  | configure (port pin : Nat) (mode : PinMode) (speed : Nat) (ok : Bool)
  deriving DecidableEq, Repr

/-- What the host does (70_reset_and_hazards.md R470): issue a command, or touch a buffer itself (20_memory.md R99). -/
inductive HostAct where
  | command (w : Words)
  | readBuf (buf : Word) (k : Half)
  | writeBuf (buf : Word) (k : Half) (v : Byte)
  deriving DecidableEq, Repr

/-- The draw that ends a byte the peripheral sends (43_hw_peripheral.md R253, R265). -/
inductive Outcome3 where
  | ack
  | nack
  | lost
  deriving DecidableEq, Repr

/-- The steps of a peripheral, with their draws (43_hw_peripheral.md R252 to R263). -/
inductive PeriphStep where
  | startGen
  | addrSend (r : Outcome3)
  | loSend (r : Outcome3)
  | txByte (r : Outcome3)
  | rxByte (v : Byte)
  | stopGen
  | stopCancel
  | extBusy (d : Bool)
  | berr
  deriving DecidableEq, Repr

/-- One choice of the scheduler among the agents (20_memory.md R94, 70_reset_and_hazards.md R472). -/
inductive Sched where
  /-- The block (or the host) takes its next micro-step. -/
  | block
  /-- The peripheral of an instance takes a step, if it is enabled. -/
  | peri (inst : Nat) (p : PeriphStep)
  /-- The tick counter advances, if the advance keeps 10_state.md R55. -/
  | tick (d : Word)
  /-- The line of highest priority that is taken is served, if there is one (45_hw_interrupt.md R333). -/
  | irq
  deriving DecidableEq, Repr

/-- The environment's draws that a script fixes (70_reset_and_hazards.md R472); when a script is used up, a draw is a
free value of Config, and `drawn` counts those. -/
structure Env where
  /-- The peers' drive of the line at the next samples (40_bit_level.md R141). -/
  samples    : List Bool
  /-- The results of the next `configurePin` calls (20_memory.md R91). -/
  pinResults : List Bool
  /-- What the host's callback does at its next invocations (45_hw_interrupt.md R335). -/
  calls      : List (List HostAct)
  drawn      : Nat
  deriving DecidableEq, Repr

/-! ## Stops -/

/-- What a fault records: the command's four words, the instance and the rule (60_exceptions.md R401). A handler's words
are the encoding of its entry; an access of the host's own is no command (log entry 24). -/
structure Site where
  cmd  : Option Words
  inst : Nat
  rule : Nat
  deriving DecidableEq, Repr

/-- The faults of 60_exceptions.md R401. -/
inductive Fault where
  /-- A buffer access at an index not below the buffer's size: transfers, handlers, scans, the host (20_memory.md R81).
  Safe: the spec names this fault. -/
  | bufferBounds (site : Site)
  /-- The host (or its callback) touches a buffer that a pending transfer borrows, or that the command being executed
  borrows for its duration; the site names the borrowing instance (20_memory.md R99). Safe: the spec names this fault. -/
  | bufferRace (site : Site) (buf : Word)
  /-- A handler runs with no pending transfer or with a flag its state does not expect (45_hw_interrupt.md R324, R330,
  R332). Safe: the spec names this fault. -/
  | unexpectedEvent (site : Site)
  /-- A command enters an instance on which a command is executing (46_instance.md R369). Safe: the spec names this
  fault. -/
  | reentrant (site : Site)
  /-- A callback issues a command that would wait (45_hw_interrupt.md R335). Safe: the spec names this fault. -/
  | blockingInHandler (site : Site)
  deriving DecidableEq, Repr

/-- The refusals of 60_exceptions.md R401, and U13 of 93_implementation_defined.md. -/
inductive Refusal where
  /-- Raised by `exec`'s arm of an instruction without a meaning; no arm does. Safe. -/
  | notModelled (mnemonic : String)
  /-- Raised by the host's move: the words are no command (30_encoding.md R103, R104, R114). Safe: the spec names this
  refusal. -/
  | illegalCommand (r : Reject)
  /-- Raised by SOFTWARE_RESET on an HW instance where the value of HW_SOFTWARE_RESET refuses, as its default does
  (40_bit_level.md R149, log entry 9). Safe: the spec names this refusal. -/
  | hwSoftwareReset (inst : Nat)
  /-- Raised by DEINIT on a pending HW instance where the value of DEINIT_WHILE_PENDING refuses, as its default does
  (46_instance.md R362, log entry 10). Safe: the spec names this refusal. -/
  | deinitWhilePending (inst : Nat)
  /-- Raised where a u16 result would not fit and no rule gives a wrap (00_scope.md R10, 93 U13). Safe: the spec names
  it and says that no rule reaches it. -/
  | arithmetic (site : Site)
  deriving DecidableEq, Repr

/-- The mark of a run that has ended in a fault or a refusal (60_exceptions.md R401). -/
inductive Mark where
  | fault (f : Fault)
  | refused (r : Refusal)
  deriving DecidableEq, Repr

/-! ## The state -/

/-- The state of the machine. `inst` and `peri` hold one entry per instance, so N_INST is their length. -/
structure State where
  /-- The parameters of 00_scope.md R8; no step writes them (10_state.md R21). -/
  par     : Params
  /-- The Instance State Table (10_state.md R24). -/
  inst    : List Inst
  /-- The peripherals (10_state.md R40, 43_hw_peripheral.md R250); an SW instance's entry is never used. -/
  peri    : List Periph
  /-- The command in progress, when it waits for a flag (10_state.md R23). -/
  seq     : Option Seq
  /-- The four words of the command handed over last, which its faults record (30_encoding.md R100, 60_exceptions.md
  R401, log entry 24). -/
  words   : Words
  /-- Host buffer bytes that have been given or written, by address (20_memory.md R81). -/
  mem     : List Host.Cell
  /-- The declared size of every buffer handle (20_memory.md R81). -/
  bufs    : List (Word × Nat)
  /-- The tick counter (10_state.md R55). -/
  ticks   : Word
  /-- The last tick reading (10_state.md R55). -/
  lastNow : Word
  /-- The observation trace, newest first (00_scope.md R13). -/
  trace   : List Event
  /-- The calls made of the pin collaborator, newest first. -/
  pinLog  : List PinCall
  /-- What the host does next (70_reset_and_hazards.md R469). -/
  host    : List HostAct
  /-- The scheduler's next choices (20_memory.md R94). -/
  sched   : List Sched
  /-- The environment's next draws (70_reset_and_hazards.md R472). -/
  env     : Env
  /-- The fault or refusal mark (60_exceptions.md R401, 70_reset_and_hazards.md R450, R471). -/
  mark    : Option Mark
  deriving DecidableEq, Repr

/-- The power-on state for given parameters and configurations, nothing handed over and no program issued
(70_reset_and_hazards.md R450, R451). The tick counter's value is a free value. -/
def State.powerOn (par : Params) (configs : List InstConfig) : State :=
  { par := par
    inst := configs.map Inst.reset
    peri := configs.map fun _ => Periph.reset
    seq := none
    words := ⟨0, 0, 0, 0⟩
    mem := []
    bufs := []
    ticks := Config.ticksAtReset
    lastNow := Config.ticksAtReset
    trace := []
    pinLog := []
    host := []
    sched := []
    env := { samples := [], pinResults := [], calls := [], drawn := 0 }
    mark := none }

/-- The machine right after reset. The parameters are those of the common launch (log entry 8); every statement about
reset is made of `State.powerOn` for every parameter. -/
def State.reset : State := State.powerOn Config.params Config.table

end Sys2Proof.Machine
end

