-- ==== Sys2Proof/Machine/Flags.lean ====
section
/-! DEFINITION. The flags: bits of CR1, CR2, SR1 and SR2 (10_state.md R41 to R47), the priority of the error flags
(60_exceptions.md R403), the interrupt lines (R404, R405), and the clock comparison (00_scope.md R12). -/

namespace Sys2Proof.Machine

/-! CR1 (10_state.md R41). -/
def Cr1.pe : Half := 0x0001#16
def Cr1.start : Half := 0x0100#16
def Cr1.stop : Half := 0x0200#16
def Cr1.ack : Half := 0x0400#16
def Cr1.swrst : Half := 0x8000#16

/-! CR2 (10_state.md R42). -/
def Cr2.freq : Half := 0x003F#16
def Cr2.iterren : Half := 0x0100#16
def Cr2.itevten : Half := 0x0200#16
def Cr2.itbufen : Half := 0x0400#16
/-- The three enables at once. -/
def Cr2.enables : Half := 0x0700#16

/-! SR1 (10_state.md R46). -/
def Sr1.sb : Half := 0x0001#16
def Sr1.addr : Half := 0x0002#16
def Sr1.btf : Half := 0x0004#16
def Sr1.add10 : Half := 0x0008#16
def Sr1.stopf : Half := 0x0010#16
def Sr1.rxne : Half := 0x0040#16
def Sr1.txe : Half := 0x0080#16
def Sr1.berr : Half := 0x0100#16
def Sr1.arlo : Half := 0x0200#16
def Sr1.af : Half := 0x0400#16
def Sr1.ovr : Half := 0x0800#16
def Sr1.pecerr : Half := 0x1000#16
def Sr1.timeout : Half := 0x4000#16
def Sr1.smbalert : Half := 0x8000#16
/-- BERR, ARLO and AF: the flags a wait and the handlers test (44_hw_blocking.md R280). -/
def Sr1.errors : Half := 0x0700#16

/-! SR2 (10_state.md R47). -/
def Sr2.msl : Half := 0x0001#16
def Sr2.busy : Half := 0x0002#16
def Sr2.tra : Half := 0x0004#16

/-- The bits of `mask` in `v`, some of them 1. -/
def has (v mask : Half) : Bool := (v &&& mask) != 0#16

/-- `v` with the bits of `mask` set. -/
def setBits (v mask : Half) : Half := v ||| mask

/-- `v` with the bits of `mask` cleared. -/
def clearBits (v mask : Half) : Half := v &&& ~~~mask

/-- `v` with the bits of `mask` taken from `x`: a read-modify-write of one field (10_state.md R50). -/
def merge (v mask x : Half) : Half := (v &&& ~~~mask) ||| (x &&& mask)

/-- The SR1 bit of a flag a wait can name (44_hw_blocking.md R280). -/
def flagMask : Flag → Half
  | .sb => Sr1.sb
  | .addr => Sr1.addr
  | .add10 => Sr1.add10
  | .txe => Sr1.txe
  | .rxne => Sr1.rxne
  | .btf => Sr1.btf

/-- The status a set of error flags gives: BusError over ArbitrationLost over Nack (60_exceptions.md R403,
44_hw_blocking.md R282, 45_hw_interrupt.md R332). -/
def errorStatus (e : Half) : Status :=
  if has e Sr1.berr then .busError else if has e Sr1.arlo then .arbitrationLost else .nack

/-- The level of the event line (60_exceptions.md R404). -/
def evLine (p : Periph) : Bool :=
  has p.cr2 Cr2.itevten &&
    (has p.sr1 Sr1.sb || has p.sr1 Sr1.addr || has p.sr1 Sr1.add10 || has p.sr1 Sr1.stopf || has p.sr1 Sr1.btf ||
      (has p.cr2 Cr2.itbufen && (has p.sr1 Sr1.txe || has p.sr1 Sr1.rxne)))

/-- The level of the error line (60_exceptions.md R404). -/
def erLine (p : Periph) : Bool :=
  has p.cr2 Cr2.iterren &&
    (has p.sr1 Sr1.berr || has p.sr1 Sr1.arlo || has p.sr1 Sr1.af || has p.sr1 Sr1.ovr || has p.sr1 Sr1.pecerr ||
      has p.sr1 Sr1.timeout || has p.sr1 Sr1.smbalert)

/-- `elapsed(now, start)`, the overflow-safe difference (00_scope.md R12). -/
def elapsed (now start : Word) : Word := now - start

/-- The timeout test `elapsed >= tmo`, unsigned (44_hw_blocking.md R280, R281). -/
def expired (now start tmo : Word) : Bool := decide (tmo.toNat ≤ (elapsed now start).toNat)

/-- The transfer is pending: StartSent, AddressPhase or DataPhase (10_state.md R36). -/
def XState.pending : XState → Bool
  | .idle => false
  | .startSent => true
  | .addressPhase => true
  | .dataPhase => true
  | .complete => false

/-- The number of an engine kind (30_encoding.md R107). -/
def kindCode : Kind → Byte
  | .sw => 0
  | .hw => 1

/-- The number of a transfer state (10_state.md R33, 30_encoding.md R107). -/
def XState.code : XState → Byte
  | .idle => 0
  | .startSent => 1
  | .addressPhase => 2
  | .dataPhase => 3
  | .complete => 4

/-- The number of a status (30_encoding.md R106). -/
def Status.code : Status → Byte
  | .ok => 0
  | .notInitialized => 1
  | .invalidParameter => 2
  | .gpioFailure => 3
  | .busy => 4
  | .timeout => 5
  | .nack => 6
  | .arbitrationLost => 7
  | .busError => 8

end Sys2Proof.Machine
end

