-- ==== Sys2Proof/Machine/Operands.lean ====
section
/-! DEFINITION. The operand forms: address validity and the address encoder (41_address_encoder.md R180 to R190), the
parameter checks of a command (42_transactions.md R200 step 4), the register values INIT writes (46_instance.md R361), and
what a program of an OPEN parameter reads and writes (00_scope.md R8). -/

namespace Sys2Proof.Machine

/-- `AddrValid(am, a)` (41_address_encoder.md R180). -/
def addrValid (am : AddrMode) (a : BitVec 10) : Bool :=
  match am with
  | .seven => decide (a.toNat ≤ 0x7F)
  | .ten => true

/-- `enc7(a, rw) = {a[6:0], rw}` (41_address_encoder.md R181, R182). -/
def enc7 (a : BitVec 10) (rw : Dir) : Byte := (a.extractLsb' 0 7 ++ BitVec.ofBool rw.bit : BitVec 8)

/-- `hdr10(a, rw) = {0b11110, a[9:8], rw}` (41_address_encoder.md R183). -/
def hdr10 (a : BitVec 10) (rw : Dir) : Byte := (0b11110#5 ++ a.extractLsb' 8 2 ++ BitVec.ofBool rw.bit : BitVec 8)

/-- `lo10(a) = a[7:0]` (41_address_encoder.md R184). -/
def lo10 (a : BitVec 10) : Byte := a.extractLsb' 0 8

/-- The 7-bit address `xfer.addr` of an asynchronous transfer as an address operand (10_state.md R32). -/
def xferAddr (a : Half) : BitVec 10 := a.extractLsb' 0 10

/-- `ScanRange`, 0x08 to 0x77 ascending (41_address_encoder.md R190). -/
def scanRange : List (BitVec 10) := (List.range 112).map fun k => BitVec.ofNat 10 (0x08 + k)

/-- The address a scan records (42_transactions.md R211). -/
def scanByte (a : BitVec 10) : Byte := a.extractLsb' 0 8

/-- The parameter checks of 42_transactions.md R200 step 4 and R403 (4): a null buffer, a zero length, an address out
of range, an asynchronous transfer with a 10-bit address. `none` stands for an operand the command does not use. -/
def paramsOk (buf : Option Word) (len : Option Half) (addr : Option (AddrMode × BitVec 10)) (async : Bool) : Bool :=
  !(buf == some 0#32) && !(len == some 0#16) &&
    match addr with
    | none => true
    | some (am, a) => addrValid am a && !(async && am == .ten)

/-- The OAR1 value INIT writes: bit 14 is 1 and ADD[7:1] is the own address (10_state.md R43, 46_instance.md R361). -/
def oar1Value (c : InstConfig) : Half := (0b01#2 ++ 0#6 ++ c.ownAddress.extractLsb' 0 7 ++ 0#1 : BitVec 16)

/-- `S.FREQ` as a CR2 value (10_state.md R42). -/
def cr2Value (r : SpeedRegs) : Half := r.freq.setWidth 16

/-- `S.CCR`, reserved bits 13:12 zero (10_state.md R48). -/
def ccrValue (r : SpeedRegs) : Half :=
  (BitVec.ofBool r.fast ++ BitVec.ofBool r.duty ++ 0#2 ++ r.ccr : BitVec 16)

/-- `S.TRISE`, reserved bits zero (10_state.md R49). -/
def triseValue (r : SpeedRegs) : Half := r.trise.setWidth 16

/-- The parameters of instance `i` (00_scope.md R8); an instance without an entry has an invalid configuration. -/
def instParams (p : Params) (i : Nat) : InstParams :=
  p.insts.getD i ⟨false, ⟨0, false, false, 0, 0⟩, 0, Policy.refuse, Policy.refuse⟩

/-- Two configurations name the same pin, or the same peripheral for two HW instances (60_exceptions.md R414). -/
def sharesHardware (c d : InstConfig) : Bool :=
  let pins := fun (e : InstConfig) => [(e.sclPort, e.sclPin), (e.sdaPort, e.sdaPin)]
  (pins c).any (fun p => (pins d).contains p) || (c.kind == .hw && d.kind == .hw && c.periph == d.periph)

/-- The bits of a register that are not reserved: a write of a reserved bit stores 0 (10_state.md R40 to R49). -/
def writableBits : Reg → Half
  | .cr1 => 0xBFFB#16
  | .cr2 => 0x1F3F#16
  | .oar1 => 0xC3FF#16
  | .oar2 => 0x00FF#16
  | .dr => 0x00FF#16
  | .sr1 => 0xFFFF#16
  | .sr2 => 0#16
  | .ccr => 0xCFFF#16
  | .trise => 0x003F#16

/-- A parameter's program may write the field: SWRST only HW_SOFTWARE_RESET (10_state.md R50, 43_hw_peripheral.md R264). -/
def fieldOpen (p : OpenParam) : CsrField → Bool
  | .swrst _ => p == .hwSoftwareReset
  | _ => true

/-- The bits of `m`, or none. -/
def bitsIf (m : Half) (v : Bool) : Half := if v then m else 0#16

/-- A flag as a word. -/
def flagWord (b : Bool) : Word := if b then 1 else 0

/-- A field of a row as a word, by its code (10_state.md R24, R32, R33, 30_encoding.md R106, R107). -/
def rowWord (f : RowField) (r : Inst) : Word :=
  match f with
  | .initialized => flagWord r.initialized
  | .transferMode => flagWord r.transferMode.bit
  | .callback => r.callback
  | .userData => r.userData
  | .lastError => r.lastError.code.setWidth 32
  | .nvicEn => flagWord r.nvicEn
  | .xferState => r.xfer.state.code.setWidth 32
  | .xferBuf => r.xfer.buf
  | .xferLen => r.xfer.len.setWidth 32
  | .xferIdx => r.xfer.idx.setWidth 32
  | .xferAddr => r.xfer.addr.setWidth 32
  | .xferDir => flagWord r.xfer.dir.bit
  | .xferStatus => r.xfer.lastStatus.code.setWidth 32

/-- A variable of a parameter's program written. -/
def setVar : Nat → Word → List Word → List Word
  | 0, v, [] => [v]
  | 0, v, _ :: xs => v :: xs
  | k + 1, v, [] => 0 :: setVar k v []
  | k + 1, v, x :: xs => x :: setVar k v xs

/-- The word an expression of a parameter's program stands for; a shift by 32 or more gives 0. -/
def evalExpr (vars : List Word) (r : Inst) : PolicyExpr → Word
  | .const v => v
  | .var k => vars.getD k 0
  | .row f => rowWord f r
  | .add a b => evalExpr vars r a + evalExpr vars r b
  | .sub a b => evalExpr vars r a - evalExpr vars r b
  | .and a b => evalExpr vars r a &&& evalExpr vars r b
  | .or a b => evalExpr vars r a ||| evalExpr vars r b
  | .xor a b => evalExpr vars r a ^^^ evalExpr vars r b
  | .shl a b => evalExpr vars r a <<< (evalExpr vars r b).toNat
  | .shr a b => evalExpr vars r a >>> (evalExpr vars r b).toNat

/-- What a test of a parameter's program answers, `ev` giving the words. -/
def testHolds (ev : PolicyExpr → Word) : PolicyTest → Bool
  | .eq a b => ev a == ev b
  | .less a b => decide ((ev a).toNat < (ev b).toNat)

/-- The bits of CR2's fields where they are named (10_state.md R42). -/
def cr2Named (freq iterren itevten itbufen : Bool) : Half :=
  bitsIf Cr2.freq freq ||| bitsIf Cr2.iterren iterren ||| bitsIf Cr2.itevten itevten ||| bitsIf Cr2.itbufen itbufen

/-- The FREQ bits of a CR2 write (10_state.md R42). -/
def freqBits (ev : PolicyExpr → Word) : Option PolicyExpr → Half
  | none => 0#16
  | some v => ((ev v).setWidth 6).setWidth 16

/-- The register, the mask and the value of a field's write, `ev` giving the words (10_state.md R41 to R50). -/
def fieldAccess (ev : PolicyExpr → Word) : CsrField → Reg × Half × Half
  | .pe v => (.cr1, Cr1.pe, bitsIf Cr1.pe v)
  | .start => (.cr1, Cr1.start, Cr1.start)
  | .stop => (.cr1, Cr1.stop, Cr1.stop)
  | .ack v => (.cr1, Cr1.ack, bitsIf Cr1.ack v)
  | .swrst v => (.cr1, Cr1.swrst, bitsIf Cr1.swrst v)
  | .cr2 f er et bu => (.cr2, cr2Named f.isSome er.isSome et.isSome bu.isSome,
      freqBits ev f ||| cr2Named false (er.getD false) (et.getD false) (bu.getD false))
  | .oar1 ten a => (.oar1, 0xFFFF#16, (BitVec.ofBool ten ++ 1#1 ++ 0#4 ++ (ev a).setWidth 10 : BitVec 16))
  | .dr b => (.dr, 0x00FF#16, ((ev b).setWidth 8).setWidth 16)
  | .ccr fast duty v => (.ccr, 0xFFFF#16, (BitVec.ofBool fast ++ BitVec.ofBool duty ++ 0#2 ++ (ev v).setWidth 12 : BitVec 16))
  | .trise v => (.trise, 0xFFFF#16, ((ev v).setWidth 6).setWidth 16)
  | .clear berr arlo af =>
    (.sr1, 0xFFFF#16, ~~~(bitsIf Sr1.berr berr ||| bitsIf Sr1.arlo arlo ||| bitsIf Sr1.af af))

/-- A row with another transfer state. That of an SW instance stays at its reset value (10_state.md R37). -/
def withXfer (r : Inst) (x : Xfer) : Inst := if r.config.kind = .hw then { r with xfer := x } else r

/-- A row after a change, `ev` giving the words. -/
def rowAct (ev : PolicyExpr → Word) (a : RowAct) (r : Inst) : Inst :=
  match a with
  | .initialized v => { r with initialized := v }
  | .transferMode m => { r with transferMode := m }
  | .callback cb => { r with callback := ev cb }
  | .userData ud => { r with userData := ev ud }
  | .lastError st => { r with lastError := st }
  | .nvicEn v => { r with nvicEn := v }
  | .xferState x => withXfer r { r.xfer with state := x }
  | .xferBuf e => withXfer r { r.xfer with buf := ev e }
  | .xferLen e => withXfer r { r.xfer with len := (ev e).setWidth 16 }
  | .xferIdx e => withXfer r { r.xfer with idx := (ev e).setWidth 16 }
  | .xferAddr e => withXfer r { r.xfer with addr := (ev e).setWidth 16 }
  | .xferDir d => withXfer r { r.xfer with dir := d }
  | .xferStatus st => withXfer r { r.xfer with lastStatus := st }
  | .reset => { Inst.reset r.config with opActive := r.opActive }

/-- The port and the pin of a line (10_state.md R30). -/
def pinOf (c : InstConfig) : Line → Nat × Nat
  | .scl => (c.sclPort, c.sclPin)
  | .sda => (c.sdaPort, c.sdaPin)

/-- The offset of a register from CSR_BASE (10_state.md R41 to R49). -/
def regOffset : Reg → Nat
  | .cr1 => 0x00
  | .cr2 => 0x04
  | .oar1 => 0x08
  | .oar2 => 0x0C
  | .dr => 0x10
  | .sr1 => 0x14
  | .sr2 => 0x18
  | .ccr => 0x1C
  | .trise => 0x20

/-- The address of a register of instance `i` (20_memory.md R84, 10_state.md R40). -/
def csrAddress (p : Params) (i : Nat) (r : Reg) : Nat := (instParams p i).csrBase + regOffset r

end Sys2Proof.Machine
end

