-- ==== Sys2Proof/Machine/Ops.lean ====
section
/-! DEFINITION. The named operations on the state: rows, peripherals, host buffers, draws, pins, the clock, the CSR
accesses with their side effects (43_hw_peripheral.md R256, R264), entering and leaving a command (46_instance.md R368,
R369), and taking an interrupt (60_exceptions.md R405 to R408). -/

namespace Sys2Proof.Machine

/-- What a move of any agent answers. -/
abbrev Out := Host.Outcome State Fault Refusal

/-- The next state of `o` goes on to `k`; a stop stays a stop. -/
def andThen (o : Out) (k : State → Out) : Out :=
  match o with
  | .next s => k s
  | .fault f => .fault f
  | .refused r => .refused r

/-! ## Rows and peripherals -/

/-- `N_INST` (00_scope.md R8). -/
def nInst (s : State) : Nat := s.inst.length

/-- `inst[i]`. -/
def row (s : State) (i : Nat) : Inst :=
  s.inst.getD i (Inst.reset ⟨.sw, 0, 0, 0, 0, 0, 0, 0, 0⟩)

/-- `inst[i] <- r`; nothing for an index outside the table (46_instance.md R370). -/
def setRow (s : State) (i : Nat) (r : Inst) : State := { s with inst := s.inst.set i r }

/-- `P[i]`. -/
def dev (s : State) (i : Nat) : Periph := s.peri.getD i Periph.reset

/-- `P[i] <- p`. -/
def setDev (s : State) (i : Nat) (p : Periph) : State := { s with peri := s.peri.set i p }

/-- `Emit(e)` (00_scope.md R11, R13). -/
def emit (e : Event) (s : State) : State := { s with trace := e :: s.trace }

/-- Instance `i` is pending (10_state.md R36). -/
def pending (s : State) (i : Nat) : Bool := (row s i).xfer.state.pending

/-! ## Host buffers (20_memory.md R81, R89) -/

/-- The place of byte `k` of a buffer in `State.mem`. DESIGN CHOICE (log entry 7): 20_memory.md R81 bounds no size, and no
access has an index of 2^32 or more, so no two buffers share a place that an access reaches. -/
def cellAddr (buf : Word) (k : Nat) : Nat := buf.toNat * 4294967296 + k

/-- `size(buf)`: the declared size, with no bound; a handle nobody declared, and the null handle, have none (log entry 7). -/
def bufSize (s : State) (buf : Word) : Nat :=
  if buf = 0 then 0
  else match s.bufs.find? (fun d => d.1 == buf) with
    | some d => d.2
    | none => 0

/-- What an unlisted address holds: no recorded byte. The host's own byte is there, a free value (log entry 6). -/
def unlisted : Option Byte := none

/-- The byte recorded at an address. -/
def memGet : List Host.Cell → Nat → Option Byte
  | [], _ => unlisted
  | (b, v) :: m, a => if a = b then some v else memGet m a

/-- The byte an access reads: the recorded one, else the host's. -/
def memByte (m : List Host.Cell) (a : Nat) : Byte := (memGet m a).getD (Config.hostByte a)

/-- A byte written, the canonical form kept. -/
def memPut : List Host.Cell → Nat → Byte → List Host.Cell
  | [], a, v => [(a, v)]
  | (b, w) :: m, a, v => if a < b then (a, v) :: (b, w) :: m else if a = b then (a, v) :: m else (b, w) :: memPut m a v

/-- The canonical form: addresses strictly rising. No entry can equal what an unlisted address holds, since that is no
recorded byte. -/
def Memory.wf : List Host.Cell → Bool
  | [] => true
  | [_] => true
  | (a, _) :: (b, v) :: m => decide (a < b) && Memory.wf ((b, v) :: m)

/-- `MemRead(buf, k)` (20_memory.md R81). That a pending transfer borrows the buffer does not matter here: 20_memory.md R99
faults the host's own access alone (DESIGN CHOICE, log entry 28). -/
def memRead (site : Site) (buf : Word) (k : Nat) (s : State) : Except Fault Byte :=
  if k < bufSize s buf then .ok (memByte s.mem (cellAddr buf k)) else .error (.bufferBounds site)

/-- `MemWrite(buf, k, v)` (20_memory.md R81); of a borrowed buffer as `memRead` (DESIGN CHOICE, log entry 28). -/
def memWrite (site : Site) (buf : Word) (k : Nat) (v : Byte) (s : State) : Except Fault State :=
  if k < bufSize s buf then .ok { s with mem := memPut s.mem (cellAddr buf k) v } else .error (.bufferBounds site)

/-- The buffer a command names, and how many bytes of it the command uses at most (42_transactions.md R205 to R211). -/
def bufferOf : Instr → Option (Word × Nat)
  | .masterTransmit _ _ _ buf len _ => some (buf, len.toNat)
  | .masterReceive _ _ _ buf len _ => some (buf, len.toNat)
  | .masterReadReg _ _ _ _ out _ => some (out, 1)
  | .masterWriteRegs _ _ _ _ buf len _ => some (buf, len.toNat)
  | .masterReadRegs _ _ _ _ buf len _ => some (buf, len.toNat)
  | .scanBus _ buf max => some (buf, max.toNat)
  | .init _ => none
  | .deinit _ => none
  | .setTransferMode _ _ => none
  | .setCallback _ _ _ => none
  | .isInitialized _ => none
  | .isBusBusy _ => none
  | .getConfig _ => none
  | .softwareReset _ => none
  | .getXferStatus _ => none
  | .encodeAddress _ _ _ => none
  | .masterWriteReg _ _ _ _ _ _ => none
  | .blStart _ => none
  | .blStop _ => none
  | .blRestart _ => none
  | .blSendByte _ _ => none
  | .blReceiveByte _ _ => none
  | .evIrq _ => none
  | .erIrq _ => none

/-- The buffer a command borrows for its duration, with its instance (20_memory.md R99, 70_reset_and_hazards.md R470). -/
def lentBy (cmd : Instr) : Option (Nat × Word) :=
  match cmd.index, bufferOf cmd with
  | some i, some b => some (i, b.1)
  | _, _ => none

/-- The buffer that the command in progress borrows. -/
def seqLent (s : State) : Option (Nat × Word) := s.seq.bind fun q => lentBy q.cmd

/-- The instance that borrows a buffer: the first whose pending transfer holds it, else the one whose command is being
executed with it (`lent`) (20_memory.md R99). -/
def borrower (lent : Option (Nat × Word)) (s : State) (buf : Word) : Option Nat :=
  match (List.range (nInst s)).find? fun j => pending s j && (row s j).xfer.buf == buf with
  | some j => some j
  | none =>
    match lent with
    | some (j, b) => if b = buf then some j else none
    | none => none

/-! ## Draws, pins and the clock -/

/-- The peers' drive at a sample: the script's next value, else a free value (40_bit_level.md R141). -/
def drawSample (s : State) : Bool × State :=
  match s.env.samples with
  | b :: bs => (b, { s with env := { s.env with samples := bs } })
  | [] => (Config.freeSample s.env.drawn, { s with env := { s.env with drawn := s.env.drawn + 1 } })

/-- The result of a `configurePin`: the script's next value, else a free value (20_memory.md R91). -/
def drawPinResult (s : State) : Bool × State :=
  match s.env.pinResults with
  | b :: bs => (b, { s with env := { s.env with pinResults := bs } })
  | [] => (Config.freePinResult s.env.drawn, { s with env := { s.env with drawn := s.env.drawn + 1 } })

/-- The block's drive of a line (10_state.md R38). -/
def drive (r : Inst) : Line → Bool
  | .scl => r.drvSCL
  | .sda => r.drvSDA

/-- A row with the drive of one line changed. -/
def setDrive (r : Inst) : Line → Bool → Inst
  | .scl, v => { r with drvSCL := v }
  | .sda, v => { r with drvSDA := v }

/-- `SCL(v)` and `SDA(v)` (40_bit_level.md R140, 10_state.md R38). -/
def writeLine (i : Nat) (l : Line) (v : Bool) (s : State) : State :=
  emit (.pin i l v) (setRow s i (setDrive (row s i) l v))

/-- `RD_SDA()` and `RD_SCL()`: the level is the block's drive AND the peers' drive (40_bit_level.md R141). -/
def readLine (i : Nat) (l : Line) (s : State) : Bool × State :=
  let d := drawSample s
  let level := drive (row s i) l && d.1
  (level, emit (.sample i l level) d.2)

/-- `D()` (40_bit_level.md R140, 10_state.md R56). -/
def delay (i : Nat) (s : State) : State := emit (.delay i (row s i).config.bitDelayUs) s

/-- `Now()` (10_state.md R55). -/
def now (s : State) : Word × State := (s.ticks, { s with lastNow := s.ticks })

/-- A step of the clock collaborator, taken when the next reading stays within 2^31 of the last one (10_state.md R55,
R57). -/
def advanceClock (d : Word) (s : State) : State :=
  if (elapsed s.ticks s.lastNow).toNat + d.toNat < 2 ^ 31 then { s with ticks := s.ticks + d } else s

/-- `enablePinClock(port)` (20_memory.md R85). -/
def enablePinClock (port : Nat) (s : State) : State := { s with pinLog := .enableClock port :: s.pinLog }

/-- `configurePin(port, pin, mode, PIN_SPEED)` (20_memory.md R91). -/
def configurePin (port pin : Nat) (mode : PinMode) (s : State) : Bool × State :=
  let d := drawPinResult s
  (d.1, { d.2 with pinLog := .configure port pin mode s.par.pinSpeed d.1 :: d.2.pinLog })

/-! ## CSR accesses -/

/-- Bits of SR1 cleared. -/
def clearSr1 (m : Half) (p : Periph) : Periph := { p with sr1 := clearBits p.sr1 m }

/-- A bus symbol shown. -/
def show_ (b : BusSym) (p : Periph) : Periph := { p with wire := b :: p.wire }

/-- What follows when ADDR goes from 1 to 0 (43_hw_peripheral.md R255). -/
def leaveAddrDone (p : Periph) : Periph :=
  if p.arw then { p with ph := .rx } else { p with sr1 := setBits p.sr1 Sr1.txe, ph := .tx }

/-- The side effect of reading SR1 (43_hw_peripheral.md R256). -/
def periphReadSR1 (p : Periph) : Periph := { p with snap := p.sr1 }

/-- The side effect of reading SR2 (43_hw_peripheral.md R256, R255). That `snap <- 0` is done whether or not ADDR is cleared
is a DESIGN CHOICE, unsafe (log entry 33). -/
def periphReadSR2 (p : Periph) : Periph :=
  let q := if has p.snap Sr1.addr && has p.sr1 Sr1.addr then leaveAddrDone (clearSr1 Sr1.addr p) else p
  { q with snap := 0 }

/-- The flags an access of DR clears through `snap` (43_hw_peripheral.md R256). -/
def clearIfSeen (m : Half) (p : Periph) : Periph := if has p.snap m then clearSr1 m p else p

/-- The side effect of reading DR (43_hw_peripheral.md R256). That `snap <- 0` is done whether or not BTF is cleared is a
DESIGN CHOICE, unsafe (log entry 33). -/
def periphReadDR (p : Periph) : Periph := { clearIfSeen Sr1.btf (clearSr1 Sr1.rxne p) with snap := 0 }

/-- A DR write in a phase that sends the byte makes it wait to be sent (43_hw_peripheral.md R256). -/
def takeByte (p : Periph) : Periph :=
  if has p.sr2 Sr2.msl then
    match p.ph with
    | .start => { p with pendDR := true }
    | .hdr10 => { p with pendDR := true }
    | .tx => { clearSr1 Sr1.txe p with pendDR := true }
    | .idle => p
    | .addrDone => p
    | .rx => p
    | .rxEnd => p
    | .held => p
  else p

/-- A write of DR (43_hw_peripheral.md R256). -/
def periphWriteDR (v : Byte) (p : Periph) : Periph :=
  let q := clearIfSeen Sr1.btf (clearIfSeen Sr1.add10 (clearIfSeen Sr1.sb p))
  takeByte { q with dr := v.setWidth 16, snap := 0 }

/-- Disabling the peripheral, `PE <- 0` while PE = 1; a master releases its bus without a STOP (43_hw_peripheral.md R264). -/
def disablePeriph (p : Periph) (cr1 : Half) : Periph :=
  { p with
    cr1 := clearBits cr1 (Cr1.pe ||| Cr1.start ||| Cr1.stop ||| Cr1.ack)
    sr1 := 0
    sr2 := 0
    ph := .idle
    pendDR := false
    snap := 0
    wire := if has p.sr2 Sr2.msl then .release :: p.wire else p.wire }

/-- SWRST: every register and the hidden state at reset (43_hw_peripheral.md R264). That a master's bus then shows a
release is a DESIGN CHOICE, unsafe (log entry 9). -/
def softResetPeriph (p : Periph) : Periph :=
  Periph.resetWith (if has p.sr2 Sr2.msl then .release :: p.wire else p.wire)

/-- The requests software sets and hardware clears (10_state.md R40, R41). -/
def Cr1.requests : Half := Cr1.start ||| Cr1.stop

/-- A write of CR1, `v` being the merged value (43_hw_peripheral.md R264): a request stays up where software writes it 0
(10_state.md R40). -/
def periphWriteCR1 (v : Half) (p : Periph) : Periph :=
  let c := setBits v (p.cr1 &&& Cr1.requests)
  if has c Cr1.swrst then softResetPeriph p
  else if has p.cr1 Cr1.pe then
    if has c Cr1.pe then { p with cr1 := c } else disablePeriph p c
  else if has c Cr1.pe then { p with cr1 := clearBits c Cr1.ack, ph := .idle }
  else { p with cr1 := clearBits c Cr1.ack }

/-- A write of SR1: each of BERR, ARLO and AF whose written bit is 0 is cleared (43_hw_peripheral.md R256). -/
def periphWriteSR1 (v : Half) (p : Periph) : Periph := clearSr1 (~~~v &&& Sr1.errors) p

/-- A register after a write of the bits `mask`: the reserved ones stay 0 (10_state.md R40). -/
def written (r : Reg) (old mask v : Half) : Half := merge old mask (v &&& writableBits r)

/-- The effect of a controller write of the bits `mask` of a register on the peripheral (43_hw_peripheral.md R256, R264). -/
def periphWrite (r : Reg) (mask v : Half) (p : Periph) : Periph :=
  match r with
  | .cr1 => periphWriteCR1 (written .cr1 p.cr1 mask v) p
  | .cr2 => { p with cr2 := written .cr2 p.cr2 mask v }
  | .oar1 => { p with oar1 := written .oar1 p.oar1 mask v }
  | .oar2 => { p with oar2 := written .oar2 p.oar2 mask v }
  | .dr => periphWriteDR (v.setWidth 8) p
  | .sr1 => periphWriteSR1 v p
  | .sr2 => p
  | .ccr => { p with ccr := written .ccr p.ccr mask v }
  | .trise => { p with trise := written .trise p.trise mask v }

/-- `CsrWrite(i, REG.FIELD, v)` (00_scope.md R11). -/
def csrWrite (i : Nat) (r : Reg) (mask v : Half) (s : State) : State :=
  emit (.csrW i r mask v) (setDev s i (periphWrite r mask v (dev s i)))

/-- `CsrRead(i, SR1)`. -/
def readSR1 (i : Nat) (s : State) : Half × State :=
  let p := dev s i
  (p.sr1, emit (.csrR i .sr1 p.sr1) (setDev s i (periphReadSR1 p)))

/-- `CsrRead(i, SR2)`. -/
def readSR2 (i : Nat) (s : State) : Half × State :=
  let p := dev s i
  (p.sr2, emit (.csrR i .sr2 p.sr2) (setDev s i (periphReadSR2 p)))

/-- `CsrRead(i, DR)`: bits 7:0 (43_hw_peripheral.md R256). -/
def readDR (i : Nat) (s : State) : Byte × State :=
  let p := dev s i
  let v : Byte := p.dr.setWidth 8
  (v, emit (.csrR i .dr (v.setWidth 16)) (setDev s i (periphReadDR p)))

/-- The value of a register. -/
def regValue (r : Reg) (p : Periph) : Half :=
  match r with
  | .cr1 => p.cr1
  | .cr2 => p.cr2
  | .oar1 => p.oar1
  | .oar2 => p.oar2
  | .dr => p.dr
  | .sr1 => p.sr1
  | .sr2 => p.sr2
  | .ccr => p.ccr
  | .trise => p.trise

/-- `CsrRead(i, REG)` of any register: reads of SR1, SR2 and DR have side effects (43_hw_peripheral.md R256). -/
def readReg (i : Nat) (r : Reg) (s : State) : Half × State :=
  let plain := (regValue r (dev s i), emit (.csrR i r (regValue r (dev s i))) s)
  match r with
  | .sr1 => readSR1 i s
  | .sr2 => readSR2 i s
  | .dr => ((readDR i s).1.setWidth 16, (readDR i s).2)
  | .cr1 => plain
  | .cr2 => plain
  | .oar1 => plain
  | .oar2 => plain
  | .ccr => plain
  | .trise => plain

/-- `DR <- b`. -/
def writeDR (i : Nat) (b : Byte) (s : State) : State := csrWrite i .dr 0x00FF#16 (b.setWidth 16) s

/-- A CR1 request or a bit set: `CR1.F <- 1`. -/
def setCr1 (i : Nat) (f : Half) (s : State) : State := csrWrite i .cr1 f f s

/-- `write SR1 <- ~e & 0xFFFF` (43_hw_peripheral.md R256). -/
def clearErrors (i : Nat) (e : Half) (s : State) : State := csrWrite i .sr1 0xFFFF#16 (~~~e) s

/-! ## Entering and leaving a command -/

/-- The command being executed: its instance, itself, its words as issued, and whether it runs inside a handler's atomic
step (45_hw_interrupt.md R335). -/
structure Ctx where
  inst   : Nat
  cmd    : Instr
  words  : Words
  atomic : Bool

/-- The place a fault of this command records (60_exceptions.md R401). -/
def siteOf (c : Ctx) (rule : Nat) : Site := ⟨some c.words, c.inst, rule⟩

/-- The commands that write their status to `lastError` (46_instance.md R368). -/
def recordsError : Instr → Bool
  | .init _ => true
  | .softwareReset _ => true
  | .masterTransmit _ _ _ _ _ _ => true
  | .masterReceive _ _ _ _ _ _ => true
  | .masterWriteReg _ _ _ _ _ _ => true
  | .masterReadReg _ _ _ _ _ _ => true
  | .masterWriteRegs _ _ _ _ _ _ _ => true
  | .masterReadRegs _ _ _ _ _ _ _ => true
  | .scanBus _ _ _ => true
  | .blStart _ => true
  | .blStop _ => true
  | .blRestart _ => true
  | .blSendByte _ _ => true
  | .blReceiveByte _ _ => true
  | .deinit _ => false
  | .setTransferMode _ _ => false
  | .setCallback _ _ _ => false
  | .isInitialized _ => false
  | .isBusBusy _ => false
  | .getConfig _ => false
  | .getXferStatus _ => false
  | .encodeAddress _ _ _ => false
  | .evIrq _ => false
  | .erIrq _ => false

/-- `Resp(cmd, response)` (00_scope.md R13, R14). -/
def respond (cmd : Instr) (r : Response) (s : State) : State := emit (.resp cmd r) s

/-- A command's return: `lastError`, `opActive <- false` and the response, in one step (46_instance.md R368, R369). -/
def finish (c : Ctx) (st : Status) (r : Response) (s : State) : State :=
  let q := row s c.inst
  let e := if recordsError c.cmd then st else q.lastError
  respond c.cmd { r with status := st } (setRow s c.inst { q with lastError := e, opActive := false })

/-- The index check, the re-entry check and the claim of the instance (42_transactions.md R200 steps 1 and 2,
46_instance.md R369, R370). -/
def claimed (c : Ctx) (s : State) (k : State → Out) : Out :=
  if c.inst < nInst s then
    if (row s c.inst).opActive then .fault (.reentrant (siteOf c 369))
    else k (setRow s c.inst { row s c.inst with opActive := true })
  else .next (respond c.cmd { status := .invalidParameter } s)

/-- `INIT` accepts the configuration of row `i`: `configValid(CONFIG[i])`, and no other row names its pins or its
peripheral (46_instance.md R360, 60_exceptions.md R414; DEDUCED, log entry 29). -/
def configAccepted (s : State) (i : Nat) : Bool :=
  (instParams s.par i).configValid &&
    (List.range (nInst s)).all fun j => j == i || !sharesHardware (row s i).config (row s j).config

/-- `claimed`, then the initialized check (42_transactions.md R200 step 3). -/
def claimedInit (c : Ctx) (s : State) (k : State → Out) : Out :=
  claimed c s fun s => if (row s c.inst).initialized then k s else .next (finish c .notInitialized {} s)

/-! ## Taking an interrupt -/

/-- The handlers of instance `i` whose line is taken, the error handler first: the level is 1 and `nvicEn` is 1
(60_exceptions.md R404, R405, 45_hw_interrupt.md R333). SW instances have no lines. -/
def takenAt (s : State) (i : Nat) : Option Instr :=
  let r := row s i
  if r.config.kind = .hw ∧ r.nvicEn = true then
    if erLine (dev s i) then some (.erIrq i) else if evLine (dev s i) then some (.evIrq i) else none
  else none

/-- Taking an interrupt: which handler is entered. The lower index goes first (45_hw_interrupt.md R333). Entry saves
nothing and return restores nothing: the position of the interrupted command is kept (60_exceptions.md R407, R408). -/
def takeInterrupt (s : State) : Option Instr := (List.range (nInst s)).findSome? (takenAt s)

end Sys2Proof.Machine
end

