-- ==== Sys2Proof/Machine/Peripheral.lean ====
section
/-! DEFINITION. The steps of the peripheral P[i], an environment agent (43_hw_peripheral.md R252 to R263). -/

namespace Sys2Proof.Machine

/-- `CR1.F = 1`. -/
def cr1Is (p : Periph) (m : Half) : Bool := has p.cr1 m

/-- The flags START_GEN, STOP_GEN and `lose()` clear: SB, ADDR, ADD10, BTF, TxE (43_hw_peripheral.md R252, R259, R262). -/
def progressFlags : Half := Sr1.sb ||| Sr1.addr ||| Sr1.add10 ||| Sr1.btf ||| Sr1.txe

/-- START_GEN is enabled: case (a), a START on a free bus, or case (b), a repeated START (43_hw_peripheral.md R252). -/
def startEnabled (p : Periph) : Bool :=
  cr1Is p Cr1.start &&
    if has p.sr2 Sr2.msl then
      !cr1Is p Cr1.stop &&
        match p.ph with
        | .tx => !p.pendDR
        | .held => true
        | .rxEnd => true
        | .idle => false
        | .start => false
        | .hdr10 => false
        | .addrDone => false
        | .rx => false
    else p.ph == .idle && !has p.sr2 Sr2.busy

/-- START_GEN (43_hw_peripheral.md R252). -/
def startGen (p : Periph) : Periph :=
  { p with
    wire := (if has p.sr2 Sr2.msl then .restart else .start) :: p.wire
    sr1 := setBits (clearBits p.sr1 (progressFlags ||| Sr1.rxne)) Sr1.sb
    sr2 := clearBits (setBits p.sr2 (Sr2.msl ||| Sr2.busy)) Sr2.tra
    cr1 := clearBits p.cr1 Cr1.start
    pendDR := false
    ph := .start }

/-- `lose()` after ARLO was set: BUSY stays (43_hw_peripheral.md R262). -/
def loseBus (p : Periph) : Periph :=
  { p with
    sr1 := setBits (clearBits p.sr1 progressFlags) Sr1.arlo
    sr2 := clearBits p.sr2 (Sr2.msl ||| Sr2.tra)
    pendDR := false
    ph := .idle }

/-- A byte that was NACKed: AF, and the bus is held (43_hw_peripheral.md R253, R254, R257). -/
def nackByte (p : Periph) : Periph := show_ .nack { p with sr1 := setBits p.sr1 Sr1.af, ph := .held }

/-- The byte in DR. -/
def drByte (p : Periph) : Byte := p.dr.setWidth 8

/-- The byte in DR goes on the bus (43_hw_peripheral.md R253, R254, R257). -/
def sendDR (p : Periph) : Periph := show_ (.sent (drByte p)) { p with pendDR := false }

/-- A byte that is a 10-bit write header: bits 7:3 are 0b11110 and bit 0 is 0 (43_hw_peripheral.md R253). -/
def isWriteHeader (b : Byte) : Bool := b.extractLsb' 3 5 == 0b11110#5 && !b.getLsbD 0

/-- The address phase was ACKed: ADDR, with the direction from `rd` (43_hw_peripheral.md R253, R254). -/
def addrAcked (rd : Bool) (p : Periph) : Periph :=
  { p with
    sr1 := setBits p.sr1 Sr1.addr
    sr2 := if rd then clearBits p.sr2 Sr2.tra else setBits p.sr2 Sr2.tra
    arw := rd
    ph := .addrDone }

/-- The outcome of the address byte `b` (43_hw_peripheral.md R253). -/
def addrOutcome (b : Byte) (r : Outcome3) (p : Periph) : Periph :=
  match r with
  | .lost => loseBus p
  | .nack => nackByte p
  | .ack =>
    if isWriteHeader b then show_ .ack { p with sr1 := setBits p.sr1 Sr1.add10, arw := false, ph := .hdr10 }
    else show_ .ack (addrAcked (b.getLsbD 0) p)

/-- The outcome of the second byte of a 10-bit address (43_hw_peripheral.md R254). -/
def loOutcome (r : Outcome3) (p : Periph) : Periph :=
  match r with
  | .lost => loseBus p
  | .nack => nackByte p
  | .ack => show_ .ack (addrAcked false p)

/-- The outcome of a data byte sent (43_hw_peripheral.md R257). -/
def txOutcome (r : Outcome3) (p : Periph) : Periph :=
  match r with
  | .lost => loseBus p
  | .nack => nackByte p
  | .ack => show_ .ack { p with sr1 := setBits p.sr1 (Sr1.txe ||| Sr1.btf) }

/-- RX_BYTE: the byte `v` arrives and is ACKed as CR1.ACK says now (43_hw_peripheral.md R258). -/
def rxByte (v : Byte) (p : Periph) : Periph :=
  let a := cr1Is p Cr1.ack
  let q := show_ (if a then .ack else .nack) (show_ (.received v) p)
  { q with
    dr := v.setWidth 16
    sr1 := setBits q.sr1 Sr1.rxne
    ph := if !a || cr1Is p Cr1.stop then .rxEnd else .rx }

/-- The phases in which STOP_GEN is enabled (43_hw_peripheral.md R259). -/
def stopPhase (p : Periph) : Bool :=
  match p.ph with
  | .start => !p.pendDR
  | .hdr10 => !p.pendDR
  | .addrDone => true
  | .tx => !p.pendDR
  | .held => true
  | .rxEnd => true
  | .rx => has p.sr1 Sr1.rxne
  | .idle => false

/-- STOP_GEN (43_hw_peripheral.md R259). -/
def stopGen (p : Periph) : Periph :=
  show_ .stop
    { p with
      sr1 := clearBits p.sr1 progressFlags
      sr2 := clearBits p.sr2 (Sr2.msl ||| Sr2.busy ||| Sr2.tra)
      cr1 := clearBits p.cr1 Cr1.stop
      pendDR := false
      ph := .idle }

/-- A step of the peripheral is enabled: CR1.PE is 1 and the step's own condition holds (43_hw_peripheral.md, section 2). -/
def stepEnabled (st : PeriphStep) (p : Periph) : Bool :=
  cr1Is p Cr1.pe &&
    match st with
    | .startGen => startEnabled p
    | .addrSend _ => p.ph == .start && !has p.sr1 Sr1.sb && p.pendDR
    | .loSend _ => p.ph == .hdr10 && !has p.sr1 Sr1.add10 && p.pendDR
    | .txByte _ => p.ph == .tx && p.pendDR
    | .rxByte _ => p.ph == .rx && !has p.sr1 Sr1.rxne
    | .stopGen => cr1Is p Cr1.stop && has p.sr2 Sr2.msl && stopPhase p
    | .stopCancel => cr1Is p Cr1.stop && !has p.sr2 Sr2.msl
    | .extBusy _ => !has p.sr2 Sr2.msl
    | .berr => true

/-- The effect of a step (43_hw_peripheral.md R252 to R263). -/
def stepEffect (st : PeriphStep) (p : Periph) : Periph :=
  match st with
  | .startGen => startGen p
  | .addrSend r => addrOutcome (drByte p) r (sendDR p)
  | .loSend r => loOutcome r (sendDR p)
  | .txByte r => txOutcome r (sendDR p)
  | .rxByte v => rxByte v p
  | .stopGen => stopGen p
  | .stopCancel => { p with cr1 := clearBits p.cr1 (Cr1.stop ||| Cr1.start) }
  | .extBusy d => { p with sr2 := if d then setBits p.sr2 Sr2.busy else clearBits p.sr2 Sr2.busy }
  | .berr => { p with sr1 := setBits p.sr1 Sr1.berr }

/-- A step of P[i], if it is enabled; instance `i` must be an HW instance. -/
def periphStep (i : Nat) (st : PeriphStep) (s : State) : State :=
  if (row s i).config.kind = .hw ∧ stepEnabled st (dev s i) = true then setDev s i (stepEffect st (dev s i)) else s

end Sys2Proof.Machine
end

