-- ==== Sys2Proof/Machine/Sequencer.lean ====
section
/-! DEFINITION. The command sequencer: what one micro-operation does, and running a command's micro-operations
(10_state.md R23, 20_memory.md R94). `y` is the turn of the other agents before a micro-step; inside a handler's
atomic step it does nothing (45_hw_interrupt.md R335). Where an operation makes several micro-steps, or none on some path,
`y0` is the turn before the first and `y` the turn before each later one. -/

namespace Sys2Proof.Machine

/-- What a micro-operation answers: go on, return from the command with a status, wait (the same operation runs again
at the next step), or stop. -/
inductive OpRes where
  | go (scr : Scratch) (s : State)
  | done (st : Status) (scr : Scratch) (s : State)
  | wait (scr : Scratch) (s : State)
  | fault (f : Fault)
  | refused (r : Refusal)

/-- `o`, then `k`. -/
def thenOp (o : Out) (k : State → OpRes) : OpRes :=
  match o with
  | .next s => k s
  | .fault f => .fault f
  | .refused r => .refused r

/-- No other agent has a turn: inside a handler's atomic step (45_hw_interrupt.md R333), and before a command's first
micro-step, which its entry and its claim of the instance are part of (10_state.md R29, 46_instance.md R369). -/
def noTurn (s : State) : Out := .next s

/-- A pin write or a delay on instance `i` (40_bit_level.md R140). -/
def lineOp (i : Nat) : LineOp → State → State
  | .pin l v, s => writeLine i l v s
  | .delay, s => delay i s

/-- A sequence of pin writes and delays, the other agents having their turn before each (20_memory.md R94). -/
def runLines (y : State → Out) (i : Nat) : List LineOp → State → Out
  | [], s => .next s
  | op :: ops, s => andThen (y s) fun s => runLines y i ops (lineOp i op s)

/-- `stop()` (40_bit_level.md R145). -/
def stopLines : List LineOp := [.pin .sda false, .delay, .pin .scl true, .delay, .pin .sda true, .delay]

/-- The u16 successor; `none` where it does not fit (00_scope.md R10, 30_encoding.md R118). -/
def succ16 (n : Half) : Option Half := if n = 0xFFFF#16 then none else some (n + 1)

/-- `MemWrite(BUF, found, a); found <- found + 1` of a scan (42_transactions.md R211). -/
def recordFound (c : Ctx) (buf : Word) (a : Byte) (scr : Scratch) (s : State) : OpRes :=
  match memWrite (siteOf c 81) buf scr.resp.found.toNat a s with
  | .error f => .fault f
  | .ok s =>
    match succ16 scr.resp.found with
    | none => .refused (.arithmetic (siteOf c 10))
    | some n => .go { scr with resp := { scr.resp with found := n } } s

/-- The start of a wait: `t0 <- Now()`, once. Inside a handler a wait is a fault (45_hw_interrupt.md R335). -/
def beginWait (y : State → Out) (c : Ctx) (scr : Scratch) (s : State) (k : Word → State → OpRes) : OpRes :=
  if c.atomic then .fault (.blockingInHandler (siteOf c 335))
  else
    match scr.t0 with
    | some t => k t s
    | none => thenOp (y s) fun s => k (now s).1 (now s).2

/-- The time check that ends a round of a wait: `k` on a timeout, else the wait goes on (44_hw_blocking.md R280, R284). -/
def checkTime (y : State → Out) (t0 tmo : Word) (scr : Scratch) (s : State) (k : State → OpRes) : OpRes :=
  thenOp (y s) fun s =>
    let n := now s
    if expired n.1 t0 tmo then k n.2 else .wait { scr with t0 := some t0 } n.2

/-- One round of `Poll(F, tmo)`: the error flags first, then the flag, then the time (44_hw_blocking.md R280). -/
def pollRound (y0 y : State → Out) (c : Ctx) (f : Flag) (tmo : Word) (scr : Scratch) (s : State)
    (k : PollResult → Scratch → State → OpRes) : OpRes :=
  beginWait y0 c scr s fun t0 s =>
    thenOp (y s) fun s =>
      let r := readSR1 c.inst s
      let e := r.1 &&& Sr1.errors
      let scr1 := { scr with t0 := none }
      if e ≠ 0#16 then k (.err e) scr1 r.2
      else if has r.1 (flagMask f) then k .ok scr1 r.2
      else checkTime y t0 tmo scr r.2 fun s => k .timeout scr1 s

/-- `CR1.STOP <- 1; return st`. -/
def stopAndReturn (y : State → Out) (c : Ctx) (st : Status) (scr : Scratch) (s : State) : OpRes :=
  thenOp (y s) fun s => .done st scr (setCr1 c.inst Cr1.stop s)

/-- What `WaitFlag` does with the result of its `Poll` (44_hw_blocking.md R282). -/
def waitFlagEnd (y : State → Out) (c : Ctx) (p : PollResult) (scr : Scratch) (s : State) : OpRes :=
  match p with
  | .ok => .go scr s
  | .timeout => stopAndReturn y c .timeout scr s
  | .err e =>
    thenOp (y s) fun s =>
      let s := clearErrors c.inst e s
      let st := errorStatus e
      if st = .arbitrationLost then .done st scr s else stopAndReturn y c st scr s

/-- The end of a scan probe by its result (44_hw_blocking.md R295). -/
def probeEnd (y0 y : State → Out) (c : Ctx) (buf : Word) (a : Byte) (scr : Scratch) (s : State) : OpRes :=
  let scr1 := { scr with p := .ok }
  match scr.p with
  | .ok =>
    thenOp (y0 s) fun s => thenOp (y (readSR1 c.inst s).2) fun s => thenOp (y (readSR2 c.inst s).2) fun s =>
      thenOp (y (setCr1 c.inst Cr1.stop s)) fun s => recordFound c buf a scr1 s
  | .timeout => thenOp (y0 s) fun s => .go scr1 (setCr1 c.inst Cr1.stop s)
  | .err e =>
    thenOp (y0 s) fun s =>
      let s := clearErrors c.inst e s
      match errorStatus e with
      | .arbitrationLost => .done .arbitrationLost scr1 s
      | .busError => stopAndReturn y c .busError scr1 s
      | _ => thenOp (y s) fun s => .go scr1 (setCr1 c.inst Cr1.stop s)

/-- The atomic step of an asynchronous start (45_hw_interrupt.md R321, R322). It is the command's first micro-step, so the
claim of the instance (42_transactions.md R200 step 2) is made in the same step (10_state.md R29). -/
def asyncClaim (c : Ctx) (buf : Word) (len : Half) (a : BitVec 10) (d : Dir) (scr : Scratch) (s : State) : OpRes :=
  if pending s c.inst then .done .busy scr s
  else
    let r := readSR2 c.inst s
    if has r.1 Sr2.busy then .done .busy scr r.2
    else
      let q := row r.2 c.inst
      .go scr (setRow r.2 c.inst { q with xfer := { q.xfer with
        state := .startSent, buf := buf, len := len, idx := 0, addr := a.setWidth 16, dir := d } })

/-- What DEINIT does to an initialized HW instance: the lines off, the three CR2 enables cleared, the peripheral disabled
(46_instance.md R362). That the three clears are three accesses is a DESIGN CHOICE (log entry 14). -/
def shutDown (y0 y : State → Out) (c : Ctx) (scr : Scratch) (s : State) : OpRes :=
  let i := c.inst
  thenOp (y0 (setRow s i { row s i with nvicEn := false })) fun s =>
    thenOp (y (csrWrite i .cr2 Cr2.itevten 0 s)) fun s =>
      thenOp (y (csrWrite i .cr2 Cr2.itbufen 0 s)) fun s =>
        thenOp (y (csrWrite i .cr2 Cr2.iterren 0 s)) fun s => .go scr (csrWrite i .cr1 Cr1.pe 0 s)

/-! ## The programs of HW_SOFTWARE_RESET and DEINIT_WHILE_PENDING (00_scope.md R8) -/

/-- What one act of a parameter's program does, then `k` (log entries 9 and 10). -/
def policyAct (c : Ctx) (p : OpenParam) (a : PolicyAct) (scr : Scratch) (s : State) (k : Scratch → State → OpRes) : OpRes :=
  let i := c.inst
  let ev := evalExpr scr.vars (row s i)
  let got := fun (x : Nat) (v : Word) => { scr with vars := setVar x v scr.vars }
  match a with
  | .set x e => k (got x (ev e)) s
  | .pin l v => k scr (writeLine i l v s)
  | .delay us => k scr (emit (.delay i (ev us)) s)
  | .sample x l => k (got x (flagWord (readLine i l s).1)) (readLine i l s).2
  | .enableClock l => k scr (enablePinClock (pinOf (row s i).config l).1 s)
  | .configurePin x l mode =>
    let r := configurePin (pinOf (row s i).config l).1 (pinOf (row s i).config l).2 mode s
    k (got x (flagWord r.1)) r.2
  | .write f =>
    let w := fieldAccess ev f
    k scr (if fieldOpen p f then csrWrite i w.1 w.2.1 w.2.2 s else s)
  | .read x r => k (got x ((readReg i r s).1.setWidth 32)) (readReg i r s).2
  | .now x => k (got x (now s).1) (now s).2
  | .memRead x buf idx =>
    match memRead (siteOf c 81) (ev buf) (ev idx).toNat s with
    | .ok b => k (got x (b.setWidth 32)) s
    | .error f => .fault f
  | .memWrite buf idx v =>
    match memWrite (siteOf c 81) (ev buf) (ev idx).toNat ((ev v).setWidth 8) s with
    | .ok s => k scr s
    | .error f => .fault f
  | .store a => k scr (setRow s i (rowAct ev a (row s i)))

/-- An act that is a micro-step: all but a write of a variable or of the row. -/
def isMicroStep : PolicyAct → Bool
  | .set _ _ => false
  | .store _ => false
  | _ => true

/-- The refusal of a parameter's default (60_exceptions.md R401). -/
def refusalOf : OpenParam → Nat → Refusal
  | .hwSoftwareReset, i => .hwSoftwareReset i
  | .deinitWhilePending, i => .deinitWhilePending i

/-- A parameter's program. A jump ends the step as a round of a wait does; inside a handler it is a fault as a wait is
(45_hw_interrupt.md R335, log entry 9). -/
def runProg (y : State → Out) (c : Ctx) (p : OpenParam) : PolicyProg → (State → Out) → Scratch → State → OpRes
  | .refuse, _, _, _ => .refused (refusalOf p c.inst)
  | .ret st, _, scr, s => .done st scr s
  | .rest, _, scr, s => .go scr s
  | .act a next, y0, scr, s =>
    if isMicroStep a then
      thenOp (y0 s) fun s => policyAct c p a { scr with acted := true } s (runProg y c p next y)
    else policyAct c p a scr s (runProg y c p next y0)
  | .test t yes no, y0, scr, s =>
    if testHolds (evalExpr scr.vars (row s c.inst)) t then runProg y c p yes y0 scr s else runProg y c p no y0 scr s
  | .jump k, _, scr, s =>
    if c.atomic then .fault (.blockingInHandler (siteOf c 335)) else .wait { scr with acted := true, next := some k } s

/-- `apply HW_SOFTWARE_RESET(i)` and `apply DEINIT_WHILE_PENDING(i)` (40_bit_level.md R149, 46_instance.md R362): the value's
start, or, the other agents having had their turn, the table entry it jumped to. An entry the table lacks refuses. -/
def applyPolicy (y0 y : State → Out) (c : Ctx) (p : OpenParam) (pol : Policy) (scr : Scratch) (s : State) : OpRes :=
  match scr.next with
  | none => runProg y c p pol.start y0 scr s
  | some k => thenOp (y0 s) fun s => runProg y c p (pol.jumps.getD k .refuse) noTurn { scr with next := none } s

/-- One micro-operation. -/
def opStep (y0 y : State → Out) (c : Ctx) (op : Op) (scr : Scratch) (s : State) : OpRes :=
  let i := c.inst
  match op with
  | .line l => thenOp (y0 s) fun s => .go scr (lineOp i l s)
  | .pinBit k => thenOp (y0 s) fun s => .go scr (writeLine i .sda (scr.byte.getLsbD k) s)
  | .sampleBit k =>
    thenOp (y0 s) fun s =>
      let r := readLine i .sda s
      let bit : Byte := 1#8 <<< k
      .go { scr with byte := if r.1 then scr.byte ||| bit else scr.byte &&& ~~~bit } r.2
  | .sampleAck => thenOp (y0 s) fun s => .go { scr with ack := !(readLine i .sda s).1 } (readLine i .sda s).2
  | .needAck => if scr.ack then .go scr s else thenOp (runLines y i stopLines s) fun s => .done .nack scr s
  | .swBusy =>
    thenOp (y0 s) fun s =>
      let d := readLine i .sda s
      thenOp (y d.2) fun s =>
        let l := readLine i .scl s
        if !d.1 || !l.1 then .done .busy scr l.2 else .go scr l.2
  | .byte b => .go { scr with byte := b } s
  | .ackToFlag => .go { scr with resp := { scr.resp with flag := scr.ack } } s
  | .byteToResponse => .go { scr with resp := { scr.resp with byte := scr.byte } } s
  | .memRead buf k =>
    thenOp (y0 s) fun s =>
      match memRead (siteOf c 81) buf k s with
      | .ok b => .go { scr with byte := b } s
      | .error f => .fault f
  | .memWrite buf k =>
    thenOp (y0 s) fun s =>
      match memWrite (siteOf c 81) buf k scr.byte s with
      | .ok s => .go scr s
      | .error f => .fault f
  | .scanBreak max => if scr.resp.found = max then .done .ok scr s else .go scr s
  | .scanRecord buf a => if scr.ack then thenOp (y0 s) fun s => recordFound c buf a scr s else .go scr s
  | .waitNotBusy tmo =>
    beginWait y0 c scr s fun t0 s =>
      thenOp (y s) fun s =>
        let r := readSR2 i s
        let scr1 := { scr with t0 := none }
        if has r.1 Sr2.busy then checkTime y t0 tmo scr r.2 fun s => .done .busy scr1 s else .go scr1 r.2
  | .waitFlag f tmo => pollRound y0 y c f tmo scr s fun p scr s => waitFlagEnd y c p scr s
  | .probePoll f tmo =>
    match scr.p with
    | .ok => pollRound y0 y c f tmo scr s fun p scr s => .go { scr with p := p } s
    | .timeout => .go scr s
    | .err _ => .go scr s
  | .probeDR b =>
    match scr.p with
    | .ok => thenOp (y0 s) fun s => .go scr (writeDR i b s)
    | .timeout => .go scr s
    | .err _ => .go scr s
  | .probeEnd buf a => probeEnd y0 y c buf a scr s
  | .csr r m v => thenOp (y0 s) fun s => .go scr (csrWrite i r m v s)
  | .writeDR => thenOp (y0 s) fun s => .go scr (writeDR i scr.byte s)
  | .readSR1 => thenOp (y0 s) fun s => .go scr (readSR1 i s).2
  | .readSR2 => thenOp (y0 s) fun s => .go scr (readSR2 i s).2
  | .readDR => thenOp (y0 s) fun s => .go { scr with byte := (readDR i s).1 } (readDR i s).2
  | .asyncClaim buf len a d => thenOp (y0 s) fun s => asyncClaim c buf len a d scr s
  | .enableClock port => thenOp (y0 s) fun s => .go scr (enablePinClock port s)
  | .configPin port pin mode =>
    thenOp (y0 s) fun s =>
      let r := configurePin port pin mode s
      if r.1 then .go scr r.2 else .done .gpioFailure scr r.2
  | .setNvic v => .go scr (setRow s i { row s i with nvicEn := v })
  | .initRow =>
    .go scr (setRow s i { row s i with initialized := true, transferMode := .polling, xfer := Xfer.reset })
  | .resetRow => .go scr (setRow s i { Inst.reset (row s i).config with opActive := (row s i).opActive })
  | .setMode m => .go scr (setRow s i { row s i with transferMode := m })
  | .abandon =>
    if pending s i then
      .go scr (setRow s i { row s i with xfer := { (row s i).xfer with state := .idle, buf := 0 } })
    else .go scr s
  | .shutDown => if (row s i).initialized then shutDown y0 y c scr s else .go scr s
  | .apply p pol => applyPolicy y0 y c p pol scr s

/-- The operation makes no micro-step, so the turn before the next one is still due; `scr` is what it left. A
parameter's program makes none where it tests and writes its row alone. -/
def makesNoStep (op : Op) (scr : Scratch) : Bool :=
  match op with
  | .byte _ => true
  | .ackToFlag => true
  | .byteToResponse => true
  | .scanBreak _ => true
  | .setNvic _ => true
  | .initRow => true
  | .resetRow => true
  | .setMode _ => true
  | .abandon => true
  | .apply _ _ => !scr.acted
  | _ => false

/-- A command's micro-operations in order; the end of the list is `return Ok`. A wait that is not over leaves the
command in progress (log entry 1). The turn before the first micro-step is `y0`, before each later one `y`. -/
def run (y0 y : State → Out) (c : Ctx) : List Op → Scratch → State → Out
  | [], scr, s => .next (finish c .ok scr.resp s)
  | op :: ops, scr, s =>
    match opStep y0 y c op scr s with
    | .go scr s => run (if makesNoStep op scr then y0 else y) y c ops scr s
    | .done st scr s => .next (finish c st scr.resp s)
    | .wait scr s => .next { s with seq := some ⟨c.inst, c.cmd, c.words, op :: ops, scr⟩ }
    | .fault f => .fault f
    | .refused r => .refused r

end Sys2Proof.Machine
end

