-- ==== Sys2Proof/Machine/Instance.lean ====
section
/-! DEFINITION. The meanings of the instance commands (46_instance.md R360 to R367, 45_hw_interrupt.md R336) and of
ENCODE_ADDRESS (41_address_encoder.md R187). -/

namespace Sys2Proof.Machine

/-- The pin configuration INIT begins with (46_instance.md R360, R361). -/
def initPinOps (c : InstConfig) (mode : PinMode) : List Op :=
  [.enableClock c.sclPort, .enableClock c.sdaPort, .configPin c.sclPort c.sclPin mode, .configPin c.sdaPort c.sdaPin mode]

/-- INIT of an SW instance after its checks (46_instance.md R360). -/
def initSwOps (c : InstConfig) : List Op :=
  initPinOps c .openDrainOutput ++ [.line (.pin .scl true), .line (.pin .sda true), .initRow]

/-- INIT of an HW instance after its checks (46_instance.md R361). -/
def initHwOps (c : InstConfig) (r : SpeedRegs) : List Op :=
  initPinOps c .altFunctionOpenDrain ++
    [.csr .cr1 Cr1.pe 0, .csr .cr2 0xFFFF#16 (cr2Value r), .csr .ccr 0xFFFF#16 (ccrValue r),
      .csr .trise 0xFFFF#16 (triseValue r), .csr .oar1 0xFFFF#16 (oar1Value c), .csr .cr1 Cr1.pe Cr1.pe,
      .csr .cr1 Cr1.ack Cr1.ack, .setNvic false, .initRow]

/-- INIT (46_instance.md R360, R361). -/
def cmdInit (y : State → Out) (atomic : Bool) (i : Nat) (s : State) : Out :=
  let c : Ctx := ⟨i, .init i, s.words, atomic⟩
  claimed c s fun s =>
    let r := row s i
    if r.initialized then .next (finish c .ok {} s)
    else if configAccepted s i then
      match r.config.kind with
      | .sw => run noTurn y c (initSwOps r.config) {} s
      | .hw => run noTurn y c (initHwOps r.config (instParams s.par i).speed) {} s
    else .next (finish c .invalidParameter {} s)

/-- The clears of the three CR2 enables, ITEVTEN, ITBUFEN, ITERREN (46_instance.md R363). -/
def disableOps : List Op := [.csr .cr2 Cr2.itevten 0, .csr .cr2 Cr2.itbufen 0, .csr .cr2 Cr2.iterren 0]

/-- DEINIT after its checks (46_instance.md R362). -/
def deinitOps (r : Inst) : List Op :=
  match r.config.kind with
  | .sw => (if r.initialized then [.line (.pin .scl true), .line (.pin .sda true)] else []) ++ [.resetRow]
  | .hw => [.shutDown, .resetRow]

/-- DEINIT (46_instance.md R362). A pending HW instance has DEINIT_WHILE_PENDING applied first; a value of it that goes on
with the command does so on the row as it has left it (DESIGN CHOICE, log entry 10). -/
def cmdDeinit (y : State → Out) (atomic : Bool) (i : Nat) (s : State) : Out :=
  let c : Ctx := ⟨i, .deinit i, s.words, atomic⟩
  claimed c s fun s =>
    let pol := (instParams s.par i).deinitWhilePending
    if (row s i).config.kind = .hw ∧ pending s i = true then
      run noTurn y c (.apply .deinitWhilePending pol :: deinitOps (row s i)) {} s
    else run noTurn y c (deinitOps (row s i)) {} s

/-- SET_TRANSFER_MODE after its checks (46_instance.md R363). -/
def setModeOps (k : Kind) (m : TransferMode) : List Op :=
  match k, m with
  | .sw, m => [.setMode m]
  | .hw, .polling => [.setNvic false] ++ disableOps ++ [.abandon, .setMode .polling]
  | .hw, .interrupt => [.setMode .interrupt, .setNvic true]

/-- SET_TRANSFER_MODE (46_instance.md R363). -/
def cmdSetTransferMode (y : State → Out) (atomic : Bool) (i : Nat) (m : TransferMode) (s : State) : Out :=
  let c : Ctx := ⟨i, .setTransferMode i m, s.words, atomic⟩
  claimedInit c s fun s => run noTurn y c (setModeOps (row s i).config.kind m) {} s

/-- The index check of the single-step commands (46_instance.md R369, R370). -/
def indexed (cmd : Instr) (i : Nat) (s : State) (k : State → State) : Out :=
  .next (if i < nInst s then k s else respond cmd { status := .invalidParameter } s)

/-- SET_CALLBACK (46_instance.md R364). -/
def cmdSetCallback (i : Nat) (cb ud : Word) (s : State) : Out :=
  indexed (.setCallback i cb ud) i s fun s =>
    respond (.setCallback i cb ud) {} (setRow s i { row s i with callback := cb, userData := ud })

/-- IS_INITIALIZED (46_instance.md R365). -/
def cmdIsInitialized (i : Nat) (s : State) : Out :=
  indexed (.isInitialized i) i s fun s => respond (.isInitialized i) { flag := (row s i).initialized } s

/-- IS_BUS_BUSY of an SW instance: SDA, then SCL; busy if either is low (42_transactions.md R201). Each pin read is a
micro-step, so the other agents have their turn between the two (20_memory.md R94, 92 D48; DEDUCED, log entry 30). -/
def swIsBusBusy (y : State → Out) (i : Nat) (s : State) : Out :=
  let d := readLine i .sda s
  andThen (y d.2) fun s =>
    let c := readLine i .scl s
    .next (respond (.isBusBusy i) { flag := !d.1 || !c.1 } c.2)

/-- IS_BUS_BUSY (46_instance.md R366). -/
def cmdIsBusBusy (y : State → Out) (i : Nat) (s : State) : Out :=
  if i < nInst s ∧ (row s i).initialized = true ∧ (row s i).config.kind = .sw then swIsBusBusy y i s
  else indexed (.isBusBusy i) i s fun s =>
    if (row s i).initialized then
      respond (.isBusBusy i) { flag := has (readSR2 i s).1 Sr2.busy } (readSR2 i s).2
    else respond (.isBusBusy i) { status := .notInitialized } s

/-- GET_CONFIG (46_instance.md R367). -/
def cmdGetConfig (i : Nat) (s : State) : Out :=
  indexed (.getConfig i) i s fun s => respond (.getConfig i) { config := some (row s i).config } s

/-- GET_XFER_STATUS (45_hw_interrupt.md R336). -/
def cmdGetXferStatus (i : Nat) (s : State) : Out :=
  indexed (.getXferStatus i) i s fun s =>
    respond (.getXferStatus i)
      { xfer := some (row s i).xfer, byte := (row s i).lastError.code, flag := pending s i } s

/-- The response of ENCODE_ADDRESS (41_address_encoder.md R187). -/
def encodeResponse (am : AddrMode) (rw : Dir) (a : BitVec 10) : Response :=
  if addrValid am a then
    match am with
    | .seven => { n := 1, byte := enc7 a rw }
    | .ten => { n := 2, byte := hdr10 a rw, byte1 := lo10 a }
  else { status := .invalidParameter }

/-- ENCODE_ADDRESS (41_address_encoder.md R187). -/
def cmdEncodeAddress (am : AddrMode) (rw : Dir) (a : BitVec 10) (s : State) : Out :=
  .next (respond (.encodeAddress am rw a) (encodeResponse am rw a) s)

end Sys2Proof.Machine
end

