-- ==== Sys2Proof/Machine/BitLevel.lean ====
section
/-! DEFINITION. The bit-level signal generator (40_bit_level.md): its primitives as micro-operations, and the meanings of
SOFTWARE_RESET, BL_START, BL_STOP, BL_RESTART, BL_SEND_BYTE and BL_RECEIVE_BYTE. -/

namespace Sys2Proof.Machine

/-- `start()` (40_bit_level.md R143). -/
def startLines : List LineOp :=
  [.pin .sda true, .delay, .pin .scl true, .delay, .pin .sda false, .delay, .pin .scl false, .delay]

/-- `restart()`, the same sequence made while the block holds the bus (40_bit_level.md R144). -/
def restartLines : List LineOp := startLines

/-- The nine clock pulses of `softwareReset()` with data held high (40_bit_level.md R148). -/
def resetPulses : List LineOp :=
  [.pin .sda true, .pin .scl true, .delay] ++
    (List.replicate 9 [LineOp.pin .scl false, .delay, .pin .scl true, .delay]).flatten

/-- `softwareReset()` (40_bit_level.md R148). -/
def softwareResetLines : List LineOp := resetPulses ++ startLines ++ stopLines

/-- Pin writes and delays as micro-operations. -/
def lines (l : List LineOp) : List Op := l.map Op.line

def startOps : List Op := lines startLines
def restartOps : List Op := lines restartLines
def stopOps : List Op := lines stopLines

/-- Bits 7 down to 0. -/
def bitsDown : List Nat := [7, 6, 5, 4, 3, 2, 1, 0]

/-- One data bit of `sendByte` (40_bit_level.md R146). -/
def sendBitOps (k : Nat) : List Op :=
  [.pinBit k, .line .delay, .line (.pin .scl true), .line .delay, .line (.pin .scl false)]

/-- The ninth clock of `sendByte` (40_bit_level.md R146). -/
def sendAckOps : List Op :=
  [.line (.pin .sda true), .line .delay, .line (.pin .scl true), .line .delay, .sampleAck, .line (.pin .scl false)]

/-- `sendByte` of the byte in hand (40_bit_level.md R146). -/
def sendByteOps : List Op := bitsDown.flatMap sendBitOps ++ sendAckOps

/-- One data bit of `receiveByte` (40_bit_level.md R147). -/
def receiveBitOps (k : Nat) : List Op :=
  [.line .delay, .line (.pin .scl true), .line .delay, .sampleBit k, .line (.pin .scl false)]

/-- The ninth clock of `receiveByte` (40_bit_level.md R147). -/
def receiveAckOps (ack : Bool) : List Op :=
  lines [.pin .sda (!ack), .delay, .pin .scl true, .delay, .pin .scl false, .pin .sda true]

/-- `receiveByte(ackToSend)` (40_bit_level.md R147). -/
def receiveByteOps (ack : Bool) : List Op :=
  [.line (.pin .sda true), .byte 0] ++ bitsDown.flatMap receiveBitOps ++ receiveAckOps ack

/-- SOFTWARE_RESET (40_bit_level.md R149). The rule gives no return after a non-default HW_SOFTWARE_RESET: the status is
the parameter's, and Ok for a value that goes on with the command (DESIGN CHOICE, log entry 9). -/
def cmdSoftwareReset (y : State → Out) (atomic : Bool) (i : Nat) (s : State) : Out :=
  let c : Ctx := ⟨i, .softwareReset i, s.words, atomic⟩
  claimedInit c s fun s =>
    match (row s i).config.kind with
    | .sw => run noTurn y c (lines softwareResetLines) {} s
    | .hw =>
      if pending s i then .next (finish c .busy {} s)
      else run noTurn y c [.apply .hwSoftwareReset (instParams s.par i).hwSoftwareReset] {} s

/-- What the five BL commands share: an initialized SW instance whose block holds the bus (`held`) or not
(40_bit_level.md R150 to R154). -/
def bitCommand (y : State → Out) (c : Ctx) (held : Bool) (ops : List Op) (s : State) : Out :=
  claimedInit c s fun s =>
    let r := row s c.inst
    if r.config.kind = .sw ∧ r.drvSCL = !held then run noTurn y c ops {} s else .next (finish c .invalidParameter {} s)

/-- BL_START (40_bit_level.md R150). -/
def cmdBlStart (y : State → Out) (atomic : Bool) (i : Nat) (s : State) : Out :=
  bitCommand y ⟨i, .blStart i, s.words, atomic⟩ false startOps s

/-- BL_STOP (40_bit_level.md R151). -/
def cmdBlStop (y : State → Out) (atomic : Bool) (i : Nat) (s : State) : Out :=
  bitCommand y ⟨i, .blStop i, s.words, atomic⟩ true stopOps s

/-- BL_RESTART (40_bit_level.md R152). -/
def cmdBlRestart (y : State → Out) (atomic : Bool) (i : Nat) (s : State) : Out :=
  bitCommand y ⟨i, .blRestart i, s.words, atomic⟩ true restartOps s

/-- BL_SEND_BYTE (40_bit_level.md R153). -/
def cmdBlSendByte (y : State → Out) (atomic : Bool) (i : Nat) (val : Byte) (s : State) : Out :=
  bitCommand y ⟨i, .blSendByte i val, s.words, atomic⟩ true ([.byte val] ++ sendByteOps ++ [.ackToFlag]) s

/-- BL_RECEIVE_BYTE (40_bit_level.md R154). -/
def cmdBlReceiveByte (y : State → Out) (atomic : Bool) (i : Nat) (ack : Bool) (s : State) : Out :=
  bitCommand y ⟨i, .blReceiveByte i ack, s.words, atomic⟩ true (receiveByteOps ack ++ [.byteToResponse]) s

end Sys2Proof.Machine
end

