-- ==== Sys2Proof/Machine/Transactions.lean ====
section
/-! DEFINITION. The transaction commands: their programs on the SW engine (42_transactions.md R202 to R211), on the HW
engine in blocking mode (44_hw_blocking.md R283 to R295) and asynchronously (45_hw_interrupt.md R321, R322), the common
preamble (42_transactions.md R200) and the dispatch (R214). -/

namespace Sys2Proof.Machine

/-! ## SW engine -/

/-- `SendChecked` of the byte in hand (42_transactions.md R204). -/
def sendCheckedOps : List Op := sendByteOps ++ [.needAck]

/-- `SendChecked(b)` for each of some bytes (42_transactions.md R204). -/
def sendAll (bs : List Byte) : List Op := bs.flatMap fun b => [.byte b] ++ sendCheckedOps

/-- `AW(am, a)` (41_address_encoder.md R185, 42_transactions.md R202). -/
def awBytes (am : AddrMode) (a : BitVec 10) : List Byte :=
  match am with
  | .seven => [enc7 a .write]
  | .ten => [hdr10 a .write, lo10 a]

/-- `AR'(am, a)` (41_address_encoder.md R186 (b)). -/
def arPrimeByte (am : AddrMode) (a : BitVec 10) : Byte :=
  match am with
  | .seven => enc7 a .read
  | .ten => hdr10 a .read

/-- `SW_AR(am, a)` (42_transactions.md R203). -/
def swAR (am : AddrMode) (a : BitVec 10) : List Op :=
  match am with
  | .seven => sendAll [enc7 a .read]
  | .ten => sendAll (awBytes .ten a) ++ restartOps ++ sendAll [hdr10 a .read]

/-- The bytes `buf[0..n-1]`, each read just before it is sent (42_transactions.md R205). -/
def swSendBuf (buf : Word) (n : Nat) : List Op := (List.range n).flatMap fun k => [.memRead buf k] ++ sendCheckedOps

/-- `n` bytes received into `buf`, all but the last ACKed (42_transactions.md R206). -/
def swReceiveBuf (buf : Word) (n : Nat) : List Op :=
  (List.range n).flatMap fun k => receiveByteOps (decide (k + 1 < n)) ++ [.memWrite buf k]

/-- MASTER_TRANSMIT, SW (42_transactions.md R205). -/
def swTransmit (am : AddrMode) (a : BitVec 10) (buf : Word) (n : Nat) : List Op :=
  [.swBusy] ++ startOps ++ sendAll (awBytes am a) ++ swSendBuf buf n ++ stopOps

/-- MASTER_RECEIVE, SW (42_transactions.md R206). -/
def swReceive (am : AddrMode) (a : BitVec 10) (buf : Word) (n : Nat) : List Op :=
  [.swBusy] ++ startOps ++ swAR am a ++ swReceiveBuf buf n ++ stopOps

/-- MASTER_WRITE_REG, SW (42_transactions.md R207). -/
def swWriteReg (am : AddrMode) (a : BitVec 10) (reg val : Byte) : List Op :=
  [.swBusy] ++ startOps ++ sendAll (awBytes am a) ++ sendAll [reg, val] ++ stopOps

/-- MASTER_WRITE_REGS, SW (42_transactions.md R208). -/
def swWriteRegs (am : AddrMode) (a : BitVec 10) (reg : Byte) (buf : Word) (n : Nat) : List Op :=
  [.swBusy] ++ startOps ++ sendAll (awBytes am a) ++ sendAll [reg] ++ swSendBuf buf n ++ stopOps

/-- MASTER_READ_REGS, SW (42_transactions.md R210); MASTER_READ_REG is its case of one byte (R209). -/
def swReadRegs (am : AddrMode) (a : BitVec 10) (reg : Byte) (buf : Word) (n : Nat) : List Op :=
  [.swBusy] ++ startOps ++ sendAll (awBytes am a) ++ sendAll [reg] ++ restartOps ++ sendAll [arPrimeByte am a] ++
    swReceiveBuf buf n ++ stopOps

/-- One probe of SCAN_BUS, SW (42_transactions.md R211). -/
def swProbe (buf : Word) (max : Half) (a : BitVec 10) : List Op :=
  [.scanBreak max, .swBusy] ++ startOps ++ [.byte (enc7 a .write)] ++ sendByteOps ++ stopOps ++ [.scanRecord buf (scanByte a)]

/-- SCAN_BUS, SW, after the preamble's own busy check (42_transactions.md R211). -/
def swScan (buf : Word) (max : Half) : List Op := [.swBusy] ++ scanRange.flatMap (swProbe buf max)

/-! ## HW engine, blocking -/

/-- `HW_Start(tmo)` (44_hw_blocking.md R283). -/
def hwStart (tmo : Word) : List Op := [.csr .cr1 Cr1.start Cr1.start, .waitFlag .sb tmo]

/-- `DR <- b; return WaitFlag(F, tmo)`. -/
def hwPut (b : Byte) (f : Flag) (tmo : Word) : List Op := [.byte b, .writeDR, .waitFlag f tmo]

/-- `ClearADDR()` (44_hw_blocking.md R283). -/
def clearAddrOps : List Op := [.readSR1, .readSR2]

/-- `HW_AW(am, a, tmo)` (44_hw_blocking.md R283). -/
def hwAW (am : AddrMode) (a : BitVec 10) (tmo : Word) : List Op :=
  match am with
  | .seven => hwPut (enc7 a .write) .addr tmo
  | .ten => hwPut (hdr10 a .write) .add10 tmo ++ hwPut (lo10 a) .addr tmo

/-- `HW_AR(am, a, tmo)` (44_hw_blocking.md R283). -/
def hwAR (am : AddrMode) (a : BitVec 10) (tmo : Word) : List Op :=
  match am with
  | .seven => hwPut (enc7 a .read) .addr tmo
  | .ten => hwAW .ten a tmo ++ clearAddrOps ++ hwStart tmo ++ hwPut (hdr10 a .read) .addr tmo

/-- `HW_AR'(am, a, tmo)` (44_hw_blocking.md R283). -/
def hwARPrime (am : AddrMode) (a : BitVec 10) (tmo : Word) : List Op := hwPut (arPrimeByte am a) .addr tmo

/-- One byte of `HW_TxBody`, `src` making it the byte in hand (44_hw_blocking.md R285). -/
def hwTxByte (src : Op) (tmo : Word) : List Op := [.waitFlag .txe tmo, src, .writeDR]

/-- `HW_TxBody` of some bytes in hand and then of `buf[0..n-1]` (44_hw_blocking.md R285, R289). -/
def hwTxBody (bs : List Byte) (buf : Word) (n : Nat) (tmo : Word) : List Op :=
  clearAddrOps ++ (bs.flatMap fun b => hwTxByte (.byte b) tmo) ++
    ((List.range n).flatMap fun k => hwTxByte (.memRead buf k) tmo) ++ [.waitFlag .btf tmo]

/-- `HW_RxOne(out, tmo)` (44_hw_blocking.md R286). -/
def hwRxOne (out : Word) (tmo : Word) : List Op :=
  [.csr .cr1 Cr1.ack 0] ++ clearAddrOps ++
    [.csr .cr1 Cr1.stop Cr1.stop, .waitFlag .rxne tmo, .readDR, .memWrite out 0]

/-- One byte of `HW_RxMany` (44_hw_blocking.md R286). -/
def hwRxByte (buf : Word) (n : Nat) (tmo : Word) (k : Nat) : List Op :=
  [.waitFlag .rxne tmo] ++ (if k + 2 = n then [.csr .cr1 Cr1.ack 0] else []) ++ [.readDR, .memWrite buf k]

/-- `HW_RxMany(buf, n, tmo)` (44_hw_blocking.md R286). -/
def hwRxMany (buf : Word) (n : Nat) (tmo : Word) : List Op :=
  [.csr .cr1 Cr1.ack Cr1.ack] ++ clearAddrOps ++ (List.range n).flatMap (hwRxByte buf n tmo) ++
    [.csr .cr1 Cr1.stop Cr1.stop]

/-- The receive body for `n` bytes (44_hw_blocking.md R290, R294). -/
def hwRx (buf : Word) (n : Nat) (tmo : Word) : List Op := if n = 1 then hwRxOne buf tmo else hwRxMany buf n tmo

/-- `CR1.STOP <- 1` at the end of a transmit. -/
def hwStop : List Op := [.csr .cr1 Cr1.stop Cr1.stop]

/-- MASTER_TRANSMIT, HW blocking (44_hw_blocking.md R289). -/
def hwTransmit (am : AddrMode) (a : BitVec 10) (buf : Word) (n : Nat) (tmo : Word) : List Op :=
  [.waitNotBusy tmo] ++ hwStart tmo ++ hwAW am a tmo ++ hwTxBody [] buf n tmo ++ hwStop

/-- MASTER_RECEIVE, HW blocking (44_hw_blocking.md R290). -/
def hwReceive (am : AddrMode) (a : BitVec 10) (buf : Word) (n : Nat) (tmo : Word) : List Op :=
  [.waitNotBusy tmo] ++ hwStart tmo ++ hwAR am a tmo ++ hwRx buf n tmo

/-- MASTER_WRITE_REG, HW blocking (44_hw_blocking.md R291). -/
def hwWriteReg (am : AddrMode) (a : BitVec 10) (reg val : Byte) (tmo : Word) : List Op :=
  [.waitNotBusy tmo] ++ hwStart tmo ++ hwAW am a tmo ++ hwTxBody [reg, val] 0 0 tmo ++ hwStop

/-- MASTER_WRITE_REGS, HW blocking (44_hw_blocking.md R292). -/
def hwWriteRegs (am : AddrMode) (a : BitVec 10) (reg : Byte) (buf : Word) (n : Nat) (tmo : Word) : List Op :=
  [.waitNotBusy tmo] ++ hwStart tmo ++ hwAW am a tmo ++ hwTxBody [reg] buf n tmo ++ hwStop

/-- MASTER_READ_REGS, HW blocking (44_hw_blocking.md R294); MASTER_READ_REG is its case of one byte (R293). -/
def hwReadRegs (am : AddrMode) (a : BitVec 10) (reg : Byte) (buf : Word) (n : Nat) (tmo : Word) : List Op :=
  [.waitNotBusy tmo] ++ hwStart tmo ++ hwAW am a tmo ++ hwTxBody [reg] 0 0 tmo ++ hwStart tmo ++
    hwARPrime am a tmo ++ hwRx buf n tmo

/-- One probe of SCAN_BUS, HW (44_hw_blocking.md R295). -/
def hwProbe (buf : Word) (max : Half) (t : Word) (a : BitVec 10) : List Op :=
  [.scanBreak max, .waitNotBusy t, .csr .cr1 Cr1.start Cr1.start, .probePoll .sb t, .probeDR (enc7 a .write),
    .probePoll .addr t, .probeEnd buf (scanByte a)]

/-- SCAN_BUS, HW; the preamble's bus-busy check is the first probe's (44_hw_blocking.md R295, log entry 13). -/
def hwScan (buf : Word) (max : Half) (t : Word) : List Op := scanRange.flatMap (hwProbe buf max t)

/-! ## HW engine, asynchronous start -/

/-- `CR2.ITEVTEN <- 1; CR2.ITERREN <- 1`, one read-modify-write (45_hw_interrupt.md R321). -/
def asyncEnable : Op := .csr .cr2 (Cr2.itevten ||| Cr2.iterren) (Cr2.itevten ||| Cr2.iterren)

/-- MASTER_TRANSMIT, asynchronous (45_hw_interrupt.md R321). -/
def asyncTransmit (a : BitVec 10) (buf : Word) (len : Half) : List Op :=
  [.asyncClaim buf len a .write, .csr .cr1 Cr1.start Cr1.start, asyncEnable]

/-- MASTER_RECEIVE, asynchronous (45_hw_interrupt.md R322). -/
def asyncReceive (a : BitVec 10) (buf : Word) (len : Half) : List Op :=
  [.asyncClaim buf len a .read, .csr .cr1 Cr1.ack Cr1.ack, .csr .cr1 Cr1.start Cr1.start, asyncEnable]

/-! ## Preamble and dispatch -/

/-- MASTER_TRANSMIT and MASTER_RECEIVE run asynchronously on an HW instance in Interrupt mode (42_transactions.md R214). -/
def runsAsync (r : Inst) : Bool := r.config.kind == .hw && r.transferMode == .interrupt

/-- The preamble of 42_transactions.md R200, steps 1 to 5 up to the bus-busy check, then the program. `ok` are the
parameter checks; `async` says that the pending test is part of the atomic claim. -/
def transact (y : State → Out) (c : Ctx) (ok async : Inst → Bool) (prog : State → List Op) (s : State) : Out :=
  claimedInit c s fun s =>
    let r := row s c.inst
    if ok r then
      if r.config.kind = .hw ∧ async r = false ∧ pending s c.inst = true then .next (finish c .busy {} s)
      else run noTurn y c (prog s) {} s
    else .next (finish c .invalidParameter {} s)

/-- MASTER_TRANSMIT (42_transactions.md R205, 44_hw_blocking.md R289, 45_hw_interrupt.md R321). -/
def cmdMasterTransmit (y : State → Out) (atomic : Bool) (i : Nat) (am : AddrMode) (a : BitVec 10) (buf : Word)
    (len : Half) (tmo : Word) (s : State) : Out :=
  transact y ⟨i, .masterTransmit i am a buf len tmo, s.words, atomic⟩
    (fun r => paramsOk (some buf) (some len) (some (am, a)) (runsAsync r)) runsAsync
    (fun s =>
      match (row s i).config.kind with
      | .sw => swTransmit am a buf len.toNat
      | .hw => if runsAsync (row s i) then asyncTransmit a buf len else hwTransmit am a buf len.toNat tmo) s

/-- MASTER_RECEIVE (42_transactions.md R206, 44_hw_blocking.md R290, 45_hw_interrupt.md R322). -/
def cmdMasterReceive (y : State → Out) (atomic : Bool) (i : Nat) (am : AddrMode) (a : BitVec 10) (buf : Word)
    (len : Half) (tmo : Word) (s : State) : Out :=
  transact y ⟨i, .masterReceive i am a buf len tmo, s.words, atomic⟩
    (fun r => paramsOk (some buf) (some len) (some (am, a)) (runsAsync r)) runsAsync
    (fun s =>
      match (row s i).config.kind with
      | .sw => swReceive am a buf len.toNat
      | .hw => if runsAsync (row s i) then asyncReceive a buf len else hwReceive am a buf len.toNat tmo) s

/-- MASTER_WRITE_REG (42_transactions.md R207, 44_hw_blocking.md R291). -/
def cmdMasterWriteReg (y : State → Out) (atomic : Bool) (i : Nat) (am : AddrMode) (a : BitVec 10) (reg val : Byte)
    (tmo : Word) (s : State) : Out :=
  transact y ⟨i, .masterWriteReg i am a reg val tmo, s.words, atomic⟩
    (fun _ => paramsOk none none (some (am, a)) false) (fun _ => false)
    (fun s =>
      match (row s i).config.kind with
      | .sw => swWriteReg am a reg val
      | .hw => hwWriteReg am a reg val tmo) s

/-- MASTER_READ_REG (42_transactions.md R209, 44_hw_blocking.md R293). -/
def cmdMasterReadReg (y : State → Out) (atomic : Bool) (i : Nat) (am : AddrMode) (a : BitVec 10) (reg : Byte)
    (out : Word) (tmo : Word) (s : State) : Out :=
  transact y ⟨i, .masterReadReg i am a reg out tmo, s.words, atomic⟩
    (fun _ => paramsOk (some out) none (some (am, a)) false) (fun _ => false)
    (fun s =>
      match (row s i).config.kind with
      | .sw => swReadRegs am a reg out 1
      | .hw => hwReadRegs am a reg out 1 tmo) s

/-- MASTER_WRITE_REGS (42_transactions.md R208, 44_hw_blocking.md R292). -/
def cmdMasterWriteRegs (y : State → Out) (atomic : Bool) (i : Nat) (am : AddrMode) (a : BitVec 10) (reg : Byte)
    (buf : Word) (len : Half) (tmo : Word) (s : State) : Out :=
  transact y ⟨i, .masterWriteRegs i am a reg buf len tmo, s.words, atomic⟩
    (fun _ => paramsOk (some buf) (some len) (some (am, a)) false) (fun _ => false)
    (fun s =>
      match (row s i).config.kind with
      | .sw => swWriteRegs am a reg buf len.toNat
      | .hw => hwWriteRegs am a reg buf len.toNat tmo) s

/-- MASTER_READ_REGS (42_transactions.md R210, 44_hw_blocking.md R294). -/
def cmdMasterReadRegs (y : State → Out) (atomic : Bool) (i : Nat) (am : AddrMode) (a : BitVec 10) (reg : Byte)
    (buf : Word) (len : Half) (tmo : Word) (s : State) : Out :=
  transact y ⟨i, .masterReadRegs i am a reg buf len tmo, s.words, atomic⟩
    (fun _ => paramsOk (some buf) (some len) (some (am, a)) false) (fun _ => false)
    (fun s =>
      match (row s i).config.kind with
      | .sw => swReadRegs am a reg buf len.toNat
      | .hw => hwReadRegs am a reg buf len.toNat tmo) s

/-- SCAN_BUS (42_transactions.md R211, 44_hw_blocking.md R295). -/
def cmdScanBus (y : State → Out) (atomic : Bool) (i : Nat) (buf : Word) (max : Half) (s : State) : Out :=
  transact y ⟨i, .scanBus i buf max, s.words, atomic⟩
    (fun _ => paramsOk (some buf) (some max) none false) (fun _ => false)
    (fun s =>
      match (row s i).config.kind with
      | .sw => swScan buf max
      | .hw => hwScan buf max s.par.scanProbeTimeoutMs) s

end Sys2Proof.Machine
end

