-- ==== Sys2Proof/Machine/Handlers.lean ====
section
/-! DEFINITION. The event and error handlers, the callback and the commands it issues (45_hw_interrupt.md R324 to R335),
and what the host does with a buffer of its own (20_memory.md R99). Everything here is inside one atomic step.
`lent` is the buffer that the command being executed borrows, with its instance. -/

namespace Sys2Proof.Machine

/-! ## The host's own moves -/

/-- A buffer access of the host: a borrowed buffer is Fault(BufferRace), an index past the size Fault(BufferBounds)
(20_memory.md R81, R99). An access that is both is BufferRace: no rule orders the two faults (DESIGN CHOICE, log entry 27).
`lent` is the buffer of the command being executed, which a callback cannot touch either. -/
def hostTouch (lent : Option (Nat × Word)) (buf : Word) (k : Half) (v : Option Byte) (s : State) : Out :=
  match borrower lent s buf with
  | some i => .fault (.bufferRace ⟨none, i, 99⟩ buf)
  | none =>
    match v with
    | none =>
      match memRead ⟨none, 0, 81⟩ buf k.toNat s with
      | .ok _ => .next s
      | .error f => .fault f
    | some b =>
      match memWrite ⟨none, 0, 81⟩ buf k.toNat b s with
      | .ok s => .next s
      | .error f => .fault f

/-- A command the callback issues, run inside the handler's atomic step (45_hw_interrupt.md R335). The handler entries
are internal: `decodeHost` has refused them already, and here they are refused too (30_encoding.md R104). -/
def nestedExec (cmd : Instr) (s : State) : Out :=
  match cmd with
  | .init i => cmdInit noTurn true i s
  | .deinit i => cmdDeinit noTurn true i s
  | .setTransferMode i m => cmdSetTransferMode noTurn true i m s
  | .setCallback i cb ud => cmdSetCallback i cb ud s
  | .isInitialized i => cmdIsInitialized i s
  | .isBusBusy i => cmdIsBusBusy noTurn i s
  | .getConfig i => cmdGetConfig i s
  | .softwareReset i => cmdSoftwareReset noTurn true i s
  | .getXferStatus i => cmdGetXferStatus i s
  | .encodeAddress am rw a => cmdEncodeAddress am rw a s
  | .masterTransmit i am a buf len tmo => cmdMasterTransmit noTurn true i am a buf len tmo s
  | .masterReceive i am a buf len tmo => cmdMasterReceive noTurn true i am a buf len tmo s
  | .masterWriteReg i am a reg val tmo => cmdMasterWriteReg noTurn true i am a reg val tmo s
  | .masterReadReg i am a reg out tmo => cmdMasterReadReg noTurn true i am a reg out tmo s
  | .masterWriteRegs i am a reg buf len tmo => cmdMasterWriteRegs noTurn true i am a reg buf len tmo s
  | .masterReadRegs i am a reg buf len tmo => cmdMasterReadRegs noTurn true i am a reg buf len tmo s
  | .scanBus i buf max => cmdScanBus noTurn true i buf max s
  | .blStart i => cmdBlStart noTurn true i s
  | .blStop i => cmdBlStop noTurn true i s
  | .blRestart i => cmdBlRestart noTurn true i s
  | .blSendByte i val => cmdBlSendByte noTurn true i val s
  | .blReceiveByte i ack => cmdBlReceiveByte noTurn true i ack s
  | .evIrq _ => .refused (.illegalCommand (.internalOp 0x30#8))
  | .erIrq _ => .refused (.illegalCommand (.internalOp 0x31#8))

/-- One thing the callback does (45_hw_interrupt.md R335, 70_reset_and_hazards.md R461). -/
def nestedAct (lent : Option (Nat × Word)) (a : HostAct) (s : State) : Out :=
  match a with
  | .command w =>
    match decodeHost w with
    | .ok cmd => nestedExec cmd { s with words := w }
    | .error r => .refused (.illegalCommand r)
  | .readBuf buf k => hostTouch lent buf k none s
  | .writeBuf buf k v => hostTouch lent buf k (some v) s

/-- All the callback does, in order. -/
def nestedActs (lent : Option (Nat × Word)) : List HostAct → State → Out
  | [], s => .next s
  | a :: as, s => andThen (nestedAct lent a s) (nestedActs lent as)

/-- What the callback does at this invocation, taken from the script (log entry 11). -/
def drawCall (s : State) : List HostAct × State :=
  match s.env.calls with
  | [] => ([], s)
  | l :: ls => (l, { s with env := { s.env with calls := ls } })

/-- `Callback(i, st)` (45_hw_interrupt.md R335). -/
def callback (lent : Option (Nat × Word)) (i : Nat) (st : Status) (s : State) : Out :=
  if (row s i).callback = 0 then .next s
  else
    let d := drawCall (emit (.callback i st (row s i).userData) s)
    nestedActs lent d.1 d.2

/-! ## The event handler -/

/-- `inst[i].xfer <- x`. -/
def setXfer (i : Nat) (x : Xfer) (s : State) : State := setRow s i { row s i with xfer := x }

/-- `CR2.ITEVTEN <- 0; CR2.ITBUFEN <- 0; CR2.ITERREN <- 0`, one read-modify-write (45_hw_interrupt.md R331). -/
def clearEnables (i : Nat) (s : State) : State := csrWrite i .cr2 Cr2.enables 0 s

/-- `Complete(i, stop)` (45_hw_interrupt.md R331). -/
def completeXfer (lent : Option (Nat × Word)) (i : Nat) (stop : Bool) (s : State) : Out :=
  let s := clearEnables i (if stop then setCr1 i Cr1.stop s else s)
  let r := row s i
  callback lent i .ok (setRow s i
    { r with xfer := { r.xfer with state := .complete, lastStatus := .ok, buf := 0 }, lastError := .ok })

/-- StartSent with SB: the address byte (45_hw_interrupt.md R325). -/
def evStartSent (i : Nat) (s : State) : Out :=
  let x := (row s i).xfer
  .next (setXfer i { x with state := .addressPhase } (writeDR i (enc7 (xferAddr x.addr) x.dir) s))

/-- AddressPhase with ADDR (45_hw_interrupt.md R326). -/
def evAddress (i : Nat) (s : State) : Out :=
  let x := (row s i).xfer
  let t :=
    if x.dir = .read ∧ x.len = 1#16 then setCr1 i Cr1.stop (readSR2 i (csrWrite i .cr1 Cr1.ack 0 s)).2
    else (readSR2 i s).2
  .next (setXfer i { x with state := .dataPhase } (csrWrite i .cr2 Cr2.itbufen Cr2.itbufen t))

/-- DataPhase of a write with TxE and bytes left (45_hw_interrupt.md R327). -/
def evTxByte (site : Site) (i : Nat) (s : State) : Out :=
  let x := (row s i).xfer
  match memRead site x.buf x.idx.toNat s with
  | .error f => .fault f
  | .ok b =>
    let k := x.idx + 1
    let t := setXfer i { x with idx := k } (writeDR i b s)
    .next (if k = x.len then csrWrite i .cr2 Cr2.itbufen 0 t else t)

/-- DataPhase of a read with RxNE (45_hw_interrupt.md R329). A u16 result that does not fit is a refusal
(00_scope.md R10). -/
def evRxByte (lent : Option (Nat × Word)) (site : Site) (i : Nat) (s : State) : Out :=
  let x := (row s i).xfer
  let d := readDR i s
  match memWrite site x.buf x.idx.toNat d.1 d.2 with
  | .error f => .fault f
  | .ok t =>
    match succ16 x.idx with
    | none => .refused (.arithmetic site)
    | some k =>
      if x.len = 0#16 then .refused (.arithmetic site)
      else
        let t := setXfer i { x with idx := k } t
        let t := if k = x.len - 1 then csrWrite i .cr1 Cr1.ack 0 t else t
        if k = x.len then completeXfer lent i (decide (2 ≤ x.len.toNat)) t else .next t

/-- `raise Fault(UnexpectedEvent)` (45_hw_interrupt.md R330). -/
def unexpected (cmd : Instr) (i rule : Nat) : Out := .fault (.unexpectedEvent ⟨some (encode cmd), i, rule⟩)

/-- The event handler (45_hw_interrupt.md R324 to R330). -/
def evHandler (lent : Option (Nat × Word)) (i : Nat) (s : State) : Out :=
  let site : Site := ⟨some (encode (.evIrq i)), i, 81⟩
  let r := readSR1 i s
  let f := r.1
  let s := r.2
  let x := (row s i).xfer
  if has f Sr1.errors then .next s
  else
    match x.state with
    | .idle => unexpected (.evIrq i) i 324
    | .complete => unexpected (.evIrq i) i 324
    | .startSent => if has f Sr1.sb then evStartSent i s else unexpected (.evIrq i) i 330
    | .addressPhase => if has f Sr1.addr then evAddress i s else unexpected (.evIrq i) i 330
    | .dataPhase =>
      match x.dir with
      | .write =>
        if has f Sr1.txe ∧ x.idx.toNat < x.len.toNat then evTxByte site i s
        else if has f Sr1.btf ∧ x.idx = x.len then completeXfer lent i true s
        else unexpected (.evIrq i) i 330
      | .read => if has f Sr1.rxne then evRxByte lent site i s else unexpected (.evIrq i) i 330

/-- The error handler (45_hw_interrupt.md R332). -/
def erHandler (lent : Option (Nat × Word)) (i : Nat) (s : State) : Out :=
  let d := readSR1 i s
  let e := d.1 &&& Sr1.errors
  let s := d.2
  if e = 0#16 ∨ pending s i = false then unexpected (.erIrq i) i 332
  else
    let st := errorStatus e
    let s := clearErrors i e s
    let s := if st = .arbitrationLost then s else setCr1 i Cr1.stop s
    let s := csrWrite i .cr2 Cr2.iterren 0 (csrWrite i .cr2 Cr2.itbufen 0 (csrWrite i .cr2 Cr2.itevten 0 s))
    let r := row s i
    callback lent i st (setRow s i
      { r with xfer := { r.xfer with state := .idle, lastStatus := st, buf := 0 }, lastError := st })

/-- An instance that has handlers: an HW instance of the table (10_state.md R53, 60_exceptions.md R404). -/
def hasHandlers (s : State) (i : Nat) : Bool := decide (i < nInst s) && (row s i).config.kind == .hw

/-- EV_IRQ; an instance without handlers has no pending transfer, which is Fault(UnexpectedEvent)
(45_hw_interrupt.md R324). -/
def cmdEvIrq (lent : Option (Nat × Word)) (i : Nat) (s : State) : Out := if hasHandlers s i then evHandler lent i s else unexpected (.evIrq i) i 324

/-- ER_IRQ (45_hw_interrupt.md R332). -/
def cmdErIrq (lent : Option (Nat × Word)) (i : Nat) (s : State) : Out := if hasHandlers s i then erHandler lent i s else unexpected (.erIrq i) i 332

/-- The handler of the highest-priority line that is taken runs; where none is, nothing happens (60_exceptions.md R405,
R406). -/
def serveInterrupt (lent : Option (Nat × Word)) (s : State) : Out :=
  match takeInterrupt s with
  | some (.erIrq i) => cmdErIrq lent i s
  | some (.evIrq i) => cmdEvIrq lent i s
  | _ => .next s

/-! ## The other agents' turn -/

/-- One choice of the scheduler other than the block (20_memory.md R94). -/
def agentStep (lent : Option (Nat × Word)) (e : Sched) (s : State) : Out :=
  match e with
  | .block => .next s
  | .peri i p => .next (periphStep i p s)
  | .tick d => .next (advanceClock d s)
  | .irq => serveInterrupt lent s

/-- The scheduler's choices up to the block's next turn, which ends at `block` or where no choice is left. -/
def turnFrom (lent : Option (Nat × Word)) : List Sched → State → Out
  | [], s => .next { s with sched := [] }
  | .block :: es, s => .next { s with sched := es }
  | e :: es, s => andThen (agentStep lent e s) (turnFrom lent es)

/-- The turn of the other agents before a micro-step of the block, `lent` being the buffer the command of that micro-step
borrows (20_memory.md R94, R99, log entry 2). -/
def turn (lent : Option (Nat × Word)) (s : State) : Out := turnFrom lent s.sched s

end Sys2Proof.Machine
end

