-- ==== Sys2Proof/Machine/Foreground.lean ====
section
/-! DEFINITION. The meaning of every instruction as the host's command (or as a handler entry): the command with the
other agents having their turn between its micro-steps. The turn before the first is the one `step` gives before the
host's move (10_state.md R29). A command that names a buffer borrows it meanwhile (20_memory.md R99); a handler entered
while a command waits finds the buffer of that command borrowed. -/

namespace Sys2Proof.Machine

def execInit (i : Nat) (s : State) : Out := cmdInit (turn none) false i s
def execDeinit (i : Nat) (s : State) : Out := cmdDeinit (turn none) false i s
def execSetTransferMode (i : Nat) (m : TransferMode) (s : State) : Out := cmdSetTransferMode (turn none) false i m s
def execSetCallback (i : Nat) (cb ud : Word) (s : State) : Out := cmdSetCallback i cb ud s
def execIsInitialized (i : Nat) (s : State) : Out := cmdIsInitialized i s
def execIsBusBusy (i : Nat) (s : State) : Out := cmdIsBusBusy (turn none) i s
def execGetConfig (i : Nat) (s : State) : Out := cmdGetConfig i s
def execSoftwareReset (i : Nat) (s : State) : Out := cmdSoftwareReset (turn none) false i s
def execGetXferStatus (i : Nat) (s : State) : Out := cmdGetXferStatus i s
def execEncodeAddress (am : AddrMode) (rw : Dir) (a : BitVec 10) (s : State) : Out := cmdEncodeAddress am rw a s

def execMasterTransmit (i : Nat) (am : AddrMode) (a : BitVec 10) (buf : Word) (len : Half) (tmo : Word) (s : State) : Out :=
  cmdMasterTransmit (turn (some (i, buf))) false i am a buf len tmo s

def execMasterReceive (i : Nat) (am : AddrMode) (a : BitVec 10) (buf : Word) (len : Half) (tmo : Word) (s : State) : Out :=
  cmdMasterReceive (turn (some (i, buf))) false i am a buf len tmo s

def execMasterWriteReg (i : Nat) (am : AddrMode) (a : BitVec 10) (reg val : Byte) (tmo : Word) (s : State) : Out :=
  cmdMasterWriteReg (turn none) false i am a reg val tmo s

def execMasterReadReg (i : Nat) (am : AddrMode) (a : BitVec 10) (reg : Byte) (out tmo : Word) (s : State) : Out :=
  cmdMasterReadReg (turn (some (i, out))) false i am a reg out tmo s

def execMasterWriteRegs (i : Nat) (am : AddrMode) (a : BitVec 10) (reg : Byte) (buf : Word) (len : Half) (tmo : Word)
    (s : State) : Out :=
  cmdMasterWriteRegs (turn (some (i, buf))) false i am a reg buf len tmo s

def execMasterReadRegs (i : Nat) (am : AddrMode) (a : BitVec 10) (reg : Byte) (buf : Word) (len : Half) (tmo : Word)
    (s : State) : Out :=
  cmdMasterReadRegs (turn (some (i, buf))) false i am a reg buf len tmo s

def execScanBus (i : Nat) (buf : Word) (max : Half) (s : State) : Out := cmdScanBus (turn (some (i, buf))) false i buf max s
def execBlStart (i : Nat) (s : State) : Out := cmdBlStart (turn none) false i s
def execBlStop (i : Nat) (s : State) : Out := cmdBlStop (turn none) false i s
def execBlRestart (i : Nat) (s : State) : Out := cmdBlRestart (turn none) false i s
def execBlSendByte (i : Nat) (val : Byte) (s : State) : Out := cmdBlSendByte (turn none) false i val s
def execBlReceiveByte (i : Nat) (ack : Bool) (s : State) : Out := cmdBlReceiveByte (turn none) false i ack s
def execEvIrq (i : Nat) (s : State) : Out := cmdEvIrq (seqLent s) i s
def execErIrq (i : Nat) (s : State) : Out := cmdErIrq (seqLent s) i s

/-- The command in progress goes on: its waiting micro-operation runs again (10_state.md R23, log entry 1). -/
def resume (q : Seq) (s : State) : Out :=
  run (turn (lentBy q.cmd)) (turn (lentBy q.cmd)) ⟨q.inst, q.cmd, q.words, false⟩ q.ops q.scr { s with seq := none }

end Sys2Proof.Machine
end

