-- ==== Sys2Proof/Machine/Dispatch.lean ====
section
/-! DEFINITION. The meaning of an instruction: one arm per constructor. -/

namespace Sys2Proof.Machine

def exec (i : Instr) (s : State) : Host.Outcome State Fault Refusal :=
  match i with
  | .init n => Sys2Proof.Machine.execInit n s
  | .deinit n => Sys2Proof.Machine.execDeinit n s
  | .setTransferMode n m => Sys2Proof.Machine.execSetTransferMode n m s
  | .setCallback n cb ud => Sys2Proof.Machine.execSetCallback n cb ud s
  | .isInitialized n => Sys2Proof.Machine.execIsInitialized n s
  | .isBusBusy n => Sys2Proof.Machine.execIsBusBusy n s
  | .getConfig n => Sys2Proof.Machine.execGetConfig n s
  | .softwareReset n => Sys2Proof.Machine.execSoftwareReset n s
  | .getXferStatus n => Sys2Proof.Machine.execGetXferStatus n s
  | .encodeAddress am rw a => Sys2Proof.Machine.execEncodeAddress am rw a s
  | .masterTransmit n am a buf len tmo => Sys2Proof.Machine.execMasterTransmit n am a buf len tmo s
  | .masterReceive n am a buf len tmo => Sys2Proof.Machine.execMasterReceive n am a buf len tmo s
  | .masterWriteReg n am a reg val tmo => Sys2Proof.Machine.execMasterWriteReg n am a reg val tmo s
  | .masterReadReg n am a reg out tmo => Sys2Proof.Machine.execMasterReadReg n am a reg out tmo s
  | .masterWriteRegs n am a reg buf len tmo => Sys2Proof.Machine.execMasterWriteRegs n am a reg buf len tmo s
  | .masterReadRegs n am a reg buf len tmo => Sys2Proof.Machine.execMasterReadRegs n am a reg buf len tmo s
  | .scanBus n buf max => Sys2Proof.Machine.execScanBus n buf max s
  | .blStart n => Sys2Proof.Machine.execBlStart n s
  | .blStop n => Sys2Proof.Machine.execBlStop n s
  | .blRestart n => Sys2Proof.Machine.execBlRestart n s
  | .blSendByte n val => Sys2Proof.Machine.execBlSendByte n val s
  | .blReceiveByte n ack => Sys2Proof.Machine.execBlReceiveByte n ack s
  | .evIrq n => Sys2Proof.Machine.execEvIrq n s
  | .erIrq n => Sys2Proof.Machine.execErIrq n s

end Sys2Proof.Machine
end

