-- ==== Sys2Proof/Machine/Step.lean ====
section
/-! DEFINITION. One step: the command in progress goes on, or the other agents have their turn and the host makes its
next move (10_state.md R20, 20_memory.md R94, 70_reset_and_hazards.md R469, R470). -/

namespace Sys2Proof.Machine

/-- The host's move: a command runs, or is refused if it is none (30_encoding.md R103); or the host touches a buffer. -/
def hostMove (a : HostAct) (s : State) : Host.Outcome State Fault Refusal :=
  match a with
  | .command w =>
    match decodeHost w with
    | .ok i => exec i { s with words := w }
    | .error r => .refused (.illegalCommand r)
  | .readBuf buf k => hostTouch none buf k none s
  | .writeBuf buf k v => hostTouch none buf k (some v) s

/-- The next move of the host, if its program has one; a host with nothing left to do leaves the machine as it is. -/
def hostTurn (s : State) : Host.Outcome State Fault Refusal :=
  match s.host with
  | [] => .next s
  | a :: as => hostMove a { s with host := as }

/-- A step where no mark is set. A host whose command is in progress has no move (70_reset_and_hazards.md R470). -/
def unmarkedStep (s : State) : Host.Outcome State Fault Refusal :=
  match s.seq with
  | some q => resume q s
  | none => andThen (turn none s) hostTurn

/-- The answer a mark stands for. -/
def markOutcome : Mark → Host.Outcome State Fault Refusal
  | .fault f => .fault f
  | .refused r => .refused r

/-- One step of the machine. A run that a fault or a refusal has ended stays ended: no step clears the mark
(60_exceptions.md R401). -/
def step (s : State) : Host.Outcome State Fault Refusal :=
  match s.mark with
  | some m => markOutcome m
  | none => unmarkedStep s

/-- The state of a run after the answer `o` to a step from `s`: a stop leaves `s` with its mark (60_exceptions.md R401).
That the other fields are those the step found is a DESIGN CHOICE (log entry 31). -/
def settled (s : State) (o : Host.Outcome State Fault Refusal) : State :=
  match o with
  | .next t => t
  | .fault f => { s with mark := some (.fault f) }
  | .refused r => { s with mark := some (.refused r) }

/-- `s` with the command whose bits are `w` as the host's next command, no command in progress, no mark, and the
scheduler's next choice the block's. -/
def State.withFetchWord (s : State) (nbits w : Nat) : State :=
  { s with
    host := .command (tableWords nbits w) :: s.host, sched := .block :: s.sched, seq := none, mark := none }

end Sys2Proof.Machine
end

