-- ==== Sys2Proof/Machine/Wire.lean ====
section
/-! DEFINITION. Reading the bus of an SW instance off its pin trace (00_scope.md R13, 30_encoding.md R108 to R112). An
observation, read by no step. The line levels are the block's own drive, and a sampled level where it sampled: what
the bus shows when peers drive SDA only where the block samples it (30_encoding.md R111). -/

namespace Sys2Proof.Machine

/-- What has been seen so far. `bits` are the bits of the byte in progress, newest first, each with whether the block
sampled it; `clocked` says that SCL rose since the last START, so its next fall ends a bit. -/
structure WireView where
  scl     : Bool := true
  sda     : Bool := true
  busy    : Bool := false
  clocked : Bool := false
  cur     : Bool × Bool := (true, false)
  bits    : List (Bool × Bool) := []
  shown   : List BusSym := []
  deriving DecidableEq, Repr

/-- A byte from its bits, newest first (20_memory.md R86: the first bit is bit 7). -/
def bitsByte : List Bool → Byte
  | [] => 0
  | b :: bs => (bitsByte bs <<< 1) ||| (if b then 1 else 0)

/-- The symbols of nine bits, newest first: `[b]` or `<b>`, then A or N (30_encoding.md R108, R109). -/
def nineBits (ack : Bool × Bool) (data : List (Bool × Bool)) : List BusSym :=
  let b := bitsByte (data.map Prod.fst)
  [if ack.1 then .nack else .ack, if data.any Prod.snd then .received b else .sent b]

/-- SDA changes: a fall while SCL is 1 is a START or a repeated START, a rise is a STOP (30_encoding.md R111). -/
def viewSda (v : Bool) (w : WireView) : WireView :=
  if w.scl && w.sda != v then
    if v then { w with sda := v, busy := false, clocked := false, bits := [], shown := .stop :: w.shown }
    else
      { w with
        sda := v, busy := true, clocked := false, bits := [],
        shown := (if w.busy then .restart else .start) :: w.shown }
  else { w with sda := v }

/-- SCL changes: a rise begins a bit, a fall ends it; nine bits are a byte and its acknowledge (30_encoding.md R108). -/
def viewScl (v : Bool) (w : WireView) : WireView :=
  if v then (if w.scl then w else { w with scl := true, clocked := true, cur := (w.sda, false) })
  else if w.scl && w.busy && w.clocked then
    if w.bits.length = 8 then
      { w with scl := false, clocked := false, bits := [], shown := nineBits w.cur w.bits ++ w.shown }
    else { w with scl := false, clocked := false, bits := w.cur :: w.bits }
  else { w with scl := false }

/-- One event of instance `i`. -/
def viewEvent (i : Nat) (w : WireView) : Event → WireView
  | .pin j .sda v => if j = i then viewSda v w else w
  | .pin j .scl v => if j = i then viewScl v w else w
  | .sample j .sda v => if j = i ∧ w.scl = true then { w with cur := (v, true) } else w
  | .sample _ .scl _ => w
  | .delay _ _ => w
  | .csrW _ _ _ _ => w
  | .csrR _ _ _ => w
  | .callback _ _ _ => w
  | .resp _ _ => w

/-- The bus of SW instance `i` in the order shown, from a trace (newest first) that begins with the lines released. -/
def busOf (i : Nat) (trace : List Event) : List BusSym := (trace.reverse.foldl (viewEvent i) {}).shown.reverse

/-- The bus of HW instance `i` in the order shown. -/
def hwBusOf (s : State) (i : Nat) : List BusSym := (dev s i).wire.reverse

/-- The responses given so far, in order (70_reset_and_hazards.md R469). -/
def responses (s : State) : List (Instr × Response) :=
  s.trace.reverse.filterMap fun e =>
    match e with
    | .resp c r => some (c, r)
    | _ => none

/-- The delays made so far (40_bit_level.md R156). -/
def delayCount (trace : List Event) : Nat :=
  (trace.filter fun e => match e with | .delay _ _ => true | _ => false).length

/-! ## The trace of each bit-level sequence (40_bit_level.md), `d` being the delay of a `D()` -/

/-- The state after more events, in order. -/
def tracing (s : State) (es : List Event) : State := { s with trace := es.reverse ++ s.trace }

/-- `start()` and `restart()` (40_bit_level.md R143, R144). -/
def startEvents (i : Nat) (d : Word) : List Event :=
  [.pin i .sda true, .delay i d, .pin i .scl true, .delay i d, .pin i .sda false, .delay i d, .pin i .scl false, .delay i d]

/-- `stop()` (40_bit_level.md R145). -/
def stopEvents (i : Nat) (d : Word) : List Event :=
  [.pin i .sda false, .delay i d, .pin i .scl true, .delay i d, .pin i .sda true, .delay i d]

/-- `softwareReset()`: nine clock pulses with SDA released, then a START and a STOP (40_bit_level.md R148). -/
def resetEvents (i : Nat) (d : Word) : List Event :=
  [.pin i .sda true, .pin i .scl true, .delay i d] ++
    (List.replicate 9 [Event.pin i .scl false, .delay i d, .pin i .scl true, .delay i d]).flatten ++
    startEvents i d ++ stopEvents i d

/-- One data bit sent (40_bit_level.md R146). -/
def bitOutEvents (i : Nat) (d : Word) (b : Bool) : List Event :=
  [.pin i .sda b, .delay i d, .pin i .scl true, .delay i d, .pin i .scl false]

/-- One data bit received, at level `b` (40_bit_level.md R147). -/
def bitInEvents (i : Nat) (d : Word) (b : Bool) : List Event :=
  [.delay i d, .pin i .scl true, .delay i d, .sample i .sda b, .pin i .scl false]

/-- The bits of a byte, bit 7 first (20_memory.md R86). -/
def byteBits (v : Byte) : List Bool :=
  [v.getLsbD 7, v.getLsbD 6, v.getLsbD 5, v.getLsbD 4, v.getLsbD 3, v.getLsbD 2, v.getLsbD 1, v.getLsbD 0]

/-- `sendByte(v)`, the ninth bit sampled at level `x` (40_bit_level.md R146). -/
def sendEvents (i : Nat) (d : Word) (v : Byte) (x : Bool) : List Event :=
  (byteBits v).flatMap (bitOutEvents i d) ++
    [.pin i .sda true, .delay i d, .pin i .scl true, .delay i d, .sample i .sda x, .pin i .scl false]

/-- `receiveByte(ack)` of a byte whose bits are sampled as `v` (40_bit_level.md R147). -/
def receiveEvents (i : Nat) (d : Word) (v : Byte) (ack : Bool) : List Event :=
  [.pin i .sda true] ++ (byteBits v).flatMap (bitInEvents i d) ++
    [.pin i .sda (!ack), .delay i d, .pin i .scl true, .delay i d, .pin i .scl false, .pin i .sda true]

/-- `n` peers' drives in a row. -/
def drawSamples : Nat → State → List Bool × State
  | 0, s => ([], s)
  | n + 1, s => ((drawSample s).1 :: (drawSamples n (drawSample s).2).1, (drawSamples n (drawSample s).2).2)

end Sys2Proof.Machine
end

