-- ==== Sys2Proof/Safety.lean ====
section
/-! DEFINITION. What claims are stated in: the end of a run (70_reset_and_hazards.md R469), the launch premises (R471),
and the invariants of the state. -/

namespace Sys2Proof.Machine

/-! ## The end of a run (70_reset_and_hazards.md R469) -/

/-- No instance is pending. -/
def nothingInFlight (s : State) : Bool := s.inst.all fun r => !r.xfer.state.pending

/-- The run has ended: the host has nothing left, no command is in progress, nothing is in flight, no line is taken, and no
mark is set. -/
def ended (s : State) : Bool :=
  s.host.isEmpty && s.seq.isNone && s.inst.all (fun r => !r.opActive) && nothingInFlight s &&
    (takeInterrupt s).isNone && s.mark.isNone

/-! ## The launch premises (70_reset_and_hazards.md R471) -/

/-- `NoFault(s0)`: no fault or refusal mark is set (60_exceptions.md R401). -/
def NoFault (s : State) : Prop := s.mark = none

/-- `AtReset(s0)`, for the parameters and configurations of `s0`: everything but the launch's own data is at power-on. -/
def AtReset (s : State) : Prop :=
  s = { State.powerOn s.par (s.inst.map Inst.config) with
        host := s.host, sched := s.sched, env := s.env, mem := s.mem, bufs := s.bufs, ticks := s.ticks,
        lastNow := s.lastNow, words := s.words }

/-- `Initialized(s0, I)`: every `i` in `I` is an instance of the table that is initialized, with `opActive` false and no
command of it in progress. -/
def Initialized (s : State) (I : List Nat) : Prop := ∀ i ∈ I,
  i < nInst s ∧ (row s i).initialized = true ∧ (row s i).opActive = false ∧ ∀ q, s.seq = some q → q.inst ≠ i

/-- `NothingInFlight(s0)`. -/
def NothingInFlight (s : State) : Prop := ∀ i, i < nInst s → pending s i = false

/-- `CleanEntry(s0, i)`. -/
def CleanEntry (s : State) (i : Nat) : Prop :=
  match (row s i).config.kind with
  | .sw => (row s i).drvSCL = true ∧ (row s i).drvSDA = true
  | .hw =>
    let p := dev s i
    p.ph = .idle ∧ p.pendDR = false ∧ p.sr1 &&& Sr1.errors = 0#16 ∧ has p.sr2 Sr2.msl = false ∧
      (p.cr2 &&& Cr2.enables = 0#16 ∨ (row s i).transferMode = .interrupt) ∧ has p.cr1 Cr1.start = false ∧
      has p.cr1 Cr1.stop = false ∧ takenAt s i = none

/-- `PlatformReady`, as far as a parameter shows it: the error line's priority is above the event line's
(70_reset_and_hazards.md R454, 00_scope.md R8). -/
def PlatformReady (s : State) : Prop := s.par.prioEv < s.par.prioEr

/-- The handle has a declared size. -/
def Declared (s : State) (buf : Word) : Prop := ∃ n, (buf, n) ∈ s.bufs

/-- What the host does in a run with program `prog`: the program, and what its callbacks do (70_reset_and_hazards.md R469,
45_hw_interrupt.md R335). -/
def programActs (s : State) (prog : List HostAct) : List HostAct := prog ++ s.env.calls.flatten

/-- `BuffersDeclared(prog)`: every non-null handle the program names has a declared size, and the sizes cover the lengths
of its commands (20_memory.md R81). -/
def BuffersDeclared (s : State) (prog : List HostAct) : Prop := ∀ a ∈ programActs s prog,
  match a with
  | .command w => ∀ cmd buf n, decodeHost w = .ok cmd → bufferOf cmd = some (buf, n) → buf ≠ 0 →
      Declared s buf ∧ n ≤ bufSize s buf
  | .readBuf buf _ => buf ≠ 0 → Declared s buf
  | .writeBuf buf _ _ => buf ≠ 0 → Declared s buf

/-- Two configurations name no pin in common, nor, for two HW instances, one peripheral (60_exceptions.md R414). -/
def Apart (c d : InstConfig) : Prop :=
  (c.sclPort, c.sclPin) ≠ (d.sclPort, d.sclPin) ∧ (c.sclPort, c.sclPin) ≠ (d.sdaPort, d.sdaPin) ∧
    (c.sdaPort, c.sdaPin) ≠ (d.sclPort, d.sclPin) ∧ (c.sdaPort, c.sdaPin) ≠ (d.sdaPort, d.sdaPin) ∧
    ¬ (c.kind = .hw ∧ d.kind = .hw ∧ c.periph = d.periph)

/-- INIT accepts the configuration of row `i`: `configValid` holds of it and it is apart from every other row's
(46_instance.md R360, 60_exceptions.md R414; log entry 29). -/
def Accepted (s : State) (i : Nat) : Prop :=
  (instParams s.par i).configValid = true ∧
    ∀ j, j < nInst s → j ≠ i → Apart (row s i).config (row s j).config

/-- `ConfigValid`: every instance that an INIT of the program or of a callback names is one INIT accepts
(46_instance.md R360). An index outside the table names none (46_instance.md R370). -/
def ConfigValid (s : State) (prog : List HostAct) : Prop := ∀ w i,
  .command w ∈ programActs s prog → decodeHost w = .ok (.init i) → i < nInst s → Accepted s i

/-- The environment's draws (70_reset_and_hazards.md R472): the peers' drives, the configurePin results, and the
scheduler's choices, which carry the peripherals' outcomes and the advances of the clock. -/
structure Draws where
  samples    : List Bool
  pinResults : List Bool
  sched      : List Sched
  deriving DecidableEq, Repr

/-- `PeersScript(d)`: the environment's draws are `d`. -/
def PeersScript (d : Draws) (s : State) : Prop :=
  s.env.samples = d.samples ∧ s.env.pinResults = d.pinResults ∧ s.sched = d.sched

/-- `states` is a run from `s0`: each state is what the step from the one before leaves, to whose schedule the environment
adds the choices `draws` gives it there (70_reset_and_hazards.md R472). -/
def IsRun (s0 : State) (states : Nat → State) (draws : Nat → List Sched) : Prop :=
  states 0 = s0 ∧ ∀ n, states (n + 1) =
    let t := settled (states n) (step (states n))
    { t with sched := t.sched ++ draws n }

/-- The model lets the clock advance the tick counter: the run goes on, and the next reading would still be less than 2^31
past the last (10_state.md R55). -/
def ClockReady (s : State) : Prop := s.mark = none ∧ (elapsed s.ticks s.lastNow).toNat + 1 < 2 ^ 31

/-- `ClockFair` of a run from `s0`: the tick counter advances under weak fairness. From no point on is the clock let advance
the counter in every state while the counter stays where it is (10_state.md R57, log entry 21). -/
def ClockFair (s0 : State) (states : Nat → State) (draws : Nat → List Sched) : Prop :=
  IsRun s0 states draws ∧
    ∀ n, (∀ m, n ≤ m → ClockReady (states m)) → ∃ m, n ≤ m ∧ (states (m + 1)).ticks ≠ (states m).ticks

/-- The scheduler's choice `e` is one of those the step from the `n`-th state of a run takes off the schedule. -/
def Chosen (states : Nat → State) (draws : Nat → List Sched) (n : Nat) (e : Sched) : Prop :=
  ∃ es rest, (states n).sched = es ++ rest ∧ (states (n + 1)).sched = rest ++ draws n ∧ e ∈ es

/-- The same step of the peripheral, whatever its draw. EXT_BUSY and BERR_EVENT are steps of the environment, not of the
peripheral (43_hw_peripheral.md R261, R263, R265). -/
def sameStep : PeriphStep → PeriphStep → Bool
  | .startGen, .startGen => true
  | .addrSend _, .addrSend _ => true
  | .loSend _, .loSend _ => true
  | .txByte _, .txByte _ => true
  | .rxByte _, .rxByte _ => true
  | .stopGen, .stopGen => true
  | .stopCancel, .stopCancel => true
  | _, _ => false

/-- Step `p` of P[i] is enabled, and the run goes on. -/
def PeriphReady (s : State) (i : Nat) (p : PeriphStep) : Prop :=
  s.mark = none ∧ (row s i).config.kind = .hw ∧ stepEnabled p (dev s i) = true

/-- The peripheral's progress in a run from `s0`, weak fairness: a step of a peripheral that is enabled in every state from
some point on is chosen at some later point, with some draw (43_hw_peripheral.md R266, 70_reset_and_hazards.md R468, log
entry 21). -/
def PeriphFair (s0 : State) (states : Nat → State) (draws : Nat → List Sched) : Prop :=
  IsRun s0 states draws ∧
    ∀ i p n, sameStep p p = true → (∀ m, n ≤ m → PeriphReady (states m) i p) →
      ∃ m q, n ≤ m ∧ sameStep p q = true ∧ Chosen states draws m (.peri i q)

/-- The non-faulty peers of a run from `s0`: a bus that another master or a peer may let go of in every state from some
point on is let go of at some later point (43_hw_peripheral.md R261, 44_hw_blocking.md R284, log entry 21). -/
def PeersRelease (s0 : State) (states : Nat → State) (draws : Nat → List Sched) : Prop :=
  IsRun s0 states draws ∧
    ∀ i n, (∀ m, n ≤ m → PeriphReady (states m) i (.extBusy false)) →
      ∃ m, n ≤ m ∧ Chosen states draws m (.peri i (.extBusy false))

/-- The parameters a launch may have (00_scope.md R8): 1 to 16 instances, each with its parameters, and PRIO_ER strictly
higher than PRIO_EV. -/
def ParamsOk (s : State) : Prop :=
  1 ≤ nInst s ∧ nInst s ≤ 16 ∧ s.par.insts.length = nInst s ∧ PlatformReady s

/-! ## The other agents -/

/-- The scheduler gives no handler a turn: no choice of it is `irq`. -/
def NoIrq (s : State) : Prop := ∀ e ∈ s.sched, e ≠ .irq

/-- A choice of the scheduler that is no handler, as a move of the state (20_memory.md R94). -/
def agentMove (s : State) : Sched → State
  | .block => s
  | .peri i p => periphStep i p s
  | .tick d => advanceClock d s
  | .irq => s

/-- Such choices one after another. -/
def agentMoves (es : List Sched) (s : State) : State := es.foldl agentMove s

/-- `t` is `s` after the choices taken off its schedule, which moved the peripherals and the clock alone, and no handler
has a turn in what is left of it. With no choice left, `t` is `s`. -/
def AgentsMoved (s t : State) : Prop :=
  NoIrq t ∧ ∃ es, s.sched = es ++ t.sched ∧
    t = { s with peri := (agentMoves es s).peri, ticks := (agentMoves es s).ticks, sched := t.sched }

/-! ## Invariants -/

/-- The parameters of the instance table that no step changes: how many instances, and every configuration
(10_state.md R21, R24, R31). -/
def configsOf (s : State) : List InstConfig := s.inst.map Inst.config

/-- The drive of the two lines is one of the boundary states (1, 1), (0, 0), (0, 1) (40_bit_level.md R157). -/
def boundaryDrive (r : Inst) : Bool := !r.drvSCL || r.drvSDA

/-- A row an SW instance can have: its transfer state is at its reset value (10_state.md R37). -/
def swRowOk (r : Inst) : Bool := r.config.kind == .hw || r.xfer == Xfer.reset

/-- The reserved bits of the registers, the fields the controller keeps at 0, and the flags of slave and SMBus mode, are 0
(10_state.md R40 to R50, 43_hw_peripheral.md R250). -/
def reservedOk (p : Periph) : Bool :=
  p.cr1 &&& 0x78FE#16 == 0#16 && p.cr2 &&& 0xF8C0#16 == 0#16 && p.sr1 &&& 0xF830#16 == 0#16 &&
    p.sr2 &&& 0xFFF8#16 == 0#16 && p.dr &&& 0xFF00#16 == 0#16 && p.oar2 == 0#16 && p.oar1 &&& 0x3C00#16 == 0#16 &&
    p.ccr &&& 0x3000#16 == 0#16 && p.trise &&& 0xFFC0#16 == 0#16

/-- While the phase is Idle, the progress flags and MSL are 0 (43_hw_peripheral.md R251). -/
def idleOk (p : Periph) : Bool :=
  p.ph != .idle || (p.sr1 &&& 0x009F#16 == 0#16 && !has p.sr2 Sr2.msl)

/-- A write of CR1 or CR2 that leaves the reserved bits alone; OAR2 is written by no command (10_state.md R50). -/
def writeOk (r : Reg) (m v : Half) : Bool :=
  match r with
  | .cr1 => m &&& v &&& 0x78FE#16 == 0#16
  | .cr2 => m &&& v &&& 0xF8C0#16 == 0#16
  | .oar2 => false
  | .oar1 => true
  | .dr => true
  | .sr1 => true
  | .sr2 => true
  | .ccr => true
  | .trise => true

/-- An operation that a command in progress may still have to make. -/
def waitingOp : Op → Bool
  | .csr r m v => writeOk r m v
  | .asyncClaim _ _ _ _ => false
  | _ => true

/-- The command in progress has only such operations left. -/
def seqOk (s : State) : Prop := ∀ q, s.seq = some q → ∀ op ∈ q.ops, waitingOp op = true

/-- A peripheral: its reserved bits are 0, while its phase is Idle its progress flags are 0, and while PE is 0 its phase
is Idle (10_state.md R41 to R47, 43_hw_peripheral.md R250, R251). -/
def periphOk (p : Periph) : Bool := reservedOk p && idleOk p && (has p.cr1 Cr1.pe || p.ph == .idle)

/-- The tick counter is less than 2^31 past the last reading, so the next reading is (10_state.md R55). -/
def clockOk (s : State) : Prop := (elapsed s.ticks s.lastNow).toNat < 2 ^ 31

/-- What every step keeps: the memory's canonical form, every peripheral, the transfer state of every SW instance, one
peripheral for every row, the operations a command in progress has left, and the clock's place past its last reading. -/
def Inv (s : State) : Prop :=
  seqOk s ∧ Memory.wf s.mem = true ∧ (∀ p ∈ s.peri, periphOk p = true) ∧ (∀ r ∈ s.inst, swRowOk r = true) ∧
    s.peri.length = s.inst.length ∧ clockOk s

/-- The drive of every SW instance's lines is one of the boundary states, and a command in progress is one of an HW
instance: an SW command never waits (40_bit_level.md R157). -/
def AtBoundary (s : State) : Prop :=
  (∀ q, s.seq = some q → (row s q.inst).config.kind = .hw) ∧
    ∀ r ∈ s.inst, r.config.kind = .sw → boundaryDrive r = true

/-! ## The command in progress -/

/-- The seven transaction commands (42_transactions.md R200). -/
def isTransaction : Instr → Bool
  | .masterTransmit _ _ _ _ _ _ => true
  | .masterReceive _ _ _ _ _ _ => true
  | .masterWriteReg _ _ _ _ _ _ => true
  | .masterReadReg _ _ _ _ _ _ => true
  | .masterWriteRegs _ _ _ _ _ _ _ => true
  | .masterReadRegs _ _ _ _ _ _ _ => true
  | .scanBus _ _ _ => true
  | _ => false

/-- The program of a blocking transaction on the HW engine, `t` being SCAN_PROBE_TIMEOUT_MS (44_hw_blocking.md R289 to
R295). -/
def hwProgram (t : Word) : Instr → List Op
  | .masterTransmit _ am a buf len tmo => hwTransmit am a buf len.toNat tmo
  | .masterReceive _ am a buf len tmo => hwReceive am a buf len.toNat tmo
  | .masterWriteReg _ am a reg val tmo => hwWriteReg am a reg val tmo
  | .masterReadReg _ am a reg out tmo => hwReadRegs am a reg out 1 tmo
  | .masterWriteRegs _ am a reg buf len tmo => hwWriteRegs am a reg buf len.toNat tmo
  | .masterReadRegs _ am a reg buf len tmo => hwReadRegs am a reg buf len.toNat tmo
  | .scanBus _ buf max => hwScan buf max t
  | _ => []

/-- An operation that may store to a buffer. -/
def storingOp : Op → Bool
  | .memWrite _ _ => true
  | .scanRecord _ _ => true
  | .probeEnd _ _ => true
  | .apply _ pol => pol.stores
  | _ => false

/-- The value of the OPEN parameter that a command may apply (40_bit_level.md R149, 46_instance.md R362). -/
def appliedPolicy (s : State) : Instr → Option Policy
  | .softwareReset i => if (row s i).config.kind = .hw then some (instParams s.par i).hwSoftwareReset else none
  | .deinit i => if (row s i).config.kind = .hw then some (instParams s.par i).deinitWhilePending else none
  | _ => none

/-- The command in progress, if there is one: a transaction has the end of its program left, and a scan has found fewer
addresses than it may record; another command has no store left but those of the parameter's value it applies. -/
def InProgress (s : State) : Prop := ∀ q, s.seq = some q →
  (isTransaction q.cmd = true → ∃ made, hwProgram s.par.scanProbeTimeoutMs q.cmd = made ++ q.ops) ∧
    (isTransaction q.cmd = false → ∀ op ∈ q.ops, storingOp op = true →
      ∃ p pol, op = .apply p pol ∧ appliedPolicy s q.cmd = some pol) ∧
    ∀ i buf max, q.cmd = .scanBus i buf max → q.scr.resp.found.toNat < max.toNat

/-- Address `a` is not one of the bytes of memory a command may store: those of the buffer it receives into, below its
length (42_transactions.md R206, R209 to R211), or any that the value of an OPEN parameter stores (00_scope.md R8). -/
def notStored (s : State) (cmd : Instr) (a : Nat) : Prop :=
  match cmd with
  | .masterReceive _ _ _ buf len _ => ∀ k, k < len.toNat → a ≠ cellAddr buf k
  | .masterReadReg _ _ _ _ out _ => a ≠ cellAddr out 0
  | .masterReadRegs _ _ _ _ buf len _ => ∀ k, k < len.toNat → a ≠ cellAddr buf k
  | .scanBus _ buf max => ∀ k, k < max.toNat → a ≠ cellAddr buf k
  | cmd => ∀ pol, appliedPolicy s cmd = some pol → pol.stores = false

/-! ## Words of the statements -/

/-- The delay of a `D()` of instance `i` (40_bit_level.md R140). -/
def delayOf (s : State) (i : Nat) : Word := (row s i).config.bitDelayUs

/-- `s` with other peers' drives to come. -/
def withSamples (s : State) (xs : List Bool) : State := { s with env := { s.env with samples := xs } }

/-- `s` after a command of SW instance `i` has returned: the line drives `scl` and `sda`, the status in `lastError`
(46_instance.md R368), the events `es` and then the response; nothing else changes. -/
def returned (s : State) (i : Nat) (scl sda : Bool) (st : Status) (cmd : Instr) (r : Response) (es : List Event) : State :=
  tracing (setRow s i { row s i with drvSCL := scl, drvSDA := sda, lastError := st })
    (es ++ [.resp cmd { r with status := st }])

/-- The address operand is in range: 0 to 127, or 0 to 1023 with AM = 1 (41_address_encoder.md R180). -/
def addressInRange (am : AddrMode) (a : BitVec 10) : Prop := am = .ten ∨ a.toNat ≤ 127

/-- The parameter checks of a transaction pass (42_transactions.md R200 step 4); `async` says that the transfer would
run asynchronously (45_hw_interrupt.md R321). -/
def transactionOk (async : Bool) : Instr → Prop
  | .masterTransmit _ am a buf len _ => buf ≠ 0 ∧ len ≠ 0 ∧ addressInRange am a ∧ (async = true → am = .seven)
  | .masterReceive _ am a buf len _ => buf ≠ 0 ∧ len ≠ 0 ∧ addressInRange am a ∧ (async = true → am = .seven)
  | .masterWriteReg _ am a _ _ _ => addressInRange am a
  | .masterReadReg _ am a _ out _ => out ≠ 0 ∧ addressInRange am a
  | .masterWriteRegs _ am a _ buf len _ => buf ≠ 0 ∧ len ≠ 0 ∧ addressInRange am a
  | .masterReadRegs _ am a _ buf len _ => buf ≠ 0 ∧ len ≠ 0 ∧ addressInRange am a
  | .scanBus _ buf max => buf ≠ 0 ∧ max ≠ 0
  | _ => True

/-- A transaction that passes its checks and then waits on the HW peripheral of its instance: the instance free,
initialized and not pending, the parameters in range, and no asynchronous start (42_transactions.md R200, 45_hw_interrupt.md
R321, R322). -/
def waitsOnHw (s : State) (cmd : Instr) : Prop :=
  isTransaction cmd = true ∧ transactionOk false cmd ∧ ∃ j, cmd.index = some j ∧ j < nInst s ∧
    (row s j).config.kind = .hw ∧ (row s j).opActive = false ∧ (row s j).initialized = true ∧ pending s j = false ∧
    ((∃ a b c d e f, cmd = .masterTransmit a b c d e f ∨ cmd = .masterReceive a b c d e f) →
      (row s j).transferMode = .polling)

/-- The first `n` bytes of a buffer. -/
def bufferBytes (s : State) (buf : Word) (n : Nat) : List Byte :=
  (List.range n).map fun k => memByte s.mem (cellAddr buf k)

/-- The memory after bytes `d 0 .. d (n-1)` went to indices 0 to n-1 of a buffer. -/
def storeBytes (m : List Host.Cell) (buf : Word) (d : Nat → Byte) (n : Nat) : List Host.Cell :=
  (List.range n).foldl (fun m k => memPut m (cellAddr buf k) (d k)) m

/-- The bus-busy check of an idle bus: SDA and then SCL sampled at 1 (42_transactions.md R201). -/
def idleSamples (i : Nat) : List Event := [.sample i .sda true, .sample i .scl true]

/-- The events of bytes sent and ACKed. -/
def sentEvents (i : Nat) (d : Word) (bs : List Byte) : List Event := bs.flatMap fun b => sendEvents i d b false

/-- The events of `n` bytes `d 0 .. d (n-1)` received, all but the last ACKed (42_transactions.md R206). -/
def receivedEvents (i : Nat) (w : Word) (d : Nat → Byte) (n : Nat) : List Event :=
  (List.range n).flatMap fun k => receiveEvents i w (d k) (decide (k + 1 < n))

/-- The samples of `n` bytes `d 0 .. d (n-1)`. -/
def byteSamples (d : Nat → Byte) (n : Nat) : List Bool := (List.range n).flatMap fun k => byteBits (d k)

/-- The bytes of a write-address phase (41_address_encoder.md R185). -/
def addressBytes (am : AddrMode) (a : BitVec 10) : List Byte :=
  if am = .seven then [enc7 a .write] else [hdr10 a .write, lo10 a]

/-- The read-address byte after a START (7-bit) or a repeated START (41_address_encoder.md R186). -/
def readByte (am : AddrMode) (a : BitVec 10) : Byte := if am = .seven then enc7 a .read else hdr10 a .read

/-- What an SW bus shows of segments of ACKed bytes, each after a START or a repeated START. -/
def segmentEvents (i : Nat) (d : Word) (segs : List (List Byte)) : List Event :=
  segs.flatMap fun bs => startEvents i d ++ sentEvents i d bs

/-! ## A HW transaction whose peripheral serves every request before the next poll

A schedule in micro-steps of the command: `(n, p)` is `n` micro-steps and then step `p` of the peripheral. -/

/-- A schedule in which the peripheral of instance `i` takes each of some steps after so many micro-steps of the block,
and the block then takes `n` more. -/
def paced (i : Nat) (l : List (Nat × PeriphStep)) (n : Nat) : List Sched :=
  (l.flatMap fun e => List.replicate e.1 .block ++ [.peri i e.2]) ++ List.replicate n .block

/-- START, and the write-address bytes ACKed (44_hw_blocking.md R283). The turn before a command's first micro-step is that
of the host's move before it, so it is no part of the command's schedule. -/
def startPaces (am : AddrMode) : List (Nat × PeriphStep) :=
  [(2, .startGen), (3, .addrSend .ack)] ++ if am = .seven then [] else [(3, .loSend .ack)]

/-- The bytes of a transmit body ACKed; `c` is 1 for a byte read from a buffer, which takes one micro-step more
(44_hw_blocking.md R285). -/
def sendPaces : List Nat → List (Nat × PeriphStep)
  | [] => []
  | c :: cs => (7 + c, .txByte .ack) :: cs.map fun c => (3 + c, .txByte .ack)

/-- `n` bytes `d 0 .. d (n-1)` received, and the micro-steps after the last (44_hw_blocking.md R286). -/
def receivePaces (d : Nat → Byte) (n : Nat) : List (Nat × PeriphStep) :=
  if n = 1 then [(6, .rxByte (d 0))]
  else (List.range n).map fun k => (if k = 0 then 5 else if k + 1 = n then 5 else 4, .rxByte (d k))

/-- The micro-steps after the last byte received. -/
def receiveEnd (n : Nat) : Nat := if n = 1 then 4 else 5

/-- A byte written to DR. -/
def drEvent (i : Nat) (b : Byte) : Event := .csrW i .dr 0x00FF (b.setWidth 16)

/-- The accesses of `HW_Start` (44_hw_blocking.md R283). -/
def hwStartEvents (i : Nat) : List Event := [.csrW i .cr1 0x0100 0x0100, .csrR i .sr1 0x0001]

/-- The accesses of `HW_AW` (44_hw_blocking.md R283). -/
def hwAddressEvents (i : Nat) (am : AddrMode) (a : BitVec 10) : List Event :=
  if am = .seven then [drEvent i (enc7 a .write), .csrR i .sr1 0x0002]
  else [drEvent i (hdr10 a .write), .csrR i .sr1 0x0008, drEvent i (lo10 a), .csrR i .sr1 0x0002]

/-- `ClearADDR()` of a master transmitter (44_hw_blocking.md R283). -/
def hwClearTxEvents (i : Nat) : List Event := [.csrR i .sr1 0x0002, .csrR i .sr2 0x0007]

/-- The accesses of `HW_TxBody` (44_hw_blocking.md R285). -/
def hwSendEvents (i : Nat) : List Byte → List Event
  | [] => []
  | b :: bs => hwClearTxEvents i ++ [.csrR i .sr1 0x0080, drEvent i b] ++
      (bs.flatMap fun b => [.csrR i .sr1 0x0084, drEvent i b]) ++ [.csrR i .sr1 0x0084]

/-- The accesses of `HW_RxOne` and of `HW_RxMany` (44_hw_blocking.md R286): ACK is cleared before byte n-2 is read. -/
def hwReceiveEvents (i : Nat) (d : Nat → Byte) (n : Nat) : List Event :=
  if n = 1 then
    [.csrW i .cr1 0x0400 0, .csrR i .sr1 0x0002, .csrR i .sr2 0x0003, .csrW i .cr1 0x0200 0x0200,
      .csrR i .sr1 0x0040, .csrR i .dr ((d 0).setWidth 16)]
  else
    [.csrW i .cr1 0x0400 0x0400, .csrR i .sr1 0x0002, .csrR i .sr2 0x0003] ++
      ((List.range n).flatMap fun k => [Event.csrR i .sr1 0x0040] ++
        (if k + 2 = n then [Event.csrW i .cr1 0x0400 0] else []) ++ [.csrR i .dr ((d k).setWidth 16)]) ++
      [.csrW i .cr1 0x0200 0x0200]

/-- What an HW bus shows of bytes sent and ACKed, in order. -/
def sentSyms (bs : List Byte) : List BusSym := bs.flatMap fun b => [.sent b, .ack]

/-- What an HW bus shows of `n` bytes received, all but the last ACKed, in order. -/
def receivedSyms (d : Nat → Byte) (n : Nat) : List BusSym :=
  (List.range n).flatMap fun k => [.received (d k), if k + 1 < n then .ack else .nack]

/-- `s` after a blocking HW command that returned Ok: the schedule used up to `rest`, the tick counter read. -/
def servedState (s : State) (i : Nat) (rest : List Sched) : State :=
  setRow { s with sched := rest, lastNow := s.ticks } i { row s i with lastError := .ok }

end Sys2Proof.Machine
end

