-- ==== Sys2Proof/Certificates/Slice0/Obligations.lean ====
section
/-! DEFINITION. The statements about the model. -/

open Sys2Proof Sys2Proof.Machine

/-- Every operand bit of every instruction survives encoding and decoding (30_encoding.md R100 to R105, R117). Derived: the encoder is the model's. -/
def Obligations.DecodeEncode : Prop :=
  ∀ i : Instr, i.wf = true → decode (encode i) = .ok i

/-- No bit of a decoded header is dropped: reserved and unused fields were 0 (30_encoding.md R103, R105, R117). -/
def Obligations.DecodedHeader : Prop :=
  ∀ (w : Words) (i : Instr), decode w = .ok i → i.wf = true ∧ (encode i).h = w.h

/-- 30_encoding.md R104 and R114, for every header. The last clause is what refusing means for the host's move: the outcome holds no state. -/
def Obligations.HostWordsRefused : Prop :=
  (∀ w : Words, ((opOf w.h).toNat = 0x00 ∨ (0x0B ≤ (opOf w.h).toNat ∧ (opOf w.h).toNat ≤ 0x0F) ∨
      (0x17 ≤ (opOf w.h).toNat ∧ (opOf w.h).toNat ≤ 0x1F) ∨ (0x25 ≤ (opOf w.h).toNat ∧ (opOf w.h).toNat ≤ 0x2F) ∨
      0x32 ≤ (opOf w.h).toNat) → decodeHost w = .error (.reservedOp (opOf w.h))) ∧
  (∀ w : Words, (opOf w.h = 0x30#8 ∨ opOf w.h = 0x31#8) → ∃ r, decodeHost w = .error r) ∧
  (∀ (w : Words) (i : Instr), decodeHost w = .ok i →
    ((0x01 ≤ (opOf w.h).toNat ∧ (opOf w.h).toNat ≤ 0x0A) ∨ (0x10 ≤ (opOf w.h).toNat ∧ (opOf w.h).toNat ≤ 0x16) ∨
      (0x20 ≤ (opOf w.h).toNat ∧ (opOf w.h).toNat ≤ 0x24))) ∧
  ∀ (w : Words) (r : Reject) (s : State), decodeHost w = .error r →
    hostMove (.command w) s = .refused (.illegalCommand r)

/-- 30_encoding.md R103 and the field table of R102, for every header. -/
def Obligations.ReservedHeaderBits : Prop :=
  ∀ (w : Words) (i : Instr), decode w = .ok i →
  w.h.extractLsb' 14 2 = 0 ∧ w.h.extractLsb' 26 6 = 0 ∧
  (w.h.getLsbD 12 = true → (opOf w.h).toNat = 0x0A ∨ (0x10 ≤ (opOf w.h).toNat ∧ (opOf w.h).toNat ≤ 0x15)) ∧
  (w.h.getLsbD 13 = true → opOf w.h = 0x03#8 ∨ opOf w.h = 0x0A#8 ∨ opOf w.h = 0x24#8) ∧
  (w.h.extractLsb' 16 10 ≠ 0 → (opOf w.h).toNat = 0x0A ∨ (0x10 ≤ (opOf w.h).toNat ∧ (opOf w.h).toNat ≤ 0x15)) ∧
  (w.h.extractLsb' 8 4 ≠ 0 → opOf w.h ≠ 0x0A#8)

/-- A sanity statement: words from 95_test_vectors.md and 30_encoding.md R105. -/
def Obligations.DecodeWords : Prop :=
  decodeHost ⟨0x00000001, 0, 0, 0⟩ = .ok (.init 0) ∧
  decodeHost ⟨0x00002103, 0, 0, 0⟩ = .ok (.setTransferMode 1 .interrupt) ∧
  decodeHost ⟨0x02A5100A, 0, 0, 0⟩ = .ok (.encodeAddress .ten .write 0x2A5) ∧
  decodeHost ⟨0x0000300A, 0, 0, 0⟩ = .ok (.encodeAddress .ten .read 0) ∧
  decodeHost ⟨0x00500012, 0x0000800E, 0, 0x00000064⟩ = .ok (.masterWriteReg 0 .seven 0x50 0x0E 0x80 100) ∧
  decodeHost ⟨0x03FF1011, 0x00020000, 7, 9⟩ = .ok (.masterReceive 0 .ten 0x3FF 7 2 9) ∧
  decodeHost ⟨0x00002024, 0, 0, 0⟩ = .ok (.blReceiveByte 0 true) ∧
  decodeHost ⟨0x00000023, 0x0000A000, 0, 0⟩ = .ok (.blSendByte 0 0xA0) ∧
  decodeHost ⟨0x003C0510, 0x00010000, 1, 0⟩ = .ok (.masterTransmit 5 .seven 0x3C 1 1 0) ∧
  decode ⟨0x00000030, 0, 0, 0⟩ = .ok (.evIrq 0) ∧ decode ⟨0x00000131, 0, 0, 0⟩ = .ok (.erIrq 1) ∧
  decodeHost ⟨0x00000030, 0, 0, 0⟩ = .error (.internalOp 0x30) ∧
  decodeHost ⟨0x00000131, 0, 0, 0⟩ = .error (.internalOp 0x31)

/-- How the per-instruction statements reach a run (log entries 1, 2, 12 and 24: the big step and the record of the words are the model's choice). NoFault: no mark is set (60_exceptions.md R401, log entry 31). -/
def Obligations.StepRunsDecoded : Prop :=
  (∀ (s u : State) (w : Words) (as : List HostAct) (i : Instr), NoFault s → s.seq = none → turn none s = .next u →
    u.host = .command w :: as → decodeHost w = .ok i → step s = exec i { u with host := as, words := w }) ∧
  (∀ (s u : State) (w : Words) (as : List HostAct) (r : Reject), NoFault s → s.seq = none → turn none s = .next u →
    u.host = .command w :: as → decodeHost w = .error r → step s = .refused (.illegalCommand r)) ∧
  (∀ (s : State) (es : List Sched) (lent : Option (Nat × Word)), s.sched = .block :: es →
    turn lent s = .next { s with sched := es }) ∧
  (∀ (s : State) (lent : Option (Nat × Word)), s.sched = [] → turn lent s = .next s) ∧
  (∀ s u : State, NoFault s → s.seq = none → turn none s = .next u → u.host = [] → step s = .next u) ∧
  (∀ (s : State) (q : Seq), NoFault s → s.seq = some q →
    step s = run (turn (lentBy q.cmd)) (turn (lentBy q.cmd)) ⟨q.inst, q.cmd, q.words, false⟩ q.ops q.scr
      { s with seq := none }) ∧
  (∀ (s : State) (f : Fault), s.mark = some (.fault f) → step s = .fault f) ∧
  (∀ (s : State) (r : Refusal), s.mark = some (.refused r) → step s = .refused r)

/-- 70_reset_and_hazards.md R450. The parameters of State.reset itself are the model's choice (log entry 8), the tick counter is free (log entry 5). -/
def Obligations.PowerOnValues : Prop :=
  (∀ (par : Params) (cs : List InstConfig) (i : Nat) (hi : i < cs.length),
    let s := State.powerOn par cs
    nInst s = cs.length ∧ s.peri.length = cs.length ∧ s.seq = none ∧ NoFault s ∧ s.par = par ∧
    (row s i).config = cs[i] ∧ (row s i).initialized = false ∧ (row s i).transferMode = .polling ∧
    (row s i).callback = 0 ∧ (row s i).userData = 0 ∧ (row s i).lastError = .ok ∧ (row s i).opActive = false ∧
    (row s i).nvicEn = false ∧ (row s i).drvSCL = true ∧ (row s i).drvSDA = true ∧
    (row s i).xfer = ⟨.idle, 0, 0, 0, 0, .write, .ok⟩ ∧
    (dev s i).cr1 = 0 ∧ (dev s i).cr2 = 0 ∧ (dev s i).oar1 = 0 ∧ (dev s i).oar2 = 0 ∧ (dev s i).dr = 0 ∧
    (dev s i).sr1 = 0 ∧ (dev s i).sr2 = 0 ∧ (dev s i).ccr = 0 ∧ (dev s i).trise = 2 ∧ (dev s i).ph = .idle ∧
    (dev s i).pendDR = false ∧ (dev s i).arw = false ∧ (dev s i).snap = 0) ∧
  State.reset = State.powerOn Config.params Config.table

/-- The start of the induction of InvStep. That reset has two instances is the model's choice (log entry 8). -/
def Obligations.InvAtReset : Prop :=
  (∀ (par : Params) (cs : List InstConfig), Inv (State.powerOn par cs)) ∧ Inv State.reset ∧
  (∀ (par : Params) (cs : List InstConfig), 1 ≤ cs.length → cs.length ≤ 16 → par.insts.length = cs.length →
    par.prioEv < par.prioEr → ParamsOk (State.powerOn par cs)) ∧ ParamsOk State.reset

/-- 43_hw_peripheral.md R251 and 10_state.md R37, R40, R50, R55, over every step of every command, handler, callback and peripheral, whatever the schedule. -/
def Obligations.InvStep : Prop :=
  ∀ s t : State, Inv s → step s = .next t → Inv t

/-- 10_state.md R21, R24, R31: fixed at launch, whatever the step does. -/
def Obligations.StepKeepsParameters : Prop :=
  ∀ s t : State, Inv s → step s = .next t →
  t.par = s.par ∧ configsOf t = configsOf s ∧ t.bufs = s.bufs ∧ nInst t = nInst s ∧ t.peri.length = s.peri.length ∧
  (ParamsOk s → ParamsOk t)

/-- The frame of every host command over the Instance State Table. A handler given a turn may change other rows (45_hw_interrupt.md R335), so none is. -/
def Obligations.OwnRowAlone : Prop :=
  ∀ (cmd : Instr) (s t : State), cmd.internal = false → NoIrq s → exec cmd s = .next t →
  (∀ j : Nat, cmd.index ≠ some j → row t j = row s j) ∧ configsOf t = configsOf s

/-- 41_address_encoder.md R181, R183, R184, in numbers. -/
def Obligations.EncodeAddressBytes : Prop :=
  ∀ (a : BitVec 10) (rw : Dir),
    (enc7 a rw).toNat = 2 * (a.toNat % 128) + (if rw = .read then 1 else 0) ∧
    (a.toNat ≤ 0x7F → enc7 a rw = a.setWidth 8 <<< 1 ||| (if rw = .read then 1 else 0)) ∧
    (hdr10 a rw).toNat = 0xF0 + 2 * (a.toNat / 256) + (if rw = .read then 1 else 0) ∧
    0xF0 ≤ (hdr10 a rw).toNat ∧ (hdr10 a rw).toNat ≤ 0xF7 ∧ (lo10 a).toNat = a.toNat % 256 ∧
    enc7 0x00 .write = 0x00 ∧ enc7 0x7F .read = 0xFF ∧ enc7 0x50 .write = 0xA0 ∧ enc7 0x50 .read = 0xA1 ∧
    hdr10 0x2A5 .write = 0xF4 ∧ hdr10 0x3FF .read = 0xF7 ∧ lo10 0x2A5 = 0xA5

/-- 41_address_encoder.md R187: completion, result and frame. -/
def Obligations.EncodeAddressCommand : Prop :=
  ∀ (s : State) (rw : Dir) (a : BitVec 10),
  (a.toNat ≤ 0x7F → exec (.encodeAddress .seven rw a) s =
    .next (tracing s [Event.resp (.encodeAddress .seven rw a) { n := 1, byte := enc7 a rw }])) ∧
  (0x7F < a.toNat → exec (.encodeAddress .seven rw a) s =
    .next (tracing s [Event.resp (.encodeAddress .seven rw a) { status := .invalidParameter }])) ∧
  exec (.encodeAddress .ten rw a) s =
    .next (tracing s [Event.resp (.encodeAddress .ten rw a) { n := 2, byte := hdr10 a rw, byte1 := lo10 a }])

/-- 41_address_encoder.md R189. The block does not prevent it: AddrValid accepts them. -/
def Obligations.ReservedAddresses : Prop :=
  (∀ (a : BitVec 10) (rw : Dir), 0x78 ≤ a.toNat → a.toNat ≤ 0x7B →
    addrValid .seven a = true ∧ 0xF0 ≤ (enc7 a rw).toNat ∧ (enc7 a rw).toNat ≤ 0xF7 ∧
    ∃ b : BitVec 10, hdr10 b rw = enc7 a rw) ∧
  (∀ (b : BitVec 10) (rw : Dir), ∃ a : BitVec 10, 0x78 ≤ a.toNat ∧ a.toNat ≤ 0x7B ∧ enc7 a rw = hdr10 b rw) ∧
  ∀ a ∈ scanRange, a.toNat < 0x78

/-- 40_bit_level.md R143, R144, R150, R152. AgentsMoved: the state named, but for what the choices taken off the schedule moved in the peripherals and the clock, which is nothing where the schedule is empty. -/
def Obligations.BlStart : Prop :=
  ∀ (s : State) (i : Nat) (cmd : Instr), Initialized s [i] → (row s i).config.kind = .sw → NoIrq s →
  (cmd = .blStart i ∧ (row s i).drvSCL = true ∨ cmd = .blRestart i ∧ (row s i).drvSCL = false) →
  ∃ t, exec cmd s = .next t ∧
    AgentsMoved (returned s i false false .ok cmd {}
      [Event.pin i .sda true, .delay i (delayOf s i), .pin i .scl true, .delay i (delayOf s i), .pin i .sda false,
        .delay i (delayOf s i), .pin i .scl false, .delay i (delayOf s i)]) t

/-- 40_bit_level.md R145, R151. -/
def Obligations.BlStop : Prop :=
  ∀ (s : State) (i : Nat), Initialized s [i] → (row s i).config.kind = .sw → NoIrq s →
  (row s i).drvSCL = false → ∃ t, exec (.blStop i) s = .next t ∧
  AgentsMoved (returned s i true true .ok (.blStop i) {}
    [Event.pin i .sda false, .delay i (delayOf s i), .pin i .scl true, .delay i (delayOf s i), .pin i .sda true,
      .delay i (delayOf s i)]) t

/-- 40_bit_level.md R157. The ends of a step are ends of commands and of primitives: an SW command never waits (log entry 1). -/
def Obligations.DriveBoundary : Prop :=
  (∀ s t : State, AtBoundary s → step s = .next t → AtBoundary t) ∧
  (∀ (par : Params) (cs : List InstConfig), AtBoundary (State.powerOn par cs)) ∧
  (∀ (s : State) (i : Nat), AtBoundary s → i < nInst s → (row s i).config.kind = .sw →
    ((row s i).drvSCL, (row s i).drvSDA) ∈ [(true, true), (false, false), (false, true)])

/-- 40_bit_level.md R146, R153. The level is the peers' drive, since the block releases SDA in the ninth clock (R141). -/
def Obligations.BlSendByte : Prop :=
  ∀ (s : State) (i : Nat) (v : Byte), Initialized s [i] → (row s i).config.kind = .sw → NoIrq s →
  (row s i).drvSCL = false →
  ∃ t, exec (.blSendByte i v) s = .next t ∧
    AgentsMoved (returned { s with env := (drawSample s).2.env } i false true .ok (.blSendByte i v)
      { flag := !(drawSample s).1 } (sendEvents i (delayOf s i) v (drawSample s).1)) t

/-- 40_bit_level.md R147, R154, for scripted draws and free ones (log entry 3). -/
def Obligations.BlReceiveByte : Prop :=
  ∀ (s : State) (i : Nat) (ack : Bool), Initialized s [i] → (row s i).config.kind = .sw → NoIrq s →
  (row s i).drvSCL = false →
  ∃ (v : Byte) (t : State), byteBits v = (drawSamples 8 s).1 ∧ exec (.blReceiveByte i ack) s = .next t ∧
    AgentsMoved (returned { s with env := (drawSamples 8 s).2.env } i false true .ok (.blReceiveByte i ack) { byte := v }
      (receiveEvents i (delayOf s i) v ack)) t

/-- 40_bit_level.md R150 to R154, their guards: where these commands turn the host away. -/
def Obligations.BlGuards : Prop :=
  ∀ (s : State) (i : Nat) (cmd : Instr) (v : Byte) (ack : Bool), i < nInst s → (row s i).initialized = true →
  (row s i).opActive = false →
  (cmd = .blStart i ∧ ((row s i).config.kind = .hw ∨ (row s i).drvSCL = false) ∨
    (cmd = .blStop i ∨ cmd = .blRestart i ∨ cmd = .blSendByte i v ∨ cmd = .blReceiveByte i ack) ∧
      ((row s i).config.kind = .hw ∨ (row s i).drvSCL = true)) →
  exec cmd s = .next (returned s i (row s i).drvSCL (row s i).drvSDA .invalidParameter cmd {} [])

/-- 40_bit_level.md R148, R149, whatever the drive was before; R156 counts the delays. -/
def Obligations.SoftwareResetSW : Prop :=
  ∀ (s : State) (i : Nat), Initialized s [i] → (row s i).config.kind = .sw → NoIrq s →
  resetEvents i (delayOf s i) = [Event.pin i .sda true, .pin i .scl true, .delay i (delayOf s i)] ++
    (List.replicate 9 [Event.pin i .scl false, .delay i (delayOf s i), .pin i .scl true, .delay i (delayOf s i)]).flatten ++
    startEvents i (delayOf s i) ++ stopEvents i (delayOf s i) ∧
  delayCount (resetEvents i (delayOf s i)) = 26 ∧
  ∃ t, exec (.softwareReset i) s = .next t ∧
    AgentsMoved (returned s i true true .ok (.softwareReset i) {} (resetEvents i (delayOf s i))) t

/-- 40_bit_level.md R149 and its OPEN parameter (00_scope.md R8). What a value of it is made of, and the Ok of a value that goes on with the command, are the model's choice (log entry 9). That a read of SR2 or of DR forgets the SR1 read before it even where it clears no flag is the model's choice (log entry 33). -/
def Obligations.SoftwareResetHW : Prop :=
  ∀ (s : State) (i : Nat), i < nInst s → i < s.peri.length → (row s i).config.kind = .hw →
  (row s i).initialized = true → (row s i).opActive = false →
  let cmd : Instr := .softwareReset i
  let pol := (instParams s.par i).hwSoftwareReset
  let back := fun (u : State) (st : Status) (es : List Event) => returned u i (row s i).drvSCL (row s i).drvSDA st cmd {} es
  (pending s i = true → exec cmd s = .next (back s .busy [])) ∧
  (pending s i = false →
    (pol = Policy.refuse → exec cmd s = .refused (.hwSoftwareReset i)) ∧
    exec cmd s = run noTurn (turn none) ⟨i, cmd, s.words, false⟩ [.apply .hwSoftwareReset pol] {}
      (setRow s i { row s i with opActive := true }) ∧
    ∀ (st : Status) (last : PolicyProg) (jumps : List PolicyProg), last = .ret st ∨ last = .rest ∧ st = .ok →
      (pol = ⟨last, jumps⟩ → exec cmd s = .next (back s st [])) ∧
      (pol = ⟨.act (.write (.swrst true)) last, jumps⟩ → ∃ t, exec cmd s = .next t ∧
        t = setDev (back s st [Event.csrW i .cr1 0x8000 0x8000]) i (dev t i) ∧
        dev t i = { Periph.reset with wire := (dev t i).wire }) ∧
      (pol = ⟨.act (.read 0 .sr2) (.test (.eq (.and (.var 0) (.const 2)) (.const 0)) last (.jump 0)), jumps⟩ →
        let u := tracing (setDev s i (periphReadSR2 (dev s i))) [Event.csrR i .sr2 (dev s i).sr2]
        ((dev s i).sr2.getLsbD 1 = false → exec cmd s = .next (back u st [])) ∧
        ((dev s i).sr2.getLsbD 1 = true → exec cmd s = .next { setRow u i { row s i with opActive := true } with
          seq := some ⟨i, cmd, s.words, [.apply .hwSoftwareReset pol],
            { vars := [(dev s i).sr2.setWidth 32], acted := true, next := some 0 }⟩ })))

/-- 46_instance.md R360. The list of pin calls is the model's (log entry 19). -/
def Obligations.InitSW : Prop :=
  ∀ (s : State) (i : Nat) (xs : List Bool), i < nInst s → (row s i).config.kind = .sw → (row s i).initialized = false →
  (row s i).opActive = false → NoIrq s → Accepted s i →
  s.env.pinResults = true :: true :: xs →
  let c := (row s i).config
  ∃ t, exec (.init i) s = .next t ∧
    AgentsMoved (tracing (setRow { s with
        env := { s.env with pinResults := xs }
        pinLog := [.configure c.sdaPort c.sdaPin .openDrainOutput s.par.pinSpeed true,
          .configure c.sclPort c.sclPin .openDrainOutput s.par.pinSpeed true,
          .enableClock c.sdaPort, .enableClock c.sclPort] ++ s.pinLog } i
      { row s i with
        initialized := true, transferMode := .polling, xfer := ⟨.idle, 0, 0, 0, 0, .write, .ok⟩,
        drvSCL := true, drvSDA := true, lastError := .ok })
      [Event.pin i .scl true, .pin i .sda true, .resp (.init i) {}]) t

/-- 46_instance.md R360, R361: where INIT stops early. The pin mode is open-drain output for SW, alternate function for HW. The list of pin calls is the model's (log entry 19); that a configuration which names another row's pins or peripheral is not accepted is read from 60_exceptions.md R414 (log entry 29). -/
def Obligations.InitTurnedAway : Prop :=
  ∀ (s : State) (i : Nat) (xs : List Bool), i < nInst s → (row s i).opActive = false → NoIrq s →
  let c := (row s i).config
  let mode : PinMode := if c.kind = .sw then .openDrainOutput else .altFunctionOpenDrain
  let back := fun (u : State) (st : Status) =>
    tracing (setRow u i { row s i with lastError := st }) [Event.resp (.init i) { status := st }]
  ((row s i).initialized = true → exec (.init i) s = .next (back s .ok)) ∧
  ((row s i).initialized = false → ¬ Accepted s i →
    exec (.init i) s = .next (back s .invalidParameter)) ∧
  ((row s i).initialized = false → Accepted s i → s.env.pinResults = false :: xs →
    ∃ t, exec (.init i) s = .next t ∧ AgentsMoved (back { s with
      env := { s.env with pinResults := xs }
      pinLog := [.configure c.sclPort c.sclPin mode s.par.pinSpeed false, .enableClock c.sdaPort,
        .enableClock c.sclPort] ++ s.pinLog } .gpioFailure) t) ∧
  ((row s i).initialized = false → Accepted s i →
    s.env.pinResults = true :: false :: xs →
    ∃ t, exec (.init i) s = .next t ∧ AgentsMoved (back { s with
      env := { s.env with pinResults := xs }
      pinLog := [.configure c.sdaPort c.sdaPin mode s.par.pinSpeed false,
        .configure c.sclPort c.sclPin mode s.par.pinSpeed true, .enableClock c.sdaPort,
        .enableClock c.sclPort] ++ s.pinLog } .gpioFailure) t)

/-- 46_instance.md R361. The list of pin calls is the model's (log entry 19), and a CSR write names its bits by a mask (log entry 14). -/
def Obligations.InitHW : Prop :=
  ∀ (s : State) (i : Nat) (xs : List Bool), i < nInst s → i < s.peri.length → (row s i).config.kind = .hw →
  (row s i).initialized = false → (row s i).opActive = false → s.sched = [] →
  Accepted s i → (dev s i).cr1 = 0 → s.env.pinResults = true :: true :: xs →
  let c := (row s i).config
  let r := (instParams s.par i).speed
  let own : Half := BitVec.ofNat 16 (0x4000 + 2 * (c.ownAddress.toNat % 128))
  ∃ t, exec (.init i) s = .next t ∧
    t = tracing (setDev (setRow { s with
        env := { s.env with pinResults := xs }
        pinLog := [.configure c.sdaPort c.sdaPin .altFunctionOpenDrain s.par.pinSpeed true,
          .configure c.sclPort c.sclPin .altFunctionOpenDrain s.par.pinSpeed true,
          .enableClock c.sdaPort, .enableClock c.sclPort] ++ s.pinLog } i
      { row s i with
        initialized := true, transferMode := .polling, xfer := ⟨.idle, 0, 0, 0, 0, .write, .ok⟩,
        nvicEn := false, lastError := .ok }) i
      { dev s i with
        cr1 := 0x0401, cr2 := r.freq.setWidth 16, ccr := ccrValue r, trise := r.trise.setWidth 16,
        oar1 := own, ph := .idle })
      [Event.csrW i .cr1 0x0001 0, .csrW i .cr2 0xFFFF (r.freq.setWidth 16), .csrW i .ccr 0xFFFF (ccrValue r),
        .csrW i .trise 0xFFFF (r.trise.setWidth 16), .csrW i .oar1 0xFFFF own, .csrW i .cr1 0x0001 0x0001,
        .csrW i .cr1 0x0400 0x0400, .resp (.init i) {}]

/-- 46_instance.md R362. An HW instance that is not initialized takes the second clause. -/
def Obligations.DeinitSW : Prop :=
  (∀ (s : State) (i : Nat), Initialized s [i] → (row s i).config.kind = .sw → NoIrq s →
    ∃ t, exec (.deinit i) s = .next t ∧
    AgentsMoved (tracing (setRow s i (Inst.reset (row s i).config))
      [Event.pin i .scl true, .pin i .sda true, .resp (.deinit i) {}]) t) ∧
  (∀ (s : State) (i : Nat), i < nInst s → (row s i).initialized = false → (row s i).opActive = false →
    pending s i = false →
    exec (.deinit i) s = .next (tracing (setRow s i (Inst.reset (row s i).config)) [Event.resp (.deinit i) {}]))

/-- 46_instance.md R362, 43_hw_peripheral.md R264. That the three clears are three accesses, and what a value of the OPEN parameter is made of, are the model's choice (log entries 14 and 10). -/
def Obligations.DeinitHW : Prop :=
  (∀ (s : State) (i : Nat), Initialized s [i] → (row s i).config.kind = .hw → i < s.peri.length → s.sched = [] →
    (pending s i = true → ∃ jumps, (instParams s.par i).deinitWhilePending = ⟨.rest, jumps⟩) →
    (dev s i).cr1.getLsbD 0 = true → (dev s i).cr1.getLsbD 15 = false →
    let p := dev s i
    exec (.deinit i) s = .next (tracing (setDev (setRow s i (Inst.reset (row s i).config)) i
      { p with
        cr1 := p.cr1 &&& ~~~0x0701, cr2 := p.cr2 &&& ~~~0x0700, sr1 := 0, sr2 := 0, ph := .idle,
        pendDR := false, snap := 0, wire := if p.sr2.getLsbD 0 then .release :: p.wire else p.wire })
      [Event.csrW i .cr2 0x0200 0, .csrW i .cr2 0x0400 0, .csrW i .cr2 0x0100 0, .csrW i .cr1 0x0001 0,
        .resp (.deinit i) {}])) ∧
  (∀ (s : State) (i : Nat), i < nInst s → (row s i).config.kind = .hw → (row s i).opActive = false →
    pending s i = true →
    let pol := (instParams s.par i).deinitWhilePending
    (pol = Policy.refuse → exec (.deinit i) s = .refused (.deinitWhilePending i)) ∧
    (∀ st jumps, pol = ⟨.ret st, jumps⟩ ∨ pol = ⟨.act (.write (.swrst true)) (.ret st), jumps⟩ →
      exec (.deinit i) s = .next (tracing s [Event.resp (.deinit i) { status := st }])) ∧
    (∀ jumps, pol = ⟨.act (.store (.initialized false)) .rest, jumps⟩ →
      exec (.deinit i) s = .next (tracing (setRow s i (Inst.reset (row s i).config)) [Event.resp (.deinit i) {}])) ∧
    exec (.deinit i) s = run noTurn (turn none) ⟨i, .deinit i, s.words, false⟩
      [.apply .deinitWhilePending pol, .shutDown, .resetRow] {} (setRow s i { row s i with opActive := true }))

/-- 46_instance.md R363. That the three clears are three accesses is the model's choice (log entry 14). -/
def Obligations.SetTransferMode : Prop :=
  ∀ (s : State) (i : Nat) (m : TransferMode), i < nInst s → (row s i).initialized = true →
  (row s i).opActive = false →
  ((row s i).config.kind = .sw → exec (.setTransferMode i m) s =
    .next (tracing (setRow s i { row s i with transferMode := m }) [Event.resp (.setTransferMode i m) {}])) ∧
  ((row s i).config.kind = .hw → exec (.setTransferMode i .interrupt) s =
    .next (tracing (setRow s i { row s i with transferMode := .interrupt, nvicEn := true })
      [Event.resp (.setTransferMode i .interrupt) {}])) ∧
  ((row s i).config.kind = .hw → i < s.peri.length → s.sched = [] →
    let x := (row s i).xfer
    exec (.setTransferMode i .polling) s =
      .next (tracing (setDev (setRow s i { row s i with
          nvicEn := false, transferMode := .polling
          xfer := if x.state = .startSent ∨ x.state = .addressPhase ∨ x.state = .dataPhase
            then { x with state := .idle, buf := 0 } else x }) i
        { dev s i with cr2 := (dev s i).cr2 &&& ~~~0x0700 })
        [Event.csrW i .cr2 0x0200 0, .csrW i .cr2 0x0400 0, .csrW i .cr2 0x0100 0,
          .resp (.setTransferMode i .polling) {}]))

/-- 46_instance.md R364, R365, R367, 45_hw_interrupt.md R336: completion, result and frame. No re-entry check (R369). The codes: 30_encoding.md R106, R107, 10_state.md R33. -/
def Obligations.QueriesAndCallback : Prop :=
  ∀ (s : State) (i : Nat) (cb ud : Word), i < nInst s →
  exec (.setCallback i cb ud) s = .next (tracing (setRow s i { row s i with callback := cb, userData := ud })
    [Event.resp (.setCallback i cb ud) {}]) ∧
  exec (.isInitialized i) s = .next (tracing s [Event.resp (.isInitialized i) { flag := (row s i).initialized }]) ∧
  exec (.getConfig i) s = .next (tracing s [Event.resp (.getConfig i) { config := some (row s i).config }]) ∧
  exec (.getXferStatus i) s = .next (tracing s [Event.resp (.getXferStatus i)
    { xfer := some (row s i).xfer, byte := (row s i).lastError.code,
      flag := decide ((row s i).xfer.state = .startSent ∨ (row s i).xfer.state = .addressPhase ∨
        (row s i).xfer.state = .dataPhase) }]) ∧
  (Status.ok.code = 0 ∧ Status.notInitialized.code = 1 ∧ Status.invalidParameter.code = 2 ∧
    Status.gpioFailure.code = 3 ∧ Status.busy.code = 4 ∧ Status.timeout.code = 5 ∧ Status.nack.code = 6 ∧
    Status.arbitrationLost.code = 7 ∧ Status.busError.code = 8) ∧
  (XState.idle.code = 0 ∧ XState.startSent.code = 1 ∧ XState.addressPhase.code = 2 ∧ XState.dataPhase.code = 3 ∧
    XState.complete.code = 4) ∧
  (kindCode .sw = 0 ∧ kindCode .hw = 1 ∧ TransferMode.polling.bit.toNat = 0 ∧ TransferMode.interrupt.bit.toNat = 1 ∧
    Dir.write.bit.toNat = 0 ∧ Dir.read.bit.toNat = 1)

/-- 46_instance.md R366: completion, result and frame. The turn between the two reads follows 20_memory.md R94 (log entry 30). That a read of SR2 or of DR forgets the SR1 read before it even where it clears no flag is the model's choice (log entry 33). -/
def Obligations.IsBusBusy : Prop :=
  ∀ (s : State) (i : Nat), i < nInst s →
  ((row s i).initialized = false →
    exec (.isBusBusy i) s = .next (tracing s [Event.resp (.isBusBusy i) { status := .notInitialized }])) ∧
  ((row s i).initialized = true → (row s i).config.kind = .sw → NoIrq s →
    let a := (row s i).drvSDA && (drawSample s).1
    let b := (row s i).drvSCL && (drawSample (drawSample s).2).1
    ∃ t, exec (.isBusBusy i) s = .next t ∧ AgentsMoved (tracing { s with env := (drawSamples 2 s).2.env }
      [Event.sample i .sda a, .sample i .scl b, .resp (.isBusBusy i) { flag := !a || !b }]) t) ∧
  ((row s i).initialized = true → (row s i).config.kind = .hw →
    exec (.isBusBusy i) s = .next (tracing (setDev s i (periphReadSR2 (dev s i)))
      [Event.csrR i .sr2 (dev s i).sr2, .resp (.isBusBusy i) { flag := (dev s i).sr2.getLsbD 1 }]))

/-- 46_instance.md R370. -/
def Obligations.BadIndex : Prop :=
  ∀ (cmd : Instr) (i : Nat) (s : State), cmd.internal = false → cmd.index = some i → nInst s ≤ i →
  exec cmd s = .next (tracing s [Event.resp cmd { status := .invalidParameter }])

/-- 46_instance.md R369: when it stops. -/
def Obligations.Reentrant : Prop :=
  ∀ (cmd : Instr) (i : Nat) (s : State), cmd.internal = false → cmd.index = some i → i < nInst s →
  (∀ c d, cmd ≠ .setCallback i c d) → cmd ≠ .isInitialized i → cmd ≠ .isBusBusy i →
  cmd ≠ .getConfig i → cmd ≠ .getXferStatus i → (row s i).opActive = true →
  exec cmd s = .fault (.reentrant ⟨some s.words, i, 369⟩) ∧
  ∀ (w : Words) (lent : Option (Nat × Word)) (as : List HostAct), decodeHost w = .ok cmd →
    nestedActs lent (.command w :: as) s = .fault (.reentrant ⟨some w, i, 369⟩)

/-- 42_transactions.md R200 step 3, 46_instance.md R363, R368: where these commands turn the host away. -/
def Obligations.NotInitialized : Prop :=
  ∀ (cmd : Instr) (i : Nat) (s : State), cmd.index = some i → i < nInst s → (row s i).opActive = false →
  (row s i).initialized = false →
  (isTransaction cmd = true ∨ cmd = .softwareReset i ∨ cmd = .blStart i ∨ cmd = .blStop i ∨ cmd = .blRestart i ∨
    (∃ v, cmd = .blSendByte i v) ∨ (∃ a, cmd = .blReceiveByte i a) →
    exec cmd s = .next (tracing (setRow s i { row s i with lastError := .notInitialized })
      [Event.resp cmd { status := .notInitialized }])) ∧
  (∀ m, cmd = .setTransferMode i m → exec cmd s = .next (tracing s [Event.resp cmd { status := .notInitialized }]))

/-- 41_address_encoder.md R180; the other parameters are those of 42_transactions.md R200 step 4. -/
def Obligations.ParameterChecks : Prop :=
  (∀ a : BitVec 10, (addrValid .seven a = true ↔ a.toNat ≤ 0x7F) ∧ (addrValid .ten a = true ↔ a.toNat ≤ 0x3FF)) ∧
  ∀ (cmd : Instr) (i : Nat) (s : State), isTransaction cmd = true → cmd.index = some i → i < nInst s →
    (row s i).initialized = true → (row s i).opActive = false →
    ¬ transactionOk (decide ((row s i).config.kind = .hw ∧ (row s i).transferMode = .interrupt)) cmd →
    exec cmd s = .next (tracing (setRow s i { row s i with lastError := .invalidParameter })
      [Event.resp cmd { status := .invalidParameter }])

/-- 42_transactions.md R201. The levels are the block's drive and the peers'. -/
def Obligations.SwBusBusy : Prop :=
  ∀ (cmd : Instr) (i : Nat) (s : State), isTransaction cmd = true → cmd.index = some i → Initialized s [i] →
  (row s i).config.kind = .sw → NoIrq s → transactionOk false cmd →
  let a := (row s i).drvSDA && (drawSample s).1
  let b := (row s i).drvSCL && (drawSample (drawSample s).2).1
  (a && b) = false → ∃ t, exec cmd s = .next t ∧
    AgentsMoved (returned { s with env := (drawSamples 2 s).2.env } i (row s i).drvSCL (row s i).drvSDA .busy cmd {}
      [Event.sample i .sda a, .sample i .scl b]) t

/-- 42_transactions.md R207. -/
def Obligations.SwWriteReg : Prop :=
  ∀ (s : State) (i : Nat) (am : AddrMode) (a : BitVec 10) (reg val : Byte) (tmo : Word) (xs : List Bool),
  Initialized s [i] → (row s i).config.kind = .sw → NoIrq s → CleanEntry s i →
  addressInRange am a →
  let bs := addressBytes am a ++ [reg, val]
  s.env.samples = true :: true :: (List.replicate bs.length false ++ xs) →
  ∃ t, exec (.masterWriteReg i am a reg val tmo) s = .next t ∧
    AgentsMoved (returned (withSamples s xs) i true true .ok (.masterWriteReg i am a reg val tmo) {}
      (idleSamples i ++ startEvents i (delayOf s i) ++ sentEvents i (delayOf s i) bs ++ stopEvents i (delayOf s i))) t

/-- 42_transactions.md R205. -/
def Obligations.SwTransmit : Prop :=
  ∀ (s : State) (i : Nat) (am : AddrMode) (a : BitVec 10) (buf : Word) (len : Half) (tmo : Word) (xs : List Bool),
  Initialized s [i] → (row s i).config.kind = .sw → NoIrq s → CleanEntry s i →
  addressInRange am a → buf ≠ 0 → len ≠ 0 → len.toNat ≤ bufSize s buf →
  let bs := addressBytes am a ++ bufferBytes s buf len.toNat
  s.env.samples = true :: true :: (List.replicate bs.length false ++ xs) →
  ∃ t, exec (.masterTransmit i am a buf len tmo) s = .next t ∧
    AgentsMoved (returned (withSamples s xs) i true true .ok (.masterTransmit i am a buf len tmo) {}
      (idleSamples i ++ startEvents i (delayOf s i) ++ sentEvents i (delayOf s i) bs ++ stopEvents i (delayOf s i))) t

/-- 42_transactions.md R208. -/
def Obligations.SwWriteRegs : Prop :=
  ∀ (s : State) (i : Nat) (am : AddrMode) (a : BitVec 10) (reg : Byte) (buf : Word) (len : Half) (tmo : Word)
    (xs : List Bool),
  Initialized s [i] → (row s i).config.kind = .sw → NoIrq s → CleanEntry s i →
  addressInRange am a → buf ≠ 0 → len ≠ 0 → len.toNat ≤ bufSize s buf →
  let bs := addressBytes am a ++ reg :: bufferBytes s buf len.toNat
  s.env.samples = true :: true :: (List.replicate bs.length false ++ xs) →
  ∃ t, exec (.masterWriteRegs i am a reg buf len tmo) s = .next t ∧
    AgentsMoved (returned (withSamples s xs) i true true .ok (.masterWriteRegs i am a reg buf len tmo) {}
      (idleSamples i ++ startEvents i (delayOf s i) ++ sentEvents i (delayOf s i) bs ++ stopEvents i (delayOf s i))) t

/-- 42_transactions.md R204: fail-fast, at every byte the block sends. -/
def Obligations.SwNackFailFast : Prop :=
  ∀ (s : State) (i : Nat) (cmd : Instr) (am : AddrMode) (a : BitVec 10) (reg val : Byte) (buf : Word) (len : Half)
    (tmo : Word) (frame us vs : List (List Byte)) (bs ys : List Byte) (b : Byte) (xs : List Bool),
  Initialized s [i] → (row s i).config.kind = .sw → NoIrq s → CleanEntry s i →
  addressInRange am a →
  (cmd = .masterWriteReg i am a reg val tmo ∧ frame = [addressBytes am a ++ [reg, val]] ∨
    (buf ≠ 0 ∧ len ≠ 0 ∧ len.toNat ≤ bufSize s buf) ∧
      (cmd = .masterTransmit i am a buf len tmo ∧ frame = [addressBytes am a ++ bufferBytes s buf len.toNat] ∨
        cmd = .masterWriteRegs i am a reg buf len tmo ∧
          frame = [addressBytes am a ++ reg :: bufferBytes s buf len.toNat]) ∨
    buf ≠ 0 ∧
      (len ≠ 0 ∧ cmd = .masterReceive i am a buf len tmo ∧
          frame = (if am = .seven then [[readByte am a]] else [addressBytes am a, [readByte am a]]) ∨
        (cmd = .masterReadReg i am a reg buf tmo ∨ len ≠ 0 ∧ cmd = .masterReadRegs i am a reg buf len tmo) ∧
          frame = [addressBytes am a ++ [reg], [readByte am a]])) →
  frame = us ++ (bs ++ b :: ys) :: vs →
  s.env.samples = true :: true :: (List.replicate (us.flatten.length + bs.length) false ++ true :: xs) →
  let w := delayOf s i
  ∃ t, exec cmd s = .next t ∧
    AgentsMoved (returned (withSamples s xs) i true true .nack cmd {}
      (idleSamples i ++ segmentEvents i w us ++ startEvents i w ++ sentEvents i w bs ++ sendEvents i w b true ++
        stopEvents i w)) t

/-- 42_transactions.md R203, R206. -/
def Obligations.SwReceive : Prop :=
  ∀ (s : State) (i : Nat) (am : AddrMode) (a : BitVec 10) (buf : Word) (len : Half) (tmo : Word) (d : Nat → Byte)
    (xs : List Bool),
  Initialized s [i] → (row s i).config.kind = .sw → NoIrq s → CleanEntry s i →
  addressInRange am a → buf ≠ 0 → len ≠ 0 → len.toNat ≤ bufSize s buf →
  s.env.samples = true :: true :: (List.replicate (if am = .seven then 1 else 3) false ++
    (byteSamples d len.toNat ++ xs)) →
  let w := delayOf s i
  ∃ t, exec (.masterReceive i am a buf len tmo) s = .next t ∧
    AgentsMoved (returned { withSamples s xs with mem := storeBytes s.mem buf d len.toNat } i true true .ok
      (.masterReceive i am a buf len tmo) {}
      (idleSamples i ++ startEvents i w ++
        (if am = .seven then sentEvents i w [enc7 a .read]
          else sentEvents i w [hdr10 a .write, lo10 a] ++ startEvents i w ++ sentEvents i w [hdr10 a .read]) ++
        receivedEvents i w d len.toNat ++ stopEvents i w)) t

/-- 42_transactions.md R209, R210. -/
def Obligations.SwReadReg : Prop :=
  ∀ (s : State) (i : Nat) (cmd : Instr) (am : AddrMode) (a : BitVec 10) (reg : Byte) (buf : Word) (len : Half) (tmo : Word)
    (n : Nat) (d : Nat → Byte) (xs : List Bool),
  Initialized s [i] → (row s i).config.kind = .sw → NoIrq s → CleanEntry s i →
  addressInRange am a → buf ≠ 0 → n ≤ bufSize s buf →
  (cmd = .masterReadReg i am a reg buf tmo ∧ n = 1 ∨
    cmd = .masterReadRegs i am a reg buf len tmo ∧ n = len.toNat ∧ len ≠ 0) →
  let w := delayOf s i
  let bs := addressBytes am a ++ [reg]
  s.env.samples = true :: true :: (List.replicate (bs.length + 1) false ++ (byteSamples d n ++ xs)) →
  ∃ t, exec cmd s = .next t ∧
    AgentsMoved (returned { withSamples s xs with mem := storeBytes s.mem buf d n } i true true .ok cmd {}
      (idleSamples i ++ startEvents i w ++ sentEvents i w bs ++ startEvents i w ++
        sentEvents i w [if am = .seven then enc7 a .read else hdr10 a .read] ++ receivedEvents i w d n ++
        stopEvents i w)) t

/-- 42_transactions.md R211, 41_address_encoder.md R190, for every set of peers (acked) and every maxCount. The two samples before the first probe are the check of R200 step 5, besides each probe's own: read so by the model (log entry 13, DEDUCED). -/
def Obligations.SwScan : Prop :=
  (∀ (s : State) (i : Nat) (buf : Word) (max : Half) (acked : BitVec 10 → Bool) (pre post : List (BitVec 10))
    (xs : List Bool),
  Initialized s [i] → (row s i).config.kind = .sw → NoIrq s → CleanEntry s i →
  buf ≠ 0 → max ≠ 0 →
  (List.range 112).map (fun k => BitVec.ofNat 10 (8 + k)) = pre ++ post →
  (∀ q r, pre = q ++ r → r ≠ [] → (q.filter acked).length < max.toNat) →
  (post = [] ∨ (pre.filter acked).length = max.toNat) → (pre.filter acked).length ≤ bufSize s buf →
  s.env.samples = true :: true :: (pre.flatMap (fun a => [true, true, !acked a]) ++ xs) →
  let w := delayOf s i
  let found := pre.filter acked
  ∃ t, exec (.scanBus i buf max) s = .next t ∧
    AgentsMoved (returned { withSamples s xs with
        mem := storeBytes s.mem buf (fun k => (found.getD k 0).setWidth 8) found.length } i true true .ok
      (.scanBus i buf max) { found := BitVec.ofNat 16 found.length }
      (idleSamples i ++ pre.flatMap fun a =>
        idleSamples i ++ startEvents i w ++ sendEvents i w (enc7 a .write) (!acked a) ++ stopEvents i w)) t) ∧
  (∀ (s : State) (i : Nat) (buf : Word) (max : Half) (acked : BitVec 10 → Bool) (pre post : List (BitVec 10))
      (a : BitVec 10) (x y : Bool) (xs : List Bool),
    Initialized s [i] → (row s i).config.kind = .sw → NoIrq s → CleanEntry s i →
  buf ≠ 0 →
    (List.range 112).map (fun k => BitVec.ofNat 10 (8 + k)) = pre ++ a :: post →
    (pre.filter acked).length < max.toNat → (pre.filter acked).length ≤ bufSize s buf → (x && y) = false →
    s.env.samples = true :: true :: (pre.flatMap (fun a => [true, true, !acked a]) ++ x :: y :: xs) →
    let w := delayOf s i
    let found := pre.filter acked
    ∃ t, exec (.scanBus i buf max) s = .next t ∧
      AgentsMoved (returned { withSamples s xs with
          mem := storeBytes s.mem buf (fun k => (found.getD k 0).setWidth 8) found.length } i true true .busy
        (.scanBus i buf max) { found := BitVec.ofNat 16 found.length }
        (idleSamples i ++ (pre.flatMap fun a =>
          idleSamples i ++ startEvents i w ++ sendEvents i w (enc7 a .write) (!acked a) ++ stopEvents i w) ++
          [.sample i .sda x, .sample i .scl y])) t)

/-- 44_hw_blocking.md R280 to R282. The step boundary inside a wait is the model's (log entry 1), and that SCAN_BUS begins at its first probe, with no busy check of the preamble's own (log entry 13, DEDUCED). -/
def Obligations.HwWaitFlag : Prop :=
  (∀ (s : State) (i : Nat) (cmd : Instr) (f : Flag) (tmo : Word) (ops : List Op) (scr : Scratch) (ws : Words),
  i < nInst s → i < s.peri.length → isTransaction cmd = true → s.sched = [] → NoFault s →
  s.seq = some ⟨i, cmd, ws, .waitFlag f tmo :: ops, scr⟩ →
  (dev s i).cr1.getLsbD 0 = true → (dev s i).cr1.getLsbD 15 = false →
  let p := dev s i
  let e := p.sr1 &&& 0x0700
  let t0 := scr.t0.getD s.ticks
  let u := if scr.t0 = none then { s with lastNow := s.ticks } else s
  let back := fun (u : State) (st : Status) => { setRow u i { row s i with lastError := st, opActive := false } with seq := none }
  let late := tmo.toNat ≤ (s.ticks - t0).toNat
  (e ≠ 0 →
    let st := if e.getLsbD 8 then Status.busError else if e.getLsbD 9 then .arbitrationLost else .nack
    step s = .next (tracing (back (setDev u i { p with
        snap := p.sr1, sr1 := p.sr1 &&& ~~~0x0700
        cr1 := if st = .arbitrationLost then p.cr1 else p.cr1 ||| 0x0200 }) st)
      ([Event.csrR i .sr1 p.sr1, .csrW i .sr1 0xFFFF (~~~e)] ++
        (if st = .arbitrationLost then [] else [Event.csrW i .cr1 0x0200 0x0200]) ++
        [Event.resp cmd { scr.resp with status := st }]))) ∧
  (e = 0 → p.sr1 &&& flagMask f ≠ 0 →
    step s = step { tracing (setDev u i { p with snap := p.sr1 }) [Event.csrR i .sr1 p.sr1] with
      seq := some ⟨i, cmd, ws, ops, { scr with t0 := none }⟩ }) ∧
  (e = 0 → p.sr1 &&& flagMask f = 0 → late →
    step s = .next (tracing (back { setDev s i { p with snap := p.sr1, cr1 := p.cr1 ||| 0x0200 } with
        lastNow := s.ticks } .timeout)
      [Event.csrR i .sr1 p.sr1, .csrW i .cr1 0x0200 0x0200, .resp cmd { scr.resp with status := .timeout }])) ∧
  (e = 0 → p.sr1 &&& flagMask f = 0 → ¬ late →
    step s = .next { tracing (setDev s i { p with snap := p.sr1 }) [Event.csrR i .sr1 p.sr1] with
      lastNow := s.ticks
      seq := some ⟨i, cmd, ws, .waitFlag f tmo :: ops, { scr with t0 := some t0 }⟩ })) ∧
  ∀ (s : State) (i : Nat) (cmd : Instr), isTransaction cmd = true → cmd.index = some i → Initialized s [i] →
    (row s i).config.kind = .hw → NoFault s → s.seq = none → pending s i = false → transactionOk false cmd →
    ((∃ a b c d e f, cmd = .masterTransmit a b c d e f ∨ cmd = .masterReceive a b c d e f) →
      (row s i).transferMode = .polling) →
    exec cmd s = step { setRow s i { row s i with opActive := true } with
      seq := some ⟨i, cmd, s.words, hwProgram s.par.scanProbeTimeoutMs cmd, {}⟩, sched := .block :: s.sched }

/-- 44_hw_blocking.md R284. `timeout` is the command's TMO, for SCAN_BUS SCAN_PROBE_TIMEOUT_MS (log entry 13). The step boundary inside a wait is the model's (log entry 1). That a read of SR2 or of DR forgets the SR1 read before it even where it clears no flag is the model's choice (log entry 33). -/
def Obligations.HwWaitNotBusy : Prop :=
  ∀ (s : State) (i : Nat) (cmd : Instr) (ops : List Op) (scr : Scratch) (tmo : Word) (ws : Words),
  isTransaction cmd = true → cmd.index = some i → s.sched = [] → NoFault s → i < nInst s → i < s.peri.length →
  let p := dev s i
  let timeout := match cmd with
    | .masterTransmit _ _ _ _ _ x => x
    | .masterReceive _ _ _ _ _ x => x
    | .masterWriteReg _ _ _ _ _ x => x
    | .masterReadReg _ _ _ _ _ x => x
    | .masterWriteRegs _ _ _ _ _ _ x => x
    | .masterReadRegs _ _ _ _ _ _ x => x
    | _ => s.par.scanProbeTimeoutMs
  let seen := tracing (setDev s i (periphReadSR2 p)) [Event.csrR i .sr2 p.sr2]
  let back := fun (r : Response) =>
    tracing { setRow seen i { row s i with lastError := .busy, opActive := false } with lastNow := s.ticks, seq := none }
      [Event.resp cmd { r with status := .busy }]
  (s.seq = none → Initialized s [i] → (row s i).config.kind = .hw → pending s i = false → transactionOk false cmd →
    ((∃ a b c d e f, cmd = .masterTransmit a b c d e f ∨ cmd = .masterReceive a b c d e f) →
      (row s i).transferMode = .polling) → p.sr2.getLsbD 1 = true →
    (timeout = 0 → exec cmd s = .next (back {})) ∧
    (timeout ≠ 0 → ∃ made rest,
      hwProgram s.par.scanProbeTimeoutMs cmd = made ++ .waitNotBusy timeout :: rest ∧
      exec cmd s = .next { setRow seen i { row s i with opActive := true } with
        lastNow := s.ticks
        seq := some ⟨i, cmd, s.words, .waitNotBusy timeout :: rest, { t0 := some s.ticks }⟩ })) ∧
  (s.seq = some ⟨i, cmd, ws, .waitNotBusy tmo :: ops, scr⟩ →
    let t0 := scr.t0.getD s.ticks
    (p.sr2.getLsbD 1 = false → step s = step { seen with
      lastNow := if scr.t0 = none then s.ticks else s.lastNow
      seq := some ⟨i, cmd, ws, ops, { scr with t0 := none }⟩ }) ∧
    (p.sr2.getLsbD 1 = true → tmo.toNat ≤ (s.ticks - t0).toNat → step s = .next (back scr.resp)) ∧
    (p.sr2.getLsbD 1 = true → ¬ tmo.toNat ≤ (s.ticks - t0).toNat → step s = .next { seen with
      lastNow := s.ticks
      seq := some ⟨i, cmd, ws, .waitNotBusy tmo :: ops, { scr with t0 := some t0 }⟩ }))

/-- 42_transactions.md R200 step 5, 45_hw_interrupt.md R323. -/
def Obligations.PendingIsBusy : Prop :=
  ∀ (s : State) (i : Nat) (cmd : Instr), isTransaction cmd = true → cmd.index = some i → Initialized s [i] →
  (row s i).config.kind = .hw → pending s i = true →
  transactionOk (decide ((row s i).transferMode = .interrupt)) cmd →
  exec cmd s = .next
    (tracing (setRow s i { row s i with lastError := .busy }) [Event.resp cmd { status := .busy }])

/-- 45_hw_interrupt.md R321, R322. That a read of SR2 or of DR forgets the SR1 read before it even where it clears no flag is the model's choice (log entry 33). -/
def Obligations.AsyncStart : Prop :=
  ∀ (s : State) (i : Nat) (a : BitVec 10) (buf : Word) (len : Half) (tmo : Word) (d : Dir), Initialized s [i] →
  (row s i).config.kind = .hw → i < s.peri.length → (row s i).transferMode = .interrupt →
  pending s i = false → buf ≠ 0 → len ≠ 0 → a.toNat ≤ 127 →
  (dev s i).cr1.getLsbD 0 = true → (dev s i).cr1.getLsbD 15 = false →
  let p := dev s i
  let q := periphReadSR2 p
  let cmd : Instr :=
    if d = .write then .masterTransmit i .seven a buf len tmo else .masterReceive i .seven a buf len tmo
  (p.sr2.getLsbD 1 = false → s.sched = [] → exec cmd s = .next (tracing (setDev (setRow s i { row s i with
      lastError := .ok
      xfer := { (row s i).xfer with
        state := .startSent, buf := buf, len := len, idx := 0, addr := a.setWidth 16, dir := d } }) i
      { q with cr1 := p.cr1 ||| (if d = .write then 0x0100 else 0x0500), cr2 := p.cr2 ||| 0x0300 })
    ([Event.csrR i .sr2 p.sr2] ++ (if d = .write then [] else [Event.csrW i .cr1 0x0400 0x0400]) ++
      [Event.csrW i .cr1 0x0100 0x0100, .csrW i .cr2 0x0300 0x0300, .resp cmd {}]))) ∧
  (p.sr2.getLsbD 1 = true → exec cmd s = .next (tracing (setDev (setRow s i { row s i with lastError := .busy }) i q)
    [Event.csrR i .sr2 p.sr2, .resp cmd { status := .busy }]))

/-- 45_hw_interrupt.md R325, R326. -/
def Obligations.EvAddressing : Prop :=
  ∀ (s : State) (i : Nat), i < nInst s → i < s.peri.length → (row s i).config.kind = .hw →
  (dev s i).sr1 &&& 0x0700 = 0 →
  let p := dev s i
  let x := (row s i).xfer
  (x.state = .startSent → p.sr1.getLsbD 0 = true → p.ph = .start → p.sr2.getLsbD 0 = true →
    let b : Byte := BitVec.ofNat 8 (2 * x.addr.toNat + if x.dir = .read then 1 else 0)
    exec (.evIrq i) s = .next (tracing (setDev (setRow s i { row s i with xfer := { x with state := .addressPhase } }) i
        { p with dr := b.setWidth 16, sr1 := p.sr1 &&& ~~~0x000D, pendDR := true, snap := 0 })
      [Event.csrR i .sr1 p.sr1, .csrW i .dr 0x00FF (b.setWidth 16)])) ∧
  (x.state = .addressPhase → p.sr1.getLsbD 1 = true → p.cr1.getLsbD 0 = true → p.cr1.getLsbD 15 = false →
    let one := x.dir = .read ∧ x.len = 1
    exec (.evIrq i) s = .next (tracing (setDev (setRow s i { row s i with xfer := { x with state := .dataPhase } }) i
        { p with
          sr1 := if p.arw then p.sr1 &&& ~~~0x0002 else (p.sr1 &&& ~~~0x0002) ||| 0x0080
          ph := if p.arw then .rx else .tx
          cr1 := if one then (p.cr1 &&& ~~~0x0400) ||| 0x0200 else p.cr1
          cr2 := p.cr2 ||| 0x0400
          snap := 0 })
      ([Event.csrR i .sr1 p.sr1] ++ (if one then [Event.csrW i .cr1 0x0400 0] else []) ++ [Event.csrR i .sr2 p.sr2] ++
        (if one then [Event.csrW i .cr1 0x0200 0x0200] else []) ++ [Event.csrW i .cr2 0x0400 0x0400])))

/-- 45_hw_interrupt.md R327, R329. The last byte of a read is in EvComplete. That the fault records the encoding of the handler's entry is the model's choice (60_exceptions.md R401, log entry 24). That a read of SR2 or of DR forgets the SR1 read before it even where it clears no flag is the model's choice (log entry 33). -/
def Obligations.EvData : Prop :=
  ∀ (s : State) (i : Nat), i < nInst s → i < s.peri.length → (row s i).config.kind = .hw →
  (dev s i).sr1 &&& 0x0700 = 0 → (dev s i).cr1.getLsbD 0 = true → (dev s i).cr1.getLsbD 15 = false →
  (row s i).xfer.state = .dataPhase → (row s i).xfer.idx.toNat < (row s i).xfer.len.toNat →
  let p := dev s i
  let x := (row s i).xfer
  let k := x.idx.toNat
  (x.dir = .write → p.sr1.getLsbD 7 = true → p.ph = .tx → p.sr2.getLsbD 0 = true → k < bufSize s x.buf →
    let b := memByte s.mem (cellAddr x.buf k)
    let last := k + 1 = x.len.toNat
    exec (.evIrq i) s = .next (tracing (setDev (setRow s i { row s i with xfer := { x with idx := x.idx + 1 } }) i
        { p with
          dr := b.setWidth 16, sr1 := p.sr1 &&& ~~~0x008D, pendDR := true, snap := 0
          cr2 := if last then p.cr2 &&& ~~~0x0400 else p.cr2 })
      ([Event.csrR i .sr1 p.sr1, .csrW i .dr 0x00FF (b.setWidth 16)] ++
        if last then [Event.csrW i .cr2 0x0400 0] else []))) ∧
  (x.dir = .read → p.sr1.getLsbD 6 = true → k + 1 < x.len.toNat → k < bufSize s x.buf →
    let b : Byte := p.dr.setWidth 8
    let next := k + 2 = x.len.toNat
    exec (.evIrq i) s = .next (tracing (setDev (setRow { s with mem := memPut s.mem (cellAddr x.buf k) b } i
        { row s i with xfer := { x with idx := x.idx + 1 } }) i
        { p with
          sr1 := p.sr1 &&& ~~~0x0044, snap := 0
          cr1 := if next then p.cr1 &&& ~~~0x0400 else p.cr1 })
      ([Event.csrR i .sr1 p.sr1, .csrR i .dr (b.setWidth 16)] ++
        if next then [Event.csrW i .cr1 0x0400 0] else []))) ∧
  ((x.dir = .write ∧ p.sr1.getLsbD 7 = true ∨ x.dir = .read ∧ p.sr1.getLsbD 6 = true) → bufSize s x.buf ≤ k →
    exec (.evIrq i) s = .fault (.bufferBounds ⟨some (encode (.evIrq i)), i, 81⟩))

/-- 45_hw_interrupt.md R328, R329, R331. That a read of SR2 or of DR forgets the SR1 read before it even where it clears no flag is the model's choice (log entry 33). -/
def Obligations.EvComplete : Prop :=
  ∀ (s : State) (i : Nat), i < nInst s → i < s.peri.length → (row s i).config.kind = .hw →
  (dev s i).sr1 &&& 0x0700 = 0 → (dev s i).cr1.getLsbD 0 = true → (dev s i).cr1.getLsbD 15 = false →
  (row s i).xfer.state = .dataPhase → s.env.calls = [] →
  let p := dev s i
  let x := (row s i).xfer
  let k := x.idx.toNat
  let called : List Event := if (row s i).callback = 0 then [] else [Event.callback i .ok (row s i).userData]
  (x.dir = .write → x.idx = x.len → p.sr1.getLsbD 2 = true →
    exec (.evIrq i) s = .next (tracing (setDev (setRow s i { row s i with
        lastError := .ok, xfer := { x with state := .complete, lastStatus := .ok, buf := 0 } }) i
        { p with cr1 := p.cr1 ||| 0x0200, cr2 := p.cr2 &&& ~~~0x0700, snap := p.sr1 })
      ([Event.csrR i .sr1 p.sr1, .csrW i .cr1 0x0200 0x0200, .csrW i .cr2 0x0700 0] ++ called))) ∧
  (x.dir = .read → p.sr1.getLsbD 6 = true → k + 1 = x.len.toNat → k < bufSize s x.buf →
    let b : Byte := p.dr.setWidth 8
    let two := 2 ≤ x.len.toNat
    exec (.evIrq i) s = .next (tracing (setDev (setRow { s with mem := memPut s.mem (cellAddr x.buf k) b } i
        { row s i with
          lastError := .ok
          xfer := { x with state := .complete, idx := x.len, lastStatus := .ok, buf := 0 } }) i
        { p with
          sr1 := p.sr1 &&& ~~~0x0044, snap := 0, cr2 := p.cr2 &&& ~~~0x0700
          cr1 := if two then p.cr1 ||| 0x0200 else p.cr1 })
      ([Event.csrR i .sr1 p.sr1, .csrR i .dr (b.setWidth 16)] ++
        (if two then [Event.csrW i .cr1 0x0200 0x0200] else []) ++ [Event.csrW i .cr2 0x0700 0] ++ called)))

/-- 45_hw_interrupt.md R324, R330. An instance without handlers: DESIGN CHOICE (log entry 17). That the fault records the encoding of the handler's entry is the model's choice (60_exceptions.md R401, log entry 24). -/
def Obligations.EvUnexpected : Prop :=
  ∀ (s : State) (i : Nat),
  let p := dev s i
  let x := (row s i).xfer
  let bad := fun (rule : Nat) => exec (.evIrq i) s = .fault (.unexpectedEvent ⟨some (encode (.evIrq i)), i, rule⟩)
  (i < nInst s → (row s i).config.kind = .hw →
    (p.sr1 &&& 0x0700 ≠ 0 →
      exec (.evIrq i) s = .next (tracing (setDev s i { p with snap := p.sr1 }) [Event.csrR i .sr1 p.sr1])) ∧
    (p.sr1 &&& 0x0700 = 0 →
      (x.state = .idle ∨ x.state = .complete → bad 324) ∧
      (x.state = .startSent → p.sr1.getLsbD 0 = false → bad 330) ∧
      (x.state = .addressPhase → p.sr1.getLsbD 1 = false → bad 330) ∧
      (x.state = .dataPhase → x.dir = .write → ¬ (p.sr1.getLsbD 7 = true ∧ x.idx.toNat < x.len.toNat) →
        ¬ (p.sr1.getLsbD 2 = true ∧ x.idx = x.len) → bad 330) ∧
      (x.state = .dataPhase → x.dir = .read → p.sr1.getLsbD 6 = false → bad 330))) ∧
  (¬ i < nInst s ∨ (row s i).config.kind = .sw → bad 324)

/-- 45_hw_interrupt.md R332. That the three clears are three accesses (log entry 14), and that the fault records the encoding of the handler's entry (60_exceptions.md R401, log entry 24), are the model's choice. -/
def Obligations.ErIrq : Prop :=
  ∀ (s : State) (i : Nat), i < nInst s → i < s.peri.length → (row s i).config.kind = .hw →
  (dev s i).cr1.getLsbD 0 = true → (dev s i).cr1.getLsbD 15 = false → s.env.calls = [] →
  let p := dev s i
  let x := (row s i).xfer
  let e := p.sr1 &&& 0x0700
  let st := if e.getLsbD 8 then Status.busError else if e.getLsbD 9 then .arbitrationLost else .nack
  let busy := x.state = .startSent ∨ x.state = .addressPhase ∨ x.state = .dataPhase
  (e ≠ 0 → busy → exec (.erIrq i) s = .next (tracing (setDev (setRow s i { row s i with
        lastError := st, xfer := { x with state := .idle, lastStatus := st, buf := 0 } }) i
      { p with
        sr1 := p.sr1 &&& ~~~0x0700, cr2 := p.cr2 &&& ~~~0x0700, snap := p.sr1
        cr1 := if st = .arbitrationLost then p.cr1 else p.cr1 ||| 0x0200 })
    ([Event.csrR i .sr1 p.sr1, .csrW i .sr1 0xFFFF (~~~e)] ++
      (if st = .arbitrationLost then [] else [Event.csrW i .cr1 0x0200 0x0200]) ++
      [Event.csrW i .cr2 0x0200 0, .csrW i .cr2 0x0400 0, .csrW i .cr2 0x0100 0] ++
      if (row s i).callback = 0 then [] else [Event.callback i st (row s i).userData]))) ∧
  (e = 0 ∨ ¬ busy → exec (.erIrq i) s = .fault (.unexpectedEvent ⟨some (encode (.erIrq i)), i, 332⟩))

/-- 45_hw_interrupt.md R335. What a callback does is drawn from a script (log entry 11). That the fault comes at the command's first wait, the bus busy or not, is read from R335 by the model (log entry 26, DEDUCED). The record holds the command's words (log entry 24). A handler runs where no command stands in `seq` (`resume` takes it off). -/
def Obligations.Callback : Prop :=
  (∀ (s t : State) (i : Nat) (h : Instr) (acts : List HostAct) (rest : List (List HostAct)),
    (h = .evIrq i ∨ h = .erIrq i) → s.env.calls = acts :: rest →
    exec h { s with env := { s.env with calls := [] } } = .next t →
    ((∃ st ud, t.trace.head? = some (.callback i st ud)) →
      exec h s = nestedActs (seqLent s) acts { t with env := { t.env with calls := rest } }) ∧
    ((∀ st ud, t.trace.head? ≠ some (.callback i st ud)) →
      exec h s = .next { t with env := { t.env with calls := acts :: rest } })) ∧
  (∀ (s : State) (cmd : Instr) (w : Words) (lent : Option (Nat × Word)) (as : List HostAct), decodeHost w = .ok cmd →
    (waitsOnHw s cmd → nestedActs lent (.command w :: as) s = .fault (.blockingInHandler ⟨some w, cmd.index.getD 0, 335⟩)) ∧
    (¬ waitsOnHw s cmd → s.seq = none →
      nestedActs lent (.command w :: as) s =
        match exec cmd { s with words := w, sched := [] } with
        | .next u =>
          if u.seq = none then nestedActs lent as { u with sched := s.sched }
          else .fault (.blockingInHandler ⟨some w, cmd.index.getD 0, 335⟩)
        | .fault f => .fault f
        | .refused r => .refused r)) ∧
  (∀ (s : State) (w : Words) (r : Reject) (lent : Option (Nat × Word)) (as : List HostAct), decodeHost w = .error r →
    nestedActs lent (.command w :: as) s = .refused (.illegalCommand r)) ∧
  (∀ (s t : State) (buf : Word) (k : Half) (v : Option Byte) (lent : Option (Nat × Word)) (as : List HostAct),
    hostTouch lent buf k v s = .next t →
    nestedActs lent ((match v with | none => .readBuf buf k | some b => .writeBuf buf k b) :: as) s = nestedActs lent as t)

/-- 60_exceptions.md R404, R405, 45_hw_interrupt.md R333. -/
def Obligations.InterruptPriority : Prop :=
  ∀ (s : State) (i : Nat),
  let er := fun (j : Nat) => (dev s j).cr2.getLsbD 8 = true ∧ (dev s j).sr1 &&& 0xDF00 ≠ 0
  let ev := fun (j : Nat) => (dev s j).cr2.getLsbD 9 = true ∧
    ((dev s j).sr1 &&& 0x001F ≠ 0 ∨ (dev s j).cr2.getLsbD 10 = true ∧ (dev s j).sr1 &&& 0x00C0 ≠ 0)
  let on := fun (j : Nat) => (row s j).config.kind = .hw ∧ (row s j).nvicEn = true
  let first := i < nInst s ∧ on i ∧ ∀ j, j < i → ¬ (on j ∧ (er j ∨ ev j))
  (takeInterrupt s = some (.erIrq i) ↔ first ∧ er i) ∧
  (takeInterrupt s = some (.evIrq i) ↔ first ∧ ev i ∧ ¬ er i) ∧
  (takeInterrupt s = none ↔ ∀ j, j < nInst s → ¬ (on j ∧ (er j ∨ ev j))) ∧
  (∀ h, takeInterrupt s = some h → agentStep (seqLent s) .irq s = exec h s) ∧
  (∀ lent, takeInterrupt s = none → agentStep lent .irq s = .next s)

/-- 43_hw_peripheral.md R255, R256, R264; the access codes `rs` and `res` of 10_state.md R40. That a read of SR2 or of DR forgets the SR1 read before it even where it clears no flag is the model's choice (log entry 33). -/
def Obligations.CsrSideEffects : Prop :=
  ∀ (s : State) (i : Nat) (b : Byte) (v : Half), i < s.peri.length →
  let p := dev s i
  let seen := p.snap &&& 0x000D
  let sends := p.sr2.getLsbD 0 = true ∧ (p.ph = .start ∨ p.ph = .hdr10 ∨ p.ph = .tx)
  readSR1 i s = (p.sr1, tracing (setDev s i { p with snap := p.sr1 }) [Event.csrR i .sr1 p.sr1]) ∧
  readSR2 i s = (p.sr2, tracing (setDev s i
    (if p.snap.getLsbD 1 = true ∧ p.sr1.getLsbD 1 = true then
      { p with
        snap := 0
        sr1 := if p.arw then p.sr1 &&& ~~~0x0002 else (p.sr1 &&& ~~~0x0002) ||| 0x0080
        ph := if p.arw then .rx else .tx }
     else { p with snap := 0 })) [Event.csrR i .sr2 p.sr2]) ∧
  readDR i s = (p.dr.setWidth 8, tracing (setDev s i
    { p with snap := 0, sr1 := p.sr1 &&& ~~~0x0040 &&& ~~~(p.snap &&& 0x0004) })
    [Event.csrR i .dr ((p.dr.setWidth 8 : Byte).setWidth 16)]) ∧
  writeDR i b s = tracing (setDev s i
    { p with
      dr := b.setWidth 16, snap := 0
      sr1 := if sends ∧ p.ph = .tx then p.sr1 &&& ~~~seen &&& ~~~0x0080 else p.sr1 &&& ~~~seen
      pendDR := if sends then true else p.pendDR }) [Event.csrW i .dr 0x00FF (b.setWidth 16)] ∧
  csrWrite i .sr1 0xFFFF v s = tracing (setDev s i { p with sr1 := p.sr1 &&& ~~~(~~~v &&& 0x0700) })
    [Event.csrW i .sr1 0xFFFF v] ∧
  (p.cr1.getLsbD 0 = true → p.cr1.getLsbD 15 = false → csrWrite i .cr1 0x0001 0 s = tracing (setDev s i
    { p with
      cr1 := p.cr1 &&& ~~~0x0701, sr1 := 0, sr2 := 0, ph := .idle, pendDR := false, snap := 0
      wire := if p.sr2.getLsbD 0 then .release :: p.wire else p.wire }) [Event.csrW i .cr1 0x0001 0]) ∧
  (p.cr1.getLsbD 0 = true → v.getLsbD 0 = true → v.getLsbD 15 = false → csrWrite i .cr1 0xFFFF v s =
    tracing (setDev s i { p with cr1 := (v &&& 0xBFFB) ||| (p.cr1 &&& 0x0300) }) [Event.csrW i .cr1 0xFFFF v]) ∧
  csrWrite i .cr2 0xFFFF v s = tracing (setDev s i { p with cr2 := v &&& 0x1F3F }) [Event.csrW i .cr2 0xFFFF v] ∧
  csrWrite i .oar1 0xFFFF v s = tracing (setDev s i { p with oar1 := v &&& 0xC3FF }) [Event.csrW i .oar1 0xFFFF v] ∧
  csrWrite i .ccr 0xFFFF v s = tracing (setDev s i { p with ccr := v &&& 0xCFFF }) [Event.csrW i .ccr 0xFFFF v] ∧
  csrWrite i .trise 0xFFFF v s = tracing (setDev s i { p with trise := v &&& 0x003F }) [Event.csrW i .trise 0xFFFF v]

/-- 43_hw_peripheral.md R252 (both cases), R253, R254, R257 to R263; 10_state.md R55 (log entry 5). -/
def Obligations.PeripheralSteps : Prop :=
  ∀ (s : State) (i : Nat), (row s i).config.kind = .hw →
  let p := dev s i
  let on := p.cr1.getLsbD 0 = true
  let master := p.sr2.getLsbD 0 = true
  let start := p.cr1.getLsbD 8 = true
  let stop := p.cr1.getLsbD 9 = true
  let w := BusSym.sent (p.dr.setWidth 8) :: p.wire
  let sent := fun (ready : Prop) (st : Outcome3 → PeriphStep) (acked : Periph) =>
    (on ∧ ready →
      periphStep i (st .ack) s = setDev s i acked ∧
      periphStep i (st .nack) s = setDev s i
        { p with pendDR := false, sr1 := p.sr1 ||| 0x0400, wire := .nack :: w, ph := .held } ∧
      periphStep i (st .lost) s = setDev s i
        { p with
          pendDR := false, sr1 := (p.sr1 &&& ~~~0x008F) ||| 0x0200, sr2 := p.sr2 &&& ~~~0x0005, wire := w, ph := .idle }) ∧
    (¬ (on ∧ ready) → ∀ r, periphStep i (st r) s = s)
  let b : Byte := p.dr.setWidth 8
  periphStep i .startGen s = (if on ∧ start ∧ (¬ master ∧ p.sr2.getLsbD 1 = false ∧ p.ph = .idle ∨
      master ∧ ¬ stop ∧ (p.ph = .tx ∧ p.pendDR = false ∨ p.ph = .held ∨ p.ph = .rxEnd)) then
    setDev s i { p with
      wire := (if master then .restart else .start) :: p.wire, sr1 := (p.sr1 &&& ~~~0x00CF) ||| 0x0001
      sr2 := (p.sr2 ||| 0x0003) &&& ~~~0x0004, cr1 := p.cr1 &&& ~~~0x0100, pendDR := false, ph := .start } else s) ∧
  sent (p.ph = .start ∧ p.sr1.getLsbD 0 = false ∧ p.pendDR = true) .addrSend
    (if b &&& 0xF9 = 0xF0 then
      { p with pendDR := false, sr1 := p.sr1 ||| 0x0008, arw := false, wire := .ack :: w, ph := .hdr10 }
     else
      { p with
        pendDR := false, sr1 := p.sr1 ||| 0x0002, arw := b.getLsbD 0, wire := .ack :: w, ph := .addrDone
        sr2 := if b.getLsbD 0 = true then p.sr2 &&& ~~~0x0004 else p.sr2 ||| 0x0004 }) ∧
  sent (p.ph = .hdr10 ∧ p.sr1.getLsbD 3 = false ∧ p.pendDR = true) .loSend
    { p with
      pendDR := false, sr1 := p.sr1 ||| 0x0002, sr2 := p.sr2 ||| 0x0004, arw := false, wire := .ack :: w
      ph := .addrDone } ∧
  sent (p.ph = .tx ∧ p.pendDR = true) .txByte { p with pendDR := false, sr1 := p.sr1 ||| 0x0084, wire := .ack :: w } ∧
  (∀ v, periphStep i (.rxByte v) s = (if on ∧ p.ph = .rx ∧ p.sr1.getLsbD 6 = false then
    setDev s i { p with
      dr := v.setWidth 16, sr1 := p.sr1 ||| 0x0040
      wire := (if p.cr1.getLsbD 10 then .ack else .nack) :: .received v :: p.wire
      ph := if p.cr1.getLsbD 10 = false ∨ stop then .rxEnd else .rx } else s)) ∧
  periphStep i .stopGen s = (if on ∧ stop ∧ master ∧
      (p.ph = .addrDone ∨ p.ph = .held ∨ p.ph = .rxEnd ∨ p.ph = .rx ∧ p.sr1.getLsbD 6 = true ∨
        (p.ph = .start ∨ p.ph = .hdr10 ∨ p.ph = .tx) ∧ p.pendDR = false) then
    setDev s i { p with
      wire := .stop :: p.wire, sr1 := p.sr1 &&& ~~~0x008F, sr2 := p.sr2 &&& ~~~0x0007, cr1 := p.cr1 &&& ~~~0x0200
      pendDR := false, ph := .idle } else s) ∧
  periphStep i .stopCancel s =
    (if on ∧ stop ∧ ¬ master then setDev s i { p with cr1 := p.cr1 &&& ~~~0x0300 } else s) ∧
  (∀ d, periphStep i (.extBusy d) s = (if on ∧ ¬ master then
    setDev s i { p with sr2 := if d then p.sr2 ||| 0x0002 else p.sr2 &&& ~~~0x0002 } else s)) ∧
  periphStep i .berr s = (if on then setDev s i { p with sr1 := p.sr1 ||| 0x0100 } else s) ∧
  (∀ lent d, agentStep lent (.tick d) s = .next
    (if (s.ticks - s.lastNow).toNat + d.toNat < 2 ^ 31 then { s with ticks := s.ticks + d } else s))

/-- 20_memory.md R81, R99. The model's own: the size of an undeclared handle and that a write through one handle leaves every other handle's bytes alone (log entry 7), the record of a host access, no command and instance 0 (log entry 24), and BufferRace before BufferBounds (log entry 27), all DESIGN CHOICE. -/
def Obligations.HostBuffers : Prop :=
  (∀ (s : State) (buf : Word) (k : Half) (v : Byte) (w : Bool) (rest : List HostAct), NoFault s → s.seq = none →
    s.sched = [] →
    s.host = (if w then .writeBuf buf k v else .readBuf buf k) :: rest →
    let lent := fun (j : Nat) => j < nInst s ∧ (row s j).xfer.buf = buf ∧
      ((row s j).xfer.state = .startSent ∨ (row s j).xfer.state = .addressPhase ∨ (row s j).xfer.state = .dataPhase)
    ((∃ j, lent j) → ∃ j, lent j ∧ step s = .fault (.bufferRace ⟨none, j, 99⟩ buf)) ∧
    ((∀ j, ¬ lent j) → bufSize s buf ≤ k.toNat → step s = .fault (.bufferBounds ⟨none, 0, 81⟩)) ∧
    ((∀ j, ¬ lent j) → k.toNat < bufSize s buf → w = false → step s = .next { s with host := rest }) ∧
    ((∀ j, ¬ lent j) → k.toNat < bufSize s buf → w = true → Memory.wf s.mem = true → ∃ t, step s = .next t ∧
      t = { s with host := rest, mem := t.mem } ∧ Memory.wf t.mem = true ∧
      ∀ b j, j < 2 ^ 32 → memByte t.mem (cellAddr b j) =
        if b = buf ∧ j = k.toNat then v else memByte s.mem (cellAddr b j))) ∧
  (∀ (s : State) (cmd : Instr) (i n : Nat) (buf : Word) (k : Half) (a : HostAct) (v : Byte) (as : List HostAct),
    cmd.index = some i → bufferOf cmd = some (buf, n) → (a = .readBuf buf k ∨ a = .writeBuf buf k v) →
    ∃ j, nestedActs (lentBy cmd) (a :: as) s = .fault (.bufferRace ⟨none, j, 99⟩ buf)) ∧
  (∀ (s : State) (buf : Word), (buf = 0 ∨ ∀ n, (buf, n) ∉ s.bufs) → bufSize s buf = 0)

/-- The frame over memory: 42_transactions.md, 44_hw_blocking.md and 46_instance.md name no other store. A value of an OPEN parameter may store (log entries 9 and 10). -/
def Obligations.MemoryFrame : Prop :=
  (∀ (s t : State) (cmd : Instr) (a : Nat), NoIrq s → cmd.internal = false → Memory.wf s.mem = true →
    exec cmd s = .next t → notStored s cmd a → memByte t.mem a = memByte s.mem a) ∧
  (∀ (s t : State) (q : Seq) (a : Nat), NoIrq s → Memory.wf s.mem = true → s.seq = some q → InProgress s →
    step s = .next t → notStored s q.cmd a → memByte t.mem a = memByte s.mem a) ∧
  (∀ s t : State, InProgress s → step s = .next t → InProgress t) ∧
  (∀ s : State, s.seq = none → InProgress s)

/-- 44_hw_blocking.md R289, R291, R292, for every length, under one schedule of the peripheral's steps (`paced`). That a read of SR2 or of DR forgets the SR1 read before it even where it clears no flag is the model's choice (log entry 33). -/
def Obligations.HwWrite : Prop :=
  ∀ (s : State) (i : Nat) (cmd : Instr) (am : AddrMode) (a : BitVec 10) (reg val : Byte) (buf : Word) (len : Half)
    (tmo : Word) (hand : List Byte) (n : Nat) (rest : List Sched),
  Initialized s [i] → (row s i).config.kind = .hw → i < s.peri.length → NoIrq s → pending s i = false →
  (dev s i).cr1 &&& 0xFBFF = 0x0001 → (dev s i).sr1 &&& 0xFFBF = 0 → (dev s i).sr2 = 0 → (dev s i).ph = .idle →
  addressInRange am a → (am = .seven → a.toNat < 0x78 ∨ 0x7B < a.toNat) →
  (cmd = .masterWriteReg i am a reg val tmo ∧ hand = [reg, val] ∧ n = 0 ∨
    (buf ≠ 0 ∧ len ≠ 0 ∧ len.toNat ≤ bufSize s buf ∧ n = len.toNat) ∧
      (cmd = .masterTransmit i am a buf len tmo ∧ hand = [] ∧ (row s i).transferMode = .polling ∨
        cmd = .masterWriteRegs i am a reg buf len tmo ∧ hand = [reg])) →
  s.sched = paced i (startPaces am ++ sendPaces (List.replicate hand.length 0 ++ List.replicate n 1)) 3 ++ rest →
  let bs := hand ++ bufferBytes s buf n
  exec cmd s = .next (tracing (setDev (servedState s i rest) i
    { dev s i with
      cr1 := (dev s i).cr1 ||| 0x0200, sr1 := 0x0084, sr2 := 0x0007, dr := (bs.getLast?.getD 0).setWidth 16, ph := .tx
      pendDR := false, arw := false, snap := 0x0084
      wire := (BusSym.start :: sentSyms (addressBytes am a ++ bs)).reverse ++ (dev s i).wire })
    ([Event.csrR i .sr2 0] ++ hwStartEvents i ++ hwAddressEvents i am a ++ hwSendEvents i bs ++
      [.csrW i .cr1 0x0200 0x0200, .resp cmd {}]))

/-- 44_hw_blocking.md R290, R293, R294, for every length, under one schedule of the peripheral's steps (`paced`). That a read of SR2 or of DR forgets the SR1 read before it even where it clears no flag is the model's choice (log entry 33). -/
def Obligations.HwRead : Prop :=
  ∀ (s : State) (i : Nat) (cmd : Instr) (am : AddrMode) (a : BitVec 10) (reg : Byte) (buf : Word) (len : Half)
    (tmo : Word) (regs : List Byte) (n : Nat) (d : Nat → Byte) (rest : List Sched),
  Initialized s [i] → (row s i).config.kind = .hw → i < s.peri.length → NoIrq s → pending s i = false →
  (dev s i).cr1 &&& 0xFBFF = 0x0001 → (dev s i).sr1 &&& 0xFFBF = 0 → (dev s i).sr2 = 0 → (dev s i).ph = .idle →
  addressInRange am a → buf ≠ 0 → n ≠ 0 → n ≤ bufSize s buf →
  (cmd = .masterReceive i am a buf len tmo ∧ n = len.toNat ∧ regs = [] ∧ (row s i).transferMode = .polling ∨
    (am = .seven → a.toNat < 0x78 ∨ 0x7B < a.toNat) ∧ regs = [reg] ∧
      (cmd = .masterReadReg i am a reg buf tmo ∧ n = 1 ∨ cmd = .masterReadRegs i am a reg buf len tmo ∧ n = len.toNat)) →
  let direct := am = .seven ∧ regs = []
  s.sched = paced i ((if direct then [(2, .startGen)]
      else startPaces am ++ (if regs = [] then [(5, .startGen)] else sendPaces [0] ++ [(3, .startGen)])) ++
    [(3, .addrSend .ack)] ++ receivePaces d n) (receiveEnd n) ++ rest →
  exec cmd s = .next (tracing (setDev { servedState s i rest with mem := storeBytes s.mem buf d n } i
    { dev s i with
      cr1 := 0x0201, sr1 := 0, sr2 := 0x0003, dr := (d (n - 1)).setWidth 16, ph := .rxEnd, pendDR := false, arw := true
      snap := 0
      wire := ((if direct then [BusSym.start] else .start :: sentSyms (addressBytes am a ++ regs) ++ [.restart]) ++
        sentSyms [readByte am a] ++ receivedSyms d n).reverse ++ (dev s i).wire })
    ([Event.csrR i .sr2 0] ++
      (if direct then [] else hwStartEvents i ++ hwAddressEvents i am a ++
        (if regs = [] then hwClearTxEvents i else hwSendEvents i regs)) ++
      hwStartEvents i ++ [drEvent i (readByte am a), .csrR i .sr1 0x0002] ++ hwReceiveEvents i d n ++ [.resp cmd {}]))

/-- 44_hw_blocking.md R295, probe by probe, each outcome under one schedule of the peripheral's steps. That the scan begins at its first probe, with no busy check of the preamble's own, is read so by the model (log entry 13, DEDUCED). That a read of SR2 or of DR forgets the SR1 read before it even where it clears no flag is the model's choice (log entry 33). -/
def Obligations.HwScanProbe : Prop :=
  (∀ (s : State) (i : Nat) (buf : Word) (max : Half), NoFault s → s.seq = none → Initialized s [i] →
    (row s i).config.kind = .hw → pending s i = false → buf ≠ 0 → max ≠ 0 →
    exec (.scanBus i buf max) s = step { setRow s i { row s i with opActive := true } with
      seq := some ⟨i, .scanBus i buf max, s.words,
        (List.range 112).flatMap (fun k => hwProbe buf max s.par.scanProbeTimeoutMs (BitVec.ofNat 10 (8 + k))), {}⟩
      sched := .block :: s.sched }) ∧
  (∀ (s : State) (i : Nat) (buf : Word) (max : Half) (tmo : Word) (a : BitVec 10) (ws : Words) (ops : List Op)
      (scr : Scratch) (rest : List Sched) (d : Word),
    NoFault s → i < nInst s → i < s.peri.length → (row s i).config.kind = .hw → scr.t0 = none → scr.p = .ok →
    let cmd : Instr := .scanBus i buf max
    let p := dev s i
    let w := enc7 a .write
    let back := fun (u : State) (st : Status) =>
      tracing { setRow u i { row s i with lastError := st, opActive := false } with seq := none }
        [Event.resp cmd { scr.resp with status := st }]
    (s.seq = some ⟨i, cmd, ws, [], scr⟩ → step s = .next (back s .ok)) ∧
    (s.seq = some ⟨i, cmd, ws, hwProbe buf max tmo a ++ ops, scr⟩ →
      (scr.resp.found = max → step s = .next (back s .ok)) ∧
      (scr.resp.found ≠ max → 0x08 ≤ a.toNat → a.toNat ≤ 0x77 → p.cr1 &&& 0xFBFF = 0x0001 → p.sr1 &&& 0xFFBF = 0 →
        p.sr2 = 0 → p.ph = .idle →
        let next := fun (u : State) (q : Periph) (es : List Event) (n : Half) =>
          step { tracing (setDev { u with sched := rest } i q) ([Event.csrR i .sr2 0, .csrW i .cr1 0x0100 0x0100] ++ es)
            with seq := some ⟨i, cmd, ws, ops, { scr with resp := { scr.resp with found := n } }⟩ }
        let sent := [Event.csrR i .sr1 0x0001, .csrW i .dr 0x00FF (w.setWidth 16)]
        let stops := fun (q : Periph) (es : List Event) (st : Status) =>
          Host.Outcome.next (back (tracing (setDev { s with sched := rest, lastNow := s.ticks } i q)
            ([Event.csrR i .sr2 0, .csrW i .cr1 0x0100 0x0100] ++ es)) st)
        let addressed := { p with
          sr1 := 0, sr2 := 0x0003, dr := w.setWidth 16, pendDR := false, wire := .sent w :: .start :: p.wire }
        (scr.resp.found.toNat < bufSize s buf → scr.resp.found ≠ 0xFFFF →
          s.sched = paced i [(3, .startGen), (3, .addrSend .ack)] 6 ++ rest →
          step s = next { s with
              lastNow := s.ticks, mem := memPut s.mem (cellAddr buf scr.resp.found.toNat) (a.setWidth 8) }
            { addressed with
              cr1 := p.cr1 ||| 0x0200, sr1 := 0x0080, sr2 := 0x0007, ph := .tx, arw := false, snap := 0
              wire := .ack :: addressed.wire }
            [.csrR i .sr1 0x0001, .csrW i .dr 0x00FF (w.setWidth 16), .csrR i .sr1 0x0002, .csrR i .sr1 0x0002,
              .csrR i .sr2 0x0007, .csrW i .cr1 0x0200 0x0200] (scr.resp.found + 1)) ∧
        (s.sched = paced i [(3, .startGen), (3, .addrSend .nack)] 4 ++ rest →
          step s = next { s with lastNow := s.ticks }
            { addressed with
              cr1 := p.cr1 ||| 0x0200, ph := .held, snap := 0x0400, wire := .nack :: addressed.wire }
            [.csrR i .sr1 0x0001, .csrW i .dr 0x00FF (w.setWidth 16), .csrR i .sr1 0x0400,
              .csrW i .sr1 0xFFFF (~~~0x0400), .csrW i .cr1 0x0200 0x0200] scr.resp.found) ∧
        (s.sched = List.replicate 5 .block ++ [.tick d, .block, .block] ++ rest → tmo.toNat ≤ d.toNat → d.toNat < 2 ^ 31 →
          step s = next { s with ticks := s.ticks + d, lastNow := s.ticks + d }
            { p with cr1 := p.cr1 ||| 0x0300, snap := p.sr1 }
            [.csrR i .sr1 p.sr1, .csrW i .cr1 0x0200 0x0200] scr.resp.found) ∧
        (s.sched = paced i [(3, .startGen)] 5 ++ [.tick d, .block, .block] ++ rest → tmo.toNat ≤ d.toNat →
          d.toNat < 2 ^ 31 →
          step s = next { s with ticks := s.ticks + d, lastNow := s.ticks + d }
            { addressed with
              cr1 := p.cr1 ||| 0x0200, ph := .start, pendDR := true, snap := 0, wire := .start :: p.wire }
            (sent ++ [.csrR i .sr1 0, .csrW i .cr1 0x0200 0x0200]) scr.resp.found) ∧
        (s.sched = paced i [(3, .berr)] 4 ++ rest →
          step s = stops { p with cr1 := p.cr1 ||| 0x0300, snap := p.sr1 ||| 0x0100 }
            [.csrR i .sr1 (p.sr1 ||| 0x0100), .csrW i .sr1 0xFFFF (~~~0x0100), .csrW i .cr1 0x0200 0x0200] .busError) ∧
        (s.sched = paced i [(3, .startGen), (3, .addrSend .ack), (0, .berr)] 4 ++ rest →
          step s = stops { addressed with
              cr1 := p.cr1 ||| 0x0200, sr1 := 0x0002, sr2 := 0x0007, ph := .addrDone, arw := false, snap := 0x0102
              wire := .ack :: addressed.wire }
            (sent ++ [.csrR i .sr1 0x0102, .csrW i .sr1 0xFFFF (~~~0x0100), .csrW i .cr1 0x0200 0x0200]) .busError) ∧
        (s.sched = paced i [(3, .startGen), (3, .addrSend .lost)] 3 ++ rest →
          step s = stops { addressed with sr2 := 0x0002, ph := .idle, snap := 0x0200 }
            (sent ++ [.csrR i .sr1 0x0200, .csrW i .sr1 0xFFFF (~~~0x0200)]) .arbitrationLost)))) ∧
  ∀ (s : State) (i : Nat) (cmd : Instr) (ws : Words) (f : Flag) (tmo : Word) (buf : Word) (a : Byte) (ops : List Op)
      (scr : Scratch),
    NoFault s → i < nInst s → i < s.peri.length → isTransaction cmd = true → s.sched = [] →
    (dev s i).cr1.getLsbD 0 = true → (dev s i).cr1.getLsbD 15 = false →
    let p := dev s i
    let e := p.sr1 &&& 0x0700
    let t0 := scr.t0.getD s.ticks
    let u := if scr.t0 = none then { s with lastNow := s.ticks } else s
    let late := tmo.toNat ≤ (s.ticks - t0).toNat
    let seen := fun (v : State) (ops : List Op) (r : Scratch) =>
      { tracing (setDev v i { p with snap := p.sr1 }) [Event.csrR i .sr1 p.sr1] with seq := some ⟨i, cmd, ws, ops, r⟩ }
    (s.seq = some ⟨i, cmd, ws, .probePoll f tmo :: ops, scr⟩ →
      (scr.p ≠ .ok → step s = step { s with seq := some ⟨i, cmd, ws, ops, scr⟩ }) ∧
      (scr.p = .ok →
        (e ≠ 0 → step s = step (seen u ops { scr with t0 := none, p := .err e })) ∧
        (e = 0 → p.sr1 &&& flagMask f ≠ 0 → step s = step (seen u ops { scr with t0 := none })) ∧
        (e = 0 → p.sr1 &&& flagMask f = 0 → late →
          step s = step (seen { s with lastNow := s.ticks } ops { scr with t0 := none, p := .timeout })) ∧
        (e = 0 → p.sr1 &&& flagMask f = 0 → ¬ late →
          step s = .next (seen { s with lastNow := s.ticks } (.probePoll f tmo :: ops) { scr with t0 := some t0 })))) ∧
    (s.seq = some ⟨i, cmd, ws, .probeEnd buf a :: ops, scr⟩ →
      let stop := fun (q : Periph) => { q with cr1 := q.cr1 ||| 0x0200 }
      let on := fun (q : Periph) (es : List Event) =>
        step { tracing (setDev s i q) es with seq := some ⟨i, cmd, ws, ops, { scr with p := .ok }⟩ }
      let back := fun (q : Periph) (es : List Event) (st : Status) =>
        Host.Outcome.next { tracing (setRow (setDev s i q) i { row s i with lastError := st, opActive := false })
          (es ++ [.resp cmd { scr.resp with status := st }]) with seq := none }
      (scr.p = .timeout → step s = on (stop p) [.csrW i .cr1 0x0200 0x0200]) ∧
      ∀ g : Half, scr.p = .err g →
        let q := { p with sr1 := p.sr1 &&& ~~~(g &&& 0x0700) }
        let es := [Event.csrW i .sr1 0xFFFF (~~~g)]
        (g.getLsbD 8 = true → step s = back (stop q) (es ++ [.csrW i .cr1 0x0200 0x0200]) .busError) ∧
        (g.getLsbD 8 = false → g.getLsbD 9 = true → step s = back q es .arbitrationLost) ∧
        (g.getLsbD 8 = false → g.getLsbD 9 = false → step s = on (stop q) (es ++ [.csrW i .cr1 0x0200 0x0200])))
end

