-- ==== Sys2Proof/Laws/Buffers.lean ====
section
/-! SUPPORT. What the shared operations on configurations, host buffers, parameters, the clock and marks can do. -/

namespace Sys2Proof.Machine

/-- Whether two configurations share hardware, in the words of the statements. -/
theorem sharesHardware_iff (c d : InstConfig) : sharesHardware c d = false ↔ Apart c d := by
  simp only [sharesHardware, Apart]
  simp
  tauto

/-- `INIT` accepts a row as the statements say. -/
theorem accepted_iff (s : State) (i : Nat) : Accepted s i ↔ configAccepted s i = true := by
  simp only [Accepted, configAccepted, Bool.and_eq_true, List.all_eq_true, List.mem_range, Bool.or_eq_true, beq_iff_eq,
    Bool.not_eq_true', sharesHardware_iff]
  refine and_congr_right fun _ => ⟨fun h j hj => ?_, fun h j hj hi => (h j hj).resolve_left hi⟩
  by_cases hi : j = i
  · exact .inl hi
  · exact .inr (h j hj hi)

/-- A buffer is lent exactly where a pending transfer holds it or the command being executed named it. -/
theorem borrower_eq_none (lent : Option (Nat × Word)) (s : State) (buf : Word) :
    borrower lent s buf = none ↔
      (∀ j, j < nInst s → ¬ (pending s j = true ∧ (row s j).xfer.buf = buf)) ∧ ∀ j, lent ≠ some (j, buf) := by
  unfold borrower
  split
  · rename_i j h
    have hj := List.mem_of_find?_eq_some h
    have hp := List.find?_some h
    simp only [List.mem_range, Bool.and_eq_true, beq_iff_eq] at hj hp
    simp only [reduceCtorEq, false_iff, not_and]
    exact fun hn => absurd hp.2 (hn j hj hp.1)
  · rename_i h
    simp only [List.find?_eq_none, List.mem_range, Bool.and_eq_true, beq_iff_eq] at h
    rcases lent with _ | ⟨j, b⟩
    · simp only [reduceCtorEq, not_false_eq_true, ne_eq, implies_true, and_true, true_iff]
      exact fun j hj => h j hj
    · simp only [ite_eq_right_iff, reduceCtorEq, imp_false, ne_eq, Option.some.injEq, Prod.mk.injEq, not_and]
      exact ⟨fun hb => ⟨fun j hj => not_and.1 (h j hj), fun _ _ => hb⟩, fun hb => hb.2 j rfl⟩

/-- An access of the host, on a buffer that is not lent: out of bounds it faults, else a read changes nothing and a write
writes the one byte. -/
theorem hostTouch_free (lent : Option (Nat × Word)) (s : State) (buf : Word) (k : Half) (v : Option Byte)
    (h : borrower lent s buf = none) :
    hostTouch lent buf k v s =
      if k.toNat < bufSize s buf then
        .next (match v with
          | none => s
          | some b => { s with mem := memPut s.mem (cellAddr buf k.toNat) b })
      else .fault (.bufferBounds ⟨none, 0, 81⟩) := by
  by_cases hk : k.toNat < bufSize s buf <;> cases v <;> simp [hostTouch, h, memRead, memWrite, hk]

/-- An access of the host on a lent buffer faults, in bounds or not. -/
theorem hostTouch_lent (lent : Option (Nat × Word)) (s : State) (buf : Word) (k : Half) (v : Option Byte) (i : Nat)
    (h : borrower lent s buf = some i) : hostTouch lent buf k v s = .fault (.bufferRace ⟨none, i, 99⟩ buf) := by
  simp [hostTouch, h]

/-- The default of both parameters refuses. -/
theorem applyPolicy_refuse (y0 y : State → Out) (c : Ctx) (p : OpenParam) (scr : Scratch) (s : State)
    (h : scr.next = none) : applyPolicy y0 y c p Policy.refuse scr s = .refused (refusalOf p c.inst) := by
  simp [applyPolicy, h, Policy.refuse, runProg]

/-- A tick of the clock advances the counter, but for an advance that would take the next reading 2^31 past the last. -/
theorem ticks_advanceClock (d : Word) (s : State) :
    (advanceClock d s).ticks =
      if (elapsed s.ticks s.lastNow).toNat + d.toNat < 2 ^ 31 then s.ticks + d else s.ticks := by
  simp only [advanceClock]
  split_ifs <;> rfl

/-- In a fair run whose clock is let advance from some point on, the tick counter advances without bound, wraps counted
(10_state.md R57). -/
theorem clockFair_unbounded {s0 : State} {states : Nat → State} {draws : Nat → List Sched}
    (h : ClockFair s0 states draws) (n : Nat) (hr : ∀ m, n ≤ m → ClockReady (states m)) (bound : Nat) :
    ∃ k, bound ≤ ((List.range k).map fun m => (elapsed (states (m + 1)).ticks (states m).ticks).toNat).sum := by
  induction bound with
  | zero => exact ⟨0, Nat.zero_le _⟩
  | succ b ih =>
    obtain ⟨k, hk⟩ := ih
    obtain ⟨m, hm, hne⟩ := h.2 (max n k) fun m hm => hr m (by omega)
    have hmono : ∀ j, k ≤ j →
        b ≤ ((List.range j).map fun m => (elapsed (states (m + 1)).ticks (states m).ticks).toNat).sum := by
      intro j hj
      induction j, hj using Nat.le_induction with
      | base => exact hk
      | succ j _ ihj => rw [List.range_succ]; simp; omega
    have hpos : 0 < (elapsed (states (m + 1)).ticks (states m).ticks).toNat := by
      simp only [elapsed]
      have : (states (m + 1)).ticks.toNat ≠ (states m).ticks.toNat := fun e => hne (BitVec.eq_of_toNat_eq e)
      rw [BitVec.toNat_sub]
      have h1 := (states (m + 1)).ticks.isLt
      have h2 := (states m).ticks.isLt
      omega
    refine ⟨m + 1, ?_⟩
    have := hmono m (by omega)
    rw [List.range_succ]
    simp
    omega

/-- A choice of an enabled step of the peripheral takes it (43_hw_peripheral.md R266). -/
theorem agentStep_ready {s : State} {i : Nat} {p : PeriphStep} (lent : Option (Nat × Word)) (h : PeriphReady s i p) :
    agentStep lent (.peri i p) s = .next (setDev s i (stepEffect p (dev s i))) := by
  simp only [agentStep, periphStep, h.2.1, h.2.2, and_self, if_true]

/-- A launch at reset has no mark. -/
theorem noFault_of_atReset {s : State} (h : AtReset s) : NoFault s := by
  unfold NoFault; rw [h]; rfl

/-- No step clears a mark (60_exceptions.md R401). -/
theorem settled_step_mark {s : State} {m : Mark} (h : s.mark = some m) : settled s (step s) = s := by
  have e : { s with mark := some m } = s := by rw [← h]
  unfold step; rw [h]
  cases m <;> exact e

end Sys2Proof.Machine
end

