-- ==== Sys2Proof/Laws/State.lean ====
section
/-! SUPPORT. One lemma per field per update of the state, and what a row, a peripheral and the row count are after it. -/

namespace Sys2Proof.Machine

@[simp] theorem setRow_par (s : State) (i : Nat) (r : Inst) : (setRow s i r).par = s.par := rfl
@[simp] theorem setRow_inst (s : State) (i : Nat) (r : Inst) : (setRow s i r).inst = s.inst.set i r := rfl
@[simp] theorem setRow_peri (s : State) (i : Nat) (r : Inst) : (setRow s i r).peri = s.peri := rfl
@[simp] theorem setRow_seq (s : State) (i : Nat) (r : Inst) : (setRow s i r).seq = s.seq := rfl
@[simp] theorem setRow_words (s : State) (i : Nat) (r : Inst) : (setRow s i r).words = s.words := rfl
@[simp] theorem setRow_mem (s : State) (i : Nat) (r : Inst) : (setRow s i r).mem = s.mem := rfl
@[simp] theorem setRow_bufs (s : State) (i : Nat) (r : Inst) : (setRow s i r).bufs = s.bufs := rfl
@[simp] theorem setRow_ticks (s : State) (i : Nat) (r : Inst) : (setRow s i r).ticks = s.ticks := rfl
@[simp] theorem setRow_lastNow (s : State) (i : Nat) (r : Inst) : (setRow s i r).lastNow = s.lastNow := rfl
@[simp] theorem setRow_trace (s : State) (i : Nat) (r : Inst) : (setRow s i r).trace = s.trace := rfl
@[simp] theorem setRow_pinLog (s : State) (i : Nat) (r : Inst) : (setRow s i r).pinLog = s.pinLog := rfl
@[simp] theorem setRow_host (s : State) (i : Nat) (r : Inst) : (setRow s i r).host = s.host := rfl
@[simp] theorem setRow_sched (s : State) (i : Nat) (r : Inst) : (setRow s i r).sched = s.sched := rfl
@[simp] theorem setRow_env (s : State) (i : Nat) (r : Inst) : (setRow s i r).env = s.env := rfl
@[simp] theorem setRow_mark (s : State) (i : Nat) (r : Inst) : (setRow s i r).mark = s.mark := rfl

@[simp] theorem setDev_par (s : State) (i : Nat) (p : Periph) : (setDev s i p).par = s.par := rfl
@[simp] theorem setDev_inst (s : State) (i : Nat) (p : Periph) : (setDev s i p).inst = s.inst := rfl
@[simp] theorem setDev_peri (s : State) (i : Nat) (p : Periph) : (setDev s i p).peri = s.peri.set i p := rfl
@[simp] theorem setDev_seq (s : State) (i : Nat) (p : Periph) : (setDev s i p).seq = s.seq := rfl
@[simp] theorem setDev_words (s : State) (i : Nat) (p : Periph) : (setDev s i p).words = s.words := rfl
@[simp] theorem setDev_mem (s : State) (i : Nat) (p : Periph) : (setDev s i p).mem = s.mem := rfl
@[simp] theorem setDev_bufs (s : State) (i : Nat) (p : Periph) : (setDev s i p).bufs = s.bufs := rfl
@[simp] theorem setDev_ticks (s : State) (i : Nat) (p : Periph) : (setDev s i p).ticks = s.ticks := rfl
@[simp] theorem setDev_lastNow (s : State) (i : Nat) (p : Periph) : (setDev s i p).lastNow = s.lastNow := rfl
@[simp] theorem setDev_trace (s : State) (i : Nat) (p : Periph) : (setDev s i p).trace = s.trace := rfl
@[simp] theorem setDev_pinLog (s : State) (i : Nat) (p : Periph) : (setDev s i p).pinLog = s.pinLog := rfl
@[simp] theorem setDev_host (s : State) (i : Nat) (p : Periph) : (setDev s i p).host = s.host := rfl
@[simp] theorem setDev_sched (s : State) (i : Nat) (p : Periph) : (setDev s i p).sched = s.sched := rfl
@[simp] theorem setDev_env (s : State) (i : Nat) (p : Periph) : (setDev s i p).env = s.env := rfl
@[simp] theorem setDev_mark (s : State) (i : Nat) (p : Periph) : (setDev s i p).mark = s.mark := rfl

@[simp] theorem emit_par (e : Event) (s : State) : (emit e s).par = s.par := rfl
@[simp] theorem emit_inst (e : Event) (s : State) : (emit e s).inst = s.inst := rfl
@[simp] theorem emit_peri (e : Event) (s : State) : (emit e s).peri = s.peri := rfl
@[simp] theorem emit_seq (e : Event) (s : State) : (emit e s).seq = s.seq := rfl
@[simp] theorem emit_words (e : Event) (s : State) : (emit e s).words = s.words := rfl
@[simp] theorem emit_mem (e : Event) (s : State) : (emit e s).mem = s.mem := rfl
@[simp] theorem emit_bufs (e : Event) (s : State) : (emit e s).bufs = s.bufs := rfl
@[simp] theorem emit_ticks (e : Event) (s : State) : (emit e s).ticks = s.ticks := rfl
@[simp] theorem emit_lastNow (e : Event) (s : State) : (emit e s).lastNow = s.lastNow := rfl
@[simp] theorem emit_trace (e : Event) (s : State) : (emit e s).trace = e :: s.trace := rfl
@[simp] theorem emit_pinLog (e : Event) (s : State) : (emit e s).pinLog = s.pinLog := rfl
@[simp] theorem emit_host (e : Event) (s : State) : (emit e s).host = s.host := rfl
@[simp] theorem emit_sched (e : Event) (s : State) : (emit e s).sched = s.sched := rfl
@[simp] theorem emit_env (e : Event) (s : State) : (emit e s).env = s.env := rfl
@[simp] theorem emit_mark (e : Event) (s : State) : (emit e s).mark = s.mark := rfl

@[simp] theorem respond_par (c : Instr) (r : Response) (s : State) : (respond c r s).par = s.par := rfl
@[simp] theorem respond_inst (c : Instr) (r : Response) (s : State) : (respond c r s).inst = s.inst := rfl
@[simp] theorem respond_peri (c : Instr) (r : Response) (s : State) : (respond c r s).peri = s.peri := rfl
@[simp] theorem respond_seq (c : Instr) (r : Response) (s : State) : (respond c r s).seq = s.seq := rfl
@[simp] theorem respond_words (c : Instr) (r : Response) (s : State) : (respond c r s).words = s.words := rfl
@[simp] theorem respond_mem (c : Instr) (r : Response) (s : State) : (respond c r s).mem = s.mem := rfl
@[simp] theorem respond_bufs (c : Instr) (r : Response) (s : State) : (respond c r s).bufs = s.bufs := rfl
@[simp] theorem respond_ticks (c : Instr) (r : Response) (s : State) : (respond c r s).ticks = s.ticks := rfl
@[simp] theorem respond_lastNow (c : Instr) (r : Response) (s : State) : (respond c r s).lastNow = s.lastNow := rfl
@[simp] theorem respond_trace (c : Instr) (r : Response) (s : State) : (respond c r s).trace = Event.resp c r :: s.trace := rfl
@[simp] theorem respond_pinLog (c : Instr) (r : Response) (s : State) : (respond c r s).pinLog = s.pinLog := rfl
@[simp] theorem respond_host (c : Instr) (r : Response) (s : State) : (respond c r s).host = s.host := rfl
@[simp] theorem respond_sched (c : Instr) (r : Response) (s : State) : (respond c r s).sched = s.sched := rfl
@[simp] theorem respond_env (c : Instr) (r : Response) (s : State) : (respond c r s).env = s.env := rfl
@[simp] theorem respond_mark (c : Instr) (r : Response) (s : State) : (respond c r s).mark = s.mark := rfl

@[simp] theorem enablePinClock_par (port : Nat) (s : State) : (enablePinClock port s).par = s.par := rfl
@[simp] theorem enablePinClock_inst (port : Nat) (s : State) : (enablePinClock port s).inst = s.inst := rfl
@[simp] theorem enablePinClock_peri (port : Nat) (s : State) : (enablePinClock port s).peri = s.peri := rfl
@[simp] theorem enablePinClock_seq (port : Nat) (s : State) : (enablePinClock port s).seq = s.seq := rfl
@[simp] theorem enablePinClock_words (port : Nat) (s : State) : (enablePinClock port s).words = s.words := rfl
@[simp] theorem enablePinClock_mem (port : Nat) (s : State) : (enablePinClock port s).mem = s.mem := rfl
@[simp] theorem enablePinClock_bufs (port : Nat) (s : State) : (enablePinClock port s).bufs = s.bufs := rfl
@[simp] theorem enablePinClock_ticks (port : Nat) (s : State) : (enablePinClock port s).ticks = s.ticks := rfl
@[simp] theorem enablePinClock_lastNow (port : Nat) (s : State) : (enablePinClock port s).lastNow = s.lastNow := rfl
@[simp] theorem enablePinClock_trace (port : Nat) (s : State) : (enablePinClock port s).trace = s.trace := rfl
@[simp] theorem enablePinClock_pinLog (port : Nat) (s : State) : (enablePinClock port s).pinLog = PinCall.enableClock port :: s.pinLog := rfl
@[simp] theorem enablePinClock_host (port : Nat) (s : State) : (enablePinClock port s).host = s.host := rfl
@[simp] theorem enablePinClock_sched (port : Nat) (s : State) : (enablePinClock port s).sched = s.sched := rfl
@[simp] theorem enablePinClock_env (port : Nat) (s : State) : (enablePinClock port s).env = s.env := rfl
@[simp] theorem enablePinClock_mark (port : Nat) (s : State) : (enablePinClock port s).mark = s.mark := rfl

/-! Rows, peripherals and the row count. -/

@[simp] theorem nInst_setRow (s : State) (i : Nat) (r : Inst) : nInst (setRow s i r) = nInst s := by simp [nInst]
@[simp] theorem nInst_setDev (s : State) (i : Nat) (p : Periph) : nInst (setDev s i p) = nInst s := rfl
@[simp] theorem nInst_emit (e : Event) (s : State) : nInst (emit e s) = nInst s := rfl
@[simp] theorem nInst_respond (c : Instr) (r : Response) (s : State) : nInst (respond c r s) = nInst s := rfl

@[simp] theorem row_setDev (s : State) (i j : Nat) (p : Periph) : row (setDev s i p) j = row s j := rfl
@[simp] theorem row_emit (e : Event) (s : State) (j : Nat) : row (emit e s) j = row s j := rfl
@[simp] theorem row_respond (c : Instr) (r : Response) (s : State) (j : Nat) : row (respond c r s) j = row s j := rfl

theorem row_setRow_self (s : State) (i : Nat) (r : Inst) (h : i < nInst s) : row (setRow s i r) i = r := by
  simp only [nInst] at h
  simp [row, h]

theorem row_setRow_other (s : State) (i j : Nat) (r : Inst) (h : i ≠ j) : row (setRow s i r) j = row s j := by
  simp [row, List.getElem?_set_ne h]

@[simp] theorem dev_setRow (s : State) (i j : Nat) (r : Inst) : dev (setRow s i r) j = dev s j := rfl
@[simp] theorem dev_emit (e : Event) (s : State) (j : Nat) : dev (emit e s) j = dev s j := rfl
@[simp] theorem dev_respond (c : Instr) (r : Response) (s : State) (j : Nat) : dev (respond c r s) j = dev s j := rfl

theorem dev_setDev_self (s : State) (i : Nat) (p : Periph) (h : i < s.peri.length) : dev (setDev s i p) i = p := by
  simp [dev, h]

theorem dev_setDev_other (s : State) (i j : Nat) (p : Periph) (h : i ≠ j) : dev (setDev s i p) j = dev s j := by
  simp [dev, List.getElem?_set_ne h]

theorem row_setRow (s : State) (i : Nat) (r : Inst) : row (setRow s i r) i = if i < s.inst.length then r else row s i := by
  split_ifs with h
  · exact row_setRow_self _ _ _ h
  · simp [setRow, row, List.set_eq_of_length_le (Nat.le_of_not_lt h)]

theorem dev_setDev (s : State) (i : Nat) (p : Periph) :
    dev (setDev s i p) i = if i < s.peri.length then p else dev s i := by
  split_ifs with h
  · exact dev_setDev_self _ _ _ h
  · simp [setDev, dev, List.set_eq_of_length_le (Nat.le_of_not_lt h)]

theorem setRow_setRow (s : State) (i : Nat) (r q : Inst) : setRow (setRow s i r) i q = setRow s i q := by
  simp [setRow]

theorem setRow_row (s : State) (i : Nat) : setRow s i (row s i) = s := by
  by_cases h : i < s.inst.length
  · simp [setRow, row, h]
  · simp [setRow, List.set_eq_of_length_le (Nat.le_of_not_lt h)]

@[simp] theorem andThen_next (s : State) (k : State → Out) : andThen (.next s) k = k s := rfl
@[simp] theorem andThen_fault (f : Fault) (k : State → Out) : andThen (.fault f) k = .fault f := rfl
@[simp] theorem andThen_refused (r : Refusal) (k : State → Out) : andThen (.refused r) k = .refused r := rfl

/-- Everything a sequence of two moves can answer. -/
theorem andThen_eq_next {o : Out} {k : State → Out} {t : State} (h : andThen o k = .next t) :
    ∃ s, o = .next s ∧ k s = .next t := by
  cases o with
  | next s => exact ⟨s, rfl, h⟩
  | fault f => cases h
  | refused r => cases h

end Sys2Proof.Machine
end

