-- ==== Sys2Proof/Laws/Memory.lean ====
section
/-! SUPPORT. The laws of the host buffers' memory: read after write, and the canonical form (20_memory.md R81). -/

namespace Sys2Proof.Machine

theorem memGet_memPut_same (m : List Host.Cell) (a : Nat) (v : Byte) : memGet (memPut m a v) a = some v := by
  induction m with
  | nil => simp [memPut, memGet]
  | cons c m ih =>
    obtain ⟨b, w⟩ := c
    simp only [memPut]
    split_ifs with h1 h2 <;> simp [memGet, *]

theorem memGet_memPut_other (m : List Host.Cell) (a b : Nat) (v : Byte) (h : b ≠ a) :
    memGet (memPut m a v) b = memGet m b := by
  induction m with
  | nil => simp [memPut, memGet, h]
  | cons c m ih =>
    obtain ⟨d, w⟩ := c
    simp only [memPut]
    split_ifs with h1 h2
    · simp [memGet, h]
    · subst h2; simp [memGet, h]
    · simp [memGet, ih]

/-- Strictly rising addresses, all of them above a bound. -/
theorem wf_cons {a : Nat} {v : Byte} {m : List Host.Cell} :
    Memory.wf ((a, v) :: m) = true ↔ (∀ c ∈ m.head?, a < c.1) ∧ Memory.wf m = true := by
  cases m <;> simp [Memory.wf]

theorem head_memPut (m : List Host.Cell) (a : Nat) (v : Byte) :
    ∀ c ∈ (memPut m a v).head?, c.1 = a ∨ ∃ d ∈ m.head?, c.1 = d.1 := by
  cases m with
  | nil => simp [memPut]
  | cons c m =>
    obtain ⟨b, w⟩ := c
    simp only [memPut]
    split_ifs <;> simp

/-- A write keeps the canonical form. -/
theorem wf_memPut (m : List Host.Cell) (a : Nat) (v : Byte) (h : Memory.wf m = true) :
    Memory.wf (memPut m a v) = true := by
  induction m with
  | nil => rfl
  | cons c m ih =>
    obtain ⟨b, w⟩ := c
    rw [wf_cons] at h
    simp only [memPut]
    split_ifs with h1 h2
    · rw [wf_cons, wf_cons]; exact ⟨by simpa using h1, h⟩
    · subst h2; rw [wf_cons]; exact h
    · rw [wf_cons]
      refine ⟨fun c hc => ?_, ih h.2⟩
      obtain e | ⟨d, hd, e⟩ := head_memPut m a v c hc
      · omega
      · exact e ▸ h.1 d hd

/-- Bytes that an access can reach have one place each. -/
theorem cellAddr_inj {b c : Word} {j k : Nat} (hj : j < 2 ^ 32) (hk : k < 2 ^ 32) :
    cellAddr b j = cellAddr c k ↔ b = c ∧ j = k := by
  unfold cellAddr
  refine ⟨fun h => ⟨BitVec.eq_of_toNat_eq (by omega), by omega⟩, ?_⟩
  rintro ⟨rfl, rfl⟩
  rfl

/-- The one thing a buffer write does (20_memory.md R81). -/
theorem memWrite_ok {site : Site} {buf : Word} {k : Nat} {v : Byte} {s t : State}
    (h : memWrite site buf k v s = .ok t) :
    k < bufSize s buf ∧ t = { s with mem := memPut s.mem (cellAddr buf k) v } := by
  unfold memWrite at h
  split_ifs at h with hk
  exact ⟨hk, (Except.ok.inj h).symm⟩

end Sys2Proof.Machine
end

