-- ==== Sys2Proof/Laws/Turn.lean ====
section
/-! SUPPORT. What the other agents' turn can do when no handler is among the scheduler's choices. -/

namespace Sys2Proof.Machine

/-- What the moves of the other agents read and write: kinds, peripherals and the clock. -/
def sameAgents (s t : State) : Prop :=
  (∀ i, (row s i).config.kind = (row t i).config.kind) ∧ s.peri = t.peri ∧ s.ticks = t.ticks ∧ s.lastNow = t.lastNow

/-- A choice that is no handler moves the peripherals and the clock alone, and reads nothing else. -/
theorem agentMove_eq (e : Sched) {s t : State} (h : sameAgents s t) :
    agentMove t e = { t with peri := (agentMove s e).peri, ticks := (agentMove s e).ticks } ∧
      sameAgents (agentMove s e) (agentMove t e) := by
  obtain ⟨hk, hp, ht, hl⟩ := h
  have hd : ∀ i, dev s i = dev t i := fun i => by simp only [dev, hp]
  cases e with
  | block => exact ⟨by simp only [agentMove, hp, ht], hk, hp, ht, hl⟩
  | irq => exact ⟨by simp only [agentMove, hp, ht], hk, hp, ht, hl⟩
  | peri i p =>
    simp only [agentMove, periphStep, hk, hd]
    split_ifs
    · exact ⟨by simp [setDev, hp, ht], hk, by simp [hp], ht, hl⟩
    · exact ⟨by simp only [hp, ht], hk, hp, ht, hl⟩
  | tick d =>
    simp only [agentMove, advanceClock, ht, hl]
    split_ifs
    · exact ⟨by simp only [hp], hk, hp, rfl, rfl⟩
    · exact ⟨by simp only [hp, ht], hk, hp, ht, hl⟩

theorem agentMoves_eq (es : List Sched) {s t : State} (h : sameAgents s t) :
    agentMoves es t = { t with peri := (agentMoves es s).peri, ticks := (agentMoves es s).ticks } ∧
      sameAgents (agentMoves es s) (agentMoves es t) := by
  induction es generalizing s t with
  | nil => obtain ⟨-, hp, ht, -⟩ := id h; exact ⟨by simp only [agentMoves, List.foldl_nil, hp, ht], h⟩
  | cons e es ih =>
    obtain ⟨h1, h2⟩ := agentMove_eq e h
    obtain ⟨h3, h4⟩ := ih h2
    exact ⟨by simp only [agentMoves, List.foldl_cons] at h3 ⊢; rw [h3, h1], h4⟩

theorem agentMoves_self (es : List Sched) (s : State) :
    agentMoves es s = { s with peri := (agentMoves es s).peri, ticks := (agentMoves es s).ticks } :=
  (agentMoves_eq es ⟨fun _ => rfl, rfl, rfl, rfl⟩).1

theorem AgentsMoved.refl {s : State} (h : NoIrq s) : AgentsMoved s s := ⟨h, [], rfl, rfl⟩

theorem AgentsMoved.trans {s t u : State} (h1 : AgentsMoved s t) (h2 : AgentsMoved t u) : AgentsMoved s u := by
  obtain ⟨-, es, hs, ht⟩ := h1
  obtain ⟨hu, fs, ht', hu'⟩ := h2
  refine ⟨hu, es ++ fs, by rw [hs, ht', List.append_assoc], ?_⟩
  have hm : sameAgents (agentMoves es s) t := by
    rw [ht]
    refine ⟨fun i => ?_, rfl, rfl, by rw [agentMoves_self es s]⟩
    rw [agentMoves_self es s]; rfl
  have hf := (agentMoves_eq fs hm).2
  have e : agentMoves (es ++ fs) s = agentMoves fs (agentMoves es s) := List.foldl_append
  rw [hu', e, hf.2.1, hf.2.2.1, ht]

/-- Moves of the agents are the same after a change that they neither read nor write. -/
theorem AgentsMoved.map {s t s' : State} (h : AgentsMoved s t) (hs : sameAgents s s') (hc : s'.sched = s.sched) :
    AgentsMoved s' { s' with peri := t.peri, ticks := t.ticks, sched := t.sched } := by
  obtain ⟨hn, es, h1, h2⟩ := h
  refine ⟨hn, es, hc.trans h1, ?_⟩
  have := agentMoves_eq es hs
  rw [h2, this.2.2.1, this.2.2.2.1]

/-- The parts of a state that the other agents' moves leave alone. -/
theorem AgentsMoved.parts {s t : State} (h : AgentsMoved s t) :
    t = { s with peri := t.peri, ticks := t.ticks, sched := t.sched } := by
  obtain ⟨-, es, -, h2⟩ := h
  rw [h2]

/-- With no choice left the other agents have not moved. -/
theorem AgentsMoved.still {s t : State} (h : AgentsMoved s t) (hs : s.sched = []) : t = s := by
  obtain ⟨-, es, h1, h2⟩ := h
  rw [hs] at h1
  obtain ⟨rfl, ht⟩ := List.append_eq_nil_iff.1 h1.symm
  have e : agentMoves [] s = s := rfl
  rw [h2, ht, e, ← hs]

/-- A choice that is no handler is a move of the agents. -/
theorem agentStep_noIrq (l : Option (Nat × Word)) (e : Sched) (s : State) (h : e ≠ .irq) :
    agentStep l e s = .next (agentMove s e) := by
  cases e <;> first | rfl | exact absurd rfl h

theorem turnFrom_noIrq (l : Option (Nat × Word)) (es : List Sched) (s : State) (h : ∀ e ∈ es, e ≠ .irq) :
    ∃ fs gs, es = fs ++ gs ∧ turnFrom l es s = .next { agentMoves fs s with sched := gs } := by
  induction es generalizing s with
  | nil => exact ⟨[], [], rfl, rfl⟩
  | cons e es ih =>
    have hes : ∀ e ∈ es, e ≠ .irq := fun e he => h e (List.mem_cons_of_mem _ he)
    have he := agentStep_noIrq l e s (h e List.mem_cons_self)
    obtain ⟨fs, gs, h1, h2⟩ := ih (agentMove s e) hes
    cases e with
    | block => exact ⟨[.block], es, rfl, rfl⟩
    | peri i st => exact ⟨.peri i st :: fs, gs, by rw [h1]; rfl, by simp only [turnFrom, he, andThen_next, h2]; rfl⟩
    | tick d => exact ⟨.tick d :: fs, gs, by rw [h1]; rfl, by simp only [turnFrom, he, andThen_next, h2]; rfl⟩
    | irq => exact absurd rfl (h _ List.mem_cons_self)

/-- Everything a turn without a handler can do. -/
theorem turn_noIrq {l : Option (Nat × Word)} {s : State} (h : NoIrq s) : ∃ t, turn l s = .next t ∧ AgentsMoved s t := by
  obtain ⟨fs, gs, h1, h2⟩ := turnFrom_noIrq l s.sched s h
  refine ⟨_, h2, fun e he => h e (h1 ▸ List.mem_append_right fs he), fs, h1, ?_⟩
  rw [agentMoves_self fs s]

/-- With no choice left the other agents do nothing. -/
theorem turn_quiet {l : Option (Nat × Word)} {s : State} (h : s.sched = []) : turn l s = .next s := by
  simp only [turn, h, turnFrom]; rw [← h]

/-- With no choice left a turn before an operation does nothing. -/
theorem thenOp_quiet {l : Option (Nat × Word)} {s : State} (h : s.sched = []) (k : State → OpRes) :
    thenOp (turn l s) k = k s := by
  rw [turn_quiet h]; rfl

end Sys2Proof.Machine
end

