-- ==== Sys2Proof/Laws/Moves.lean ====
section
/-! SUPPORT. What a step can do, said once: every step is a sequence of the small moves below. -/

namespace Sys2Proof.Machine

/-- What a CSR access or a step of its own makes of a peripheral. -/
inductive PeriphMove (p : Periph) : Periph → Prop
  | readSR1 : PeriphMove p (periphReadSR1 p)
  | readSR2 : PeriphMove p (periphReadSR2 p)
  | readDR : PeriphMove p (periphReadDR p)
  | write (r : Reg) (m v : Half) (h : writeOk r m v = true) : PeriphMove p (periphWrite r m v p)
  | step (st : PeriphStep) (h : stepEnabled st p = true) : PeriphMove p (stepEffect st p)

/-- A small move that writes rows of `R` alone. -/
inductive Prim (R : Nat → Prop) (s : State) : State → Prop
  | row (i : Nat) (r : Inst) (hi : R i) (hc : r.config = (Machine.row s i).config)
      (hx : swRowOk (Machine.row s i) = true → swRowOk r = true) : Prim R s (setRow s i r)
  | dev (i : Nat) (p : Periph) (h : PeriphMove (Machine.dev s i) p) : Prim R s (setDev s i p)
  | mem (a : Nat) (v : Byte) : Prim R s { s with mem := memPut s.mem a v }
  | trace (e : Event) : Prim R s (emit e s)
  | pinLog (l : List PinCall) : Prim R s { s with pinLog := l }
  | env (e : Env) : Prim R s { s with env := e }
  | ticks (k : Word) (h : (elapsed k s.lastNow).toNat < 2 ^ 31) : Prim R s { s with ticks := k }
  | lastNow : Prim R s { s with lastNow := s.ticks }
  | sched (es : List Sched) (h : (∀ i, R i) ∨ ∀ e ∈ es, e ≠ .irq) : Prim R s { s with sched := es }
  | host (as : List HostAct) : Prim R s { s with host := as }
  | words (w : Words) : Prim R s { s with words := w }
  | seq (q : Option Seq) (h : ∀ x, q = some x → ∀ op ∈ x.ops, waitingOp op = true) : Prim R s { s with seq := q }

/-- A sequence of small moves. -/
def Moves (R : Nat → Prop) : State → State → Prop := Relation.ReflTransGen (Prim R)

theorem Moves.refl {R : Nat → Prop} {s : State} : Moves R s s := Relation.ReflTransGen.refl

theorem Moves.trans {R : Nat → Prop} {s t u : State} (h1 : Moves R s t) (h2 : Moves R t u) : Moves R s u :=
  Relation.ReflTransGen.trans h1 h2

theorem Prim.moves {R : Nat → Prop} {s t : State} (h : Prim R s t) : Moves R s t := Relation.ReflTransGen.single h

theorem Moves.then {R : Nat → Prop} {s t u : State} (h1 : Moves R s t) (h2 : Prim R t u) : Moves R s u :=
  Relation.ReflTransGen.tail h1 h2

/-- A property every small move keeps is kept by a sequence of them. -/
theorem Moves.keep {R : Nat → Prop} {P : State → Prop} (hp : ∀ s t, Prim R s t → P s → P t) {s t : State}
    (h : Moves R s t) (hs : P s) : P t := by
  induction h with
  | refl => exact hs
  | tail _ h ih => exact hp _ _ h ih

/-! ## What every small move leaves alone -/

theorem Moves.par {R : Nat → Prop} {s t : State} (h : Moves R s t) : t.par = s.par :=
  h.keep (P := fun u => u.par = s.par) (fun u v hp hu => by cases hp <;> exact hu) rfl

theorem Moves.bufs {R : Nat → Prop} {s t : State} (h : Moves R s t) : t.bufs = s.bufs :=
  h.keep (P := fun u => u.bufs = s.bufs) (fun u v hp hu => by cases hp <;> exact hu) rfl

theorem configsOf_setRow (s : State) (i : Nat) (r : Inst) (h : r.config = (row s i).config) :
    configsOf (setRow s i r) = configsOf s := by
  simp only [configsOf, setRow, List.map_set, h]
  by_cases hi : i < s.inst.length
  · have : (row s i).config = (s.inst.map Inst.config)[i]'(by simpa using hi) := by simp [row, hi]
    rw [this, List.set_getElem_self]
  · rw [List.set_eq_of_length_le (by simpa using hi)]

theorem Moves.configs {R : Nat → Prop} {s t : State} (h : Moves R s t) : configsOf t = configsOf s :=
  h.keep (P := fun u => configsOf u = configsOf s)
    (fun u v hp hu => by
      cases hp with
      | row i r hi hc hx => rw [configsOf_setRow _ _ _ hc]; exact hu
      | _ => exact hu) rfl

theorem config_row (s : State) (i : Nat) :
    (row s i).config = (configsOf s).getD i ⟨.sw, 0, 0, 0, 0, 0, 0, 0, 0⟩ := by
  by_cases h : i < s.inst.length <;> simp [row, configsOf, h, Inst.reset]

theorem Moves.config {R : Nat → Prop} {s t : State} (h : Moves R s t) (i : Nat) :
    (Machine.row t i).config = (Machine.row s i).config := by rw [config_row, config_row, h.configs]

theorem Moves.nInst {R : Nat → Prop} {s t : State} (h : Moves R s t) : Machine.nInst t = Machine.nInst s := by
  have := congrArg List.length h.configs
  simpa [configsOf, Machine.nInst] using this

/-- Either every row may be written, or no handler is among the scheduler's choices. -/
def RowsOrQuiet (R : Nat → Prop) (s : State) : Prop := (∀ i, R i) ∨ NoIrq s

theorem RowsOrQuiet.keep {R : Nat → Prop} {s t : State} (h : RowsOrQuiet R s) (m : Moves R s t) : RowsOrQuiet R t :=
  m.keep (P := RowsOrQuiet R)
    (fun u v hp hu => by
      cases hp with
      | sched es hes => exact hes
      | _ => exact hu) h

theorem Moves.row_other {R : Nat → Prop} {s t : State} (h : Moves R s t) (j : Nat) (hj : ¬ R j) :
    Machine.row t j = Machine.row s j :=
  h.keep (P := fun u => Machine.row u j = Machine.row s j)
    (fun u v hp hu => by
      cases hp with
      | row i r hi hc hx => rw [row_setRow_other _ _ _ _ (by rintro rfl; exact hj hi)]; exact hu
      | _ => exact hu) rfl

theorem Moves.mark {R : Nat → Prop} {s t : State} (h : Moves R s t) : t.mark = s.mark :=
  h.keep (P := fun u => u.mark = s.mark) (fun u v hp hu => by cases hp <;> exact hu) rfl

/-- The tick counter stays less than 2^31 past the last reading (10_state.md R55). -/
theorem Moves.clockOk {R : Nat → Prop} {s t : State} (h : Moves R s t) (hs : Machine.clockOk s) : Machine.clockOk t :=
  h.keep (P := Machine.clockOk)
    (fun u v hp hu => by
      cases hp with
      | ticks k hk => exact hk
      | lastNow => simp [Machine.clockOk, elapsed]
      | _ => exact hu) hs

theorem Moves.memWf {R : Nat → Prop} {s t : State} (h : Moves R s t) (hs : Memory.wf s.mem = true) :
    Memory.wf t.mem = true :=
  h.keep (P := fun u => Memory.wf u.mem = true)
    (fun u v hp hu => by
      cases hp with
      | mem a v => exact wf_memPut _ _ _ hu
      | _ => exact hu) hs

end Sys2Proof.Machine
end

