-- ==== Sys2Proof/Laws/OpMoves.lean ====
section
/-! SUPPORT. A command's micro-operations are sequences of the small moves of Laws/Moves.lean. -/

namespace Sys2Proof.Machine

/-- What the turn `y` of the other agents does is a sequence of small moves. -/
def GoodTurn (R : Nat → Prop) (y : State → Out) : Prop :=
  ∀ s t, RowsOrQuiet R s → y s = .next t → Moves R s t

theorem noTurn_good (R : Nat → Prop) : GoodTurn R noTurn := fun s t _ h => by
  cases h; exact .refl

/-- What follows a sequence of moves from `s` in an outcome. -/
def OutOk (R : Nat → Prop) (s : State) (o : Out) : Prop := ∀ t, o = .next t → Moves R s t

/-- What follows a sequence of moves from `s` in an operation's answer. -/
def ResOk (R : Nat → Prop) (s : State) : OpRes → Prop
  | .go _ t => Moves R s t
  | .done _ _ t => Moves R s t
  | .wait _ t => Moves R s t
  | .fault _ => True
  | .refused _ => True

/-! ## The named operations -/

theorem Moves.emit {R : Nat → Prop} {s t : State} (h : Moves R s t) (e : Event) : Moves R s (Machine.emit e t) :=
  h.then (.trace e)

theorem Moves.setRow {R : Nat → Prop} {s t : State} (h : Moves R s t) {i : Nat} {r : Inst} (hi : R i)
    (hc : r.config = (Machine.row t i).config) (hx : swRowOk (Machine.row t i) = true → swRowOk r = true) :
    Moves R s (Machine.setRow t i r) := h.then (.row i r hi hc hx)

theorem Moves.csrWrite {R : Nat → Prop} {s t : State} (h : Moves R s t) (i : Nat) (r : Reg) (m v : Half)
    (hw : writeOk r m v = true) : Moves R s (Machine.csrWrite i r m v t) :=
  (h.then (.dev i _ (.write r m v hw))).emit _

theorem Moves.setCr1 {R : Nat → Prop} {s t : State} (h : Moves R s t) (i : Nat) (f : Half)
    (hw : writeOk .cr1 f f = true) : Moves R s (Machine.setCr1 i f t) := h.csrWrite _ _ _ _ hw

theorem Moves.clearErrors {R : Nat → Prop} {s t : State} (h : Moves R s t) (i : Nat) (e : Half) :
    Moves R s (Machine.clearErrors i e t) := h.csrWrite _ _ _ _ rfl

theorem Moves.writeDR {R : Nat → Prop} {s t : State} (h : Moves R s t) (i : Nat) (b : Byte) :
    Moves R s (Machine.writeDR i b t) := h.csrWrite _ _ _ _ rfl

theorem Moves.readSR1 {R : Nat → Prop} {s t : State} (h : Moves R s t) (i : Nat) : Moves R s (Machine.readSR1 i t).2 :=
  (h.then (.dev i _ .readSR1)).emit _

theorem Moves.readSR2 {R : Nat → Prop} {s t : State} (h : Moves R s t) (i : Nat) : Moves R s (Machine.readSR2 i t).2 :=
  (h.then (.dev i _ .readSR2)).emit _

theorem Moves.readDR {R : Nat → Prop} {s t : State} (h : Moves R s t) (i : Nat) : Moves R s (Machine.readDR i t).2 :=
  (h.then (.dev i _ .readDR)).emit _

theorem Moves.now {R : Nat → Prop} {s t : State} (h : Moves R s t) : Moves R s (Machine.now t).2 := h.then .lastNow

theorem Moves.readReg {R : Nat → Prop} {s t : State} (h : Moves R s t) (i : Nat) (r : Reg) :
    Moves R s (Machine.readReg i r t).2 := by
  cases r with
  | sr1 => exact h.readSR1 i
  | sr2 => exact h.readSR2 i
  | dr => exact h.readDR i
  | _ => exact h.emit _

theorem swRowOk_setDrive (r : Inst) (l : Line) (v : Bool) : swRowOk (setDrive r l v) = swRowOk r := by cases l <;> rfl

theorem config_setDrive (r : Inst) (l : Line) (v : Bool) : (setDrive r l v).config = r.config := by cases l <;> rfl

theorem Moves.writeLine {R : Nat → Prop} {s t : State} (h : Moves R s t) {i : Nat} (hi : R i) (l : Line) (v : Bool) :
    Moves R s (Machine.writeLine i l v t) :=
  (h.setRow hi (config_setDrive _ _ _) (by rw [swRowOk_setDrive]; exact id)).emit _

theorem Moves.lineOp {R : Nat → Prop} {s t : State} (h : Moves R s t) {i : Nat} (hi : R i) (op : LineOp) :
    Moves R s (Machine.lineOp i op t) := by
  cases op with
  | pin l v => exact h.writeLine hi l v
  | delay => exact h.emit _

theorem Moves.drawSample {R : Nat → Prop} {s t : State} (h : Moves R s t) : Moves R s (Machine.drawSample t).2 := by
  unfold Machine.drawSample
  split <;> exact h.then (.env _)

theorem Moves.readLine {R : Nat → Prop} {s t : State} (h : Moves R s t) (i : Nat) (l : Line) :
    Moves R s (Machine.readLine i l t).2 := h.drawSample.emit _

theorem Moves.configurePin {R : Nat → Prop} {s t : State} (h : Moves R s t) (port pin : Nat) (m : PinMode) :
    Moves R s (Machine.configurePin port pin m t).2 := by
  unfold Machine.configurePin drawPinResult
  split <;> exact (h.then (.env _)).then (.pinLog _)

theorem Moves.finish {R : Nat → Prop} {s t : State} (h : Moves R s t) {c : Ctx} (hi : R c.inst) (st : Status)
    (r : Response) : Moves R s (Machine.finish c st r t) := by
  unfold Machine.finish respond
  refine Moves.emit (h.setRow hi ?_ ?_) _
  · rfl
  · exact id

/-! ## Turns inside an operation -/

theorem thenOp_ok {R : Nat → Prop} {y : State → Out} (hy : GoodTurn R y) {s t : State} (hq : RowsOrQuiet R s)
    (h : Moves R s t) {k : State → OpRes} (hk : ∀ u, Moves R s u → ResOk R s (k u)) : ResOk R s (thenOp (y t) k) := by
  cases hu : y t with
  | next u => exact hk u (h.trans (hy t u (hq.keep h) hu))
  | fault f => trivial
  | refused r => trivial

theorem andThen_ok {R : Nat → Prop} {y : State → Out} (hy : GoodTurn R y) {s t : State} (hq : RowsOrQuiet R s)
    (h : Moves R s t) {k : State → Out} (hk : ∀ u, Moves R s u → OutOk R s (k u)) : OutOk R s (andThen (y t) k) := by
  cases hu : y t with
  | next u => exact hk u (h.trans (hy t u (hq.keep h) hu))
  | fault f => exact fun _ e => by cases e
  | refused r => exact fun _ e => by cases e

theorem runLines_ok {R : Nat → Prop} {y : State → Out} (hy : GoodTurn R y) {s : State} (hq : RowsOrQuiet R s) {i : Nat}
    (hi : R i) (l : List LineOp) {t : State} (h : Moves R s t) : OutOk R s (runLines y i l t) := by
  induction l generalizing t with
  | nil => exact fun u e => by cases e; exact h
  | cons op l ih => exact andThen_ok hy hq h fun u hu => ih (hu.lineOp hi op)

/-! ## Waits -/

theorem beginWait_ok {R : Nat → Prop} {y : State → Out} (hy : GoodTurn R y) {s t : State} (hq : RowsOrQuiet R s)
    (h : Moves R s t) (c : Ctx) (scr : Scratch) {k : Word → State → OpRes}
    (hk : ∀ w u, Moves R s u → ResOk R s (k w u)) : ResOk R s (beginWait y c scr t k) := by
  unfold beginWait
  split_ifs
  · trivial
  · cases scr.t0 with
    | some w => exact hk w t h
    | none => exact thenOp_ok hy hq h fun u hu => hk _ _ hu.now

theorem checkTime_ok {R : Nat → Prop} {y : State → Out} (hy : GoodTurn R y) {s t : State} (hq : RowsOrQuiet R s)
    (h : Moves R s t) (t0 tmo : Word) (scr : Scratch) {k : State → OpRes} (hk : ∀ u, Moves R s u → ResOk R s (k u)) :
    ResOk R s (checkTime y t0 tmo scr t k) :=
  thenOp_ok hy hq h fun u hu => by
    simp only []
    split_ifs
    · exact hk _ hu.now
    · exact hu.now

theorem pollRound_ok {R : Nat → Prop} {y0 y : State → Out} (hy0 : GoodTurn R y0) (hy : GoodTurn R y) {s t : State} (hq : RowsOrQuiet R s)
    (h : Moves R s t) (c : Ctx) (f : Flag) (tmo : Word) (scr : Scratch) {k : PollResult → Scratch → State → OpRes}
    (hk : ∀ p r u, Moves R s u → ResOk R s (k p r u)) : ResOk R s (pollRound y0 y c f tmo scr t k) :=
  beginWait_ok hy0 hq h c scr fun w u hu => thenOp_ok hy hq hu fun v hv => by
    simp only []
    split_ifs
    · exact hk _ _ _ (hv.readSR1 _)
    · exact hk _ _ _ (hv.readSR1 _)
    · exact checkTime_ok hy hq (hv.readSR1 _) _ _ _ fun w hw => hk _ _ _ hw

theorem stopAndReturn_ok {R : Nat → Prop} {y : State → Out} (hy : GoodTurn R y) {s t : State} (hq : RowsOrQuiet R s)
    (h : Moves R s t) (c : Ctx) (st : Status) (scr : Scratch) : ResOk R s (stopAndReturn y c st scr t) :=
  thenOp_ok hy hq h fun _ hu => hu.setCr1 _ _ (by decide)

theorem waitFlagEnd_ok {R : Nat → Prop} {y : State → Out} (hy : GoodTurn R y) {s t : State} (hq : RowsOrQuiet R s)
    (h : Moves R s t) (c : Ctx) (p : PollResult) (scr : Scratch) : ResOk R s (waitFlagEnd y c p scr t) := by
  cases p with
  | ok => exact h
  | timeout => exact stopAndReturn_ok hy hq h c _ scr
  | err e =>
    refine thenOp_ok hy hq h fun u hu => ?_
    simp only []
    split_ifs
    · exact hu.clearErrors _ _
    · exact stopAndReturn_ok hy hq (hu.clearErrors _ _) c _ scr

theorem recordFound_ok {R : Nat → Prop} {s t : State} (h : Moves R s t) (c : Ctx) (buf : Word) (a : Byte)
    (scr : Scratch) : ResOk R s (recordFound c buf a scr t) := by
  unfold recordFound
  cases hw : memWrite (siteOf c 81) buf scr.resp.found.toNat a t with
  | error f => trivial
  | ok u =>
    simp only []
    cases succ16 scr.resp.found with
    | none => trivial
    | some n => rw [(memWrite_ok hw).2]; exact h.then (.mem _ _)

theorem probeEnd_ok {R : Nat → Prop} {y0 y : State → Out} (hy0 : GoodTurn R y0) (hy : GoodTurn R y) {s t : State} (hq : RowsOrQuiet R s)
    (h : Moves R s t) (c : Ctx) (buf : Word) (a : Byte) (scr : Scratch) : ResOk R s (probeEnd y0 y c buf a scr t) := by
  unfold probeEnd
  cases scr.p with
  | ok =>
    exact thenOp_ok hy0 hq h fun u hu => thenOp_ok hy hq (hu.readSR1 _) fun v hv =>
      thenOp_ok hy hq (hv.readSR2 _) fun w hw => thenOp_ok hy hq (hw.setCr1 _ _ (by decide)) fun x hx =>
        recordFound_ok hx c buf a _
  | timeout => exact thenOp_ok hy0 hq h fun u hu => hu.setCr1 _ _ (by decide)
  | err e =>
    refine thenOp_ok hy0 hq h fun u hu => ?_
    simp only []
    split
    · exact hu.clearErrors _ _
    · exact stopAndReturn_ok hy hq (hu.clearErrors _ _) c _ _
    · exact thenOp_ok hy hq (hu.clearErrors _ _) fun v hv => hv.setCr1 _ _ (by decide)

theorem asyncClaim_ok {R : Nat → Prop} {s t : State} (h : Moves R s t) (c : Ctx) (hi : R c.inst)
    (hk : (Machine.row s c.inst).config.kind = .hw) (buf : Word) (len : Half) (a : BitVec 10) (d : Dir) (scr : Scratch) :
    ResOk R s (asyncClaim c buf len a d scr t) := by
  unfold asyncClaim
  split_ifs
  · exact h
  · simp only []
    split_ifs
    · exact h.readSR2 _
    · refine (h.readSR2 _).setRow hi rfl fun _ => ?_
      have := (h.readSR2 c.inst).config c.inst
      simp only [swRowOk, this, hk]
      rfl

/-! ## The programs of the OPEN parameters -/

/-- The fields the controller writes are neither reserved nor kept at 0 (10_state.md R50). -/
theorem writeOk_fieldAccess (ev : PolicyExpr → Word) (f : CsrField) :
    writeOk (fieldAccess ev f).1 (fieldAccess ev f).2.1 (fieldAccess ev f).2.2 = true := by
  have hb : ∀ v : Bool, writeOk .cr1 Cr1.pe (bitsIf Cr1.pe v) = true ∧ writeOk .cr1 Cr1.ack (bitsIf Cr1.ack v) = true ∧
      writeOk .cr1 Cr1.swrst (bitsIf Cr1.swrst v) = true := by decide
  have hm : ∀ a b c d : Bool, cr2Named a b c d &&& 0xF8C0#16 = 0#16 := by decide
  cases f with
  | pe v => exact (hb v).1
  | ack v => exact (hb v).2.1
  | swrst v => exact (hb v).2.2
  | cr2 f a b c =>
    simp only [fieldAccess, writeOk]
    rw [BitVec.and_assoc, BitVec.and_comm (_ ||| _), ← BitVec.and_assoc, hm, BitVec.zero_and]
    rfl
  | _ => first | rfl | (simp only [fieldAccess]; decide)

theorem config_withXfer (r : Inst) (x : Xfer) : (withXfer r x).config = r.config := by
  unfold withXfer; split_ifs <;> rfl

theorem swRowOk_withXfer (r : Inst) (x : Xfer) (h : swRowOk r = true) : swRowOk (withXfer r x) = true := by
  unfold withXfer
  split_ifs with hk
  · simp [swRowOk, hk]
  · exact h

theorem config_rowAct (ev : PolicyExpr → Word) (a : RowAct) (r : Inst) : (rowAct ev a r).config = r.config := by
  cases a <;> first | rfl | exact config_withXfer r _

theorem swRowOk_rowAct (ev : PolicyExpr → Word) (a : RowAct) (r : Inst) (h : swRowOk r = true) :
    swRowOk (rowAct ev a r) = true := by
  cases a <;> first
    | exact h
    | exact swRowOk_withXfer r _ h
    | simp [rowAct, swRowOk, Inst.reset]

/-- Everything an act of a parameter's program can do. -/
theorem policyAct_ok {R : Nat → Prop} {s t : State} (h : Moves R s t) (c : Ctx) (hi : R c.inst) (p : OpenParam)
    (a : PolicyAct) (scr : Scratch) {k : Scratch → State → OpRes} (hk : ∀ r u, Moves R s u → ResOk R s (k r u)) :
    ResOk R s (policyAct c p a scr t k) := by
  cases a with
  | set x e => exact hk _ _ h
  | pin l v => exact hk _ _ (h.writeLine hi l v)
  | delay us => exact hk _ _ (h.emit _)
  | sample x l => exact hk _ _ (h.readLine _ _)
  | enableClock l => exact hk _ _ (h.then (.pinLog _))
  | configurePin x l mode => exact hk _ _ (h.configurePin _ _ _)
  | write f =>
    refine hk _ _ ?_
    split_ifs
    · exact h.csrWrite _ _ _ _ (writeOk_fieldAccess _ f)
    · exact h
  | read x r => exact hk _ _ (h.readReg _ _)
  | now x => exact hk _ _ h.now
  | memRead x b i =>
    simp only [policyAct]
    split
    · exact hk _ _ h
    · trivial
  | memWrite b i v =>
    simp only [policyAct]
    split
    · next u hu => refine hk _ _ ?_; rw [(memWrite_ok hu).2]; exact h.then (.mem _ _)
    · trivial
  | store a => exact hk _ _ (h.setRow hi (config_rowAct _ _ _) (swRowOk_rowAct _ _ _))

/-- Everything a parameter's program can do. -/
theorem runProg_ok {R : Nat → Prop} {y0 y : State → Out} (hy0 : GoodTurn R y0) (hy : GoodTurn R y) {s t : State}
    (hq : RowsOrQuiet R s) (h : Moves R s t) (c : Ctx) (hi : R c.inst) (p : OpenParam) (q : PolicyProg) (scr : Scratch) :
    ResOk R s (runProg y c p q y0 scr t) := by
  induction q generalizing y0 scr t with
  | refuse => trivial
  | ret st => exact h
  | rest => exact h
  | act a next ih =>
    simp only [runProg]
    split_ifs
    · exact thenOp_ok hy0 hq h fun u hu => policyAct_ok hu c hi p a _ fun r v hv => ih hy hv r
    · exact policyAct_ok h c hi p a _ fun r v hv => ih hy0 hv r
  | test b yes no ih1 ih2 =>
    simp only [runProg]
    split_ifs
    · exact ih1 hy0 h _
    · exact ih2 hy0 h _
  | jump k =>
    simp only [runProg]
    split_ifs
    · trivial
    · exact h

theorem applyPolicy_ok {R : Nat → Prop} {y0 y : State → Out} (hy0 : GoodTurn R y0) (hy : GoodTurn R y) {s t : State}
    (hq : RowsOrQuiet R s) (h : Moves R s t) (c : Ctx) (hi : R c.inst) (p : OpenParam) (pol : Policy) (scr : Scratch) :
    ResOk R s (applyPolicy y0 y c p pol scr t) := by
  unfold applyPolicy
  cases scr.next with
  | none => exact runProg_ok hy0 hy hq h c hi p _ scr
  | some k => exact thenOp_ok hy0 hq h fun u hu => runProg_ok (noTurn_good R) hy hq hu c hi p _ _

theorem shutDown_ok {R : Nat → Prop} {y0 y : State → Out} (hy0 : GoodTurn R y0) (hy : GoodTurn R y) {s t : State} (hq : RowsOrQuiet R s)
    (h : Moves R s t) (c : Ctx) (hi : R c.inst) (scr : Scratch) : ResOk R s (shutDown y0 y c scr t) := by
  have h0 : Moves R s (Machine.setRow t c.inst { Machine.row t c.inst with nvicEn := false }) := h.setRow hi rfl id
  refine thenOp_ok hy0 hq h0 fun u hu => ?_
  refine thenOp_ok hy hq (hu.csrWrite _ .cr2 _ _ (by decide)) fun v hv => ?_
  refine thenOp_ok hy hq (hv.csrWrite _ .cr2 _ _ (by decide)) fun w hw => ?_
  exact thenOp_ok hy hq (hw.csrWrite _ .cr2 _ _ (by decide)) fun x hx => hx.csrWrite _ .cr1 _ _ (by decide)

/-! ## Operations and programs -/

theorem opStep_ok {R : Nat → Prop} {y0 y : State → Out} (hy0 : GoodTurn R y0) (hy : GoodTurn R y) {s t : State} (hq : RowsOrQuiet R s)
    (h : Moves R s t) (c : Ctx) (hi : R c.inst) (op : Op) (ho : waitingOp op = true) (scr : Scratch) :
    ResOk R s (opStep y0 y c op scr t) := by
  cases op with
  | line l => exact thenOp_ok hy0 hq h fun u hu => hu.lineOp hi l
  | pinBit k => exact thenOp_ok hy0 hq h fun u hu => hu.writeLine hi _ _
  | sampleBit k => exact thenOp_ok hy0 hq h fun u hu => hu.readLine _ _
  | sampleAck => exact thenOp_ok hy0 hq h fun u hu => hu.readLine _ _
  | needAck =>
    simp only [opStep]
    split_ifs
    · exact h
    · have := runLines_ok hy hq hi stopLines h
      cases hr : runLines y c.inst stopLines t with
      | next u => exact this u hr
      | fault f => trivial
      | refused r => trivial
  | swBusy =>
    refine thenOp_ok hy0 hq h fun u hu => thenOp_ok hy hq (hu.readLine _ _) fun v hv => ?_
    simp only []
    split_ifs <;> exact hv.readLine _ _
  | byte b => exact h
  | ackToFlag => exact h
  | byteToResponse => exact h
  | memRead buf k =>
    refine thenOp_ok hy0 hq h fun u hu => ?_
    cases memRead (siteOf c 81) buf k u with
    | ok b => exact hu
    | error f => trivial
  | memWrite buf k =>
    refine thenOp_ok hy0 hq h fun u hu => ?_
    cases hw : memWrite (siteOf c 81) buf k scr.byte u with
    | ok v => simp only []; rw [(memWrite_ok hw).2]; exact hu.then (.mem _ _)
    | error f => trivial
  | scanBreak max => simp only [opStep]; split_ifs <;> exact h
  | scanRecord buf a =>
    simp only [opStep]
    split_ifs
    · exact thenOp_ok hy0 hq h fun u hu => recordFound_ok hu c buf a scr
    · exact h
  | waitNotBusy tmo =>
    refine beginWait_ok hy0 hq h c scr fun w u hu => thenOp_ok hy hq hu fun v hv => ?_
    simp only []
    split_ifs
    · exact checkTime_ok hy hq (hv.readSR2 _) _ _ _ fun w hw => hw
    · exact hv.readSR2 _
  | waitFlag f tmo => exact pollRound_ok hy0 hy hq h c f tmo scr fun p r u hu => waitFlagEnd_ok hy hq hu c p r
  | probePoll f tmo =>
    simp only [opStep]
    cases scr.p with
    | ok => exact pollRound_ok hy0 hy hq h c f tmo scr fun p r u hu => hu
    | timeout => exact h
    | err e => exact h
  | probeDR b =>
    simp only [opStep]
    cases scr.p with
    | ok => exact thenOp_ok hy0 hq h fun u hu => hu.writeDR _ _
    | timeout => exact h
    | err e => exact h
  | probeEnd buf a => exact probeEnd_ok hy0 hy hq h c buf a scr
  | csr r m v => exact thenOp_ok hy0 hq h fun u hu => hu.csrWrite _ _ _ _ ho
  | writeDR => exact thenOp_ok hy0 hq h fun u hu => hu.writeDR _ _
  | readSR1 => exact thenOp_ok hy0 hq h fun u hu => hu.readSR1 _
  | readSR2 => exact thenOp_ok hy0 hq h fun u hu => hu.readSR2 _
  | readDR => exact thenOp_ok hy0 hq h fun u hu => hu.readDR _
  | asyncClaim buf len a d => cases ho
  | enableClock port => exact thenOp_ok hy0 hq h fun u hu => hu.then (.pinLog _)
  | configPin port pin mode =>
    refine thenOp_ok hy0 hq h fun u hu => ?_
    simp only []
    split_ifs <;> exact hu.configurePin _ _ _
  | setNvic v => exact h.setRow hi rfl id
  | initRow => exact h.setRow hi rfl fun _ => by simp [swRowOk]
  | resetRow => exact h.setRow hi rfl fun _ => by simp [swRowOk, Inst.reset]
  | shutDown =>
    simp only [opStep]
    split_ifs
    · exact shutDown_ok hy0 hy hq h c hi scr
    · exact h
  | apply p pol => exact applyPolicy_ok hy0 hy hq h c hi p _ scr
  | setMode m => exact h.setRow hi rfl id
  | abandon =>
    simp only [opStep]
    split_ifs with hp
    · refine h.setRow hi rfl fun hr => ?_
      simp only [swRowOk, Bool.or_eq_true, beq_iff_eq] at hr ⊢
      refine hr.imp id fun hx => ?_
      simp [pending, hx, Xfer.reset, XState.pending] at hp
    · exact h

/-- A program of operations a waiting command may make, from any place of it. -/
theorem run_ok {R : Nat → Prop} {y0 y : State → Out} (hy0 : GoodTurn R y0) (hy : GoodTurn R y) {s : State} (hq : RowsOrQuiet R s) (c : Ctx)
    (hi : R c.inst) (ops : List Op) (ho : ∀ op ∈ ops, waitingOp op = true) (scr : Scratch) {t : State}
    (h : Moves R s t) : OutOk R s (run y0 y c ops scr t) := by
  induction ops generalizing y0 scr t with
  | nil => exact fun u e => by cases e; exact h.finish hi _ _
  | cons op ops ih =>
    have hr := opStep_ok hy0 hy hq h c hi op (ho op List.mem_cons_self) scr
    simp only [run]
    revert hr
    cases opStep y0 y c op scr t with
    | go r u => exact fun hr => ih (by split_ifs <;> assumption) (fun o h => ho o (List.mem_cons_of_mem _ h)) r hr
    | done st r u => exact fun hr v e => by cases e; exact hr.finish hi _ _
    | wait r u =>
      exact fun hr v e => by
        cases e
        refine hr.then (.seq _ fun x hx => ?_)
        cases hx
        exact ho
    | fault f => exact fun _ v e => by cases e
    | refused f => exact fun _ v e => by cases e

/-- The same of a program that begins with the claim of an asynchronous start. -/
theorem run_async_ok {R : Nat → Prop} {y0 y : State → Out} (hy0 : GoodTurn R y0) (hy : GoodTurn R y) {s : State} (hq : RowsOrQuiet R s) (c : Ctx)
    (hi : R c.inst) (hk : (Machine.row s c.inst).config.kind = .hw) (buf : Word) (len : Half) (a : BitVec 10) (d : Dir)
    (ops : List Op) (ho : ∀ op ∈ ops, waitingOp op = true) (scr : Scratch) {t : State} (h : Moves R s t) :
    OutOk R s (run y0 y c (.asyncClaim buf len a d :: ops) scr t) := by
  have hw : ∀ r u, opStep y0 y c (.asyncClaim buf len a d) scr t ≠ .wait r u := by
    intro r u
    simp only [opStep]
    cases y0 t with
    | next v => simp only [thenOp, asyncClaim]; split_ifs <;> simp
    | fault f => simp [thenOp]
    | refused f => simp [thenOp]
  have hr : ResOk R s (opStep y0 y c (.asyncClaim buf len a d) scr t) :=
    thenOp_ok hy0 hq h fun u hu => asyncClaim_ok hu c hi hk buf len a d scr
  simp only [run]
  revert hr hw
  cases opStep y0 y c (.asyncClaim buf len a d) scr t with
  | go r u => exact fun _ hr => run_ok (by split_ifs <;> assumption) hy hq c hi ops ho r hr
  | done st r u => exact fun _ hr v e => by cases e; exact hr.finish hi _ _
  | wait r u => exact fun hw _ => absurd rfl (hw r u)
  | fault f => exact fun _ _ v e => by cases e
  | refused f => exact fun _ _ v e => by cases e

end Sys2Proof.Machine
end

