-- ==== Sys2Proof/Laws/CmdMoves.lean ====
section
/-! SUPPORT. Every command, handler and step is a sequence of the small moves of Laws/Moves.lean. -/

namespace Sys2Proof.Machine

/-! ## Programs are made of operations a waiting command may make -/

theorem waiting_lines (l : List LineOp) : ∀ op ∈ lines l, waitingOp op = true := by
  intro op h
  obtain ⟨x, -, rfl⟩ := List.mem_map.1 h
  rfl

theorem all_waiting {ops : List Op} (h : ops.all waitingOp = true) : ∀ op ∈ ops, waitingOp op = true :=
  List.all_eq_true.1 h

@[simp] theorem all_lines (l : List LineOp) : (lines l).all waitingOp = true := List.all_eq_true.2 (waiting_lines l)
@[simp] theorem all_startOps : startOps.all waitingOp = true := all_lines _
@[simp] theorem all_restartOps : restartOps.all waitingOp = true := all_lines _
@[simp] theorem all_stopOps : stopOps.all waitingOp = true := all_lines _
@[simp] theorem all_sendByteOps : sendByteOps.all waitingOp = true := by decide
@[simp] theorem all_receiveByteOps (a : Bool) : (receiveByteOps a).all waitingOp = true := by cases a <;> decide

@[simp] theorem all_sendAll (bs : List Byte) : (sendAll bs).all waitingOp = true := by
  simp [sendAll, List.all_flatMap, sendCheckedOps, waitingOp]

@[simp] theorem all_swSendBuf (buf : Word) (n : Nat) : (swSendBuf buf n).all waitingOp = true := by
  simp [swSendBuf, List.all_flatMap, sendCheckedOps, waitingOp]

@[simp] theorem all_swReceiveBuf (buf : Word) (n : Nat) : (swReceiveBuf buf n).all waitingOp = true := by
  simp [swReceiveBuf, List.all_flatMap, waitingOp]

@[simp] theorem all_swAR (am : AddrMode) (a : BitVec 10) : (swAR am a).all waitingOp = true := by
  cases am <;> simp [swAR]

@[simp] theorem all_swScan (buf : Word) (max : Half) : (swScan buf max).all waitingOp = true := by
  simp [swScan, List.all_flatMap, swProbe, waitingOp]

@[simp] theorem all_hwStart (t : Word) : (hwStart t).all waitingOp = true := rfl
@[simp] theorem all_clearAddr : clearAddrOps.all waitingOp = true := rfl
@[simp] theorem all_hwStop : hwStop.all waitingOp = true := rfl
@[simp] theorem all_hwPut (b : Byte) (f : Flag) (t : Word) : (hwPut b f t).all waitingOp = true := rfl

@[simp] theorem all_hwAW (am : AddrMode) (a : BitVec 10) (t : Word) : (hwAW am a t).all waitingOp = true := by
  cases am <;> rfl

@[simp] theorem all_hwAR (am : AddrMode) (a : BitVec 10) (t : Word) : (hwAR am a t).all waitingOp = true := by
  cases am <;> simp [hwAR]

@[simp] theorem all_hwARPrime (am : AddrMode) (a : BitVec 10) (t : Word) : (hwARPrime am a t).all waitingOp = true := rfl

@[simp] theorem all_hwTxBody (bs : List Byte) (buf : Word) (n : Nat) (t : Word) :
    (hwTxBody bs buf n t).all waitingOp = true := by
  simp [hwTxBody, List.all_flatMap, hwTxByte, waitingOp]

@[simp] theorem all_hwRx (buf : Word) (n : Nat) (t : Word) : (hwRx buf n t).all waitingOp = true := by
  unfold hwRx
  split_ifs
  · rfl
  · have : ∀ k, (hwRxByte buf n t k).all waitingOp = true := fun k => by unfold hwRxByte; split_ifs <;> rfl
    simp [hwRxMany, List.all_flatMap, this, waitingOp, writeOk, Cr1.ack, Cr1.stop]

@[simp] theorem all_hwScan (buf : Word) (max : Half) (t : Word) : (hwScan buf max t).all waitingOp = true := by
  simp [hwScan, List.all_flatMap, hwProbe, waitingOp, writeOk, Cr1.start]

/-! ## Commands -/

theorem Moves.respond {R : Nat → Prop} {s t : State} (h : Moves R s t) (c : Instr) (r : Response) :
    Moves R s (Machine.respond c r t) := h.emit _

theorem OutOk.next {R : Nat → Prop} {s t : State} (h : Moves R s t) : OutOk R s (.next t) := fun u e => by
  cases e; exact h

theorem OutOk.fault {R : Nat → Prop} {s : State} (f : Fault) : OutOk R s (.fault f) := fun _ e => by cases e

theorem OutOk.refused {R : Nat → Prop} {s : State} (f : Refusal) : OutOk R s (.refused f) := fun _ e => by cases e

theorem claimed_ok {R : Nat → Prop} {s : State} (c : Ctx) (hi : R c.inst) {k : State → Out}
    (hk : ∀ t, Moves R s t → OutOk R s (k t)) : OutOk R s (claimed c s k) := by
  unfold claimed
  split_ifs
  · exact .fault _
  · exact hk _ (Moves.setRow .refl hi rfl id)
  · exact .next (Moves.respond .refl _ _)

theorem claimedInit_ok {R : Nat → Prop} {s : State} (c : Ctx) (hi : R c.inst) {k : State → Out}
    (hk : ∀ t, Moves R s t → OutOk R s (k t)) : OutOk R s (claimedInit c s k) :=
  claimed_ok c hi fun t ht => by
    split_ifs
    · exact hk t ht
    · exact .next (ht.finish hi _ _)

section commands

variable {R : Nat → Prop} {y : State → Out} {s : State} {i : Nat}

theorem cmdInit_ok (hy : GoodTurn R y) (hq : RowsOrQuiet R s) (hi : R i) (b : Bool) : OutOk R s (cmdInit y b i s) := by
  simp only [cmdInit]
  refine claimed_ok _ hi fun t ht => ?_
  · split_ifs
    · exact .next (ht.finish (c := ⟨i, _, _, b⟩) hi _ _)
    · split
      · exact run_ok (noTurn_good _) hy hq ⟨i, _, _, b⟩ hi _ (all_waiting rfl) _ ht
      · refine run_ok (noTurn_good _) hy hq ⟨i, _, _, b⟩ hi _ (all_waiting ?_) _ ht
        have hf : ∀ f : BitVec 6, 0xFFFF#16 &&& f.setWidth 16 &&& 0xF8C0#16 = 0#16 := by decide
        simp [initHwOps, initPinOps, waitingOp, writeOk, Cr1.pe, Cr1.ack, cr2Value, hf]
    · exact .next (ht.finish (c := ⟨i, _, _, b⟩) hi _ _)

theorem all_deinitOps (r : Inst) : (deinitOps r).all waitingOp = true := by
  unfold deinitOps
  cases r.config.kind with
  | sw => cases r.initialized <;> rfl
  | hw => rfl

theorem cmdDeinit_ok (hy : GoodTurn R y) (hq : RowsOrQuiet R s) (hi : R i) (b : Bool) : OutOk R s (cmdDeinit y b i s) := by
  simp only [cmdDeinit]
  refine claimed_ok _ hi fun t ht => ?_
  split_ifs
  · exact run_ok (noTurn_good _) hy hq ⟨i, _, _, b⟩ hi _ (all_waiting (by simp [waitingOp, all_deinitOps])) _ ht
  · exact run_ok (noTurn_good _) hy hq ⟨i, _, _, b⟩ hi _ (all_waiting (all_deinitOps _)) _ ht

theorem cmdSetTransferMode_ok (hy : GoodTurn R y) (hq : RowsOrQuiet R s) (hi : R i) (b : Bool) (m : TransferMode) :
    OutOk R s (cmdSetTransferMode y b i m s) :=
  claimedInit_ok _ hi fun t ht => run_ok (noTurn_good _) hy hq ⟨i, _, _, b⟩ hi _
    (all_waiting (by cases (row t i).config.kind <;> cases m <;> rfl)) _ ht

theorem cmdSoftwareReset_ok (hy : GoodTurn R y) (hq : RowsOrQuiet R s) (hi : R i) (b : Bool) :
    OutOk R s (cmdSoftwareReset y b i s) :=
  claimedInit_ok _ hi fun t ht => by
    split
    · exact run_ok (noTurn_good _) hy hq ⟨i, _, _, b⟩ hi _ (waiting_lines _) _ ht
    · split_ifs
      · exact .next (ht.finish (c := ⟨i, _, _, b⟩) hi _ _)
      · exact run_ok (noTurn_good _) hy hq ⟨i, _, _, b⟩ hi _ (all_waiting rfl) _ ht

theorem bitCommand_ok (hy : GoodTurn R y) (hq : RowsOrQuiet R s) (c : Ctx) (hi : R c.inst) (held : Bool) (ops : List Op)
    (ho : ops.all waitingOp = true) : OutOk R s (bitCommand y c held ops s) :=
  claimedInit_ok _ hi fun t ht => by
    simp only []
    split_ifs
    · exact run_ok (noTurn_good _) hy hq c hi _ (all_waiting ho) _ ht
    · exact .next (ht.finish hi _ _)

theorem indexed_ok (c : Instr) {k : State → State} (hk : Moves R s (k s)) : OutOk R s (indexed c i s k) := by
  unfold indexed
  split_ifs
  · exact .next hk
  · exact .next (Moves.respond .refl _ _)

theorem cmdSetCallback_ok (hi : R i) (cb ud : Word) : OutOk R s (cmdSetCallback i cb ud s) :=
  indexed_ok _ (by
    refine Moves.respond (Moves.setRow .refl hi ?_ ?_) _ _
    · rfl
    · exact id)

theorem cmdIsInitialized_ok : OutOk R s (cmdIsInitialized i s) := indexed_ok _ (Moves.respond .refl _ _)

theorem cmdGetConfig_ok : OutOk R s (cmdGetConfig i s) := indexed_ok _ (Moves.respond .refl _ _)

theorem cmdGetXferStatus_ok : OutOk R s (cmdGetXferStatus i s) := indexed_ok _ (Moves.respond .refl _ _)

theorem cmdEncodeAddress_ok (am : AddrMode) (rw : Dir) (a : BitVec 10) : OutOk R s (cmdEncodeAddress am rw a s) :=
  .next (Moves.respond .refl _ _)

theorem cmdIsBusBusy_ok (hy : GoodTurn R y) (hq : RowsOrQuiet R s) : OutOk R s (cmdIsBusBusy y i s) := by
  unfold cmdIsBusBusy
  split_ifs
  · exact andThen_ok hy hq (Moves.readLine .refl _ _) fun u hu => .next ((hu.readLine _ _).respond _ _)
  · exact indexed_ok _ (by
      split_ifs
      · exact (Moves.readSR2 .refl _).respond _ _
      · exact Moves.respond .refl _ _)

/-- The preamble, then a program that does not begin with the claim of an asynchronous start, or begins with it on an
HW instance. -/
theorem transact_ok (hq : RowsOrQuiet R s) (c : Ctx) (hi : R c.inst) (ok async : Inst → Bool) (prog : State → List Op)
    (hp : ∀ t, RowsOrQuiet R t → OutOk R t (run noTurn y c (prog t) {} t)) : OutOk R s (transact y c ok async prog s) :=
  claimedInit_ok _ hi fun t ht => by
    simp only []
    split_ifs
    · exact .next (ht.finish hi _ _)
    · exact fun u hu => ht.trans (hp t (hq.keep ht) u hu)
    · exact .next (ht.finish hi _ _)

end commands

end Sys2Proof.Machine
end

