-- ==== Sys2Proof/Laws/Decode.lean ====
section
/-! SUPPORT. What the encoder's words hold, field by field (30_encoding.md R100, R101, R105). -/

namespace Sys2Proof

theorem header_bit (op : Byte) (inst : Nat) (am fl : Bool) (addr : BitVec 10) (i : Nat) (hi : i < 32) :
    (header op inst am fl addr).getLsbD i =
      if i < 8 then op.getLsbD i else if i < 12 then (BitVec.ofNat 4 inst).getLsbD (i - 8)
      else if i = 12 then am else if i = 13 then fl else if i < 16 then false else addr.getLsbD (i - 16) := by
  unfold header
  interval_cases i <;> simp

theorem opOf_header (op : Byte) (inst : Nat) (am fl : Bool) (addr : BitVec 10) :
    opOf (header op inst am fl addr) = op := by
  apply BitVec.eq_of_getLsbD_eq
  intro i hi
  simp [opOf, hi, header_bit _ _ _ _ _ i (by omega)]

theorem instOf_header (op : Byte) (inst : Nat) (am fl : Bool) (addr : BitVec 10) (h : inst < 16) :
    instOf (header op inst am fl addr) = inst := by
  have e : (header op inst am fl addr).extractLsb' 8 4 = BitVec.ofNat 4 inst := by
    apply BitVec.eq_of_getLsbD_eq
    intro i hi
    simp [hi, header_bit _ _ _ _ _ (8 + i) (by omega)]
    omega
  simp [instOf, e]; omega

theorem addrOf_header (op : Byte) (inst : Nat) (am fl : Bool) (addr : BitVec 10) :
    addrOf (header op inst am fl addr) = addr := by
  apply BitVec.eq_of_getLsbD_eq
  intro i hi
  have n : ¬ 16 + i < 8 ∧ ¬ 16 + i < 12 ∧ 16 + i ≠ 12 ∧ 16 + i ≠ 13 ∧ ¬ 16 + i < 16 ∧ 16 + i - 16 = i := by omega
  simp only [addrOf, BitVec.getLsbD_extractLsb', hi, header_bit _ _ _ _ _ (16 + i) (by omega), n, if_false,
    decide_true, Bool.true_and]

theorem bit12_header (op : Byte) (inst : Nat) (am fl : Bool) (addr : BitVec 10) :
    (header op inst am fl addr).getLsbD 12 = am := header_bit _ _ _ _ _ 12 (by decide)

theorem bit13_header (op : Byte) (inst : Nat) (am fl : Bool) (addr : BitVec 10) :
    (header op inst am fl addr).getLsbD 13 = fl := header_bit _ _ _ _ _ 13 (by decide)

theorem amOf_header (op : Byte) (inst : Nat) (am : AddrMode) (fl : Bool) (addr : BitVec 10) :
    amOf (header op inst am.bit fl addr) = am := by cases am <;> simp only [amOf, bit12_header, AddrMode.bit] <;> rfl

theorem dirOf_header (op : Byte) (inst : Nat) (am : Bool) (d : Dir) (addr : BitVec 10) :
    dirOf (header op inst am d.bit addr) = d := by cases d <;> simp only [dirOf, bit13_header, Dir.bit] <;> rfl

theorem modeOf_header (op : Byte) (inst : Nat) (am : Bool) (m : TransferMode) (addr : BitVec 10) :
    modeOf (header op inst am m.bit addr) = m := by cases m <;> simp only [modeOf, bit13_header, TransferMode.bit] <;> rfl

theorem ackOf_header (op : Byte) (inst : Nat) (am ack : Bool) (addr : BitVec 10) :
    ackOf (header op inst am ack addr) = ack := bit13_header _ _ _ _ _

/-- A mask that keeps OP selects a header whose other kept bits are all 0. -/
theorem selects_header (mask : Word) (op : Byte) (inst : Nat) (am fl : Bool) (addr : BitVec 10)
    (h0 : ∀ i < 8, mask.getLsbD i = true)
    (h1 : ∀ i < 32, 8 ≤ i → (mask.getLsbD i && (header op inst am fl addr).getLsbD i) = false) :
    selects mask (header op inst am fl addr) = true := by
  simp only [selects, beq_iff_eq, opOf_header]
  apply BitVec.eq_of_getLsbD_eq
  intro i hi
  simp only [BitVec.getLsbD_and, BitVec.getLsbD_setWidth, hi, decide_true, Bool.true_and]
  by_cases h : i < 8
  · simp [h0 i h, header_bit _ _ _ _ _ i hi, h]
  · rw [Bool.and_comm, h1 i hi (by omega), BitVec.getLsbD_of_ge _ _ (by omega)]

theorem argWord_bit (len : Half) (val reg : Byte) (i : Nat) (hi : i < 32) :
    (argWord len val reg).getLsbD i =
      if i < 8 then reg.getLsbD i else if i < 16 then val.getLsbD (i - 8) else len.getLsbD (i - 16) := by
  unfold argWord
  interval_cases i <;> simp

theorem regOf_arg (len : Half) (val reg : Byte) : regOf (argWord len val reg) = reg := by
  apply BitVec.eq_of_getLsbD_eq
  intro i hi
  simp [regOf, hi, argWord_bit _ _ _ i (by omega)]

theorem valOf_arg (len : Half) (val reg : Byte) : valOf (argWord len val reg) = val := by
  apply BitVec.eq_of_getLsbD_eq
  intro i hi
  simp [valOf, hi, argWord_bit _ _ _ (8 + i) (by omega)]
  omega

theorem lenOf_arg (len : Half) (val reg : Byte) : lenOf (argWord len val reg) = len := by
  apply BitVec.eq_of_getLsbD_eq
  intro i hi
  simp [lenOf, hi, argWord_bit _ _ _ (16 + i) (by omega)]
  omega

end Sys2Proof
end

