-- ==== Sys2Proof/Laws/PerInstr.lean ====
section
/-! SUPPORT. One statement about every instruction as syntax: its header holds the OP of its row and its instance index
(30_encoding.md R100, R104). -/

namespace Sys2Proof.Laws.EncodesOwnOp

/-- The OP of an instruction's row (30_encoding.md R104). -/
def opcode : Instr → Byte
  | .init _ => 0x01
  | .deinit _ => 0x02
  | .setTransferMode _ _ => 0x03
  | .setCallback _ _ _ => 0x04
  | .isInitialized _ => 0x05
  | .isBusBusy _ => 0x06
  | .getConfig _ => 0x07
  | .softwareReset _ => 0x08
  | .getXferStatus _ => 0x09
  | .encodeAddress _ _ _ => 0x0A
  | .masterTransmit _ _ _ _ _ _ => 0x10
  | .masterReceive _ _ _ _ _ _ => 0x11
  | .masterWriteReg _ _ _ _ _ _ => 0x12
  | .masterReadReg _ _ _ _ _ _ => 0x13
  | .masterWriteRegs _ _ _ _ _ _ _ => 0x14
  | .masterReadRegs _ _ _ _ _ _ _ => 0x15
  | .scanBus _ _ _ => 0x16
  | .blStart _ => 0x20
  | .blStop _ => 0x21
  | .blRestart _ => 0x22
  | .blSendByte _ _ => 0x23
  | .blReceiveByte _ _ => 0x24
  | .evIrq _ => 0x30
  | .erIrq _ => 0x31

/-- The header an instruction encodes to has its row's OP and its own instance index. -/
def Statement (i : Instr) : Prop :=
  opOf (encode i).h = opcode i ∧ ∀ n, i.index = some n → n < 16 → instOf (encode i).h = n

/-- An instruction encoded with the header of its row. -/
theorem of_header {i : Instr} {op : Byte} {inst : Nat} {am fl : Bool} {addr : BitVec 10}
    (h : (encode i).h = header op inst am fl addr) (ho : op = opcode i) (hi : ∀ n, i.index = some n → n = inst) :
    Statement i := by
  refine ⟨by rw [h, opOf_header, ho], fun n hn hlt => ?_⟩
  obtain rfl := hi n hn
  rw [h, instOf_header _ _ _ _ _ hlt]

theorem init (inst : Nat) : Statement (.init inst) :=
  of_header rfl rfl (fun _ h => (Option.some.inj h).symm)

theorem deinit (inst : Nat) : Statement (.deinit inst) :=
  of_header rfl rfl (fun _ h => (Option.some.inj h).symm)

theorem setTransferMode (inst : Nat) (mode : TransferMode) : Statement (.setTransferMode inst mode) :=
  of_header rfl rfl (fun _ h => (Option.some.inj h).symm)

theorem setCallback (inst : Nat) (cb : Word) (ud : Word) : Statement (.setCallback inst cb ud) :=
  of_header rfl rfl (fun _ h => (Option.some.inj h).symm)

theorem isInitialized (inst : Nat) : Statement (.isInitialized inst) :=
  of_header rfl rfl (fun _ h => (Option.some.inj h).symm)

theorem isBusBusy (inst : Nat) : Statement (.isBusBusy inst) :=
  of_header rfl rfl (fun _ h => (Option.some.inj h).symm)

theorem getConfig (inst : Nat) : Statement (.getConfig inst) :=
  of_header rfl rfl (fun _ h => (Option.some.inj h).symm)

theorem softwareReset (inst : Nat) : Statement (.softwareReset inst) :=
  of_header rfl rfl (fun _ h => (Option.some.inj h).symm)

theorem getXferStatus (inst : Nat) : Statement (.getXferStatus inst) :=
  of_header rfl rfl (fun _ h => (Option.some.inj h).symm)

theorem encodeAddress (am : AddrMode) (rw : Dir) (addr : BitVec 10) : Statement (.encodeAddress am rw addr) :=
  of_header rfl rfl (by intro _ h; cases h)

theorem masterTransmit (inst : Nat) (am : AddrMode) (addr : BitVec 10) (buf : Word) (len : Half) (tmo : Word) : Statement (.masterTransmit inst am addr buf len tmo) :=
  of_header rfl rfl (fun _ h => (Option.some.inj h).symm)

theorem masterReceive (inst : Nat) (am : AddrMode) (addr : BitVec 10) (buf : Word) (len : Half) (tmo : Word) : Statement (.masterReceive inst am addr buf len tmo) :=
  of_header rfl rfl (fun _ h => (Option.some.inj h).symm)

theorem masterWriteReg (inst : Nat) (am : AddrMode) (addr : BitVec 10) (reg : Byte) (val : Byte) (tmo : Word) : Statement (.masterWriteReg inst am addr reg val tmo) :=
  of_header rfl rfl (fun _ h => (Option.some.inj h).symm)

theorem masterReadReg (inst : Nat) (am : AddrMode) (addr : BitVec 10) (reg : Byte) (out : Word) (tmo : Word) : Statement (.masterReadReg inst am addr reg out tmo) :=
  of_header rfl rfl (fun _ h => (Option.some.inj h).symm)

theorem masterWriteRegs (inst : Nat) (am : AddrMode) (addr : BitVec 10) (reg : Byte) (buf : Word) (len : Half) (tmo : Word) : Statement (.masterWriteRegs inst am addr reg buf len tmo) :=
  of_header rfl rfl (fun _ h => (Option.some.inj h).symm)

theorem masterReadRegs (inst : Nat) (am : AddrMode) (addr : BitVec 10) (reg : Byte) (buf : Word) (len : Half) (tmo : Word) : Statement (.masterReadRegs inst am addr reg buf len tmo) :=
  of_header rfl rfl (fun _ h => (Option.some.inj h).symm)

theorem scanBus (inst : Nat) (buf : Word) (maxCount : Half) : Statement (.scanBus inst buf maxCount) :=
  of_header rfl rfl (fun _ h => (Option.some.inj h).symm)

theorem blStart (inst : Nat) : Statement (.blStart inst) :=
  of_header rfl rfl (fun _ h => (Option.some.inj h).symm)

theorem blStop (inst : Nat) : Statement (.blStop inst) :=
  of_header rfl rfl (fun _ h => (Option.some.inj h).symm)

theorem blRestart (inst : Nat) : Statement (.blRestart inst) :=
  of_header rfl rfl (fun _ h => (Option.some.inj h).symm)

theorem blSendByte (inst : Nat) (val : Byte) : Statement (.blSendByte inst val) :=
  of_header rfl rfl (fun _ h => (Option.some.inj h).symm)

theorem blReceiveByte (inst : Nat) (ack : Bool) : Statement (.blReceiveByte inst ack) :=
  of_header rfl rfl (fun _ h => (Option.some.inj h).symm)

theorem evIrq (inst : Nat) : Statement (.evIrq inst) :=
  of_header rfl rfl (fun _ h => (Option.some.inj h).symm)

theorem erIrq (inst : Nat) : Statement (.erIrq inst) :=
  of_header rfl rfl (fun _ h => (Option.some.inj h).symm)

end Sys2Proof.Laws.EncodesOwnOp
end

