-- ==== Sys2Proof/Laws/Quiet.lean ====
section
/-! SUPPORT. With no scheduler's choice left, a command runs as it does with no turn at all. -/

namespace Sys2Proof.Machine

/-- The state an answer holds has no scheduler's choice left. -/
def OpRes.quiet : OpRes → Prop
  | .go _ s => s.sched = []
  | .done _ _ s => s.sched = []
  | .wait _ s => s.sched = []
  | .fault _ => True
  | .refused _ => True

/-- The same answer, with no scheduler's choice left. -/
def quietEq (a b : OpRes) : Prop := a = b ∧ a.quiet

/-- A turn that does nothing where no scheduler's choice is left. -/
def Still (y : State → Out) : Prop := ∀ s, s.sched = [] → y s = .next s

theorem turn_still (l : Option (Nat × Word)) : Still (turn l) := fun _ h => turn_quiet h

theorem noTurn_still : Still noTurn := fun _ _ => rfl

theorem thenOp_quietEq {y : State → Out} (hy : Still y) {s : State} {k k' : State → OpRes} (h : s.sched = []) (hk : quietEq (k s) (k' s)) :
    quietEq (thenOp (y s) k) (thenOp (noTurn s) k') := by
  rw [hy s h]; exact hk

theorem beginWait_quiet {y : State → Out} (hy : Still y) (c : Ctx) (scr : Scratch) {s : State} (h : s.sched = []) {k k' : Word → State → OpRes}
    (hk : ∀ w u, u.sched = [] → quietEq (k w u) (k' w u)) :
    quietEq (beginWait y c scr s k) (beginWait noTurn c scr s k') := by
  unfold beginWait
  split_ifs
  · exact ⟨rfl, trivial⟩
  · cases scr.t0 with
    | some t => exact hk t s h
    | none => exact thenOp_quietEq hy h (hk _ _ h)

theorem checkTime_quiet {y : State → Out} (hy : Still y) (t0 tmo : Word) (scr : Scratch) {s : State} (h : s.sched = []) {k k' : State → OpRes}
    (hk : ∀ u, u.sched = [] → quietEq (k u) (k' u)) :
    quietEq (checkTime y t0 tmo scr s k) (checkTime noTurn t0 tmo scr s k') :=
  thenOp_quietEq hy h (by
    simp only []
    split_ifs
    · exact hk _ h
    · exact ⟨rfl, h⟩)

theorem pollRound_quiet {y0 y : State → Out} (hy0 : Still y0) (hy : Still y) (c : Ctx) (f : Flag) (tmo : Word) (scr : Scratch) {s : State} (h : s.sched = [])
    {k k' : PollResult → Scratch → State → OpRes} (hk : ∀ p r u, u.sched = [] → quietEq (k p r u) (k' p r u)) :
    quietEq (pollRound y0 y c f tmo scr s k) (pollRound noTurn noTurn c f tmo scr s k') :=
  beginWait_quiet hy0 c scr h fun w u hu => thenOp_quietEq hy hu (by
    simp only []
    split_ifs
    · exact hk _ _ _ hu
    · exact hk _ _ _ hu
    · refine checkTime_quiet hy _ _ _ ?_ fun v hv => hk _ _ v hv
      exact hu)

theorem stopAndReturn_quiet {y : State → Out} (hy : Still y) (c : Ctx) (st : Status) (scr : Scratch) {s : State} (h : s.sched = []) :
    quietEq (stopAndReturn y c st scr s) (stopAndReturn noTurn c st scr s) := by
  unfold stopAndReturn
  refine thenOp_quietEq hy h ?_
  exact ⟨rfl, h⟩

theorem waitFlagEnd_quiet {y : State → Out} (hy : Still y) (c : Ctx) (p : PollResult) (scr : Scratch) {s : State} (h : s.sched = []) :
    quietEq (waitFlagEnd y c p scr s) (waitFlagEnd noTurn c p scr s) := by
  cases p with
  | ok => exact ⟨rfl, h⟩
  | timeout => exact stopAndReturn_quiet hy c _ scr h
  | err e =>
    unfold waitFlagEnd
    refine thenOp_quietEq hy h ?_
    simp only []
    split_ifs
    · exact ⟨rfl, h⟩
    · exact stopAndReturn_quiet hy c _ scr h

theorem sched_drawSample (s : State) : (drawSample s).2.sched = s.sched := by
  unfold drawSample; split <;> rfl

theorem sched_configurePin (port pin : Nat) (m : PinMode) (s : State) :
    (configurePin port pin m s).2.sched = s.sched := by
  unfold configurePin drawPinResult; split <;> rfl

theorem sched_lineOp (i : Nat) (op : LineOp) (s : State) : (lineOp i op s).sched = s.sched := by cases op <;> rfl

theorem runLines_quiet {y : State → Out} (hy : Still y) (i : Nat) (l : List LineOp) {s : State} (h : s.sched = []) :
    runLines y i l s = runLines noTurn i l s ∧ ∀ t, runLines noTurn i l s = .next t → t.sched = [] := by
  induction l generalizing s with
  | nil => exact ⟨rfl, fun t e => by cases e; exact h⟩
  | cons op l ih =>
    simp only [runLines, hy _ h, noTurn, andThen_next]
    exact ih ((sched_lineOp i op s).trans h)

theorem memWrite_sched {site : Site} {buf : Word} {k : Nat} {v : Byte} {s t : State}
    (h : memWrite site buf k v s = .ok t) : t.sched = s.sched := by
  unfold memWrite at h
  split_ifs at h
  cases h; rfl

theorem recordFound_quiet (c : Ctx) (buf : Word) (a : Byte) (scr : Scratch) {s : State} (h : s.sched = []) :
    quietEq (recordFound c buf a scr s) (recordFound c buf a scr s) := by
  refine ⟨rfl, ?_⟩
  unfold recordFound
  cases hw : memWrite (siteOf c 81) buf scr.resp.found.toNat a s with
  | error f => trivial
  | ok u =>
    simp only []
    cases succ16 scr.resp.found with
    | none => trivial
    | some n => exact (memWrite_sched hw).trans h

theorem sched_readReg (i : Nat) (r : Reg) (s : State) : (readReg i r s).2.sched = s.sched := by cases r <;> rfl

theorem policyAct_quiet (c : Ctx) (p : OpenParam) (a : PolicyAct) (scr : Scratch) {s : State} (h : s.sched = [])
    {k k' : Scratch → State → OpRes} (hk : ∀ r u, u.sched = [] → quietEq (k r u) (k' r u)) :
    quietEq (policyAct c p a scr s k) (policyAct c p a scr s k') := by
  cases a with
  | sample x l => exact hk _ _ ((sched_drawSample s).trans h)
  | configurePin x l mode => exact hk _ _ ((sched_configurePin _ _ mode s).trans h)
  | read x r => exact hk _ _ ((sched_readReg _ r s).trans h)
  | write f => refine hk _ _ ?_; split_ifs <;> exact h
  | memRead x b i =>
    simp only [policyAct]
    split
    · exact hk _ _ h
    · exact ⟨rfl, trivial⟩
  | memWrite b i v =>
    simp only [policyAct]
    split
    · next u hu => exact hk _ _ ((memWrite_sched hu).trans h)
    · exact ⟨rfl, trivial⟩
  | _ => exact hk _ _ h

theorem runProg_quiet {y0 y : State → Out} (hy0 : Still y0) (hy : Still y) (c : Ctx) (p : OpenParam) (q : PolicyProg)
    (scr : Scratch) {s : State} (h : s.sched = []) :
    quietEq (runProg y c p q y0 scr s) (runProg noTurn c p q noTurn scr s) := by
  induction q generalizing y0 scr s with
  | refuse => exact ⟨rfl, trivial⟩
  | ret st => exact ⟨rfl, h⟩
  | rest => exact ⟨rfl, h⟩
  | act a next ih =>
    simp only [runProg]
    split_ifs
    · exact thenOp_quietEq hy0 h (policyAct_quiet c p a _ h fun r u hu => ih hy r hu)
    · exact policyAct_quiet c p a _ h fun r u hu => ih hy0 r hu
  | test b yes no ih1 ih2 =>
    simp only [runProg]
    split_ifs
    · exact ih1 hy0 scr h
    · exact ih2 hy0 scr h
  | jump k =>
    simp only [runProg]
    split_ifs
    · exact ⟨rfl, trivial⟩
    · exact ⟨rfl, h⟩

theorem applyPolicy_quiet {y0 y : State → Out} (hy0 : Still y0) (hy : Still y) (c : Ctx) (p : OpenParam) (pol : Policy)
    (scr : Scratch) {s : State} (h : s.sched = []) :
    quietEq (applyPolicy y0 y c p pol scr s) (applyPolicy noTurn noTurn c p pol scr s) := by
  unfold applyPolicy
  cases scr.next with
  | none => exact runProg_quiet hy0 hy c p _ scr h
  | some k => exact thenOp_quietEq hy0 h (runProg_quiet noTurn_still hy c p _ _ h)

theorem shutDown_quiet {y0 y : State → Out} (hy0 : Still y0) (hy : Still y) (c : Ctx) (scr : Scratch) {s : State}
    (h : s.sched = []) : quietEq (shutDown y0 y c scr s) (shutDown noTurn noTurn c scr s) := by
  simp only [shutDown]
  refine thenOp_quietEq hy0 h ?_
  iterate 3 refine thenOp_quietEq hy h ?_
  exact ⟨rfl, h⟩

theorem opStep_quiet {y0 y : State → Out} (hy0 : Still y0) (hy : Still y) (c : Ctx) (op : Op) (scr : Scratch) {s : State} (h : s.sched = []) :
    quietEq (opStep y0 y c op scr s) (opStep noTurn noTurn c op scr s) := by
  cases op with
  | line l =>
    simp only [opStep]
    refine thenOp_quietEq hy0 h ?_
    exact ⟨rfl, (sched_lineOp _ l s).trans h⟩
  | pinBit k =>
    simp only [opStep]
    refine thenOp_quietEq hy0 h ?_
    exact ⟨rfl, h⟩
  | sampleBit k =>
    simp only [opStep]
    refine thenOp_quietEq hy0 h ?_
    exact ⟨rfl, (sched_drawSample s).trans h⟩
  | sampleAck =>
    simp only [opStep]
    refine thenOp_quietEq hy0 h ?_
    exact ⟨rfl, (sched_drawSample s).trans h⟩
  | needAck =>
    simp only [opStep]
    split_ifs
    · exact ⟨rfl, h⟩
    · obtain ⟨e, hq⟩ := runLines_quiet hy c.inst stopLines h
      rw [e]
      refine ⟨rfl, ?_⟩
      cases hr : runLines noTurn c.inst stopLines s with
      | next u => exact hq u hr
      | fault f => trivial
      | refused r => trivial
  | swBusy =>
    simp only [opStep]
    refine thenOp_quietEq hy0 (s := s) h (thenOp_quietEq hy (s := (readLine c.inst .sda s).2) ((sched_drawSample s).trans h) ?_)
    have : (readLine c.inst .scl (readLine c.inst .sda s).2).2.sched = [] :=
      (sched_drawSample _).trans ((sched_drawSample s).trans h)
    split_ifs <;> exact ⟨rfl, this⟩
  | byte b => exact ⟨rfl, h⟩
  | ackToFlag => exact ⟨rfl, h⟩
  | byteToResponse => exact ⟨rfl, h⟩
  | memRead buf k =>
    simp only [opStep]
    refine thenOp_quietEq hy0 h ?_
    refine ⟨rfl, ?_⟩
    cases memRead (siteOf c 81) buf k s with
    | ok b => exact h
    | error f => trivial
  | memWrite buf k =>
    simp only [opStep]
    refine thenOp_quietEq hy0 h ?_
    refine ⟨rfl, ?_⟩
    cases hw : memWrite (siteOf c 81) buf k scr.byte s with
    | ok v => exact (memWrite_sched hw).trans h
    | error f => trivial
  | scanBreak max => simp only [opStep]; split_ifs <;> exact ⟨rfl, h⟩
  | scanRecord buf a =>
    simp only [opStep]
    split_ifs
    · exact thenOp_quietEq hy0 (s := s) h (recordFound_quiet c buf a scr h)
    · exact ⟨rfl, h⟩
  | waitNotBusy tmo =>
    refine beginWait_quiet hy0 c scr h fun w u hu => thenOp_quietEq hy hu ?_
    simp only []
    split_ifs
    · refine checkTime_quiet hy _ _ _ ?_ fun v hv => ?_
      · exact hu
      · exact ⟨rfl, hv⟩
    · exact ⟨rfl, hu⟩
  | waitFlag f tmo => exact pollRound_quiet hy0 hy c f tmo scr h fun p r u hu => waitFlagEnd_quiet hy c p r hu
  | probePoll f tmo =>
    simp only [opStep]
    cases scr.p with
    | ok => exact pollRound_quiet hy0 hy c f tmo scr h fun p r u hu => ⟨rfl, hu⟩
    | timeout => exact ⟨rfl, h⟩
    | err e => exact ⟨rfl, h⟩
  | probeDR b =>
    simp only [opStep]
    cases scr.p with
    | ok =>
      refine thenOp_quietEq hy0 h ?_
      exact ⟨rfl, h⟩
    | timeout => exact ⟨rfl, h⟩
    | err e => exact ⟨rfl, h⟩
  | probeEnd buf a =>
    simp only [opStep, probeEnd]
    cases scr.p with
    | ok =>
      exact thenOp_quietEq hy0 (s := s) h (thenOp_quietEq hy (s := (readSR1 c.inst s).2) h
        (thenOp_quietEq hy (s := (readSR2 c.inst (readSR1 c.inst s).2).2) h
          (thenOp_quietEq hy (s := setCr1 c.inst Cr1.stop (readSR2 c.inst (readSR1 c.inst s).2).2) h
            (recordFound_quiet c buf a _ h))))
    | timeout =>
      refine thenOp_quietEq hy0 h ?_
      exact ⟨rfl, h⟩
    | err e =>
      refine thenOp_quietEq hy0 (s := s) h ?_
      split
      · exact ⟨rfl, h⟩
      · exact stopAndReturn_quiet hy c _ _ h
      · exact thenOp_quietEq hy (s := clearErrors c.inst e s) h ⟨rfl, h⟩
  | csr r m v =>
    simp only [opStep]
    refine thenOp_quietEq hy0 h ?_
    exact ⟨rfl, h⟩
  | writeDR =>
    simp only [opStep]
    refine thenOp_quietEq hy0 h ?_
    exact ⟨rfl, h⟩
  | readSR1 =>
    simp only [opStep]
    refine thenOp_quietEq hy0 h ?_
    exact ⟨rfl, h⟩
  | readSR2 =>
    simp only [opStep]
    refine thenOp_quietEq hy0 h ?_
    exact ⟨rfl, h⟩
  | readDR =>
    simp only [opStep]
    refine thenOp_quietEq hy0 h ?_
    exact ⟨rfl, h⟩
  | asyncClaim buf len a d =>
    simp only [opStep]
    refine thenOp_quietEq hy0 h ?_
    refine ⟨rfl, ?_⟩
    unfold asyncClaim
    split_ifs
    · exact h
    · simp only []; split_ifs <;> exact h
  | enableClock port =>
    simp only [opStep]
    refine thenOp_quietEq hy0 h ?_
    exact ⟨rfl, h⟩
  | configPin port pin mode =>
    simp only [opStep]
    refine thenOp_quietEq hy0 (s := s) h ?_
    have := (sched_configurePin port pin mode s).trans h
    split_ifs <;> exact ⟨rfl, this⟩
  | setNvic v => exact ⟨rfl, h⟩
  | initRow => exact ⟨rfl, h⟩
  | resetRow => exact ⟨rfl, h⟩
  | setMode m => exact ⟨rfl, h⟩
  | abandon => simp only [opStep]; split_ifs <;> exact ⟨rfl, h⟩
  | shutDown =>
    simp only [opStep]
    split_ifs
    · exact shutDown_quiet hy0 hy c scr h
    · exact ⟨rfl, h⟩
  | apply p pol => exact applyPolicy_quiet hy0 hy c p _ scr h

/-- With no scheduler's choice left a command runs as it does with no turn at all. -/
theorem run_quiet {y0 y : State → Out} (hy0 : Still y0) (hy : Still y) (c : Ctx) (ops : List Op) (scr : Scratch)
    {s : State} (h : s.sched = []) : run y0 y c ops scr s = run noTurn noTurn c ops scr s := by
  induction ops generalizing y0 scr s with
  | nil => rfl
  | cons op ops ih =>
    obtain ⟨e, hq⟩ := opStep_quiet hy0 hy c op scr h
    simp only [run, e, ite_self]
    rw [e] at hq
    revert hq
    cases opStep noTurn noTurn c op scr s with
    | go r u => exact fun hq => ih (by split_ifs <;> assumption) r hq
    | done st r u => exact fun _ => rfl
    | wait r u => exact fun _ => rfl
    | fault f => exact fun _ => rfl
    | refused f => exact fun _ => rfl

end Sys2Proof.Machine
end

