-- ==== Sys2Proof/Laws/StepMoves.lean ====
section
/-! SUPPORT. Transactions, handlers, turns, commands and steps are sequences of the small moves of Laws/Moves.lean. -/

namespace Sys2Proof.Machine

section commands

variable {R : Nat → Prop} {y : State → Out} {s : State} {i : Nat}

theorem cmdMasterTransmit_ok (hy : GoodTurn R y) (hq : RowsOrQuiet R s) (hi : R i) (b : Bool) (am : AddrMode)
    (a : BitVec 10) (buf : Word) (len : Half) (tmo : Word) : OutOk R s (cmdMasterTransmit y b i am a buf len tmo s) :=
  transact_ok hq ⟨i, _, _, b⟩ hi _ _ _ fun t ht => by
    cases hk : (row t i).config.kind with
    | sw => simp only []; exact run_ok (noTurn_good _) hy ht _ hi _ (all_waiting (by simp [swTransmit, waitingOp])) _ .refl
    | hw =>
      simp only []
      split_ifs
      · exact run_async_ok (noTurn_good _) hy ht _ hi hk _ _ _ _ _ (all_waiting rfl) _ .refl
      · exact run_ok (noTurn_good _) hy ht _ hi _ (all_waiting (by simp [hwTransmit, waitingOp])) _ .refl

theorem cmdMasterReceive_ok (hy : GoodTurn R y) (hq : RowsOrQuiet R s) (hi : R i) (b : Bool) (am : AddrMode)
    (a : BitVec 10) (buf : Word) (len : Half) (tmo : Word) : OutOk R s (cmdMasterReceive y b i am a buf len tmo s) :=
  transact_ok hq ⟨i, _, _, b⟩ hi _ _ _ fun t ht => by
    cases hk : (row t i).config.kind with
    | sw => simp only []; exact run_ok (noTurn_good _) hy ht _ hi _ (all_waiting (by simp [swReceive, waitingOp])) _ .refl
    | hw =>
      simp only []
      split_ifs
      · exact run_async_ok (noTurn_good _) hy ht _ hi hk _ _ _ _ _ (all_waiting rfl) _ .refl
      · exact run_ok (noTurn_good _) hy ht _ hi _ (all_waiting (by simp [hwReceive, waitingOp])) _ .refl

theorem cmdMasterWriteReg_ok (hy : GoodTurn R y) (hq : RowsOrQuiet R s) (hi : R i) (b : Bool) (am : AddrMode)
    (a : BitVec 10) (reg val : Byte) (tmo : Word) : OutOk R s (cmdMasterWriteReg y b i am a reg val tmo s) :=
  transact_ok hq ⟨i, _, _, b⟩ hi _ _ _ fun t ht => by
    cases hk : (row t i).config.kind with
    | sw => simp only []; exact run_ok (noTurn_good _) hy ht _ hi _ (all_waiting (by simp [swWriteReg, waitingOp])) _ .refl
    | hw => simp only []; exact run_ok (noTurn_good _) hy ht _ hi _ (all_waiting (by simp [hwWriteReg, waitingOp])) _ .refl

theorem cmdMasterReadReg_ok (hy : GoodTurn R y) (hq : RowsOrQuiet R s) (hi : R i) (b : Bool) (am : AddrMode)
    (a : BitVec 10) (reg : Byte) (out tmo : Word) : OutOk R s (cmdMasterReadReg y b i am a reg out tmo s) :=
  transact_ok hq ⟨i, _, _, b⟩ hi _ _ _ fun t ht => by
    cases hk : (row t i).config.kind with
    | sw => simp only []; exact run_ok (noTurn_good _) hy ht _ hi _ (all_waiting (by simp [swReadRegs, waitingOp])) _ .refl
    | hw => simp only []; exact run_ok (noTurn_good _) hy ht _ hi _ (all_waiting (by simp [hwReadRegs, waitingOp])) _ .refl

theorem cmdMasterWriteRegs_ok (hy : GoodTurn R y) (hq : RowsOrQuiet R s) (hi : R i) (b : Bool) (am : AddrMode)
    (a : BitVec 10) (reg : Byte) (buf : Word) (len : Half) (tmo : Word) :
    OutOk R s (cmdMasterWriteRegs y b i am a reg buf len tmo s) :=
  transact_ok hq ⟨i, _, _, b⟩ hi _ _ _ fun t ht => by
    cases hk : (row t i).config.kind with
    | sw => simp only []; exact run_ok (noTurn_good _) hy ht _ hi _ (all_waiting (by simp [swWriteRegs, waitingOp])) _ .refl
    | hw => simp only []; exact run_ok (noTurn_good _) hy ht _ hi _ (all_waiting (by simp [hwWriteRegs, waitingOp])) _ .refl

theorem cmdMasterReadRegs_ok (hy : GoodTurn R y) (hq : RowsOrQuiet R s) (hi : R i) (b : Bool) (am : AddrMode)
    (a : BitVec 10) (reg : Byte) (buf : Word) (len : Half) (tmo : Word) :
    OutOk R s (cmdMasterReadRegs y b i am a reg buf len tmo s) :=
  transact_ok hq ⟨i, _, _, b⟩ hi _ _ _ fun t ht => by
    cases hk : (row t i).config.kind with
    | sw => simp only []; exact run_ok (noTurn_good _) hy ht _ hi _ (all_waiting (by simp [swReadRegs, waitingOp])) _ .refl
    | hw => simp only []; exact run_ok (noTurn_good _) hy ht _ hi _ (all_waiting (by simp [hwReadRegs, waitingOp])) _ .refl

theorem cmdScanBus_ok (hy : GoodTurn R y) (hq : RowsOrQuiet R s) (hi : R i) (b : Bool) (buf : Word) (max : Half) :
    OutOk R s (cmdScanBus y b i buf max s) :=
  transact_ok hq ⟨i, _, _, b⟩ hi _ _ _ fun t ht => by
    cases hk : (row t i).config.kind with
    | sw => simp only []; exact run_ok (noTurn_good _) hy ht _ hi _ (all_waiting (all_swScan _ _)) _ .refl
    | hw => simp only []; exact run_ok (noTurn_good _) hy ht _ hi _ (all_waiting (all_hwScan _ _ _)) _ .refl

end commands

/-! ## The host, the callback and the handlers -/

/-- Every row may be written. -/
def anyRow : Nat → Prop := fun _ => True

theorem rowsOrQuiet_any (s : State) : RowsOrQuiet anyRow s := .inl fun _ => trivial

theorem hostTouch_ok {R : Nat → Prop} (l : Option (Nat × Word)) (buf : Word) (k : Half) (v : Option Byte) (s : State) :
    OutOk R s (hostTouch l buf k v s) := by
  unfold hostTouch
  split
  · exact .fault _
  · cases v with
    | none =>
      simp only []
      split
      · exact .next .refl
      · exact .fault _
    | some b =>
      simp only []
      split
      · next u hu => rw [(memWrite_ok hu).2]; exact .next (Prim.mem _ _).moves
      · exact .fault _

theorem nestedExec_ok (cmd : Instr) (s : State) : OutOk anyRow s (nestedExec cmd s) := by
  have g := noTurn_good anyRow
  have q := rowsOrQuiet_any s
  cases cmd <;> simp only [nestedExec]
  case init => exact cmdInit_ok g q trivial _
  case deinit => exact cmdDeinit_ok g q trivial _
  case setTransferMode => exact cmdSetTransferMode_ok g q trivial _ _
  case setCallback => exact cmdSetCallback_ok trivial _ _
  case isInitialized => exact cmdIsInitialized_ok
  case isBusBusy => exact cmdIsBusBusy_ok g ‹_›
  case getConfig => exact cmdGetConfig_ok
  case softwareReset => exact cmdSoftwareReset_ok g q trivial _
  case getXferStatus => exact cmdGetXferStatus_ok
  case encodeAddress => exact cmdEncodeAddress_ok _ _ _
  case masterTransmit => exact cmdMasterTransmit_ok g q trivial _ _ _ _ _ _
  case masterReceive => exact cmdMasterReceive_ok g q trivial _ _ _ _ _ _
  case masterWriteReg => exact cmdMasterWriteReg_ok g q trivial _ _ _ _ _ _
  case masterReadReg => exact cmdMasterReadReg_ok g q trivial _ _ _ _ _ _
  case masterWriteRegs => exact cmdMasterWriteRegs_ok g q trivial _ _ _ _ _ _ _
  case masterReadRegs => exact cmdMasterReadRegs_ok g q trivial _ _ _ _ _ _ _
  case scanBus => exact cmdScanBus_ok g q trivial _ _ _
  case blStart => exact bitCommand_ok g q _ trivial _ _ (by simp)
  case blStop => exact bitCommand_ok g q _ trivial _ _ (by simp)
  case blRestart => exact bitCommand_ok g q _ trivial _ _ (by simp)
  case blSendByte => exact bitCommand_ok g q _ trivial _ _ (by simp [waitingOp])
  case blReceiveByte => exact bitCommand_ok g q _ trivial _ _ (by simp [waitingOp])
  case evIrq => exact .refused _
  case erIrq => exact .refused _

theorem nestedAct_ok (l : Option (Nat × Word)) (a : HostAct) (s : State) : OutOk anyRow s (nestedAct l a s) := by
  cases a with
  | command w =>
    simp only [nestedAct]
    split
    · exact fun u hu => (Prim.words w).moves.trans (nestedExec_ok _ _ u hu)
    · exact .refused _
  | readBuf buf k => exact hostTouch_ok l buf k none s
  | writeBuf buf k v => exact hostTouch_ok l buf k (some v) s

theorem nestedActs_ok (l : Option (Nat × Word)) (as : List HostAct) (s : State) : OutOk anyRow s (nestedActs l as s) := by
  induction as generalizing s with
  | nil => exact .next .refl
  | cons a as ih =>
    intro t h
    obtain ⟨u, h1, h2⟩ := andThen_eq_next h
    exact (nestedAct_ok l a s u h1).trans (ih u t h2)

theorem callback_ok (l : Option (Nat × Word)) (i : Nat) (st : Status) {s t : State} (h : Moves anyRow s t) : OutOk anyRow s (callback l i st t) := by
  unfold callback
  split_ifs
  · exact .next h
  · intro u hu
    refine Moves.trans ?_ (nestedActs_ok _ _ _ u hu)
    unfold drawCall
    split
    · exact h.emit _
    · exact (h.emit _).then (.env _)

theorem hw_of_hasHandlers {s : State} {i : Nat} (h : hasHandlers s i = true) : (row s i).config.kind = .hw := by
  simp only [hasHandlers, Bool.and_eq_true, beq_iff_eq] at h
  exact h.2

/-- A handler's write of an HW instance's row. -/
theorem Moves.hwRow {s t : State} (h : Moves anyRow s t) {i : Nat} (hk : (Machine.row s i).config.kind = .hw) {r : Inst}
    (hc : r.config = (Machine.row t i).config) : Moves anyRow s (Machine.setRow t i r) :=
  h.setRow trivial hc fun _ => by simp [swRowOk, hc, h.config i, hk]

theorem Moves.setXfer {s t : State} (h : Moves anyRow s t) {i : Nat} (hk : (Machine.row s i).config.kind = .hw)
    (x : Xfer) : Moves anyRow s (Machine.setXfer i x t) := h.hwRow hk rfl

theorem completeXfer_ok (l : Option (Nat × Word)) {s t : State} (h : Moves anyRow s t) {i : Nat} (hk : (row s i).config.kind = .hw) (stop : Bool) :
    OutOk anyRow s (completeXfer l i stop t) := by
  unfold completeXfer
  refine callback_ok _ _ _ (Moves.hwRow ?_ hk rfl)
  refine Moves.csrWrite ?_ _ _ _ _ (by decide)
  split_ifs
  · exact h.setCr1 _ _ (by decide)
  · exact h

theorem evTxByte_ok {s t : State} (h : Moves anyRow s t) {i : Nat} (hk : (row s i).config.kind = .hw) (site : Site) :
    OutOk anyRow s (evTxByte site i t) := by
  simp only [evTxByte]
  split
  · exact .fault _
  · have hm := (h.writeDR i ‹_›).setXfer hk { (row t i).xfer with idx := (row t i).xfer.idx + 1 }
    split_ifs
    · exact .next (hm.csrWrite _ _ _ _ (by decide))
    · exact .next hm

theorem evRxByte_ok (l : Option (Nat × Word)) {s t : State} (h : Moves anyRow s t) {i : Nat} (hk : (row s i).config.kind = .hw) (site : Site) :
    OutOk anyRow s (evRxByte l site i t) := by
  simp only [evRxByte]
  split
  · exact .fault _
  · next u hu =>
    have hm : Moves anyRow s u := by rw [(memWrite_ok hu).2]; exact (h.readDR i).then (.mem _ _)
    split
    · exact .refused _
    · next k hs =>
      have hx := hm.setXfer hk { (row t i).xfer with idx := k }
      split
      · exact .refused _
      · have hy : Moves anyRow s (if k = (row t i).xfer.len - 1 then
            csrWrite i .cr1 Cr1.ack 0 (setXfer i { (row t i).xfer with idx := k } u)
            else setXfer i { (row t i).xfer with idx := k } u) := by
          split
          · exact hx.csrWrite _ _ _ _ (by decide)
          · exact hx
        split
        · exact completeXfer_ok _ hy hk _
        · exact .next hy

theorem evHandler_ok (l : Option (Nat × Word)) (i : Nat) (s : State) (hk : (row s i).config.kind = .hw) : OutOk anyRow s (evHandler l i s) := by
  have h : Moves anyRow s (readSR1 i s).2 := Moves.readSR1 .refl i
  simp only [evHandler]
  split
  · exact .next h
  · split
    · exact .fault _
    · exact .fault _
    · split
      · exact .next ((h.writeDR _ _).setXfer hk _)
      · exact .fault _
    · split
      · simp only [evAddress]
        refine .next (Moves.setXfer (Moves.csrWrite ?_ _ _ _ _ (by decide)) hk _)
        split
        · exact (Moves.readSR2 (h.csrWrite _ _ _ _ (by decide)) _).setCr1 _ _ (by decide)
        · exact h.readSR2 _
      · exact .fault _
    · split
      · split
        · exact evTxByte_ok h hk _
        · split
          · exact completeXfer_ok _ h hk _
          · exact .fault _
      · split
        · exact evRxByte_ok _ h hk _
        · exact .fault _

theorem erHandler_ok (l : Option (Nat × Word)) (i : Nat) (s : State) (hk : (row s i).config.kind = .hw) : OutOk anyRow s (erHandler l i s) := by
  have h : Moves anyRow s (readSR1 i s).2 := Moves.readSR1 .refl i
  simp only [erHandler]
  split_ifs
  · exact .fault _
  all_goals
    refine callback_ok _ _ _ (Moves.hwRow (Moves.csrWrite (Moves.csrWrite (Moves.csrWrite ?_ _ _ _ _ (by decide)) _ _ _ _
      (by decide)) _ _ _ _ (by decide)) hk rfl)
    first | exact h.clearErrors _ _ | exact (h.clearErrors _ _).setCr1 _ _ (by decide)

theorem cmdEvIrq_ok (l : Option (Nat × Word)) (i : Nat) (s : State) : OutOk anyRow s (cmdEvIrq l i s) := by
  unfold cmdEvIrq
  split_ifs with h
  · exact evHandler_ok l i s (hw_of_hasHandlers h)
  · exact .fault _

theorem cmdErIrq_ok (l : Option (Nat × Word)) (i : Nat) (s : State) : OutOk anyRow s (cmdErIrq l i s) := by
  unfold cmdErIrq
  split_ifs with h
  · exact erHandler_ok l i s (hw_of_hasHandlers h)
  · exact .fault _

/-! ## Turns, commands, steps -/

/-- An advance that keeps 10_state.md R55. -/
theorem elapsed_add {s : State} {d : Word} (h : (elapsed s.ticks s.lastNow).toNat + d.toNat < 2 ^ 31) :
    (elapsed (s.ticks + d) s.lastNow).toNat < 2 ^ 31 := by
  have e : elapsed (s.ticks + d) s.lastNow = elapsed s.ticks s.lastNow + d := by
    unfold elapsed; rw [BitVec.sub_eq_add_neg, BitVec.sub_eq_add_neg]; ac_rfl
  rw [e, BitVec.toNat_add]
  omega

/-- A choice that is no handler writes no row. -/
theorem agentStep_quiet (l : Option (Nat × Word)) (R : Nat → Prop) (e : Sched) (s : State) (he : e ≠ .irq) : OutOk R s (agentStep l e s) := by
  cases e with
  | block => exact .next .refl
  | peri i p =>
    simp only [agentStep, periphStep]
    split_ifs with h
    · exact .next (Prim.dev _ _ (.step p h.2)).moves
    · exact .next .refl
  | tick d =>
    simp only [agentStep, advanceClock]
    split_ifs
    · next h => exact .next (Prim.ticks _ (elapsed_add h)).moves
    · exact .next .refl
  | irq => exact absurd rfl he

theorem agentStep_ok (l : Option (Nat × Word)) (e : Sched) (s : State) : OutOk anyRow s (agentStep l e s) := by
  by_cases he : e = .irq
  · subst he
    simp only [agentStep, serveInterrupt]
    split
    · exact cmdErIrq_ok _ _ _
    · exact cmdEvIrq_ok _ _ _
    · exact .next .refl
  · exact agentStep_quiet l anyRow e s he

/-- A list of choices: every row may be written if a handler is among them, and none if not. -/
theorem turnFrom_ok (l : Option (Nat × Word)) (R : Nat → Prop) (es : List Sched) (s : State) (hR : (∀ i, R i) ∨ ∀ e ∈ es, e ≠ .irq) :
    OutOk R s (turnFrom l es s) := by
  induction es generalizing s with
  | nil => exact .next (Prim.sched _ (.inr (by simp))).moves
  | cons e es ih =>
    have hes : (∀ i, R i) ∨ ∀ e ∈ es, e ≠ .irq := hR.imp id fun h e he => h e (List.mem_cons_of_mem _ he)
    have he : OutOk R s (agentStep l e s) := by
      rcases hR with h | h
      · have : R = anyRow := funext fun i => propext ⟨fun _ => trivial, fun _ => h i⟩
        exact this ▸ agentStep_ok l e s
      · exact agentStep_quiet l R e s (h e List.mem_cons_self)
    have hc : OutOk R s (andThen (agentStep l e s) (turnFrom l es)) := fun t h => by
      obtain ⟨u, h1, h2⟩ := andThen_eq_next h
      exact (he u h1).trans (ih u hes t h2)
    cases e with
    | block => exact .next (Prim.sched _ hes).moves
    | peri i p => exact hc
    | tick d => exact hc
    | irq => exact hc

/-- A turn may write any row, and none where no handler is among the scheduler's choices. -/
theorem turn_good (l : Option (Nat × Word)) (R : Nat → Prop) : GoodTurn R (turn l) := fun s t hq h =>
  turnFrom_ok l R s.sched s hq t h

/-- A command writes the row of its own instance alone, unless a handler is among the scheduler's choices. -/
theorem exec_ok (i : Instr) (R : Nat → Prop) (s : State) (hq : RowsOrQuiet R s) (hi : ∀ n, i.index = some n → R n)
    (hint : i.internal = true → R = anyRow) : OutOk R s (exec i s) := by
  have g : ∀ l, GoodTurn R (turn l) := fun l => turn_good l R
  cases i <;> simp only [Instr.index, Option.some.injEq, forall_eq', Instr.internal, Bool.false_eq_true,
    false_implies, true_implies] at hi hint
  case init => exact cmdInit_ok (g _) hq hi _
  case deinit => exact cmdDeinit_ok (g _) hq hi _
  case setTransferMode => exact cmdSetTransferMode_ok (g _) hq hi _ _
  case setCallback => exact cmdSetCallback_ok hi _ _
  case isInitialized => exact cmdIsInitialized_ok
  case isBusBusy => exact cmdIsBusBusy_ok (g _) hq
  case getConfig => exact cmdGetConfig_ok
  case softwareReset => exact cmdSoftwareReset_ok (g _) hq hi _
  case getXferStatus => exact cmdGetXferStatus_ok
  case encodeAddress => exact cmdEncodeAddress_ok _ _ _
  case masterTransmit => exact cmdMasterTransmit_ok (g _) hq hi _ _ _ _ _ _
  case masterReceive => exact cmdMasterReceive_ok (g _) hq hi _ _ _ _ _ _
  case masterWriteReg => exact cmdMasterWriteReg_ok (g _) hq hi _ _ _ _ _ _
  case masterReadReg => exact cmdMasterReadReg_ok (g _) hq hi _ _ _ _ _ _
  case masterWriteRegs => exact cmdMasterWriteRegs_ok (g _) hq hi _ _ _ _ _ _ _
  case masterReadRegs => exact cmdMasterReadRegs_ok (g _) hq hi _ _ _ _ _ _ _
  case scanBus => exact cmdScanBus_ok (g _) hq hi _ _ _
  case blStart => exact bitCommand_ok (g _) hq _ hi _ _ (by simp)
  case blStop => exact bitCommand_ok (g _) hq _ hi _ _ (by simp)
  case blRestart => exact bitCommand_ok (g _) hq _ hi _ _ (by simp)
  case blSendByte => exact bitCommand_ok (g _) hq _ hi _ _ (by simp [waitingOp])
  case blReceiveByte => exact bitCommand_ok (g _) hq _ hi _ _ (by simp [waitingOp])
  case evIrq => subst hint; exact cmdEvIrq_ok _ _ _
  case erIrq => subst hint; exact cmdErIrq_ok _ _ _

/-- Everything a step can do. -/
theorem step_ok {s : State} (hs : seqOk s) : OutOk anyRow s (step s) := by
  have q : ∀ s, RowsOrQuiet anyRow s := rowsOrQuiet_any
  have hx : ∀ i u, OutOk anyRow u (exec i u) := fun i u => exec_ok i anyRow u (q u) (fun _ _ => trivial) fun _ => rfl
  unfold step
  cases s.mark with
  | some m => cases m <;> exact fun _ e => by cases e
  | none =>
  unfold unmarkedStep
  cases hq : s.seq with
  | some x =>
    exact run_ok (turn_good _ anyRow) (turn_good _ anyRow) (q s) ⟨x.inst, x.cmd, x.words, false⟩ trivial x.ops (hs x hq) x.scr
      (Prim.seq none (by simp)).moves
  | none =>
    refine andThen_ok (turn_good _ anyRow) (q s) .refl fun u hu => ?_
    unfold hostTurn
    cases u.host with
    | nil => exact .next hu
    | cons a as =>
      have hm : OutOk anyRow { u with host := as } (hostMove a { u with host := as }) := by
        cases a with
        | command w =>
          simp only [hostMove]
          split
          · exact fun v hv => (Prim.words w).moves.trans (hx _ _ v hv)
          · exact .refused _
        | readBuf buf k => exact hostTouch_ok _ buf k none _
        | writeBuf buf k v => exact hostTouch_ok _ buf k (some v) _
      exact fun t ht => (hu.then (.host as)).trans (hm t ht)

/-- The command in progress keeps only operations a waiting command may make. -/
theorem Moves.seqOk {R : Nat → Prop} {s t : State} (h : Moves R s t) (hs : Machine.seqOk s) : Machine.seqOk t :=
  h.keep (P := Machine.seqOk)
    (fun u v hp hu => by
      cases hp with
      | seq q hq => exact hq
      | _ => exact hu) hs

end Sys2Proof.Machine
end

