-- ==== Sys2Proof/Laws/SwEngine.lean ====
section
/-! SUPPORT. The SW engine's result does not depend on what the peripherals and the clock do between its micro-steps:
with a turn that takes no handler, a command made of the operations below ends as it does with no turn at all. -/

namespace Sys2Proof.Machine

/-- The operations that neither read a peripheral nor the clock. -/
def offBus : Op → Bool
  | .line _ => true
  | .pinBit _ => true
  | .sampleBit _ => true
  | .sampleAck => true
  | .needAck => true
  | .swBusy => true
  | .byte _ => true
  | .ackToFlag => true
  | .byteToResponse => true
  | .memRead _ _ => true
  | .memWrite _ _ => true
  | .scanBreak _ => true
  | .scanRecord _ _ => true
  | .enableClock _ => true
  | .configPin _ _ _ => true
  | .setNvic _ => true
  | .initRow => true
  | .resetRow => true
  | .setMode _ => true
  | .abandon => true
  | .shutDown => false
  | .apply _ _ => false
  | .waitNotBusy _ => false
  | .waitFlag _ _ => false
  | .probePoll _ _ => false
  | .probeDR _ => false
  | .probeEnd _ _ => false
  | .csr _ _ _ => false
  | .writeDR => false
  | .readSR1 => false
  | .readSR2 => false
  | .readDR => false
  | .asyncClaim _ _ _ _ => false

/-- The same answer, up to moves of the peripherals and of the clock. -/
def OpRes.same : OpRes → OpRes → Prop
  | .go r s, .go r' t => r = r' ∧ AgentsMoved s t
  | .done e r s, .done e' r' t => e = e' ∧ r = r' ∧ AgentsMoved s t
  | .fault f, .fault f' => f = f'
  | .refused f, .refused f' => f = f'
  | _, _ => False

/-- The same outcome, up to moves of the peripherals and of the clock. -/
def sameOut : Out → Out → Prop
  | .next s, .next t => AgentsMoved s t
  | .fault f, .fault f' => f = f'
  | .refused f, .refused f' => f = f'
  | _, _ => False

theorem AgentsMoved.cases {s t : State} (h : AgentsMoved s t) :
    ∃ p k es, t = { s with peri := p, ticks := k, sched := es } := ⟨t.peri, t.ticks, t.sched, h.parts⟩

/-- A change of the draws, the trace, the memory or the pin calls, made on both sides. -/
theorem AgentsMoved.put {s t : State} (h : AgentsMoved s t) (e : Env) (tr : List Event) (m : List Host.Cell)
    (pl : List PinCall) :
    AgentsMoved { s with env := e, trace := tr, mem := m, pinLog := pl }
      { t with env := e, trace := tr, mem := m, pinLog := pl } := by
  have := h.map (s' := { s with env := e, trace := tr, mem := m, pinLog := pl }) ⟨fun _ => rfl, rfl, rfl, rfl⟩ rfl
  rw [h.parts]
  exact this

/-- A turn in which no handler runs where none is among the scheduler's choices. -/
def Tame (y : State → Out) : Prop := ∀ t, NoIrq t → ∃ u, y t = .next u ∧ AgentsMoved t u

theorem turn_tame (l : Option (Nat × Word)) : Tame (turn l) := fun _ h => turn_noIrq h

theorem noTurn_tame : Tame noTurn := fun t h => ⟨t, rfl, .refl h⟩

/-- A turn before a continuation that does not see the agents' moves. -/
theorem thenOp_same {y : State → Out} (hy : Tame y) {s t : State} {k k' : State → OpRes} (h : AgentsMoved s t)
    (hk : ∀ u, AgentsMoved s u → (k s).same (k' u)) : (thenOp (noTurn s) k).same (thenOp (y t) k') := by
  obtain ⟨u, hu, hm⟩ := hy t h.1
  rw [hu]
  exact hk u (h.trans hm)

theorem andThen_same {y : State → Out} (hy : Tame y) {s t : State} {k k' : State → Out} (h : AgentsMoved s t)
    (hk : ∀ u, AgentsMoved s u → sameOut (k s) (k' u)) : sameOut (andThen (noTurn s) k) (andThen (y t) k') := by
  obtain ⟨u, hu, hm⟩ := hy t h.1
  rw [hu]
  exact hk u (h.trans hm)

theorem row_moved (i : Nat) {s t : State} (h : AgentsMoved s t) : row t i = row s i := by
  obtain ⟨p, k, es, rfl⟩ := h.cases
  rfl

theorem setRow_moved {i : Nat} {r : Inst} {s t : State} (h : AgentsMoved s t) (hr : r.config = (row s i).config) :
    AgentsMoved (setRow s i r) (setRow t i r) := by
  have hs : sameAgents s (setRow s i r) := by
    refine ⟨fun j => ?_, rfl, rfl, rfl⟩
    by_cases hj : i = j
    · subst hj; rw [row_setRow]; split_ifs <;> simp [hr]
    · rw [row_setRow_other _ _ _ _ hj]
  have := h.map hs rfl
  rw [h.parts]
  exact this

theorem emit_moved (e : Event) {s t : State} (h : AgentsMoved s t) : AgentsMoved (emit e s) (emit e t) := by
  have := h.put s.env (e :: s.trace) s.mem s.pinLog
  obtain ⟨p, k, es, rfl⟩ := h.cases
  exact this

theorem lineOp_moved (i : Nat) (op : LineOp) {s t : State} (h : AgentsMoved s t) :
    AgentsMoved (lineOp i op s) (lineOp i op t) := by
  cases op with
  | pin l v =>
    simp only [lineOp, writeLine, row_moved i h]
    exact emit_moved _ (setRow_moved h (by cases l <;> rfl))
  | delay => simp only [lineOp, delay, row_moved i h]; exact emit_moved _ h

theorem drawSample_moved {s t : State} (h : AgentsMoved s t) :
    (drawSample t).1 = (drawSample s).1 ∧ AgentsMoved (drawSample s).2 (drawSample t).2 := by
  have := fun e => h.put e s.trace s.mem s.pinLog
  obtain ⟨p, k, es, rfl⟩ := h.cases
  simp only [drawSample]
  cases s.env.samples <;> exact ⟨rfl, this _⟩

theorem readLine_moved (i : Nat) (l : Line) {s t : State} (h : AgentsMoved s t) :
    (readLine i l t).1 = (readLine i l s).1 ∧ AgentsMoved (readLine i l s).2 (readLine i l t).2 := by
  obtain ⟨e, m⟩ := drawSample_moved h
  simp only [readLine, row_moved i h, e]
  exact ⟨trivial, emit_moved _ m⟩

theorem finish_moved (c : Ctx) (st : Status) (r : Response) {s t : State} (h : AgentsMoved s t) :
    AgentsMoved (finish c st r s) (finish c st r t) := by
  simp only [finish, row_moved c.inst h]
  exact emit_moved _ (setRow_moved h rfl)

theorem runLines_same {y : State → Out} (hy : Tame y) (i : Nat) (ops : List LineOp) {s t : State} (h : AgentsMoved s t) :
    sameOut (runLines noTurn i ops s) (runLines y i ops t) := by
  induction ops generalizing s t with
  | nil => exact h
  | cons op ops ih => exact andThen_same hy h fun u hu => ih (lineOp_moved i op hu)

theorem memRead_moved (site : Site) (buf : Word) (k : Nat) {s t : State} (h : AgentsMoved s t) :
    memRead site buf k t = memRead site buf k s := by
  obtain ⟨p, k, es, rfl⟩ := h.cases
  rfl

theorem recordFound_same (c : Ctx) (buf : Word) (a : Byte) (scr : Scratch) {s t : State} (h : AgentsMoved s t) :
    (recordFound c buf a scr s).same (recordFound c buf a scr t) := by
  have hm := fun m => h.put s.env s.trace m s.pinLog
  obtain ⟨p, k, es, rfl⟩ := h.cases
  have hb : bufSize { s with peri := p, ticks := k, sched := es } buf = bufSize s buf := rfl
  unfold recordFound memWrite
  rw [hb]
  by_cases hk : scr.resp.found.toNat < bufSize s buf
  · simp only [hk, if_true]
    cases succ16 scr.resp.found with
    | none => rfl
    | some n => exact ⟨rfl, hm _⟩
  · simp only [hk, if_false]
    rfl

theorem memWrite_same (c : Ctx) (buf : Word) (k : Nat) (v : Byte) (scr : Scratch) {s t : State} (h : AgentsMoved s t) :
    (match memWrite (siteOf c 81) buf k v s with | .ok s => OpRes.go scr s | .error f => .fault f).same
      (match memWrite (siteOf c 81) buf k v t with | .ok s => OpRes.go scr s | .error f => .fault f) := by
  have hm := fun m => h.put s.env s.trace m s.pinLog
  obtain ⟨p, q, es, rfl⟩ := h.cases
  have hb : bufSize { s with peri := p, ticks := q, sched := es } buf = bufSize s buf := rfl
  unfold memWrite
  rw [hb]
  by_cases hk : k < bufSize s buf
  · simp only [hk, if_true]; exact ⟨rfl, hm _⟩
  · simp only [hk, if_false]; rfl

theorem enablePinClock_moved (port : Nat) {s t : State} (h : AgentsMoved s t) :
    AgentsMoved (enablePinClock port s) (enablePinClock port t) := by
  have := fun pl => h.put s.env s.trace s.mem pl
  obtain ⟨p, k, es, rfl⟩ := h.cases
  exact this _

theorem configurePin_moved (port pin : Nat) (m : PinMode) {s t : State} (h : AgentsMoved s t) :
    (configurePin port pin m t).1 = (configurePin port pin m s).1 ∧
      AgentsMoved (configurePin port pin m s).2 (configurePin port pin m t).2 := by
  have := fun e pl => h.put e s.trace s.mem pl
  obtain ⟨p, k, es, rfl⟩ := h.cases
  simp only [configurePin, drawPinResult]
  cases s.env.pinResults <;> exact ⟨rfl, this _ _⟩

/-- Every operation of the SW engine answers the same with a turn as without, up to the agents' moves. -/
theorem opStep_same {y0 y : State → Out} (hy0 : Tame y0) (hy : Tame y) (c : Ctx) (op : Op) (hop : offBus op = true) (scr : Scratch) {s t : State} (h : AgentsMoved s t) :
    (opStep noTurn noTurn c op scr s).same (opStep y0 y c op scr t) := by
  cases op with
  | line l => simp only [opStep]; exact thenOp_same hy0 (s := s) h fun u hu => ⟨rfl, lineOp_moved _ _ hu⟩
  | pinBit k => simp only [opStep]; exact thenOp_same hy0 (s := s) h fun u hu => ⟨rfl, lineOp_moved c.inst (.pin .sda _) hu⟩
  | sampleBit k =>
    simp only [opStep]
    refine thenOp_same hy0 (s := s) h fun u hu => ?_
    obtain ⟨e, m⟩ := readLine_moved c.inst .sda hu
    simp only [OpRes.same, e]
    exact ⟨trivial, m⟩
  | sampleAck =>
    simp only [opStep]
    refine thenOp_same hy0 (s := s) h fun u hu => ?_
    obtain ⟨e, m⟩ := readLine_moved c.inst .sda hu
    simp only [OpRes.same, e]
    exact ⟨trivial, m⟩
  | needAck =>
    simp only [opStep]
    by_cases ha : scr.ack = true
    · simp only [ha, if_true]; exact ⟨rfl, h⟩
    · simp only [ha]
      have := runLines_same hy c.inst stopLines h
      revert this
      cases runLines noTurn c.inst stopLines s <;> cases runLines y c.inst stopLines t <;>
        simp only [sameOut, thenOp, OpRes.same] <;> tauto
  | swBusy =>
    simp only [opStep]
    refine thenOp_same hy0 (s := s) h fun u hu => ?_
    obtain ⟨e, m⟩ := readLine_moved c.inst .sda hu
    simp only [e]
    refine thenOp_same hy (s := (readLine c.inst .sda s).2) m fun w hw => ?_
    obtain ⟨e', m'⟩ := readLine_moved c.inst .scl hw
    simp only [e']
    split_ifs
    · exact ⟨rfl, rfl, m'⟩
    · exact ⟨rfl, m'⟩
  | byte b => exact ⟨rfl, h⟩
  | ackToFlag => exact ⟨rfl, h⟩
  | byteToResponse => exact ⟨rfl, h⟩
  | memRead buf k =>
    simp only [opStep]
    refine thenOp_same hy0 (s := s) h fun u hu => ?_
    rw [memRead_moved _ _ _ hu]
    cases memRead (siteOf c 81) buf k s with
    | ok b => exact ⟨rfl, hu⟩
    | error f => rfl
  | memWrite buf k => simp only [opStep]; exact thenOp_same hy0 (s := s) h fun u hu => memWrite_same c buf k _ scr hu
  | scanBreak max =>
    simp only [opStep]
    split_ifs
    · exact ⟨rfl, rfl, h⟩
    · exact ⟨rfl, h⟩
  | scanRecord buf a =>
    simp only [opStep]
    split_ifs
    · exact thenOp_same hy0 (s := s) h fun u hu => recordFound_same c buf a scr hu
    · exact ⟨rfl, h⟩
  | enableClock port =>
    simp only [opStep]
    refine thenOp_same hy0 (s := s) h fun u hu => ?_
    exact ⟨rfl, enablePinClock_moved port hu⟩
  | configPin port pin m =>
    simp only [opStep]
    refine thenOp_same hy0 (s := s) h fun u hu => ?_
    obtain ⟨e, m'⟩ := configurePin_moved port pin m hu
    simp only [e]
    split_ifs
    · exact ⟨rfl, m'⟩
    · exact ⟨rfl, rfl, m'⟩
  | setNvic v => simp only [opStep, row_moved _ h]; exact ⟨rfl, setRow_moved h rfl⟩
  | initRow => simp only [opStep, row_moved _ h]; exact ⟨rfl, setRow_moved h rfl⟩
  | resetRow => simp only [opStep, row_moved _ h]; exact ⟨rfl, setRow_moved h rfl⟩
  | setMode m => simp only [opStep, row_moved _ h]; exact ⟨rfl, setRow_moved h rfl⟩
  | abandon =>
    have e : pending t c.inst = pending s c.inst := by simp only [pending, row_moved _ h]
    simp only [opStep, e, row_moved _ h]
    split_ifs
    · exact ⟨rfl, setRow_moved h rfl⟩
    · exact ⟨rfl, h⟩
  | _ => cases hop

/-- A program of such operations ends the same with a turn as without, up to the agents' moves. -/
theorem run_same {y0 y : State → Out} (hy0 : Tame y0) (hy : Tame y) (c : Ctx) (ops : List Op) (hops : ∀ op ∈ ops, offBus op = true) (scr : Scratch) {s t : State}
    (h : AgentsMoved s t) : sameOut (run noTurn noTurn c ops scr s) (run y0 y c ops scr t) := by
  induction ops generalizing y0 scr s t with
  | nil => exact finish_moved c .ok scr.resp h
  | cons op ops ih =>
    have := opStep_same hy0 hy c op (hops op List.mem_cons_self) scr h
    simp only [run]
    revert this
    cases opStep noTurn noTurn c op scr s <;> cases opStep y0 y c op scr t <;> simp only [OpRes.same] <;> intro hs
    all_goals first | exact hs.elim | skip
    · obtain ⟨rfl, hm⟩ := hs; rw [ite_self]; exact ih (by split_ifs <;> assumption) (fun o ho => hops o (List.mem_cons_of_mem _ ho)) _ hm
    · obtain ⟨rfl, rfl, hm⟩ := hs; exact finish_moved c _ _ hm
    · exact hs
    · exact hs

/-! ## Which programs are made of such operations -/

@[simp] theorem offBus_lines (l : List LineOp) : (lines l).all offBus = true :=
  List.all_eq_true.2 fun op h => by obtain ⟨x, -, rfl⟩ := List.mem_map.1 h; rfl

@[simp] theorem offBus_start : startOps.all offBus = true := offBus_lines _
@[simp] theorem offBus_restart : restartOps.all offBus = true := offBus_lines _
@[simp] theorem offBus_stop : stopOps.all offBus = true := offBus_lines _
@[simp] theorem offBus_sendByte : sendByteOps.all offBus = true := by decide
@[simp] theorem offBus_receiveByte (a : Bool) : (receiveByteOps a).all offBus = true := by cases a <;> decide

@[simp] theorem offBus_sendAll (bs : List Byte) : (sendAll bs).all offBus = true := by
  simp [sendAll, List.all_flatMap, sendCheckedOps, offBus]

@[simp] theorem offBus_sendBuf (buf : Word) (n : Nat) : (swSendBuf buf n).all offBus = true := by
  simp [swSendBuf, List.all_flatMap, sendCheckedOps, offBus]

@[simp] theorem offBus_receiveBuf (buf : Word) (n : Nat) : (swReceiveBuf buf n).all offBus = true := by
  simp [swReceiveBuf, List.all_flatMap, offBus]

@[simp] theorem offBus_swAR (am : AddrMode) (a : BitVec 10) : (swAR am a).all offBus = true := by
  cases am <;> simp [swAR]

@[simp] theorem offBus_scan (buf : Word) (max : Half) : (swScan buf max).all offBus = true := by
  simp [swScan, List.all_flatMap, swProbe, offBus]

end Sys2Proof.Machine
end

