-- ==== Sys2Proof/Laws/SwTrace.lean ====
section
/-! SUPPORT. What the bit-level sequences do when nothing comes between their micro-steps: one lemma per sequence of
40_bit_level.md and of 42_transactions.md. -/

namespace Sys2Proof.Machine

/-- `s` with other line drives of row `i`, another trace and other draws to come. -/
def lineState (s : State) (i : Nat) (a b : Bool) (tr : List Event) (e : Env) : State :=
  { s with inst := s.inst.set i { row s i with drvSCL := a, drvSDA := b }, trace := tr, env := e }

/-- The next draw of a sample. -/
def nextDraw (e : Env) : Bool :=
  match e.samples with
  | b :: _ => b
  | [] => Config.freeSample e.drawn

/-- The draws left after it. -/
def envAfter (e : Env) : Env :=
  match e.samples with
  | _ :: bs => { e with samples := bs }
  | [] => { e with drawn := e.drawn + 1 }

theorem drawSample_eq (s : State) : drawSample s = (nextDraw s.env, { s with env := envAfter s.env }) := by
  unfold drawSample nextDraw envAfter
  cases h : s.env.samples <;> simp [h]

theorem lineState_self (s : State) (i : Nat) : lineState s i (row s i).drvSCL (row s i).drvSDA s.trace s.env = s :=
  setRow_row s i

theorem row_lineState {s : State} {i : Nat} (hi : i < nInst s) (a b : Bool) (tr : List Event) (e : Env) :
    row (lineState s i a b tr e) i = { row s i with drvSCL := a, drvSDA := b } := row_setRow_self s i _ hi

section oneLine

variable {s : State} {i : Nat} (hi : i < nInst s) (a b : Bool) (tr : List Event) (e : Env)

include hi

theorem writeScl_lineState (v : Bool) : writeLine i .scl v (lineState s i a b tr e) =
    lineState s i v b (.pin i .scl v :: tr) e := by
  simp only [writeLine, row_lineState hi, setDrive]
  simp [lineState, setRow, emit]

theorem writeSda_lineState (v : Bool) : writeLine i .sda v (lineState s i a b tr e) =
    lineState s i a v (.pin i .sda v :: tr) e := by
  simp only [writeLine, row_lineState hi, setDrive]
  simp [lineState, setRow, emit]

theorem delay_lineState : delay i (lineState s i a b tr e) =
    lineState s i a b (.delay i (row s i).config.bitDelayUs :: tr) e := by
  simp only [delay, row_lineState hi]; rfl

omit hi in
theorem drawSample_lineState : drawSample (lineState s i a b tr e) =
    (nextDraw e, lineState s i a b tr (envAfter e)) := by
  rw [drawSample_eq]; rfl

theorem readSda_lineState : readLine i .sda (lineState s i a b tr e) =
    (b && nextDraw e, lineState s i a b (.sample i .sda (b && nextDraw e) :: tr) (envAfter e)) := by
  simp only [readLine, row_lineState hi, drawSample_lineState, drive]; rfl

theorem readScl_lineState : readLine i .scl (lineState s i a b tr e) =
    (a && nextDraw e, lineState s i a b (.sample i .scl (a && nextDraw e) :: tr) (envAfter e)) := by
  simp only [readLine, row_lineState hi, drawSample_lineState, drive]; rfl

end oneLine

section lines

variable {s : State} {c : Ctx} (hi : c.inst < nInst s) (a b : Bool) (tr : List Event) (e : Env)

include hi

variable (ops : List Op) (scr : Scratch)

/-- Pin writes and delays. -/
theorem run_lines (l : List LineOp) : run noTurn noTurn c (lines l ++ ops) scr (lineState s c.inst a b tr e) =
    run noTurn noTurn c ops scr (l.foldl (fun s op => lineOp c.inst op s) (lineState s c.inst a b tr e)) := by
  induction l generalizing a b tr with
  | nil => rfl
  | cons op l ih =>
    show run noTurn noTurn c (.line op :: (lines l ++ ops)) scr _ = _
    simp only [run, ite_self, opStep, thenOp, noTurn, List.foldl_cons]
    cases op with
    | pin l v => cases l <;> simp only [lineOp, writeScl_lineState hi, writeSda_lineState hi, ih]
    | delay => simp only [lineOp, delay_lineState hi, ih]

/-- `start()` and `restart()` (40_bit_level.md R143, R144). -/
theorem run_start : run noTurn noTurn c (startOps ++ ops) scr (lineState s c.inst a b tr e) =
    run noTurn noTurn c ops scr (lineState s c.inst false false
      ((startEvents c.inst (row s c.inst).config.bitDelayUs).reverse ++ tr) e) := by
  rw [startOps, run_lines hi]
  simp [startLines, lineOp, writeScl_lineState hi, writeSda_lineState hi, delay_lineState hi, startEvents]

/-- `stop()` (40_bit_level.md R145). -/
theorem run_stop : run noTurn noTurn c (stopOps ++ ops) scr (lineState s c.inst a b tr e) =
    run noTurn noTurn c ops scr (lineState s c.inst true true
      ((stopEvents c.inst (row s c.inst).config.bitDelayUs).reverse ++ tr) e) := by
  rw [stopOps, run_lines hi]
  simp [stopLines, lineOp, writeScl_lineState hi, writeSda_lineState hi, delay_lineState hi, stopEvents]

/-- `softwareReset()` (40_bit_level.md R148). -/
theorem run_softwareReset : run noTurn noTurn c (lines softwareResetLines ++ ops) scr (lineState s c.inst a b tr e) =
    run noTurn noTurn c ops scr (lineState s c.inst true true
      ((resetEvents c.inst (row s c.inst).config.bitDelayUs).reverse ++ tr) e) := by
  rw [run_lines hi]
  simp [softwareResetLines, resetPulses, startLines, stopLines, List.replicate, lineOp, writeScl_lineState hi,
    writeSda_lineState hi, delay_lineState hi, resetEvents, startEvents, stopEvents]

/-- `sendByte` of the byte in hand (40_bit_level.md R146). -/
theorem run_sendByte : run noTurn noTurn c (sendByteOps ++ ops) scr (lineState s c.inst a b tr e) =
    run noTurn noTurn c ops { scr with ack := !nextDraw e } (lineState s c.inst false true
      ((sendEvents c.inst (row s c.inst).config.bitDelayUs scr.byte (nextDraw e)).reverse ++ tr) (envAfter e)) := by
  simp [sendByteOps, bitsDown, sendBitOps, sendAckOps, run, opStep, thenOp, noTurn, lineOp, writeScl_lineState hi,
    writeSda_lineState hi, delay_lineState hi, readSda_lineState hi, sendEvents, byteBits, bitOutEvents]

/-- The bit a sample gives a byte. -/
def putBit (v : Byte) (k : Nat) (x : Bool) : Byte := if x then v ||| 1#8 <<< k else v &&& ~~~(1#8 <<< k)

omit hi in
theorem putBits (v : Byte) : putBit (putBit (putBit (putBit (putBit (putBit (putBit (putBit 0 7 (v.getLsbD 7)) 6
    (v.getLsbD 6)) 5 (v.getLsbD 5)) 4 (v.getLsbD 4)) 3 (v.getLsbD 3)) 2 (v.getLsbD 2)) 1 (v.getLsbD 1)) 0 (v.getLsbD 0) =
    v := by revert v; decide

/-- One data bit received. -/
theorem run_receiveBit (k : Nat) (hb : b = true) :
    run noTurn noTurn c (receiveBitOps k ++ ops) scr (lineState s c.inst a b tr e) =
      run noTurn noTurn c ops { scr with byte := putBit scr.byte k (nextDraw e) } (lineState s c.inst false b
        ((bitInEvents c.inst (row s c.inst).config.bitDelayUs (nextDraw e)).reverse ++ tr) (envAfter e)) := by
  subst hb
  simp [receiveBitOps, run, opStep, thenOp, noTurn, lineOp, writeScl_lineState hi, delay_lineState hi,
    readSda_lineState hi, bitInEvents, putBit]

/-- `receiveByte` (40_bit_level.md R147), the samples scripted. -/
theorem run_receiveByte (v : Byte) (ack : Bool) (xs : List Bool) (he : e.samples = byteBits v ++ xs) :
    run noTurn noTurn c (receiveByteOps ack ++ ops) scr (lineState s c.inst a b tr e) =
      run noTurn noTurn c ops { scr with byte := v } (lineState s c.inst false true
        ((receiveEvents c.inst (row s c.inst).config.bitDelayUs v ack).reverse ++ tr) { e with samples := xs }) := by
  obtain ⟨sm, pr, cl, dr⟩ := e
  subst he
  have h1 : receiveByteOps ack ++ ops = .line (.pin .sda true) :: .byte 0 :: (receiveBitOps 7 ++ (receiveBitOps 6 ++
    (receiveBitOps 5 ++ (receiveBitOps 4 ++ (receiveBitOps 3 ++ (receiveBitOps 2 ++ (receiveBitOps 1 ++ (receiveBitOps 0 ++
    (receiveAckOps ack ++ ops))))))))) := by
    simp [receiveByteOps, bitsDown]
  rw [h1]
  simp only [run, ite_self, opStep, thenOp, noTurn, lineOp, writeSda_lineState hi, run_receiveBit hi]
  simp only [nextDraw, envAfter, byteBits, List.cons_append, List.nil_append, putBits]
  rw [receiveAckOps, run_lines hi]
  simp [lineOp, writeScl_lineState hi, writeSda_lineState hi, delay_lineState hi, receiveEvents, byteBits]

/-- The bus-busy check on a released, idle bus (42_transactions.md R201). -/
theorem run_swBusy (xs : List Bool) (he : e.samples = true :: true :: xs) :
    run noTurn noTurn c (.swBusy :: ops) scr (lineState s c.inst true true tr e) =
      run noTurn noTurn c ops scr (lineState s c.inst true true
        (.sample c.inst .scl true :: .sample c.inst .sda true :: tr) { e with samples := xs }) := by
  obtain ⟨sm, pr, cl, dr⟩ := e
  subst he
  simp [run, opStep, thenOp, noTurn, readSda_lineState hi, readScl_lineState hi, nextDraw, envAfter]

/-- `SendChecked` of the byte in hand, ACKed (42_transactions.md R204). -/
theorem run_sendChecked_ack (xs : List Bool) (he : e.samples = false :: xs) :
    run noTurn noTurn c (sendCheckedOps ++ ops) scr (lineState s c.inst a b tr e) =
      run noTurn noTurn c ops { scr with ack := true } (lineState s c.inst false true
        ((sendEvents c.inst (row s c.inst).config.bitDelayUs scr.byte false).reverse ++ tr) { e with samples := xs }) := by
  obtain ⟨sm, pr, cl, dr⟩ := e
  subst he
  rw [sendCheckedOps, List.append_assoc, run_sendByte hi]
  simp [run, opStep, nextDraw, envAfter]

/-- `SendChecked` of the byte in hand, NACKed: a STOP, then Nack (42_transactions.md R204). -/
theorem run_sendChecked_nack (xs : List Bool) (he : e.samples = true :: xs) :
    run noTurn noTurn c (sendCheckedOps ++ ops) scr (lineState s c.inst a b tr e) =
      .next (finish c .nack scr.resp (lineState s c.inst true true
        ((stopEvents c.inst (row s c.inst).config.bitDelayUs).reverse ++
          ((sendEvents c.inst (row s c.inst).config.bitDelayUs scr.byte true).reverse ++ tr)) { e with samples := xs })) := by
  obtain ⟨sm, pr, cl, dr⟩ := e
  subst he
  rw [sendCheckedOps, List.append_assoc, run_sendByte hi]
  simp [run, opStep, thenOp, noTurn, runLines, stopLines, lineOp, writeScl_lineState hi, writeSda_lineState hi,
    delay_lineState hi, stopEvents, nextDraw, envAfter]

/-- `SendChecked` of some bytes, all ACKed (42_transactions.md R204). -/
theorem run_sendAll_ack (bs : List Byte) (xs : List Bool) (he : e.samples = List.replicate bs.length false ++ xs) :
    ∃ r : Scratch, r.resp = scr.resp ∧
      run noTurn noTurn c (sendAll bs ++ ops) scr (lineState s c.inst false b tr e) =
        run noTurn noTurn c ops r (lineState s c.inst false (b || !bs.isEmpty)
          ((bs.flatMap fun v => sendEvents c.inst (row s c.inst).config.bitDelayUs v false).reverse ++ tr)
          { e with samples := xs }) := by
  induction bs generalizing b tr e scr with
  | nil => exact ⟨scr, rfl, by obtain ⟨sm, pr, cl, dr⟩ := e; subst he; simp [sendAll]⟩
  | cons v bs ih =>
    obtain ⟨r, hr, h⟩ := ih true ((sendEvents c.inst (row s c.inst).config.bitDelayUs v false).reverse ++ tr)
      { e with samples := List.replicate bs.length false ++ xs } { scr with byte := v, ack := true } rfl
    refine ⟨r, hr, ?_⟩
    have e1 : sendAll (v :: bs) ++ ops = .byte v :: (sendCheckedOps ++ (sendAll bs ++ ops)) := by simp [sendAll]
    rw [e1]
    simp only [run, ite_self, opStep]
    rw [run_sendChecked_ack hi _ _ _ _ _ _ (List.replicate bs.length false ++ xs) (by simpa [List.replicate] using he), h]
    simp

/-- The bytes of a buffer, each read and sent, all ACKed (42_transactions.md R205). -/
theorem run_sendBuf_ack (buf : Word) (ks : List Nat) (hk : ∀ k ∈ ks, k < bufSize s buf) (xs : List Bool)
    (he : e.samples = List.replicate ks.length false ++ xs) :
    ∃ r : Scratch, r.resp = scr.resp ∧
      run noTurn noTurn c ((ks.flatMap fun k => [.memRead buf k] ++ sendCheckedOps) ++ ops) scr
          (lineState s c.inst false b tr e) =
        run noTurn noTurn c ops r (lineState s c.inst false (b || !ks.isEmpty)
          ((ks.flatMap fun k => sendEvents c.inst (row s c.inst).config.bitDelayUs (memByte s.mem (cellAddr buf k))
            false).reverse ++ tr) { e with samples := xs }) := by
  induction ks generalizing b tr e scr with
  | nil => exact ⟨scr, rfl, by obtain ⟨sm, pr, cl, dr⟩ := e; subst he; simp⟩
  | cons k ks ih =>
    obtain ⟨r, hr, h⟩ := ih true ((sendEvents c.inst (row s c.inst).config.bitDelayUs
      (memByte s.mem (cellAddr buf k)) false).reverse ++ tr) { e with samples := List.replicate ks.length false ++ xs }
      { scr with byte := memByte s.mem (cellAddr buf k), ack := true }
      (fun j hj => hk j (List.mem_cons_of_mem _ hj)) rfl
    refine ⟨r, hr, ?_⟩
    have hb : k < bufSize (lineState s c.inst false b tr e) buf := hk k List.mem_cons_self
    have e1 : ((k :: ks).flatMap fun k => [Op.memRead buf k] ++ sendCheckedOps) ++ ops =
        .memRead buf k :: (sendCheckedOps ++ ((ks.flatMap fun k => [Op.memRead buf k] ++ sendCheckedOps) ++ ops)) := by simp
    rw [e1]
    simp only [run, ite_self, opStep, thenOp, noTurn, memRead, hb, if_true]
    rw [run_sendChecked_ack hi _ _ _ _ _ _ (List.replicate ks.length false ++ xs) (by simpa [List.replicate] using he)]
    exact h.trans (by simp)

/-- Bytes received into a buffer (42_transactions.md R206): `d k` is the byte that goes to index `k`. -/
theorem run_receiveBuf (buf : Word) (f : Nat → Bool) (d : Nat → Byte) (ks : List Nat)
    (hk : ∀ k ∈ ks, k < bufSize s buf) (xs : List Bool) (he : e.samples = ks.flatMap (fun k => byteBits (d k)) ++ xs) :
    ∃ r : Scratch, r.resp = scr.resp ∧
      run noTurn noTurn c ((ks.flatMap fun k => receiveByteOps (f k) ++ [.memWrite buf k]) ++ ops) scr
          (lineState s c.inst false b tr e) =
        run noTurn noTurn c ops r (lineState { s with mem := ks.foldl (fun m k => memPut m (cellAddr buf k) (d k)) s.mem } c.inst
          false (b || !ks.isEmpty)
          ((ks.flatMap fun k => receiveEvents c.inst (row s c.inst).config.bitDelayUs (d k) (f k)).reverse ++ tr)
          { e with samples := xs }) := by
  induction ks generalizing s b tr e scr with
  | nil => exact ⟨scr, rfl, by obtain ⟨sm, pr, cl, dr⟩ := e; subst he; simp⟩
  | cons k ks ih =>
    obtain ⟨r, hr, h⟩ := ih (s := { s with mem := memPut s.mem (cellAddr buf k) (d k) }) hi true
      ((receiveEvents c.inst (row s c.inst).config.bitDelayUs (d k) (f k)).reverse ++ tr)
      { e with samples := ks.flatMap (fun k => byteBits (d k)) ++ xs } { scr with byte := d k }
      (fun j hj => hk j (List.mem_cons_of_mem _ hj)) rfl
    refine ⟨r, hr, ?_⟩
    have e1 : ((k :: ks).flatMap fun k => receiveByteOps (f k) ++ [Op.memWrite buf k]) ++ ops =
        receiveByteOps (f k) ++ (.memWrite buf k :: ((ks.flatMap fun k => receiveByteOps (f k) ++ [Op.memWrite buf k]) ++ ops)) := by
      simp
    have hb : ∀ tr e, k < bufSize (lineState s c.inst false true tr e) buf := fun _ _ => hk k List.mem_cons_self
    rw [e1, run_receiveByte hi _ _ _ _ _ _ (d k) (f k) (ks.flatMap (fun k => byteBits (d k)) ++ xs) (by simpa using he)]
    simp only [run, ite_self, opStep, thenOp, noTurn, memWrite, hb, if_true]
    exact h.trans (by simp; rfl)

end lines

end Sys2Proof.Machine
end

