-- ==== Sys2Proof/Laws/SwResult.lean ====
section
/-! SUPPORT. From a command's program to its result: entering a command (42_transactions.md R200), leaving it
(46_instance.md R368, R369), and the SW engine's independence of the other agents. -/

namespace Sys2Proof.Machine

/-- The state a command works on: its instance claimed (46_instance.md R369). -/
def claimState (s : State) (i : Nat) : State := setRow s i { row s i with opActive := true }

theorem row_claimState {s : State} {i : Nat} (hi : i < nInst s) :
    row (claimState s i) i = { row s i with opActive := true } := row_setRow_self s i _ hi

theorem nInst_claimState (s : State) (i : Nat) : nInst (claimState s i) = nInst s := nInst_setRow s i _

theorem claimed_free {s : State} {c : Ctx} {k : State → Out} (hi : c.inst < nInst s)
    (ho : (row s c.inst).opActive = false) : claimed c s k = k (claimState s c.inst) := by
  simp [claimed, hi, ho, claimState]

theorem claimedInit_free {s : State} {c : Ctx} {k : State → Out} (hi : c.inst < nInst s)
    (ho : (row s c.inst).opActive = false) (hn : (row s c.inst).initialized = true) :
    claimedInit c s k = k (claimState s c.inst) := by
  simp [claimedInit, claimed_free hi ho, row_claimState hi, hn]

theorem claimState_lines {s : State} {i : Nat} (hi : i < nInst s) :
    claimState s i = lineState (claimState s i) i (row s i).drvSCL (row s i).drvSDA s.trace s.env := by
  have := lineState_self (claimState s i) i
  rw [row_claimState hi] at this
  exact this.symm

/-- A command that returns before it has done anything. -/
theorem finish_claimState {s : State} {c : Ctx} (hi : c.inst < nInst s) (ho : (row s c.inst).opActive = false)
    (st : Status) (r : Response) : finish c st r (claimState s c.inst) =
      tracing (setRow s c.inst { row s c.inst with
        lastError := if recordsError c.cmd then st else (row s c.inst).lastError })
        [.resp c.cmd { r with status := st }] := by
  unfold finish
  rw [row_claimState hi]
  simp only [claimState, setRow_setRow, tracing, respond, emit, ho]
  rfl

/-- A command that records its status returns from a state of its lines. -/
theorem finish_lines {s : State} {c : Ctx} (hi : c.inst < nInst s) (hr : recordsError c.cmd = true)
    (ho : (row s c.inst).opActive = false) (st : Status) (r : Response) (a b : Bool) (es : List Event) (e : Env)
    (m : List Host.Cell) :
    finish c st r (lineState { claimState s c.inst with mem := m } c.inst a b (es.reverse ++ s.trace) e) =
      returned { s with env := e, mem := m } c.inst a b st c.cmd r es := by
  have hi' : c.inst < nInst { claimState s c.inst with mem := m } :=
    show c.inst < (s.inst.set _ _).length by simpa [nInst] using hi
  have hrow : row { claimState s c.inst with mem := m } c.inst = { row s c.inst with opActive := true } :=
    row_claimState hi
  have hrow' : row { s with env := e, mem := m } c.inst = row s c.inst := rfl
  unfold finish
  rw [row_lineState hi', hrow]
  simp only [hr, if_true, returned, tracing, hrow']
  simp [lineState, setRow, respond, emit, claimState, ho]

/-- A program of the SW engine that ends in a state with no turn ends in it with turns, up to the agents' moves. -/
theorem run_via {s u v : State} {y0 y : State → Out} (hy0 : Tame y0) (hy : Tame y) {c : Ctx} {ops : List Op} {scr : Scratch} (hops : ops.all offBus = true) (hn : NoIrq s)
    (h : run noTurn noTurn c ops scr s = .next u)
    (hv : u = v) : ∃ t, run y0 y c ops scr s = .next t ∧ AgentsMoved v t := by
  have := run_same hy0 hy c ops (List.all_eq_true.1 hops) scr (AgentsMoved.refl hn)
  rw [h] at this
  cases ht : run y0 y c ops scr s with
  | next t => rw [ht] at this; exact ⟨t, rfl, hv ▸ this⟩
  | fault f => rw [ht] at this; exact this.elim
  | refused f => rw [ht] at this; exact this.elim

theorem pending_claimState {s : State} {i : Nat} (hi : i < nInst s) : pending (claimState s i) i = pending s i := by
  simp only [pending, row_claimState hi]

/-- The preamble of a transaction on a free, initialized instance (42_transactions.md R200). -/
theorem transact_free {s : State} {c : Ctx} {ok async : Inst → Bool} {prog : State → List Op} (y : State → Out)
    (hi : c.inst < nInst s) (ho : (row s c.inst).opActive = false) (hn : (row s c.inst).initialized = true) :
    transact y c ok async prog s =
      if ok { row s c.inst with opActive := true } = true then
        if (row s c.inst).config.kind = .hw ∧ async { row s c.inst with opActive := true } = false ∧
            pending s c.inst = true then .next (finish c .busy {} (claimState s c.inst))
        else run noTurn y c (prog (claimState s c.inst)) {} (claimState s c.inst)
      else .next (finish c .invalidParameter {} (claimState s c.inst)) := by
  unfold transact
  rw [claimedInit_free hi ho hn]
  simp only [row_claimState hi, pending_claimState hi]

theorem addrValid_iff (am : AddrMode) (a : BitVec 10) : addrValid am a = true ↔ addressInRange am a := by
  cases am <;> simp [addrValid, addressInRange]

/-- The parameter checks, check by check (42_transactions.md R200 step 4). -/
theorem paramsOk_iff (buf : Option Word) (len : Option Half) (addr : Option (AddrMode × BitVec 10)) (async : Bool) :
    paramsOk buf len addr async = true ↔ buf ≠ some 0 ∧ len ≠ some 0 ∧
      ∀ am a, addr = some (am, a) → addressInRange am a ∧ (async = true → am = .seven) := by
  cases addr with
  | none => simp [paramsOk]
  | some p =>
    obtain ⟨am, a⟩ := p
    cases am <;> simp [paramsOk, ← addrValid_iff, and_assoc]

/-- A BL command whose guard holds runs its program. -/
theorem bitCommand_held {s : State} {c : Ctx} {held : Bool} {ops : List Op} (h : Initialized s [c.inst])
    (hk : (row s c.inst).config.kind = .sw) (hh : (row s c.inst).drvSCL = !held) : bitCommand (turn none) c held ops s = run noTurn (turn none) c ops {} (claimState s c.inst) := by
  obtain ⟨hi, hn, ho, -⟩ := h _ List.mem_cons_self
  unfold bitCommand
  rw [claimedInit_free hi ho hn]
  simp [row_claimState hi, hk, hh]

end Sys2Proof.Machine
end

