-- ==== Sys2Proof/Tests/Slice0.lean ====
section
/-! SUPPORT. Tests: the well-formedness check, decoding of words written out from the spec's encodings, single steps
against the vectors of 95_test_vectors.md, and for every statement with hypotheses a witness that meets them. -/

namespace Sys2Proof.Tests

open Sys2Proof.Machine

set_option Elab.async false

/-! ## Well-formedness: an index that does not fit INST is refused -/

theorem test_wf_index_too_big : (Instr.masterWriteReg 16 .seven 0x50 0x0E 0x80 100).wf = false := by decide

theorem test_wf_greatest_index : (Instr.masterWriteReg 15 .ten 0x3FF 0xFF 0xFF 0xFFFFFFFF).wf = true := by decide

/-! ## Decoding: words written out from 30_encoding.md R100 to R105 and 95_test_vectors.md section 2.1 -/

theorem test_decode_instance_commands :
    decodeHost ⟨0x00000101, 0, 0, 0⟩ = .ok (.init 1) ∧
    decodeHost ⟨0x00000102, 0, 0, 0⟩ = .ok (.deinit 1) ∧
    decodeHost ⟨0x00002103, 0, 0, 0⟩ = .ok (.setTransferMode 1 .interrupt) ∧
    decodeHost ⟨0x00000103, 0, 0, 0⟩ = .ok (.setTransferMode 1 .polling) ∧
    decodeHost ⟨0x00000104, 0, 0x08001234, 7⟩ = .ok (.setCallback 1 0x08001234 7) ∧
    decodeHost ⟨0x00000005, 0, 0, 0⟩ = .ok (.isInitialized 0) ∧
    decodeHost ⟨0x00000F06, 0, 0, 0⟩ = .ok (.isBusBusy 15) ∧
    decodeHost ⟨0x00000107, 0, 0, 0⟩ = .ok (.getConfig 1) ∧
    decodeHost ⟨0x00000008, 0, 0, 0⟩ = .ok (.softwareReset 0) ∧
    decodeHost ⟨0x00000109, 0, 0, 0⟩ = .ok (.getXferStatus 1) := by decide

theorem test_decode_encode_address :
    decodeHost ⟨0x02A5100A, 0, 0, 0⟩ = .ok (.encodeAddress .ten .write 0x2A5) ∧
    decodeHost ⟨0x0050200A, 0, 0, 0⟩ = .ok (.encodeAddress .seven .read 0x50) := by decide

theorem test_decode_transactions :
    decodeHost ⟨0x003C0510, 0x00010000, 0x00000700, 0⟩ = .ok (.masterTransmit 5 .seven 0x3C 0x700 1 0) ∧
    decodeHost ⟨0x03FF1011, 0x00020000, 0x00000600, 0x0000000A⟩ = .ok (.masterReceive 0 .ten 0x3FF 0x600 2 10) ∧
    decodeHost ⟨0x00500112, 0x0000800E, 0, 0x00000064⟩ = .ok (.masterWriteReg 1 .seven 0x50 0x0E 0x80 100) ∧
    decodeHost ⟨0x00680113, 0, 0x00000800, 0x00000005⟩ = .ok (.masterReadReg 1 .seven 0x68 0 0x800 5) ∧
    decodeHost ⟨0x00680014, 0x00030010, 0x00000700, 0⟩ = .ok (.masterWriteRegs 0 .seven 0x68 0x10 0x700 3 0) ∧
    decodeHost ⟨0x00680015, 0x00030010, 0x00000700, 0⟩ = .ok (.masterReadRegs 0 .seven 0x68 0x10 0x700 3 0) ∧
    decodeHost ⟨0x00000116, 0x00080000, 0x00000700, 0⟩ = .ok (.scanBus 1 0x700 8) := by decide

theorem test_decode_bit_level :
    decodeHost ⟨0x00000120, 0, 0, 0⟩ = .ok (.blStart 1) ∧
    decodeHost ⟨0x00000021, 0, 0, 0⟩ = .ok (.blStop 0) ∧
    decodeHost ⟨0x00000022, 0, 0, 0⟩ = .ok (.blRestart 0) ∧
    decodeHost ⟨0x00000023, 0x0000A000, 0, 0⟩ = .ok (.blSendByte 0 0xA0) ∧
    decodeHost ⟨0x00002024, 0, 0, 0⟩ = .ok (.blReceiveByte 0 true) := by decide

theorem test_decode_handlers :
    decode ⟨0x00000030, 0, 0, 0⟩ = .ok (.evIrq 0) ∧ decode ⟨0x00000131, 0, 0, 0⟩ = .ok (.erIrq 1) := by decide

theorem test_decode_refused :
    decodeHost ⟨0x00001001, 0, 0, 0⟩ = .error (.reservedBits 0x00001001) ∧
    decodeHost ⟨0x00000000, 0, 0, 0⟩ = .error (.reservedOp 0x00) ∧
    decodeHost ⟨0x0000000B, 0, 0, 0⟩ = .error (.reservedOp 0x0B) ∧
    decodeHost ⟨0x00000030, 0, 0, 0⟩ = .error (.internalOp 0x30) ∧
    decodeHost ⟨0x00004003, 0, 0, 0⟩ = .error (.reservedBits 0x00004003) ∧
    decodeHost ⟨0x0000010A, 0, 0, 0⟩ = .error (.reservedBits 0x0000010A) ∧
    decodeHost ⟨0x04000010, 0, 0, 0⟩ = .error (.reservedBits 0x04000010) ∧
    decodeHost ⟨0x00502012, 0, 0, 0⟩ = .error (.reservedBits 0x00502012) ∧
    decodeHost ⟨0x00010016, 0, 0, 0⟩ = .error (.reservedBits 0x00010016) := by decide

/-! ## Small states: the common launch of 95_test_vectors.md -/

def speed : SpeedRegs := ⟨36, false, false, 180, 37⟩

/-- The common launch at reset, a buffer 0x700 of two bytes 0x00, 0xAF, the clock at 100. -/
def base : State :=
  { par := ⟨3, 2, 0, 1, [⟨true, speed, 0x5400, Policy.refuse, Policy.refuse⟩,
      ⟨true, speed, 0x5800, Policy.refuse, Policy.refuse⟩]⟩
    inst := [Inst.reset Config.sw0, Inst.reset Config.hw1]
    peri := [Periph.reset, Periph.reset]
    seq := none
    words := ⟨0, 0, 0, 0⟩
    mem := [(cellAddr 0x700 0, 0x00), (cellAddr 0x700 1, 0xAF)]
    bufs := [(0x700, 2)]
    ticks := 100
    lastNow := 100
    trace := []
    pinLog := []
    host := []
    sched := []
    env := { samples := [], pinResults := [], calls := [], drawn := 0 }
    mark := none }

/-- The parameters with other values of HW_SOFTWARE_RESET(1) and DEINIT_WHILE_PENDING(1). -/
def policies (r d : Policy) : Params :=
  { base.par with insts := [⟨true, speed, 0x5400, Policy.refuse, Policy.refuse⟩, ⟨true, speed, 0x5800, r, d⟩] }

/-- The SW instance 0 initialized, its drive `scl`, `sda`, the peers' samples `xs`. -/
def sw (scl sda : Bool) (xs : List Bool) : State :=
  { base with
    inst := [{ Inst.reset Config.sw0 with initialized := true, drvSCL := scl, drvSDA := sda }, Inst.reset Config.hw1]
    env := { base.env with samples := xs } }

/-- The HW instance 1 initialized in a mode, with a transfer state and a peripheral; a callback is registered. -/
def hw (m : TransferMode) (x : Xfer) (p : Periph) : State :=
  { base with
    inst := [Inst.reset Config.sw0,
      { Inst.reset Config.hw1 with
        initialized := true, transferMode := m, xfer := x, callback := 9, userData := 7, nvicEn := m == .interrupt }]
    peri := [Periph.reset, p] }

/-- The peripheral after INIT. -/
def idleDev : Periph := { Periph.reset with cr1 := 0x0401 }

/-- A transfer of `len` bytes of buffer 0x700 at address 0x3C. -/
def xfer (st : XState) (d : Dir) (len idx : Half) : Xfer := ⟨st, 0x700, len, idx, 0x3C, d, .ok⟩

/-- What a state shows of an answer; nothing of a stop. -/
def shows {α : Type} (f : State → α) : Out → Option α
  | .next s => some (f s)
  | .fault _ => none
  | .refused _ => none

/-- The statuses of the responses an answer shows. -/
def statuses (o : Out) : Option (List Status) := shows (fun s => (responses s).map fun r => r.2.status) o

/-- The bus of SW instance 0 an answer shows. -/
def bus (o : Out) : Option (List BusSym) := shows (fun s => busOf 0 s.trace) o

/-- The bus of HW instance 1 an answer shows. -/
def hwBus (o : Out) : Option (List BusSym) := shows (fun s => hwBusOf s 1) o

/-! ## Steps: the SW engine (95_test_vectors.md section 2.4) -/

/-- W1. -/
theorem test_transmit_sw_bus : bus (exec (.masterTransmit 0 .seven 0x3C 0x700 2 0)
    (sw true true [true, true, false, false, false])) =
    some [.start, .sent 0x78, .ack, .sent 0x00, .ack, .sent 0xAF, .ack, .stop] := by decide +kernel

/-- T16: a buffer of one byte. -/
theorem test_transmit_sw_bounds : exec (.masterTransmit 0 .seven 0x3C 0x700 2 0)
    { sw true true [true, true, false, false] with bufs := [(0x700, 1)], words := ⟨0x003C0010, 0x00020000, 0x700, 0⟩ } =
    .fault (.bufferBounds ⟨some ⟨0x003C0010, 0x00020000, 0x700, 0⟩, 0, 81⟩) := by rfl

/-- T5: a 10-bit receive of 0xC3, 0x3C. -/
theorem test_receive_sw_ten :
    let o := exec (.masterReceive 0 .ten 0x2A5 0x700 2 0)
      (sw true true ([true, true, false, false, false] ++ byteBits 0xC3 ++ byteBits 0x3C))
    bus o = some [.start, .sent 0xF4, .ack, .sent 0xA5, .ack, .restart, .sent 0xF5, .ack, .received 0xC3, .ack,
      .received 0x3C, .nack, .stop] ∧
    shows (fun s => s.mem) o = some [(cellAddr 0x700 0, 0xC3), (cellAddr 0x700 1, 0x3C)] := by decide +kernel

/-- W3: the peer answers 0x1C. -/
theorem test_read_reg_sw_bus : bus (exec (.masterReadReg 0 .seven 0x68 0x0E 0x700 0)
    (sw true true (([true, true, false, false, false] : List Bool) ++ [false, false, false, true, true, true, false, false]))) =
    some [.start, .sent 0xD0, .ack, .sent 0x0E, .ack, .restart, .sent 0xD1, .ack, .received 0x1C, .nack, .stop] := by
  decide +kernel

/-- T7: no repeated START after a NACK of the register. -/
theorem test_read_reg_sw_nack : bus (exec (.masterReadReg 0 .seven 0x68 0x0E 0x700 0)
    (sw true true [true, true, false, true])) = some [.start, .sent 0xD0, .ack, .sent 0x0E, .nack, .stop] := by
  decide +kernel

/-- W7. -/
theorem test_write_reg_sw_nack : statuses (exec (.masterWriteReg 0 .seven 0x50 0x0E 0x80 100)
    (sw true true [true, true, false, false, true])) = some [.nack] := by decide +kernel

/-- The frame of 30_encoding.md R112. -/
theorem test_write_regs_sw_bus : bus (exec (.masterWriteRegs 0 .seven 0x68 0x10 0x700 2 0)
    (sw true true [true, true, false, false, false, false])) =
    some [.start, .sent 0xD0, .ack, .sent 0x10, .ack, .sent 0x00, .ack, .sent 0xAF, .ack, .stop] := by decide +kernel

/-- The frame of 30_encoding.md R112, the peer sending 0x30, 0x59. -/
theorem test_read_regs_sw_bus : bus (exec (.masterReadRegs 0 .seven 0x68 0x10 0x700 2 0)
    (sw true true (([true, true, false, false, false] : List Bool) ++ [false, false, true, true, false, false, false, false] ++
      [false, true, false, true, true, false, false, true]))) =
    some [.start, .sent 0xD0, .ack, .sent 0x10, .ack, .restart, .sent 0xD1, .ack, .received 0x30, .ack,
      .received 0x59, .nack, .stop] := by decide +kernel

/-- T17 in small: the first probe ACKs, and the capacity of one ends the scan. -/
theorem test_scan_sw_full : bus (exec (.scanBus 0 0x700 1) (sw true true [true, true, true, true, false])) =
    some [.start, .sent 0x10, .ack, .stop] := by decide +kernel

/-- T20. -/
theorem test_scan_sw_no_room : statuses (exec (.scanBus 0 0x700 0) (sw true true [])) = some [.invalidParameter] := by
  decide +kernel

/-! ## Steps: the bit-level commands (95_test_vectors.md section 2.3) -/

/-- B1. -/
theorem test_bl_start_bus : bus (exec (.blStart 0) (sw true true [])) = some [.start] := by decide +kernel

/-- B2: three delays. -/
theorem test_bl_stop_delays : shows (fun s => delayCount s.trace) (exec (.blStop 0) (sw false true [])) = some 3 := by
  decide +kernel

/-- B3: the drive ends at (0, 0). -/
theorem test_bl_restart_drive : shows (fun s => ((row s 0).drvSCL, (row s 0).drvSDA))
    (exec (.blRestart 0) (sw false true [])) = some (false, false) := by decide +kernel

/-- B7: no peer, so NACK, and the drive ends at (0, 1). -/
theorem test_bl_send_byte_nack : shows (fun s => ((responses s).map fun r => r.2.flag, (row s 0).drvSCL, (row s 0).drvSDA))
    (exec (.blSendByte 0 0xA0) (sw false false [true])) = some ([false], false, true) := by decide +kernel

/-- B5: the peer sends 0x5A. -/
theorem test_bl_receive_byte : shows (fun s => (responses s).map fun r => r.2.byte)
    (exec (.blReceiveByte 0 true) (sw false true [false, true, false, true, true, false, true, false])) = some [0x5A] := by
  decide +kernel

/-- B6: 26 delays. -/
theorem test_software_reset_delays : shows (fun s => delayCount s.trace) (exec (.softwareReset 0) (sw true true [])) =
    some 26 := by decide +kernel

/-- N13. -/
theorem test_software_reset_hw : exec (.softwareReset 1) (hw .polling Xfer.reset idleDev) = .refused (.hwSoftwareReset 1) := by
  rfl

/-- A value of HW_SOFTWARE_RESET that requests a STOP and waits three ticks for a free bus (00_scope.md R8). -/
def stopAndWait : Policy :=
  ⟨.act (.write .stop) (.act (.now 0) (.jump 0)),
    [.act (.read 1 .sr2) (.test (.eq (.and (.var 1) (.const 2)) (.const 0)) (.ret .ok)
      (.act (.now 1) (.test (.less (.sub (.var 1) (.var 0)) (.const 3)) (.jump 0) (.act (.write (.swrst true)) .rest))))]⟩

/-- The wait is over, and the program goes on: SWRST puts the peripheral at its reset values (43_hw_peripheral.md R264). -/
theorem test_policy_goes_on_after_wait :
    let o := step { hw .polling Xfer.reset { idleDev with cr1 := 0x0601, sr2 := 0x0002 } with
      seq := some ⟨1, .softwareReset 1, base.words, [.apply .hwSoftwareReset stopAndWait], { vars := [97], next := some 0 }⟩ }
    statuses o = some [.ok] ∧ shows (fun s => (dev s 1).cr1) o = some 0 := by decide +kernel

/-- One tick earlier it waits on. -/
theorem test_policy_waits :
    statuses (step { hw .polling Xfer.reset { idleDev with cr1 := 0x0601, sr2 := 0x0002 } with
      seq := some ⟨1, .softwareReset 1, base.words, [.apply .hwSoftwareReset stopAndWait], { vars := [98], next := some 0 }⟩ }) =
      some [] := by decide +kernel

/-- A value that sets SWRST, clears it, and writes FREQ and two of the three enables in one access (10_state.md R41, R42). -/
theorem test_policy_writes :
    let pol : Policy := ⟨.act (.write (.swrst true)) (.act (.write (.swrst false))
      (.act (.write (.cr2 (some (.const 0x55)) (some true) none (some false))) .rest)), []⟩
    let o := exec (.softwareReset 1) { hw .polling Xfer.reset { idleDev with cr2 := 0x0724 } with par := policies pol Policy.refuse }
    shows (fun s => (dev s 1).cr2) o = some 0x0115 ∧
      shows (fun s => s.trace.take 4) o = some [.resp (.softwareReset 1) {}, .csrW 1 .cr2 0x053F 0x0115, .csrW 1 .cr1 0x8000 0,
        .csrW 1 .cr1 0x8000 0x8000] := by decide +kernel

/-- A value of DEINIT_WHILE_PENDING that finishes a write by polling: it sends the next byte of the buffer once the other
agents have had a turn, until the last (00_scope.md R8). -/
def finishByPolling : Policy :=
  ⟨.jump 0,
    [.test (.less (.row .xferIdx) (.row .xferLen))
      (.act (.memRead 0 (.row .xferBuf) (.row .xferIdx)) (.act (.write (.dr (.var 0)))
        (.act (.store (.xferIdx (.add (.row .xferIdx) (.const 1)))) (.jump 0)))) .rest]⟩

/-- The second byte of the buffer is sent and the value waits. -/
theorem test_policy_sends_byte :
    let o := step { hw .interrupt (xfer .dataPhase .write 2 1) { idleDev with sr1 := 0x0080, sr2 := 0x0007, ph := .tx } with
      par := policies Policy.refuse finishByPolling
      seq := some ⟨1, .deinit 1, base.words, .apply .deinitWhilePending finishByPolling :: deinitOps (Inst.reset Config.hw1),
        { next := some 0 }⟩ }
    shows (fun s => ((dev s 1).dr, (row s 1).xfer.idx)) o = some (0xAF, 2) ∧ statuses o = some [] := by decide +kernel

/-- A value of DEINIT_WHILE_PENDING that waits until the transfer is complete. -/
def untilComplete : Policy := ⟨.jump 0, [.test (.eq (.row .xferState) (.const 4)) .rest (.jump 0)]⟩

/-- The handler has its turn between two rounds of the wait, so the transfer completes and DEINIT goes on. -/
theorem test_policy_wait_gives_turn :
    statuses (step { hw .interrupt (xfer .dataPhase .write 2 2)
        { idleDev with sr1 := 0x0084, sr2 := 0x0007, ph := .tx, cr2 := 0x0300 } with
      par := policies Policy.refuse untilComplete
      sched := [.irq, .block]
      seq := some ⟨1, .deinit 1, base.words, .apply .deinitWhilePending untilComplete :: deinitOps (Inst.reset Config.hw1),
        { next := some 0 }⟩ }) = some [.ok] := by decide +kernel

/-! ## Steps: the instance commands (95_test_vectors.md section 2.7) -/

/-- N4. -/
theorem test_init_hw_registers : shows (fun s => ((dev s 1).cr1, (dev s 1).oar1, (dev s 1).cr2))
    (exec (.init 1) { base with env := { base.env with pinResults := [true, true] } }) =
    some (0x0401, 0x4000, 0x0024) := by decide +kernel

/-- N5. -/
theorem test_init_sw_pin_failure : shows (fun s => ((row s 0).initialized, (row s 0).lastError))
    (exec (.init 0) { base with env := { base.env with pinResults := [false] } }) = some (false, .gpioFailure) := by
  decide +kernel

/-- P6, command 6: a master that is disabled lets go of the bus. -/
theorem test_deinit_hw_release : shows (fun s => ((row s 1).initialized, (dev s 1).cr1, (dev s 1).sr2, hwBusOf s 1))
    (exec (.deinit 1) (hw .polling Xfer.reset { idleDev with sr1 := 0x0002, sr2 := 0x0003, ph := .addrDone })) =
    some (false, 0, 0, [.release]) := by decide +kernel

/-- N14. -/
theorem test_deinit_pending : exec (.deinit 1) (hw .interrupt (xfer .startSent .write 2 0) idleDev) =
    .refused (.deinitWhilePending 1) := by rfl

/-- A value of DEINIT_WHILE_PENDING that ends `initialized` and keeps the callback; it writes no SWRST (10_state.md R50). -/
theorem test_deinit_pending_one_field :
    let o := exec (.deinit 1) { hw .interrupt (xfer .startSent .write 2 0) idleDev with
      par := policies Policy.refuse ⟨.act (.store (.initialized false)) (.act (.write (.swrst true)) (.ret .ok)), []⟩ }
    shows (fun s => ((row s 1).initialized, (row s 1).callback, (dev s 1).cr1)) o = some (false, 9, 0x0401) := by
  decide +kernel

/-- P6, command 4: the transfer is abandoned, its length and index kept. -/
theorem test_set_transfer_mode_abandons : shows (fun s => (row s 1).xfer)
    (exec (.setTransferMode 1 .polling) (hw .interrupt (xfer .addressPhase .read 2 0) idleDev)) =
    some ⟨.idle, 0, 2, 0, 0x3C, .read, .ok⟩ := by decide +kernel

/-- N9. -/
theorem test_set_callback : shows (fun s => ((row s 1).callback, (row s 1).userData))
    (exec (.setCallback 1 0x08001234 7) base) = some (0x08001234, 7) := by decide +kernel

/-- N8. -/
theorem test_is_initialized_bad_index : statuses (exec (.isInitialized 7) base) = some [.invalidParameter] := by
  decide +kernel

/-- N6: the block holds SCL low. -/
theorem test_is_bus_busy_held : shows (fun s => (responses s).map fun r => r.2.flag)
    (exec (.isBusBusy 0) (sw false false [true, true])) = some [true] := by decide +kernel

/-- N12. -/
theorem test_get_config : shows (fun s => (responses s).map fun r => r.2.config) (exec (.getConfig 1) base) =
    some [some Config.hw1] := by decide +kernel

/-- I6. -/
theorem test_get_xfer_status : shows (fun s => (responses s).map fun r => r.2.xfer) (exec (.getXferStatus 0) base) =
    some [some ⟨.idle, 0, 0, 0, 0, .write, .ok⟩] := by decide +kernel

/-- 95_test_vectors.md section 2.2. -/
theorem test_encode_address : shows (fun s => (responses s).map fun r => (r.2.n, r.2.byte, r.2.byte1))
    (exec (.encodeAddress .ten .read 0x3FF) base) = some [(2, 0xF7, 0xFF)] := by decide +kernel

/-! ## Steps: the HW engine (95_test_vectors.md sections 2.5, 2.6) -/

/-- H1: the peer NACKs the data byte. -/
theorem test_write_reg_hw_nack :
    let o := exec (.masterWriteReg 1 .seven 0x50 0x0E 0x80 100)
      { hw .polling Xfer.reset idleDev with
        sched := paced 1 [(2, .startGen), (3, .addrSend .ack), (7, .txByte .ack), (3, .txByte .nack)] 4 }
    hwBus o = some [.start, .sent 0xA0, .ack, .sent 0x0E, .ack, .sent 0x80, .nack] ∧ statuses o = some [.nack] ∧
      shows (fun s => ((dev s 1).cr1, (dev s 1).sr1)) o = some (0x0601, 0x0000) := by decide +kernel

/-- H3: STOP is requested before the byte, and the byte is NACKed. -/
theorem test_receive_hw_one :
    let o := exec (.masterReceive 1 .seven 0x68 0x700 1 10)
      { hw .polling Xfer.reset idleDev with
        sched := paced 1 [(2, .startGen), (3, .addrSend .ack), (6, .rxByte 0x5A), (0, .stopGen)] 4 }
    hwBus o = some [.start, .sent 0xD1, .ack, .received 0x5A, .nack, .stop] ∧ statuses o = some [.ok] ∧
      shows (fun s => (s.mem, (dev s 1).cr1)) o = some ([(cellAddr 0x700 0, 0x5A), (cellAddr 0x700 1, 0xAF)], 0x0001) := by
  decide +kernel

/-- I1, invocation 3. -/
theorem test_ev_irq_byte : shows (fun s => ((dev s 1).dr, (row s 1).xfer.idx))
    (exec (.evIrq 1) (hw .interrupt (xfer .dataPhase .write 2 0)
      { idleDev with sr1 := 0x0080, sr2 := 0x0007, ph := .tx, cr2 := 0x0700 })) = some (0x00, 1) := by decide +kernel

/-- I1, invocation 5: complete, STOP requested, the enables off, one callback. -/
theorem test_ev_irq_complete :
    let o := exec (.evIrq 1) (hw .interrupt (xfer .dataPhase .write 2 2)
      { idleDev with sr1 := 0x0084, sr2 := 0x0007, ph := .tx, cr2 := 0x0300 })
    shows (fun s => ((row s 1).xfer, (dev s 1).cr1, (dev s 1).cr2)) o =
      some (⟨.complete, 0, 2, 2, 0x3C, .write, .ok⟩, 0x0601, 0) ∧
    shows (fun s => s.trace.head?) o = some (some (.callback 1 .ok 7)) := by decide +kernel

/-- I4: a NACK of the second data byte. -/
theorem test_er_irq_nack : shows (fun s => ((row s 1).xfer, (dev s 1).sr1, (dev s 1).cr1))
    (exec (.erIrq 1) (hw .interrupt (xfer .dataPhase .write 2 2)
      { idleDev with sr1 := 0x0400, sr2 := 0x0007, ph := .held, cr2 := 0x0300 })) =
    some (⟨.idle, 0, 2, 2, 0x3C, .write, .nack⟩, 0, 0x0601) := by decide +kernel

/-- H6: BusError over ArbitrationLost over Nack; all are cleared. -/
theorem test_er_irq_priority : shows (fun s => ((row s 1).lastError, (dev s 1).sr1))
    (exec (.erIrq 1) (hw .interrupt (xfer .startSent .write 2 0) { idleDev with sr1 := 0x0700, cr2 := 0x0300 })) =
    some (.busError, 0) := by decide +kernel

/-! ## The registers' access codes (10_state.md R40, R41, R43) -/

/-- A 0 written to START and STOP, which are `rs`, does not clear them; reserved bits of OAR1 stay 0. -/
theorem test_csr_access_codes :
    let s := hw .polling Xfer.reset { idleDev with cr1 := 0x0701 }
    (dev (csrWrite 1 .cr1 0xFFFF 0x0001 s) 1).cr1 = 0x0301 ∧ (dev (csrWrite 1 .oar1 0xFFFF 0xFFFF s) 1).oar1 = 0xC3FF := by
  decide +kernel

/-! ## A mark ends the run (60_exceptions.md R401) -/

theorem test_mark_stays : step { State.withFetchWord base 128 0x00000102 with mark := some (.refused (.hwSoftwareReset 1)) } =
    .refused (.hwSoftwareReset 1) := by rfl

/-! ## The host's buffers (20_memory.md R99) -/

/-- The callback of instance 1 touches the buffer that instance 0 is sending. -/
theorem test_callback_race : exec (.masterTransmit 0 .seven 0x3C 0x700 2 0)
    { hw .interrupt { xfer .startSent .write 2 0 with buf := 0x800 } { idleDev with sr1 := 0x0400, cr2 := 0x0300 } with
      inst := [(row (sw true true []) 0),
        row (hw .interrupt { xfer .startSent .write 2 0 with buf := 0x800 } idleDev) 1]
      sched := [.irq]
      env := { base.env with samples := [true, true], calls := [[.readBuf 0x700 0]] } } =
    .fault (.bufferRace ⟨none, 0, 99⟩ 0x700) := by rfl

/-! ## Two commands on one instance (10_state.md R29, 45_hw_interrupt.md R335, 46_instance.md R369) -/

/-- F3: the callback of instance 1 issues MASTER_TRANSMIT on instance 0, which is sending. -/
theorem test_reentrant : exec (.masterTransmit 0 .seven 0x3C 0x700 2 0)
    { hw .interrupt { xfer .startSent .write 2 0 with buf := 0x800 } { idleDev with sr1 := 0x0400, cr2 := 0x0300 } with
      inst := [(row (sw true true []) 0),
        row (hw .interrupt { xfer .startSent .write 2 0 with buf := 0x800 } idleDev) 1]
      sched := [.irq]
      env := { base.env with samples := [true, true], calls := [[.command ⟨0x003C0010, 0x00020000, 0x700, 0⟩]] } } =
    .fault (.reentrant ⟨some ⟨0x003C0010, 0x00020000, 0x700, 0⟩, 0, 369⟩) := by rfl

/-- The callback of instance 1 starts a new transfer on instance 1 in the turn before the host's start: the callback's is
Ok, and the host's, whose claim and pending test are one step, is Busy. -/
theorem test_callback_starts_own :
    statuses (step { hw .interrupt (xfer .startSent .write 2 0) { idleDev with sr1 := 0x0200, cr2 := 0x0300 } with
      sched := [.irq, .block, .irq]
      host := [.command ⟨0x003C0110, 0x00020000, 0x700, 0⟩]
      env := { base.env with calls := [[.command ⟨0x003C0110, 0x00020000, 0x700, 0⟩]] } }) = some [.ok, .busy] := by
  decide +kernel

/-! ## Launch premises (70_reset_and_hazards.md R471) -/

/-- A state that stands still while its clock may advance is no fair run. -/
theorem test_clockFair_constant (draws : Nat → List Sched) : ¬ ClockFair base (fun _ => base) draws := fun h =>
  (h.2 0 fun _ _ => show ClockReady base from ⟨rfl, by decide⟩).elim fun _ hm => hm.2 rfl

/-- The run of a host with nothing to do, one tick of the clock drawn at each state. -/
def ticking : Nat → State
  | 0 => { base with sched := [.tick 1] }
  | n + 1 => { settled (ticking n) (step (ticking n)) with sched := (settled (ticking n) (step (ticking n))).sched ++ [.tick 1] }

/-- Nothing but the clock's advance happens. -/
theorem step_idle {u : State} (h1 : u.sched = [.tick 1]) (h2 : u.host = []) (h3 : u.seq = none) (h4 : u.mark = none) :
    step u = .next { advanceClock 1 u with sched := [] } := by
  have h : (advanceClock 1 u).host = [] := by unfold advanceClock; split_ifs <;> exact h2
  simp only [step, h4, unmarkedStep, h3, turn, h1, turnFrom, agentStep, andThen, hostTurn, h]

theorem ticking_idle (n : Nat) : (ticking n).sched = [.tick 1] ∧ (ticking n).host = [] ∧ (ticking n).seq = none ∧
    (ticking n).mark = none := by
  induction n with
  | zero => exact ⟨rfl, rfl, rfl, rfl⟩
  | succ n ih =>
    obtain ⟨h1, h2, h3, h4⟩ := ih
    simp only [ticking, step_idle h1 h2 h3 h4, settled, advanceClock]
    split_ifs <;> exact ⟨rfl, h2, h3, h4⟩

/-- It is fair. -/
theorem test_clockFair_ticking : ClockFair { base with sched := [.tick 1] } ticking (fun _ => [.tick 1]) := by
  refine ⟨⟨rfl, fun _ => rfl⟩, fun n hr => ⟨n, Nat.le_refl n, ?_⟩⟩
  obtain ⟨h1, h2, h3, h4⟩ := ticking_idle n
  simp only [ticking, step_idle h1 h2 h3 h4, settled, ticks_advanceClock]
  have hlt := (hr n (Nat.le_refl n)).2
  rw [if_pos (show _ + (1 : Word).toNat < 2 ^ 31 from hlt)]
  intro h
  have := congrArg (· - (ticking n).ticks) h
  simp at this

/-- An HW instance whose START is requested on a free bus, the host with nothing to do. -/
def starting : State := hw .polling Xfer.reset { idleDev with cr1 := 0x0501 }

/-- A run in which START_GEN stays enabled and is never chosen is no fair run of the peripheral. -/
theorem test_periphFair_never : IsRun starting (fun _ => starting) (fun _ => []) ∧
    ¬ PeriphFair starting (fun _ => starting) (fun _ => []) := by
  refine ⟨⟨rfl, fun _ => rfl⟩, fun h => ?_⟩
  obtain ⟨m, q, _, _, es, rest, he, _, hq⟩ :=
    h.2 1 .startGen 0 rfl fun _ _ => show PeriphReady starting 1 .startGen from ⟨rfl, rfl, by decide⟩
  have : es = [] := by
    have h0 : starting.sched = [] := rfl
    rw [h0] at he
    exact (List.append_eq_nil_iff.1 he.symm).1
  simp [this] at hq

/-- The state once START_GEN was taken. -/
def started : State := hw .polling Xfer.reset (stepEffect .startGen { idleDev with cr1 := 0x0501 })

/-- The run in which it is chosen at once. -/
def starts : Nat → State
  | 0 => { starting with sched := [.peri 1 .startGen] }
  | _ + 1 => started

/-- It is fair: no step of a peripheral stays enabled. -/
theorem test_periphFair_starts : PeriphFair { starting with sched := [.peri 1 .startGen] } starts (fun _ => []) := by
  refine ⟨⟨rfl, fun n => by cases n <;> rfl⟩, fun i p n hp hr => ?_⟩
  exfalso
  have h := (hr (n + 1) (Nat.le_succ n)).2.2
  have h1 : ∀ p, sameStep p p = true → stepEnabled p (dev started 1) = false := by
    intro p hp
    cases p <;> first | rfl | cases hp
  have hoff : ∀ p, stepEnabled p Periph.reset = false := fun p => by cases p <;> rfl
  match i with
  | 0 => exact absurd h (by show ¬ stepEnabled p Periph.reset = true; rw [hoff]; decide)
  | 1 => exact absurd h (by show ¬ stepEnabled p (dev started 1) = true; rw [h1 p hp]; decide)
  | k + 2 => exact absurd h (by show ¬ stepEnabled p Periph.reset = true; rw [hoff]; decide)

/-- `ConfigValid` asks of the instances INIT sees: row 0 is not valid, and no INIT names it. -/
theorem test_configValid :
    ConfigValid { base with par := { base.par with insts := [⟨false, speed, 0x5400, Policy.refuse, Policy.refuse⟩,
      ⟨true, speed, 0x5800, Policy.refuse, Policy.refuse⟩] } } [.command ⟨0x00000101, 0, 0, 0⟩] := by
  intro w i hw hd _
  simp only [programActs, base, List.flatten_nil, List.append_nil, List.mem_singleton, HostAct.command.injEq] at hw
  subst hw
  have : decodeHost ⟨0x00000101, 0, 0, 0⟩ = .ok (.init 1) := by decide
  rw [this] at hd
  obtain rfl : 1 = i := by simpa using hd
  rw [accepted_iff]
  decide +kernel

/-! ## Witnesses: for every statement with hypotheses, states and operands that meet them -/

/-- A fragment of a command in progress, its wait begun at tick `t0` or not begun: it waits, and has nothing left but a
STOP request. -/
def waiting (t0 : Option Word) (op : Op) (p : Periph) : State :=
  { hw .polling Xfer.reset p with
    seq := some ⟨1, .masterWriteReg 1 .seven 0x50 0x0E 0x80 100, base.words, [op, .csr .cr1 Cr1.stop Cr1.stop],
      { t0 := t0 }⟩ }

/-- The host's next command. -/
def host (as : List HostAct) : State := { base with host := as }

theorem wit_DecodeEncode : (Instr.masterReadRegs 15 .ten 0x3FF 0xFF 0xFFFFFFFF 0xFFFF 1).wf = true := by decide

theorem wit_DecodedHeader : decode ⟨0x03FF1F10, 0xFFFF0000, 1, 0⟩ = .ok (.masterTransmit 15 .ten 0x3FF 1 0xFFFF 0) := by
  decide

theorem wit_HostWordsRefused :
    ((opOf 0x00000000).toNat = 0x00 ∧ (opOf 0x0000000B).toNat = 0x0B ∧ (opOf 0x0000000F).toNat = 0x0F ∧
      (opOf 0x00000017).toNat = 0x17 ∧ (opOf 0x0000001F).toNat = 0x1F ∧ (opOf 0x00000025).toNat = 0x25 ∧
      (opOf 0x0000002F).toNat = 0x2F ∧ 0x32 ≤ (opOf 0x00000032).toNat) ∧
    (opOf 0x00000030 = 0x30 ∧ opOf 0x00000131 = 0x31) ∧
    decodeHost ⟨0x0000000A, 0, 0, 0⟩ = .ok (.encodeAddress .seven .write 0) ∧
    decodeHost ⟨0x80000001, 0, 0, 0⟩ = .error (.reservedBits 0x80000001) := by decide

theorem wit_ReservedHeaderBits :
    (decode ⟨0x03FF3F0A &&& 0xFFFFF0FF, 0, 0, 0⟩ = .ok (.encodeAddress .ten .read 0x3FF) ∧
      (0x03FF300A : Word).getLsbD 12 = true ∧ (0x03FF300A : Word).getLsbD 13 = true ∧
      (0x03FF300A : Word).extractLsb' 16 10 ≠ 0) ∧
    (decode ⟨0x00000F01, 0, 0, 0⟩ = .ok (.init 15) ∧ (0x00000F01 : Word).extractLsb' 8 4 ≠ 0) := by decide

/-- Each clause: a command to run, one refused, the block's choice first, no choice left, nothing to do, a command in
progress, a fault's mark and a refusal's. -/
theorem wit_StepRunsDecoded :
    (∃ u w as i, NoFault base ∧ base.seq = none ∧ turn none (State.withFetchWord base 128 0x00000101) = .next u ∧
      u.host = .command w :: as ∧ decodeHost w = .ok i) ∧
    (∃ u w as r, NoFault base ∧ base.seq = none ∧ turn none (State.withFetchWord base 128 0x00000130) = .next u ∧
      u.host = .command w :: as ∧ decodeHost w = .error r) ∧
    (∃ es, (State.withFetchWord base 128 0).sched = .block :: es) ∧ base.sched = [] ∧
    (∃ u, NoFault base ∧ base.seq = none ∧ turn none base = .next u ∧ u.host = []) ∧
    (∃ q, NoFault (waiting none (.waitNotBusy 100) idleDev) ∧ (waiting none (.waitNotBusy 100) idleDev).seq = some q) ∧
    { base with mark := some (.fault (.reentrant ⟨none, 0, 369⟩)) }.mark = some (.fault (.reentrant ⟨none, 0, 369⟩)) ∧
    { base with mark := some (.refused (.hwSoftwareReset 1)) }.mark = some (.refused (.hwSoftwareReset 1)) :=
  ⟨⟨_, ⟨0x00000101, 0, 0, 0⟩, [], .init 1, rfl, rfl, rfl, rfl, rfl⟩,
    ⟨_, ⟨0x00000130, 0, 0, 0⟩, [], .internalOp 0x30, rfl, rfl, rfl, rfl, rfl⟩, ⟨_, rfl⟩, rfl, ⟨_, rfl, rfl, rfl, rfl⟩,
    ⟨_, rfl, rfl⟩, rfl, rfl⟩

/-- One instance, sixteen, and the two of the common launch. -/
theorem wit_InvAtReset :
    (1 ≤ [Config.sw0].length ∧ [Config.sw0].length ≤ 16) ∧ (List.replicate 16 Config.hw1).length ≤ 16 ∧
    1 ≤ Config.table.length ∧ Config.table.length ≤ 16 ∧ base.par.insts.length = Config.table.length ∧
    base.par.prioEv < base.par.prioEr := by decide

theorem wit_PowerOnValues : 1 < Config.table.length := by decide

theorem inv_base : Inv (State.withFetchWord base 128 0x00000102) := by
  refine ⟨?_, ?_, ?_, ?_, ?_, ?_⟩
  · intro q h
    cases h
  on_goal 5 => unfold clockOk
  all_goals decide

/-- A state with the invariant whose step runs DEINIT of the HW instance. -/
theorem wit_InvStep : Inv (State.withFetchWord base 128 0x00000102) ∧
    ∃ t, step (State.withFetchWord base 128 0x00000102) = .next t :=
  ⟨inv_base, _, rfl⟩

theorem wit_StepKeepsParameters : Inv (State.withFetchWord base 128 0x00000102) ∧
    (∃ t, step (State.withFetchWord base 128 0x00000102) = .next t) ∧ ParamsOk (State.withFetchWord base 128 0x00000102) := by
  refine ⟨inv_base, ⟨_, rfl⟩, ?_⟩
  unfold ParamsOk PlatformReady
  decide

theorem wit_OwnRowAlone : (Instr.deinit 0).internal = false ∧ NoIrq base ∧ (∃ t, exec (.deinit 0) base = .next t) ∧
    (Instr.deinit 0).index ≠ some 1 := by
  refine ⟨rfl, ?_, ⟨_, rfl⟩, by decide⟩
  unfold NoIrq
  decide

theorem wit_EncodeAddressBytes : (0x7F : BitVec 10).toNat ≤ 0x7F := by decide

theorem wit_EncodeAddressCommand : (0x7F : BitVec 10).toNat ≤ 0x7F ∧ 0x7F < (0x80 : BitVec 10).toNat := by decide

theorem wit_ReservedAddresses : 0x78 ≤ (0x78 : BitVec 10).toNat ∧ (0x7B : BitVec 10).toNat ≤ 0x7B ∧
    (0x77 : BitVec 10) ∈ scanRange := by decide

theorem noIrq_nil {s : State} (h : s.sched = []) : NoIrq s := by
  intro e he
  rw [h] at he
  cases he

theorem initialized_one {s : State} {i : Nat} (hi : i < nInst s) (h1 : (row s i).initialized = true)
    (h2 : (row s i).opActive = false) (h3 : s.seq = none) : Initialized s [i] := by
  intro j hj
  obtain rfl := List.mem_singleton.1 hj
  exact ⟨hi, h1, h2, fun q hq => by rw [h3] at hq; cases hq⟩

/-- The SW states above are initialized; the clock may still move, and no handler has a turn. -/
theorem ready_sw (scl sda : Bool) (xs : List Bool) : Initialized (sw scl sda xs) [0] ∧
    (row (sw scl sda xs) 0).config.kind = .sw ∧ NoIrq (sw scl sda xs) :=
  ⟨initialized_one (by show 0 < 2; decide) rfl rfl rfl, rfl, noIrq_nil rfl⟩

/-- The HW states above are initialized. -/
theorem ready_hw (m : TransferMode) (x : Xfer) (p : Periph) : Initialized (hw m x p) [1] ∧
    (row (hw m x p) 1).config.kind = .hw ∧ 1 < (hw m x p).peri.length ∧ NoIrq (hw m x p) :=
  ⟨initialized_one (by show 1 < 2; decide) rfl rfl rfl, rfl, by show 1 < 2; decide, noIrq_nil rfl⟩

/-- A START on a free bus, the clock still moving, and a repeated START. -/
theorem wit_BlStart :
    let s := { sw true true [] with sched := [.block, .tick 3] }
    let u := sw false true [true]
    (Initialized s [0] ∧ (row s 0).config.kind = .sw ∧ NoIrq s ∧
      (Instr.blStart 0 = .blStart 0 ∧ (row s 0).drvSCL = true)) ∧
    (Initialized u [0] ∧ (row u 0).config.kind = .sw ∧ NoIrq u) ∧ Instr.blRestart 0 = .blRestart 0 ∧
      (row u 0).drvSCL = false := by
  refine ⟨⟨initialized_one (by show 0 < 2; decide) rfl rfl rfl, rfl, ?_, rfl, rfl⟩, ready_sw _ _ _, rfl, rfl⟩
  unfold NoIrq
  decide

theorem wit_BlStop :
    let s := sw false true [true]
    (Initialized s [0] ∧ (row s 0).config.kind = .sw ∧ NoIrq s) ∧ (row s 0).drvSCL = false := ⟨ready_sw _ _ _, rfl⟩

/-- A state at a boundary whose step runs DEINIT. -/
theorem wit_DriveBoundary :
    let s := State.withFetchWord (sw false true []) 128 0x00000002
    AtBoundary s ∧ (∃ t, step s = .next t) ∧ 0 < nInst s ∧ (row s 0).config.kind = .sw := by
  refine ⟨⟨?_, ?_⟩, ⟨_, rfl⟩, by decide, rfl⟩
  · intro q h
    cases h
  · decide +kernel

theorem wit_BlSendByte :
    let s := sw false false []
    (Initialized s [0] ∧ (row s 0).config.kind = .sw ∧ NoIrq s) ∧ (row s 0).drvSCL = false := ⟨ready_sw _ _ _, rfl⟩

theorem wit_BlReceiveByte :
    let s := sw false true [true]
    (Initialized s [0] ∧ (row s 0).config.kind = .sw ∧ NoIrq s) ∧ (row s 0).drvSCL = false := ⟨ready_sw _ _ _, rfl⟩

/-- An HW instance. -/
theorem wit_BlGuards :
    let s := hw .polling Xfer.reset idleDev
    1 < nInst s ∧ (row s 1).initialized = true ∧ (row s 1).opActive = false ∧ (row s 1).config.kind = .hw := by decide +kernel

theorem wit_BlGuards_start_held :
    let s := sw false true []
    0 < nInst s ∧ (row s 0).initialized = true ∧ (row s 0).opActive = false ∧ (row s 0).drvSCL = false := by decide +kernel

theorem wit_BlGuards_stop_free :
    let s := sw true true []
    0 < nInst s ∧ (row s 0).initialized = true ∧ (row s 0).opActive = false ∧ (row s 0).drvSCL = true := by decide +kernel

theorem wit_SoftwareResetSW :
    let s := sw false true [true]
    Initialized s [0] ∧ (row s 0).config.kind = .sw ∧ NoIrq s := ready_sw _ _ _

theorem wit_SoftwareResetHW_pending :
    let s := hw .interrupt (xfer .dataPhase .read 2 1) idleDev
    1 < nInst s ∧ 1 < s.peri.length ∧ (row s 1).config.kind = .hw ∧ (row s 1).initialized = true ∧
      (row s 1).opActive = false ∧ pending s 1 = true := by decide +kernel

theorem wit_SoftwareResetHW_refuse :
    let s := hw .polling Xfer.reset idleDev
    1 < nInst s ∧ 1 < s.peri.length ∧ (row s 1).config.kind = .hw ∧ (row s 1).initialized = true ∧
      (row s 1).opActive = false ∧ pending s 1 = false ∧ (instParams s.par 1).hwSoftwareReset = Policy.refuse := by decide +kernel

/-- A value that answers Busy, one that goes on with the command, and one that sets SWRST first. -/
theorem wit_SoftwareResetHW_ends :
    let s := { hw .polling Xfer.reset idleDev with par := policies ⟨.ret .busy, []⟩ Policy.refuse }
    let u := { s with par := policies ⟨.rest, []⟩ Policy.refuse }
    let v := { s with par := policies ⟨.act (.write (.swrst true)) .rest, []⟩ Policy.refuse }
    1 < nInst s ∧ 1 < s.peri.length ∧ (row s 1).config.kind = .hw ∧ (row s 1).initialized = true ∧
      (row s 1).opActive = false ∧ pending s 1 = false ∧ (instParams s.par 1).hwSoftwareReset = ⟨.ret .busy, []⟩ ∧
      (instParams u.par 1).hwSoftwareReset = ⟨.rest, []⟩ ∧
      (instParams v.par 1).hwSoftwareReset = ⟨.act (.write (.swrst true)) .rest, []⟩ := by decide +kernel

/-- A value that waits while BUSY is set, on a bus that is free and on one that is not. -/
theorem wit_SoftwareResetHW_wait :
    let pol : Policy := ⟨.act (.read 0 .sr2) (.test (.eq (.and (.var 0) (.const 2)) (.const 0)) .rest (.jump 0)), []⟩
    let s := { hw .polling Xfer.reset idleDev with par := policies pol Policy.refuse }
    let u := { hw .polling Xfer.reset { idleDev with sr2 := 0x0002 } with par := policies pol Policy.refuse }
    1 < nInst s ∧ 1 < s.peri.length ∧ (row s 1).config.kind = .hw ∧ (row s 1).initialized = true ∧
      (row s 1).opActive = false ∧ pending s 1 = false ∧ (instParams s.par 1).hwSoftwareReset = pol ∧
      (dev s 1).sr2.getLsbD 1 = false ∧ (row u 1).opActive = false ∧ pending u 1 = false ∧
      (instParams u.par 1).hwSoftwareReset = pol ∧ (dev u 1).sr2.getLsbD 1 = true := by decide +kernel

/-- INIT accepts both configurations of the common launch. Not one marked invalid, and neither of two that share a pin,
or of two HW instances on one peripheral. -/
theorem accepted_base : (Accepted base 0 ∧ Accepted base 1) ∧
    ¬ Accepted { base with par := { base.par with insts := [⟨false, speed, 0, Policy.refuse, Policy.refuse⟩] } } 0 ∧
    ¬ Accepted { base with inst := [Inst.reset Config.sw0, Inst.reset { Config.hw1 with sdaPort := 0, sdaPin := 0 }] } 1 ∧
    ¬ Accepted { base with
      inst := [Inst.reset { Config.hw1 with sclPort := 2, sdaPort := 2 }, Inst.reset Config.hw1] } 0 := by
  simp only [accepted_iff]
  decide +kernel

/-- Two configurePin calls that succeed, on a reset SW instance. -/
theorem wit_InitSW :
    let s := { base with env := { base.env with pinResults := [true, true, false] } }
    0 < nInst s ∧ (row s 0).config.kind = .sw ∧ (row s 0).initialized = false ∧ (row s 0).opActive = false ∧
      (∀ e ∈ s.sched, e ≠ .irq) ∧ Accepted s 0 ∧ s.env.pinResults = true :: true :: [false] := by
  simp only [accepted_iff]
  decide +kernel

theorem wit_InitTurnedAway_again :
    let s := sw true true []
    0 < nInst s ∧ (row s 0).opActive = false ∧ (∀ e ∈ s.sched, e ≠ .irq) ∧ (row s 0).initialized = true := by decide +kernel

/-- A configuration marked invalid, and one that names the SCL pin of another row. -/
theorem wit_InitTurnedAway_invalid :
    let s := { base with par := { base.par with insts := [⟨false, speed, 0, Policy.refuse, Policy.refuse⟩] } }
    let u := { base with inst := [Inst.reset Config.sw0, Inst.reset { Config.hw1 with sclPort := 0 }] }
    0 < nInst s ∧ (row s 0).opActive = false ∧ (∀ e ∈ s.sched, e ≠ .irq) ∧ (row s 0).initialized = false ∧
      ¬ Accepted s 0 ∧ 1 < nInst u ∧ (row u 1).opActive = false ∧ (row u 1).initialized = false ∧ ¬ Accepted u 1 := by
  simp only [accepted_iff]
  decide +kernel

theorem wit_InitTurnedAway_first_pin :
    let s := { base with env := { base.env with pinResults := [false] } }
    0 < nInst s ∧ (row s 0).opActive = false ∧ (∀ e ∈ s.sched, e ≠ .irq) ∧ (row s 0).initialized = false ∧
      Accepted s 0 ∧ s.env.pinResults = false :: [] := by
  simp only [accepted_iff]
  decide +kernel

theorem wit_InitTurnedAway_second_pin :
    let s := { base with env := { base.env with pinResults := [true, false] } }
    0 < nInst s ∧ (row s 0).opActive = false ∧ (∀ e ∈ s.sched, e ≠ .irq) ∧ (row s 0).initialized = false ∧
      Accepted s 0 ∧ s.env.pinResults = true :: false :: [] := by
  simp only [accepted_iff]
  decide +kernel

theorem wit_InitHW :
    let s := { base with env := { base.env with pinResults := [true, true] } }
    1 < nInst s ∧ 1 < s.peri.length ∧ (row s 1).config.kind = .hw ∧ (row s 1).initialized = false ∧
      (row s 1).opActive = false ∧ s.sched = [] ∧ Accepted s 1 ∧ (dev s 1).cr1 = 0 ∧
      s.env.pinResults = true :: true :: [] := by
  simp only [accepted_iff]
  decide +kernel

theorem wit_DeinitSW :
    let s := sw false true [true]
    (Initialized s [0] ∧ (row s 0).config.kind = .sw ∧ NoIrq s) ∧
    (1 < nInst base ∧ (row base 1).initialized = false ∧ (row base 1).opActive = false ∧ pending base 1 = false) :=
  ⟨ready_sw _ _ _, by decide +kernel⟩

/-- An idle instance, and one that is pending whose parameter goes on. -/
theorem wit_DeinitHW :
    let s := hw .polling Xfer.reset idleDev
    let u := { hw .interrupt (xfer .startSent .write 2 0) idleDev with par := policies Policy.refuse ⟨.rest, []⟩ }
    (Initialized s [1] ∧ (row s 1).config.kind = .hw ∧ 1 < s.peri.length ∧ s.sched = [] ∧ pending s 1 = false ∧
      (dev s 1).cr1.getLsbD 0 = true ∧ (dev s 1).cr1.getLsbD 15 = false) ∧
    Initialized u [1] ∧ (row u 1).config.kind = .hw ∧ 1 < u.peri.length ∧ u.sched = [] ∧ pending u 1 = true ∧
      (∃ jumps, (instParams u.par 1).deinitWhilePending = ⟨.rest, jumps⟩) ∧
      (dev u 1).cr1.getLsbD 0 = true ∧ (dev u 1).cr1.getLsbD 15 = false :=
  ⟨⟨(ready_hw _ _ _).1, by decide +kernel⟩, initialized_one (by decide) rfl rfl rfl, by decide +kernel, by decide +kernel,
    rfl, by decide +kernel, ⟨_, rfl⟩, by decide +kernel, by decide +kernel⟩

/-- The default, a value that answers Busy, one whose write of SWRST does nothing, and one that only ends `initialized`. -/
theorem wit_DeinitHW_pending :
    let s := hw .interrupt (xfer .startSent .write 2 0) idleDev
    let u := { s with par := policies Policy.refuse ⟨.ret .busy, []⟩ }
    let v := { s with par := policies Policy.refuse ⟨.act (.write (.swrst true)) (.ret .busy), []⟩ }
    let x := { s with par := policies Policy.refuse ⟨.act (.store (.initialized false)) .rest, []⟩ }
    1 < nInst s ∧ (row s 1).config.kind = .hw ∧ (row s 1).opActive = false ∧ pending s 1 = true ∧
      (instParams s.par 1).deinitWhilePending = Policy.refuse ∧
      (instParams u.par 1).deinitWhilePending = ⟨.ret .busy, []⟩ ∧
      (instParams v.par 1).deinitWhilePending = ⟨.act (.write (.swrst true)) (.ret .busy), []⟩ ∧
      (instParams x.par 1).deinitWhilePending = ⟨.act (.store (.initialized false)) .rest, []⟩ := by decide +kernel

theorem wit_SetTransferMode_sw :
    let s := sw true true []
    0 < nInst s ∧ (row s 0).initialized = true ∧ (row s 0).opActive = false ∧ (row s 0).config.kind = .sw := by decide +kernel

theorem wit_SetTransferMode_hw :
    let s := hw .polling Xfer.reset idleDev
    1 < nInst s ∧ (row s 1).initialized = true ∧ (row s 1).opActive = false ∧ (row s 1).config.kind = .hw := by decide +kernel

theorem wit_SetTransferMode_polling :
    let s := hw .interrupt (xfer .startSent .write 2 0) idleDev
    1 < nInst s ∧ 1 < s.peri.length ∧ (row s 1).config.kind = .hw ∧ (row s 1).initialized = true ∧
      (row s 1).opActive = false ∧ s.sched = [] := by decide +kernel

theorem wit_QueriesAndCallback : 1 < nInst base := by decide

theorem wit_IsBusBusy_not_initialized :
    let s := base
    1 < nInst s ∧ (row s 1).initialized = false := by decide +kernel

theorem wit_IsBusBusy_sw :
    let s := sw true true []
    0 < nInst s ∧ (row s 0).initialized = true ∧ (row s 0).config.kind = .sw ∧ ∀ e ∈ s.sched, e ≠ .irq := by decide +kernel

theorem wit_IsBusBusy_hw :
    let s := hw .polling Xfer.reset idleDev
    1 < nInst s ∧ (row s 1).initialized = true ∧ (row s 1).config.kind = .hw := by decide +kernel

theorem wit_BadIndex : (Instr.masterTransmit 5 .seven 0x3C 0x700 1 0).internal = false ∧
    (Instr.masterTransmit 5 .seven 0x3C 0x700 1 0).index = some 5 ∧ nInst base ≤ 5 ∧ nInst base ≤ 2 := by decide

/-- The SW instance 0 with a command executing on it. -/
def claimed0 : State := setRow (sw true true []) 0 { row (sw true true []) 0 with opActive := true }

theorem wit_Reentrant : (Instr.init 0).internal = false ∧ (Instr.init 0).index = some 0 ∧ 0 < nInst claimed0 ∧
    (∀ c d, Instr.init 0 ≠ .setCallback 0 c d) ∧ Instr.init 0 ≠ .isInitialized 0 ∧ Instr.init 0 ≠ .isBusBusy 0 ∧
    Instr.init 0 ≠ .getConfig 0 ∧ Instr.init 0 ≠ .getXferStatus 0 ∧ (row claimed0 0).opActive = true ∧
    decodeHost ⟨0x00000001, 0, 0, 0⟩ = .ok (.init 0) :=
  ⟨rfl, rfl, by decide, (by intro c d h; cases h), by decide, by decide, by decide, by decide, rfl, by decide⟩

theorem wit_NotInitialized :
    let s := base
    (Instr.scanBus 0 0x700 1).index = some 0 ∧ 0 < nInst s ∧ (row s 0).opActive = false ∧ (row s 0).initialized = false ∧
      isTransaction (.scanBus 0 0x700 1) = true := by decide +kernel

theorem wit_NotInitialized_mode :
    let s := base
    (Instr.setTransferMode 0 .polling).index = some 0 ∧ 0 < nInst s ∧ (row s 0).opActive = false ∧
      (row s 0).initialized = false := by decide +kernel

/-- A null buffer, a length of 0, an address of 0x80, a 10-bit asynchronous transfer. -/
theorem wit_ParameterChecks :
    ((row (sw true true []) 0).initialized = true ∧ (row (sw true true []) 0).opActive = false) ∧
    ¬ transactionOk false (.masterTransmit 0 .seven 0x7F 0 1 0) ∧
    ¬ transactionOk false (.masterReceive 0 .seven 0x7F 0x700 0 0) ∧
    ¬ transactionOk false (.masterWriteReg 0 .seven 0x80 0 0 0) ∧
    ¬ transactionOk false (.scanBus 0 0x700 0) ∧
    ¬ transactionOk (decide ((row (hw .interrupt Xfer.reset idleDev) 1).config.kind = .hw ∧
      (row (hw .interrupt Xfer.reset idleDev) 1).transferMode = .interrupt)) (.masterTransmit 1 .ten 0x2A5 0x700 1 0) := by
  simp only [transactionOk, addressInRange]
  decide +kernel

/-- A peer holds SDA low. -/
theorem wit_SwBusBusy :
    let s := sw true true [false, true]
    isTransaction (.scanBus 0 0x700 1) = true ∧ (Instr.scanBus 0 0x700 1).index = some 0 ∧
    (Initialized s [0] ∧ (row s 0).config.kind = .sw ∧ NoIrq s) ∧ transactionOk false (.scanBus 0 0x700 1) ∧
    (((row s 0).drvSDA && (drawSample s).1) && ((row s 0).drvSCL && (drawSample (drawSample s).2).1)) = false :=
  ⟨rfl, rfl, ready_sw _ _ _, by simp only [transactionOk]; decide, by decide +kernel⟩

/-- An SW instance whose bus is idle, its peers driving `xs` at the samples after the busy check. -/
def free (xs : List Bool) : State := sw true true (true :: true :: xs)

/-- The hypotheses on the state that the statements about SW transactions share. -/
def SwEntry (s : State) : Prop := Initialized s [0] ∧ (row s 0).config.kind = .sw ∧ NoIrq s ∧ CleanEntry s 0

theorem ready_free (xs : List Bool) : SwEntry (free xs) :=
  ⟨(ready_sw _ _ _).1, rfl, noIrq_nil rfl, rfl, rfl⟩

theorem wit_SwWriteReg : SwEntry (free [false, false, false]) ∧
    addressInRange .seven 0x7F ∧
    (free [false, false, false]).env.samples = true :: true :: (List.replicate 3 false ++ []) :=
  ⟨ready_free _, .inr (by decide), rfl⟩

theorem wit_SwTransmit : SwEntry (free [false, false, false]) ∧
    addressInRange .seven 0x3C ∧ (0x700 : Word) ≠ 0 ∧ (2 : Half) ≠ 0 ∧
    (2 : Half).toNat ≤ bufSize (free [false, false, false]) 0x700 ∧
    (free [false, false, false]).env.samples = true :: true :: (List.replicate 3 false ++ []) :=
  ⟨ready_free _, .inr (by decide), by decide, by decide, by decide +kernel, rfl⟩

theorem wit_SwWriteRegs : SwEntry (free [false, false, false, false, false]) ∧ addressInRange .ten 0x3FF ∧ (0x700 : Word) ≠ 0 ∧ (2 : Half) ≠ 0 ∧
    (2 : Half).toNat ≤ bufSize (free [false, false, false, false, false]) 0x700 ∧
    (free [false, false, false, false, false]).env.samples = true :: true :: (List.replicate 5 false ++ []) :=
  ⟨ready_free _, .inl rfl, by decide, by decide, by decide +kernel, rfl⟩

/-- The NACK of the first byte of a register write; of the last byte of a buffer; of the header after the repeated START
of a 10-bit receive; of the register of a read; of the read address of a register read. -/
theorem wit_SwNackFailFast :
    (SwEntry (free [true]) ∧ addressInRange .seven 0x50 ∧
      [addressBytes .seven 0x50 ++ [0x0E, 0x80]] = [] ++ ([] ++ enc7 0x50 .write :: [0x0E, 0x80]) :: [] ∧
      (free [true]).env.samples =
        true :: true :: (List.replicate (([] : List (List Byte)).flatten.length + ([] : List Byte).length) false ++ true :: [])) ∧
    ((0x700 : Word) ≠ 0 ∧ (2 : Half) ≠ 0 ∧ (2 : Half).toNat ≤ bufSize (free [false, false, true]) 0x700 ∧
      [addressBytes .seven 0x3C ++ bufferBytes (free [false, false, true]) 0x700 2] =
        [] ++ ([0x78, 0x00] ++ 0xAF :: []) :: [] ∧
      (free [false, false, true]).env.samples = true :: true :: (List.replicate 2 false ++ true :: [])) ∧
    ([addressBytes .ten 0x2A5, [readByte .ten 0x2A5]] = [[0xF4, 0xA5]] ++ ([] ++ 0xF5 :: []) :: [] ∧
      addressInRange .ten 0x2A5 ∧
      (free [false, false, true]).env.samples = true :: true :: (List.replicate ([[0xF4, 0xA5]] : List (List Byte)).flatten.length
        false ++ true :: [])) ∧
    [addressBytes .seven 0x68 ++ [0x0E], [readByte .seven 0x68]] = [] ++ ([0xD0] ++ 0x0E :: []) :: [[0xD1]] ∧
    [addressBytes .seven 0x68 ++ [0x0E], [readByte .seven 0x68]] = [[0xD0, 0x0E]] ++ ([] ++ 0xD1 :: []) :: [] :=
  ⟨⟨ready_free _, .inr (by decide), by decide, rfl⟩,
    ⟨by decide, by decide, by decide +kernel, by decide +kernel, rfl⟩, ⟨by decide, .inl rfl, rfl⟩, by decide, by decide⟩

/-- A 10-bit address, the peer ACKing three bytes and sending 0x5A. -/
theorem wit_SwReceive :
    SwEntry (free ([false, false, false] ++ byteBits 0x5A)) ∧ addressInRange .ten 0x2A5 ∧ (0x700 : Word) ≠ 0 ∧
    (1 : Half) ≠ 0 ∧ (1 : Half).toNat ≤ bufSize (free ([false, false, false] ++ byteBits 0x5A)) 0x700 ∧
    (free ([false, false, false] ++ byteBits 0x5A)).env.samples =
      true :: true :: (List.replicate 3 false ++ (byteSamples (fun _ => 0x5A) 1 ++ [])) :=
  ⟨ready_free _, .inl rfl, by decide, by decide, by decide +kernel, rfl⟩

theorem wit_SwReadReg :
    SwEntry (free ([false, false, false] ++ byteBits 0x1C)) ∧ addressInRange .seven 0x68 ∧ (0x700 : Word) ≠ 0 ∧
    1 ≤ bufSize (free ([false, false, false] ++ byteBits 0x1C)) 0x700 ∧
    (free ([false, false, false] ++ byteBits 0x1C)).env.samples =
      true :: true :: (List.replicate (([enc7 0x68 .write] ++ [0x0E]).length + 1) false ++
        (byteSamples (fun _ => 0x1C) 1 ++ [])) :=
  ⟨ready_free _, .inr (by decide), by decide, by decide +kernel, rfl⟩

/-- A peer at 0x09, room for one address: two probes. -/
theorem wit_SwScan :
    let acked : BitVec 10 → Bool := fun a => a == 0x09
    let s := free [true, true, true, true, true, false]
    SwEntry s ∧ (0x700 : Word) ≠ 0 ∧ (1 : Half) ≠ 0 ∧
    (List.range 112).map (fun k => BitVec.ofNat 10 (8 + k)) =
      [0x08, 0x09] ++ (List.range 110).map (fun k => BitVec.ofNat 10 (10 + k)) ∧
    (∀ q r, [0x08, 0x09] = q ++ r → r ≠ [] → (q.filter acked).length < (1 : Half).toNat) ∧
    (([0x08, 0x09] : List (BitVec 10)).filter acked).length = (1 : Half).toNat ∧
    (([0x08, 0x09] : List (BitVec 10)).filter acked).length ≤ bufSize s 0x700 ∧
    s.env.samples = true :: true :: (([0x08, 0x09] : List (BitVec 10)).flatMap (fun a => [true, true, !acked a]) ++ []) := by
  refine ⟨ready_free _, by decide, by decide, by decide +kernel, ?_, by decide, by decide +kernel, rfl⟩
  rintro (_ | ⟨a, _ | ⟨b, _ | ⟨c, q⟩⟩⟩) r h hr
  · decide
  · obtain ⟨rfl, -⟩ := List.cons.inj h
    decide
  · obtain ⟨-, h⟩ := List.cons.inj h
    exact absurd (List.cons.inj h).2.symm hr
  · obtain ⟨-, h⟩ := List.cons.inj h
    cases (List.cons.inj h).2

/-- A peer at 0x08, and SDA held low by a peer at the check of the second probe. -/
theorem wit_SwScan_busy :
    let acked : BitVec 10 → Bool := fun a => a == 0x08
    let s := free [true, true, false, false, true]
    SwEntry s ∧ (0x700 : Word) ≠ 0 ∧
    (List.range 112).map (fun k => BitVec.ofNat 10 (8 + k)) =
      [0x08] ++ 0x09 :: (List.range 110).map (fun k => BitVec.ofNat 10 (10 + k)) ∧
    (([0x08] : List (BitVec 10)).filter acked).length < (2 : Half).toNat ∧
    (([0x08] : List (BitVec 10)).filter acked).length ≤ bufSize s 0x700 ∧ (false && true) = false ∧
    s.env.samples = true :: true :: (([0x08] : List (BitVec 10)).flatMap (fun a => [true, true, !acked a]) ++ false :: true :: []) :=
  ⟨ready_free _, by decide, by decide +kernel, by decide +kernel, by decide +kernel, rfl, rfl⟩

/-- A wait for a flag that goes on, and one at its first round: the hypotheses its clauses share. -/
theorem wit_HwWaitFlag (t0 : Option Word) (tmo : Word) (c : Half) :
    let s := waiting t0 (.waitFlag .sb tmo) { idleDev with sr1 := c }
    1 < nInst s ∧ 1 < s.peri.length ∧ isTransaction (.masterWriteReg 1 .seven 0x50 0x0E 0x80 100) = true ∧ s.sched = [] ∧
      NoFault s ∧ s.seq = some ⟨1, .masterWriteReg 1 .seven 0x50 0x0E 0x80 100, base.words,
        [.waitFlag .sb tmo, .csr .cr1 Cr1.stop Cr1.stop], { t0 := t0 }⟩ ∧
      (dev s 1).sr1 = c ∧ (dev s 1).cr1.getLsbD 0 = true ∧ (dev s 1).cr1.getLsbD 15 = false ∧ s.ticks = 100 :=
  ⟨by show 1 < 2; decide, by show 1 < 2; decide, rfl, rfl, rfl, rfl, rfl,
    by show (0x0401 : Half).getLsbD 0 = true; decide, by show (0x0401 : Half).getLsbD 15 = false; decide, rfl⟩

/-- Their values: an error flag, over SB; SB; neither, at elapsed = tmo, at elapsed = tmo - 1, and at a first round with
tmo = 0 and tmo = 1. -/
theorem wit_HwWaitFlag_clauses :
    (0x0401 : Half) &&& 0x0700 ≠ 0 ∧
    ((0x0001 : Half) &&& 0x0700 = 0 ∧ (0x0001 : Half) &&& flagMask .sb ≠ 0) ∧
    ((0 : Half) &&& 0x0700 = 0 ∧ (0 : Half) &&& flagMask .sb = 0) ∧
    (32 : Word).toNat ≤ ((100 : Word) - (some (68 : Word)).getD 100).toNat ∧
    ¬ (33 : Word).toNat ≤ ((100 : Word) - (some (68 : Word)).getD 100).toNat ∧
    (0 : Word).toNat ≤ ((100 : Word) - (none : Option Word).getD 100).toNat ∧
    ¬ (1 : Word).toNat ≤ ((100 : Word) - (none : Option Word).getD 100).toNat := by decide

/-- A transmit in Polling mode. -/
theorem wit_HwWaitFlag_exec :
    let s := hw .polling Xfer.reset idleDev
    isTransaction (.masterTransmit 1 .ten 0x2A5 0x700 2 9) = true ∧
      (Instr.masterTransmit 1 .ten 0x2A5 0x700 2 9).index = some 1 ∧ Initialized s [1] ∧ (row s 1).config.kind = .hw ∧
      NoFault s ∧ s.seq = none ∧ pending s 1 = false ∧ transactionOk false (.masterTransmit 1 .ten 0x2A5 0x700 2 9) ∧
      (row s 1).transferMode = .polling :=
  ⟨rfl, rfl, (ready_hw _ _ _).1, rfl, rfl, rfl, by decide +kernel, by simp only [transactionOk, addressInRange]; decide, rfl⟩

/-- A command that waits for a free bus, with TMO = 0 and with TMO = 1. -/
theorem wit_HwWaitNotBusy_first (tmo : Word) :
    let s := hw .polling Xfer.reset { idleDev with sr2 := 0x0002 }
    isTransaction (.masterWriteReg 1 .seven 0x50 0x0E 0x80 tmo) = true ∧
      (Instr.masterWriteReg 1 .seven 0x50 0x0E 0x80 tmo).index = some 1 ∧ s.sched = [] ∧ NoFault s ∧ 1 < nInst s ∧
      1 < s.peri.length ∧ s.seq = none ∧ Initialized s [1] ∧ (row s 1).config.kind = .hw ∧ pending s 1 = false ∧
      transactionOk false (.masterWriteReg 1 .seven 0x50 0x0E 0x80 tmo) ∧ (row s 1).transferMode = .polling ∧
      (dev s 1).sr2.getLsbD 1 = true ∧ (0 : Word) = 0 ∧ (1 : Word) ≠ 0 :=
  ⟨rfl, rfl, rfl, rfl, by show 1 < 2; decide, by show 1 < 2; decide, rfl, (ready_hw _ _ _).1, rfl, by decide +kernel,
    .inr (by decide), rfl, by decide +kernel, rfl, by decide⟩

/-- A wait for a free bus that goes on, and one at its first round: the bus free; busy at elapsed = tmo, and at
elapsed = tmo - 1. -/
theorem wit_HwWaitNotBusy (t0 : Option Word) (tmo : Word) :
    let s := waiting t0 (.waitNotBusy tmo) idleDev
    let u := waiting t0 (.waitNotBusy tmo) { idleDev with sr2 := 0x0002 }
    (isTransaction (.masterWriteReg 1 .seven 0x50 0x0E 0x80 100) = true ∧
      (Instr.masterWriteReg 1 .seven 0x50 0x0E 0x80 100).index = some 1 ∧ u.sched = [] ∧ NoFault u ∧ 1 < nInst u ∧
      1 < u.peri.length ∧ u.seq = some ⟨1, .masterWriteReg 1 .seven 0x50 0x0E 0x80 100, base.words,
        [.waitNotBusy tmo, .csr .cr1 Cr1.stop Cr1.stop], { t0 := t0 }⟩) ∧
      (dev s 1).sr2.getLsbD 1 = false ∧ (dev u 1).sr2.getLsbD 1 = true ∧ u.ticks = 100 ∧
      (32 : Word).toNat ≤ ((100 : Word) - (some (68 : Word)).getD 100).toNat ∧
      ¬ (33 : Word).toNat ≤ ((100 : Word) - (some (68 : Word)).getD 100).toNat ∧
      (0 : Word).toNat ≤ ((100 : Word) - (none : Option Word).getD 100).toNat :=
  ⟨⟨rfl, rfl, rfl, rfl, by show 1 < 2; decide, by show 1 < 2; decide, rfl⟩,
    by show (0 : Half).getLsbD 1 = false; decide, by show (0x0002 : Half).getLsbD 1 = true; decide, rfl, by decide⟩

/-- A register write in Interrupt mode, and a second asynchronous start. -/
theorem wit_PendingIsBusy :
    let s := hw .interrupt (xfer .startSent .write 2 0) idleDev
    (Initialized s [1] ∧ (row s 1).config.kind = .hw ∧ 1 < s.peri.length ∧ NoIrq s) ∧ pending s 1 = true ∧
    transactionOk true (.masterWriteReg 1 .ten 0x3FF 1 2 3) ∧ transactionOk true (.masterTransmit 1 .seven 0x3C 0x700 2 0) ∧
    isTransaction (.masterTransmit 1 .seven 0x3C 0x700 2 0) = true ∧
    (Instr.masterTransmit 1 .seven 0x3C 0x700 2 0).index = some 1 := by
  refine ⟨ready_hw _ _ _, ?_⟩
  simp only [transactionOk, addressInRange]
  decide +kernel

theorem wit_AsyncStart_free :
    let s := hw .interrupt Xfer.reset idleDev
    (Initialized s [1] ∧ (row s 1).config.kind = .hw ∧ 1 < s.peri.length ∧ NoIrq s) ∧ (row s 1).transferMode = .interrupt ∧
      pending s 1 = false ∧ (0x700 : Word) ≠ 0 ∧ (2 : Half) ≠ 0 ∧ (0x7F : BitVec 10).toNat ≤ 127 ∧ s.sched = [] ∧
      (dev s 1).cr1.getLsbD 0 = true ∧ (dev s 1).cr1.getLsbD 15 = false ∧ (dev s 1).sr2.getLsbD 1 = false :=
  ⟨ready_hw _ _ _, by decide +kernel⟩

theorem wit_AsyncStart_busy :
    let s := hw .interrupt Xfer.reset { idleDev with sr2 := 0x0002 }
    (Initialized s [1] ∧ (row s 1).config.kind = .hw ∧ 1 < s.peri.length ∧ NoIrq s) ∧ (row s 1).transferMode = .interrupt ∧
      pending s 1 = false ∧ (0x700 : Word) ≠ 0 ∧ (2 : Half) ≠ 0 ∧ (0x7F : BitVec 10).toNat ≤ 127 ∧ s.sched = [] ∧
      (dev s 1).cr1.getLsbD 0 = true ∧ (dev s 1).cr1.getLsbD 15 = false ∧ (dev s 1).sr2.getLsbD 1 = true :=
  ⟨ready_hw _ _ _, by decide +kernel⟩

theorem wit_EvAddressing_sb :
    let s := hw .interrupt (xfer .startSent .read 1 0) { idleDev with sr1 := 0x0001, sr2 := 0x0003, ph := .start }
    1 < nInst s ∧ 1 < s.peri.length ∧ (row s 1).config.kind = .hw ∧
      (dev s 1).sr1 &&& 0x0700 = 0 ∧ (row s 1).xfer.state = .startSent ∧ (dev s 1).sr1.getLsbD 0 = true ∧ (dev s 1).ph = .start ∧
      (dev s 1).sr2.getLsbD 0 = true := by decide +kernel

theorem wit_EvAddressing_addr :
    let s := hw .interrupt (xfer .addressPhase .read 1 0)
      { idleDev with sr1 := 0x0002, sr2 := 0x0003, ph := .addrDone, arw := true }
    1 < nInst s ∧ 1 < s.peri.length ∧ (row s 1).config.kind = .hw ∧
      (dev s 1).sr1 &&& 0x0700 = 0 ∧ (row s 1).xfer.state = .addressPhase ∧ (dev s 1).sr1.getLsbD 1 = true ∧
      (dev s 1).cr1.getLsbD 0 = true ∧ (dev s 1).cr1.getLsbD 15 = false := by decide +kernel

/-- The last byte of a write. -/
theorem wit_EvData_write :
    let s := hw .interrupt (xfer .dataPhase .write 2 1) { idleDev with sr1 := 0x0080, sr2 := 0x0007, ph := .tx }
    1 < nInst s ∧ 1 < s.peri.length ∧ (row s 1).config.kind = .hw ∧
      (dev s 1).sr1 &&& 0x0700 = 0 ∧ (dev s 1).cr1.getLsbD 0 = true ∧ (dev s 1).cr1.getLsbD 15 = false ∧
      (row s 1).xfer.state = .dataPhase ∧ (row s 1).xfer.idx.toNat < (row s 1).xfer.len.toNat ∧ (row s 1).xfer.dir = .write ∧
      (dev s 1).sr1.getLsbD 7 = true ∧ (dev s 1).ph = .tx ∧ (dev s 1).sr2.getLsbD 0 = true ∧
      (row s 1).xfer.idx.toNat < bufSize s (row s 1).xfer.buf := by decide +kernel

/-- The last byte but one of a read. -/
theorem wit_EvData_read :
    let s := hw .interrupt (xfer .dataPhase .read 2 0) { idleDev with sr1 := 0x0040, sr2 := 0x0003, ph := .rx }
    1 < nInst s ∧ 1 < s.peri.length ∧ (row s 1).config.kind = .hw ∧
      (dev s 1).sr1 &&& 0x0700 = 0 ∧ (dev s 1).cr1.getLsbD 0 = true ∧ (dev s 1).cr1.getLsbD 15 = false ∧
      (row s 1).xfer.state = .dataPhase ∧ (row s 1).xfer.idx.toNat < (row s 1).xfer.len.toNat ∧ (row s 1).xfer.dir = .read ∧
      (dev s 1).sr1.getLsbD 6 = true ∧ (row s 1).xfer.idx.toNat + 1 < (row s 1).xfer.len.toNat ∧
      (row s 1).xfer.idx.toNat < bufSize s (row s 1).xfer.buf := by decide +kernel

/-- The first index past the buffer. -/
theorem wit_EvData_bounds :
    let s := hw .interrupt (xfer .dataPhase .read 3 2) { idleDev with sr1 := 0x0040, sr2 := 0x0003, ph := .rx }
    1 < nInst s ∧ 1 < s.peri.length ∧ (row s 1).config.kind = .hw ∧
      (dev s 1).sr1 &&& 0x0700 = 0 ∧ (dev s 1).cr1.getLsbD 0 = true ∧ (dev s 1).cr1.getLsbD 15 = false ∧
      (row s 1).xfer.state = .dataPhase ∧ (row s 1).xfer.idx.toNat < (row s 1).xfer.len.toNat ∧ (row s 1).xfer.dir = .read ∧
      (dev s 1).sr1.getLsbD 6 = true ∧ bufSize s (row s 1).xfer.buf ≤ (row s 1).xfer.idx.toNat := by decide +kernel

theorem wit_EvComplete_write :
    let s := hw .interrupt (xfer .dataPhase .write 2 2) { idleDev with sr1 := 0x0084, sr2 := 0x0007, ph := .tx }
    1 < nInst s ∧ 1 < s.peri.length ∧ (row s 1).config.kind = .hw ∧
      (dev s 1).sr1 &&& 0x0700 = 0 ∧ (dev s 1).cr1.getLsbD 0 = true ∧ (dev s 1).cr1.getLsbD 15 = false ∧
      (row s 1).xfer.state = .dataPhase ∧ s.env.calls = [] ∧ (row s 1).xfer.dir = .write ∧
      (row s 1).xfer.idx = (row s 1).xfer.len ∧ (dev s 1).sr1.getLsbD 2 = true := by decide +kernel

theorem wit_EvComplete_read :
    let s := hw .interrupt (xfer .dataPhase .read 1 0) { idleDev with sr1 := 0x0040, sr2 := 0x0003, ph := .rxEnd }
    1 < nInst s ∧ 1 < s.peri.length ∧ (row s 1).config.kind = .hw ∧
      (dev s 1).sr1 &&& 0x0700 = 0 ∧ (dev s 1).cr1.getLsbD 0 = true ∧ (dev s 1).cr1.getLsbD 15 = false ∧
      (row s 1).xfer.state = .dataPhase ∧ s.env.calls = [] ∧ (row s 1).xfer.dir = .read ∧
      (dev s 1).sr1.getLsbD 6 = true ∧ (row s 1).xfer.idx.toNat + 1 = (row s 1).xfer.len.toNat ∧
      (row s 1).xfer.idx.toNat < bufSize s (row s 1).xfer.buf := by decide +kernel

theorem wit_EvUnexpected_error :
    let s := hw .interrupt (xfer .dataPhase .write 2 0) { idleDev with sr1 := 0x0480 }
    1 < nInst s ∧ (row s 1).config.kind = .hw ∧ (dev s 1).sr1 &&& 0x0700 ≠ 0 := by decide +kernel

theorem wit_EvUnexpected_complete :
    let s := hw .interrupt (xfer .complete .write 2 2) { idleDev with sr1 := 0x0080 }
    1 < nInst s ∧ (row s 1).config.kind = .hw ∧ (dev s 1).sr1 &&& 0x0700 = 0 ∧ (row s 1).xfer.state = .complete := by decide +kernel

theorem wit_EvUnexpected_start :
    let s := hw .interrupt (xfer .startSent .write 2 0) { idleDev with sr1 := 0x0002 }
    1 < nInst s ∧ (row s 1).config.kind = .hw ∧ (dev s 1).sr1 &&& 0x0700 = 0 ∧ (row s 1).xfer.state = .startSent ∧
      (dev s 1).sr1.getLsbD 0 = false := by decide +kernel

theorem wit_EvUnexpected_address :
    let s := hw .interrupt (xfer .addressPhase .write 2 0) { idleDev with sr1 := 0x0001 }
    1 < nInst s ∧ (row s 1).config.kind = .hw ∧ (dev s 1).sr1 &&& 0x0700 = 0 ∧ (row s 1).xfer.state = .addressPhase ∧
      (dev s 1).sr1.getLsbD 1 = false := by decide +kernel

theorem wit_EvUnexpected_write :
    let s := hw .interrupt (xfer .dataPhase .write 2 2) { idleDev with sr1 := 0x0080 }
    1 < nInst s ∧ (row s 1).config.kind = .hw ∧ (dev s 1).sr1 &&& 0x0700 = 0 ∧ (row s 1).xfer.state = .dataPhase ∧ (row s 1).xfer.dir = .write ∧
      ¬ ((dev s 1).sr1.getLsbD 7 = true ∧ (row s 1).xfer.idx.toNat < (row s 1).xfer.len.toNat) ∧
      ¬ ((dev s 1).sr1.getLsbD 2 = true ∧ (row s 1).xfer.idx = (row s 1).xfer.len) := by decide +kernel

theorem wit_EvUnexpected_read :
    let s := hw .interrupt (xfer .dataPhase .read 2 0) { idleDev with sr1 := 0x0080 }
    1 < nInst s ∧ (row s 1).config.kind = .hw ∧ (dev s 1).sr1 &&& 0x0700 = 0 ∧ (row s 1).xfer.state = .dataPhase ∧ (row s 1).xfer.dir = .read ∧
      (dev s 1).sr1.getLsbD 6 = false := by decide +kernel

theorem wit_EvUnexpected_sw :
    let s := base
    (row s 0).config.kind = .sw ∧ ¬ 2 < nInst s := by decide +kernel

theorem wit_ErIrq :
    let s := hw .interrupt (xfer .startSent .write 2 0) { idleDev with sr1 := 0x0700 }
    1 < nInst s ∧ 1 < s.peri.length ∧ (row s 1).config.kind = .hw ∧
      (dev s 1).cr1.getLsbD 0 = true ∧ (dev s 1).cr1.getLsbD 15 = false ∧ s.env.calls = [] ∧ (dev s 1).sr1 &&& 0x0700 ≠ 0 ∧
      (row s 1).xfer.state = .startSent := by decide +kernel

theorem wit_ErIrq_no_error :
    let s := hw .interrupt (xfer .startSent .write 2 0) idleDev
    1 < nInst s ∧ 1 < s.peri.length ∧ (row s 1).config.kind = .hw ∧
      (dev s 1).cr1.getLsbD 0 = true ∧ (dev s 1).cr1.getLsbD 15 = false ∧ s.env.calls = [] ∧ (dev s 1).sr1 &&& 0x0700 = 0 := by decide +kernel

theorem wit_ErIrq_not_pending :
    let s := hw .interrupt (xfer .complete .write 2 2) { idleDev with sr1 := 0x0400 }
    1 < nInst s ∧ 1 < s.peri.length ∧ (row s 1).config.kind = .hw ∧
      (dev s 1).cr1.getLsbD 0 = true ∧ (dev s 1).cr1.getLsbD 15 = false ∧ s.env.calls = [] ∧ 
      ¬ ((row s 1).xfer.state = .startSent ∨ (row s 1).xfer.state = .addressPhase ∨ (row s 1).xfer.state = .dataPhase) := by decide +kernel

/-- A transfer that fails and calls back, an act scripted; a handler that does not call back; a blocking command whose
words have an argument word that its command does not use. -/
theorem wit_Callback :
    (∃ t, exec (.erIrq 1) (hw .interrupt (xfer .startSent .write 2 0) { idleDev with sr1 := 0x0700 }) = .next t ∧
      t.trace.head? = some (.callback 1 .busError 7)) ∧
    (∃ t, exec (.evIrq 1) (hw .interrupt (xfer .startSent .write 2 0) { idleDev with sr1 := 0x0701 }) = .next t ∧
      t.trace.head? = some (.csrR 1 .sr1 0x0701)) ∧
    (∃ as rest, { base.env with calls := [[.readBuf 0x700 0]] }.calls = as :: rest) ∧
    (decodeHost ⟨0x00500112, 0x0000800E, 5, 100⟩ = .ok (.masterWriteReg 1 .seven 0x50 0x0E 0x80 100) ∧
      isTransaction (.masterWriteReg 1 .seven 0x50 0x0E 0x80 100) = true ∧
      (Instr.masterWriteReg 1 .seven 0x50 0x0E 0x80 100).index = some 1 ∧
      transactionOk false (.masterWriteReg 1 .seven 0x50 0x0E 0x80 100)) ∧
    1 < nInst (hw .polling Xfer.reset idleDev) ∧ (row (hw .polling Xfer.reset idleDev) 1).config.kind = .hw ∧
    (row (hw .polling Xfer.reset idleDev) 1).initialized = true ∧
    (row (hw .polling Xfer.reset idleDev) 1).opActive = false ∧ pending (hw .polling Xfer.reset idleDev) 1 = false ∧
    (row (hw .polling Xfer.reset idleDev) 1).transferMode = .polling :=
  ⟨⟨_, rfl, rfl⟩, ⟨_, rfl, rfl⟩, ⟨_, _, rfl⟩, ⟨by decide, rfl, rfl, .inr (by decide)⟩, by decide +kernel⟩

/-- A transaction that would wait on the HW peripheral; a BL_START, which does not, and an asynchronous start, in a state
with no command in `seq`; words that are no command; a buffer access that is allowed. -/
theorem wit_Callback_commands :
    waitsOnHw (hw .polling Xfer.reset idleDev) (.masterWriteReg 1 .seven 0x50 0x0E 0x80 100) ∧
    (decodeHost ⟨0x00000020, 0, 0, 0⟩ = .ok (.blStart 0) ∧ ¬ waitsOnHw (sw true true []) (.blStart 0) ∧
      (sw true true []).seq = none ∧ ∃ u, exec (.blStart 0) { sw true true [] with sched := [] } = .next u ∧ u.seq = none) ∧
    (decodeHost ⟨0x003C0110, 0x00020000, 0x700, 0⟩ = .ok (.masterTransmit 1 .seven 0x3C 0x700 2 0) ∧
      ¬ waitsOnHw (hw .interrupt Xfer.reset idleDev) (.masterTransmit 1 .seven 0x3C 0x700 2 0)) ∧
    decodeHost ⟨0, 0, 0, 0⟩ = .error (.reservedOp 0) ∧ hostTouch none 0x700 1 none base = .next base := by
  refine ⟨⟨rfl, .inr (by decide), 1, rfl, by decide, rfl, rfl, rfl, rfl, fun _ => rfl⟩,
    ⟨by decide, fun h => (by cases h.1), rfl, _, rfl, rfl⟩, ⟨by decide, fun h => ?_⟩, by decide, by rfl⟩
  obtain ⟨j, hj, _, _, _, _, _, hm⟩ := h.2.2
  cases hj
  have := hm ⟨1, .seven, 0x3C, 0x700, 2, 0, .inl rfl⟩
  cases this

/-- Both lines of an instance at once, one alone, and none. -/
theorem wit_InterruptPriority :
    takeInterrupt (hw .interrupt Xfer.reset { idleDev with cr2 := 0x0300, sr1 := 0x0401 }) = some (.erIrq 1) ∧
    takeInterrupt (hw .interrupt Xfer.reset { idleDev with cr2 := 0x0600, sr1 := 0x0080 }) = some (.evIrq 1) ∧
    takeInterrupt (hw .interrupt Xfer.reset { idleDev with cr2 := 0x0200, sr1 := 0x0080 }) = none := by decide +kernel

/-- A peripheral at ADDR that is enabled, SR1 just read; a value of CR1 with PE set and SWRST clear. -/
theorem wit_CsrSideEffects :
    let s := hw .polling Xfer.reset { idleDev with sr1 := 0x0002, snap := 0x0002, ph := .addrDone }
    1 < s.peri.length ∧ (dev s 1).cr1.getLsbD 0 = true ∧ (dev s 1).cr1.getLsbD 15 = false ∧
      (dev s 1).snap.getLsbD 1 = true ∧ (dev s 1).sr1.getLsbD 1 = true ∧
      (0x7CFF : Half).getLsbD 0 = true ∧ (0x7CFF : Half).getLsbD 15 = false := by decide +kernel

theorem wit_PeripheralSteps_disabled :
    let s := hw .polling Xfer.reset Periph.reset
    (row s 1).config.kind = .hw ∧ (dev s 1).cr1.getLsbD 0 = false := by decide +kernel

theorem wit_PeripheralSteps_start :
    let s := hw .polling Xfer.reset { idleDev with cr1 := 0x0501 }
    (row s 1).config.kind = .hw ∧ (dev s 1).cr1.getLsbD 0 = true ∧ (dev s 1).cr1.getLsbD 8 = true ∧
      (dev s 1).sr2.getLsbD 0 = false ∧ (dev s 1).sr2.getLsbD 1 = false ∧ (dev s 1).ph = .idle := by decide +kernel

theorem wit_PeripheralSteps_restart :
    let s := hw .polling Xfer.reset { idleDev with cr1 := 0x0501, sr1 := 0x0084, sr2 := 0x0007, ph := .tx }
    (row s 1).config.kind = .hw ∧ (dev s 1).cr1.getLsbD 0 = true ∧ (dev s 1).cr1.getLsbD 8 = true ∧
      (dev s 1).sr2.getLsbD 0 = true ∧ (dev s 1).cr1.getLsbD 9 = false ∧ (dev s 1).ph = .tx ∧ (dev s 1).pendDR = false := by decide +kernel

/-- The header of a 10-bit write. -/
theorem wit_PeripheralSteps_address :
    let s := hw .polling Xfer.reset { idleDev with dr := 0x00F4, sr2 := 0x0003, ph := .start, pendDR := true }
    (row s 1).config.kind = .hw ∧ (dev s 1).cr1.getLsbD 0 = true ∧ (dev s 1).ph = .start ∧
      (dev s 1).sr1.getLsbD 0 = false ∧ (dev s 1).pendDR = true ∧ ((dev s 1).dr.setWidth 8 : Byte) &&& 0xF9 = 0xF0 := by decide +kernel

/-- The header of a 10-bit read. -/
theorem wit_PeripheralSteps_address_read :
    let s := hw .polling Xfer.reset { idleDev with dr := 0x00F5, sr2 := 0x0003, ph := .start, pendDR := true }
    (row s 1).config.kind = .hw ∧ (dev s 1).cr1.getLsbD 0 = true ∧ (dev s 1).ph = .start ∧
      (dev s 1).sr1.getLsbD 0 = false ∧ (dev s 1).pendDR = true ∧ ¬ ((dev s 1).dr.setWidth 8 : Byte) &&& 0xF9 = 0xF0 := by decide +kernel

theorem wit_PeripheralSteps_low_byte :
    let s := hw .polling Xfer.reset { idleDev with dr := 0x00A5, sr2 := 0x0003, ph := .hdr10, pendDR := true }
    (row s 1).config.kind = .hw ∧ (dev s 1).cr1.getLsbD 0 = true ∧ (dev s 1).ph = .hdr10 ∧
      (dev s 1).sr1.getLsbD 3 = false ∧ (dev s 1).pendDR = true := by decide +kernel

theorem wit_PeripheralSteps_tx :
    let s := hw .polling Xfer.reset { idleDev with sr2 := 0x0007, ph := .tx, pendDR := true }
    (row s 1).config.kind = .hw ∧ (dev s 1).cr1.getLsbD 0 = true ∧ (dev s 1).ph = .tx ∧ (dev s 1).pendDR = true := by decide +kernel

theorem wit_PeripheralSteps_rx :
    let s := hw .polling Xfer.reset { idleDev with sr2 := 0x0003, ph := .rx }
    (row s 1).config.kind = .hw ∧ (dev s 1).cr1.getLsbD 0 = true ∧ (dev s 1).ph = .rx ∧ (dev s 1).sr1.getLsbD 6 = false := by decide +kernel

theorem wit_PeripheralSteps_stop_rx :
    let s := hw .polling Xfer.reset { idleDev with cr1 := 0x0601, sr1 := 0x0040, sr2 := 0x0003, ph := .rx }
    (row s 1).config.kind = .hw ∧ (dev s 1).cr1.getLsbD 0 = true ∧ (dev s 1).cr1.getLsbD 9 = true ∧
      (dev s 1).sr2.getLsbD 0 = true ∧ (dev s 1).ph = .rx ∧ (dev s 1).sr1.getLsbD 6 = true := by decide +kernel

theorem wit_PeripheralSteps_stop_tx :
    let s := hw .polling Xfer.reset { idleDev with cr1 := 0x0601, sr1 := 0x0084, sr2 := 0x0007, ph := .tx }
    (row s 1).config.kind = .hw ∧ (dev s 1).cr1.getLsbD 0 = true ∧ (dev s 1).cr1.getLsbD 9 = true ∧
      (dev s 1).sr2.getLsbD 0 = true ∧ (dev s 1).ph = .tx ∧ (dev s 1).pendDR = false := by decide +kernel

/-- A STOP request that is cancelled, and a bus that others may take. -/
theorem wit_PeripheralSteps_no_master :
    let s := hw .polling Xfer.reset { idleDev with cr1 := 0x0601 }
    (row s 1).config.kind = .hw ∧ (dev s 1).cr1.getLsbD 0 = true ∧ (dev s 1).cr1.getLsbD 9 = true ∧
      (dev s 1).sr2.getLsbD 0 = false := by decide +kernel

/-- The greatest advance that is taken, and the first that is not. -/
theorem wit_PeripheralSteps_tick :
    (row base 1).config.kind = .hw ∧ (base.ticks - base.lastNow).toNat + (0x7FFFFFFF : Word).toNat < 2 ^ 31 ∧
      ¬ (base.ticks - base.lastNow).toNat + (0x80000000 : Word).toNat < 2 ^ 31 := by decide +kernel

/-- A buffer lent to a transfer; the last index of a buffer of two bytes, and the first past it; a command that names a
buffer. -/
theorem wit_HostBuffers :
    (∃ r ∈ (hw .interrupt (xfer .startSent .write 2 0) idleDev).inst, r.xfer.buf = 0x700 ∧ r.xfer.state = .startSent) ∧
    (NoFault (host [.writeBuf 0x700 1 5]) ∧ (host [.writeBuf 0x700 1 5]).seq = none ∧ (host [.writeBuf 0x700 1 5]).sched = [] ∧
      (host [.writeBuf 0x700 1 5]).host = (if true then .writeBuf 0x700 1 5 else .readBuf 0x700 1) :: [] ∧
      (1 : Half).toNat < bufSize (host [.writeBuf 0x700 1 5]) 0x700 ∧ bufSize (host [.readBuf 0x700 2]) 0x700 ≤ (2 : Half).toNat ∧
      Memory.wf (host [.writeBuf 0x700 1 5]).mem = true ∧
      ∀ r ∈ (host [.writeBuf 0x700 1 5]).inst, ¬ (r.xfer.buf = 0x700 ∧ r.xfer.state.pending = true)) ∧
    ((Instr.scanBus 0 0x700 8).index = some 0 ∧ bufferOf (.scanBus 0 0x700 8) = some (0x700, 8)) ∧
    ∀ n, ((0x701 : Word), n) ∉ base.bufs := by
  refine ⟨⟨_, List.mem_cons_of_mem _ List.mem_cons_self, rfl, rfl⟩, ⟨rfl, by decide +kernel⟩, by decide, ?_⟩
  intro n h
  simp [base] at h

/-- A scan that ends at once, and an address outside its buffer's first byte. -/
theorem wit_MemoryFrame : NoIrq (free [true, true, false]) ∧ (Instr.scanBus 0 0x700 1).internal = false ∧
    Memory.wf (free [true, true, false]).mem = true ∧
    (∃ t, exec (.scanBus 0 0x700 1) (free [true, true, false]) = .next t) ∧
    ∀ k, k < (1 : Half).toNat → cellAddr 0x700 1 ≠ cellAddr 0x700 k := by
  refine ⟨(ready_free _).2.2.1, rfl, by decide +kernel, ⟨_, rfl⟩, ?_⟩
  intro k hk
  obtain rfl : k = 0 := by
    have : (1 : Half).toNat = 1 := rfl
    omega
  decide

/-- A receive of two bytes that waits for the second; the first byte of the buffer after it is not stored to. -/
theorem wit_MemoryFrame_resumed :
    let q : Seq := ⟨1, .masterReceive 1 .seven 0x68 0x700 2 100, base.words,
      hwRxByte 0x700 2 100 1 ++ [.csr .cr1 Cr1.stop Cr1.stop], { t0 := some 68 }⟩
    let s := { hw .polling Xfer.reset { idleDev with cr1 := 0x0001, sr1 := 0x0040, sr2 := 0x0003, ph := .rxEnd } with
      seq := some q }
    NoIrq s ∧ Memory.wf s.mem = true ∧ s.seq = some q ∧ InProgress s ∧ (∃ t, step s = .next t) ∧
      notStored s q.cmd (cellAddr 0x701 0) := by
  refine ⟨fun _ h => (List.not_mem_nil h).elim, by decide +kernel, rfl, ?_, ⟨_, rfl⟩, ?_⟩
  · intro q h
    obtain rfl := Option.some.inj h
    refine ⟨fun _ => ⟨(hwReceive .seven 0x68 0x700 2 100).take 13, ?_⟩, fun h => ?_, fun _ _ _ h => ?_⟩
    · show hwReceive .seven 0x68 0x700 2 100 = _
      decide +kernel
    · cases h
    · cases h
  · intro k hk
    have : (2 : Half).toNat = 2 := rfl
    unfold cellAddr
    have : (0x700 : Word).toNat = 0x700 := rfl
    have : (0x701 : Word).toNat = 0x701 := rfl
    omega

/-- The hypotheses on the state that HwWrite and HwRead share. -/
def HwEntry (s : State) : Prop :=
  Initialized s [1] ∧ (row s 1).config.kind = .hw ∧ 1 < s.peri.length ∧ NoIrq s ∧ pending s 1 = false ∧
    (dev s 1).cr1 &&& 0xFBFF = 0x0001 ∧ (dev s 1).sr1 &&& 0xFFBF = 0 ∧ (dev s 1).sr2 = 0 ∧ (dev s 1).ph = .idle

/-- They hold just after INIT, and after a receive. -/
theorem hw_entry (es : List Sched) (c : Half) (n : Half) (h : NoIrq { hw .polling Xfer.reset idleDev with sched := es })
    (hc : c &&& 0xFBFF = 0x0001) :
    HwEntry { hw .polling Xfer.reset { Periph.reset with cr1 := c, snap := n } with sched := es } :=
  ⟨initialized_one (by show 1 < 2; decide) rfl rfl rfl, rfl, by show 1 < 2; decide, h, rfl, hc,
    by show (0 : Half) &&& 0xFFBF = 0; decide, rfl, rfl⟩

/-- A register write at 0x77; two bytes of a buffer to a 10-bit address; a register and a byte of a buffer at 0x7C. -/
theorem wit_HwWrite :
    let es1 := paced 1 (startPaces .seven ++ sendPaces (List.replicate [0x0E, 0x80].length 0 ++ List.replicate 0 1)) 3 ++ [.tick 1]
    let es2 := paced 1 (startPaces .ten ++ sendPaces (List.replicate ([] : List Byte).length 0 ++ List.replicate 2 1)) 3 ++ []
    let es3 := paced 1 (startPaces .seven ++ sendPaces (List.replicate [0x0E].length 0 ++ List.replicate 1 1)) 3 ++ []
    (HwEntry { hw .polling Xfer.reset idleDev with sched := es1 } ∧ addressInRange .seven 0x77 ∧
      ((0x77 : BitVec 10).toNat < 0x78 ∨ 0x7B < (0x77 : BitVec 10).toNat)) ∧
    (HwEntry { hw .polling Xfer.reset { idleDev with cr1 := 0x0001, snap := 0x0084 } with sched := es2 } ∧
      addressInRange .ten 0x3FF ∧ (2 : Half).toNat ≤ bufSize base 0x700 ∧
      (row (hw .polling Xfer.reset idleDev) 1).transferMode = .polling) ∧
    HwEntry { hw .polling Xfer.reset idleDev with sched := es3 } ∧ addressInRange .seven 0x7C ∧
      ((0x7C : BitVec 10).toNat < 0x78 ∨ 0x7B < (0x7C : BitVec 10).toNat) ∧ (1 : Half).toNat ≤ bufSize base 0x700 ∧
      (0x700 : Word) ≠ 0 ∧ (1 : Half) ≠ 0 := by
  refine ⟨⟨hw_entry _ 0x0401 0 ?_ (by decide), .inr (by decide), .inl (by decide)⟩,
    ⟨hw_entry _ 0x0001 0x0084 ?_ (by decide), .inl rfl, by decide +kernel, rfl⟩,
    hw_entry _ 0x0401 0 ?_ (by decide), .inr (by decide), .inr (by decide), by decide +kernel, by decide, by decide⟩ <;>
    (unfold NoIrq; decide +kernel)

/-- One byte received directly; two received at a 10-bit address; one byte of a register. -/
theorem wit_HwRead :
    let es1 := paced 1 ([(2, .startGen)] ++ [(3, .addrSend .ack)] ++ receivePaces (fun _ => 0x5A) 1) (receiveEnd 1) ++ [.tick 1]
    let es2 := paced 1 ((startPaces .ten ++ [(5, .startGen)]) ++ [(3, .addrSend .ack)] ++ receivePaces (fun _ => 0x5A) 2)
      (receiveEnd 2) ++ []
    let es3 := paced 1 ((startPaces .seven ++ (sendPaces [0] ++ [(3, .startGen)])) ++ [(3, .addrSend .ack)] ++
      receivePaces (fun _ => 0x5A) 1) (receiveEnd 1) ++ []
    (HwEntry { hw .polling Xfer.reset idleDev with sched := es1 } ∧ addressInRange .seven 0x7F ∧ (0x700 : Word) ≠ 0 ∧
      1 ≤ bufSize base 0x700 ∧ (row (hw .polling Xfer.reset idleDev) 1).transferMode = .polling) ∧
    (HwEntry { hw .polling Xfer.reset { idleDev with cr1 := 0x0001, snap := 0x0084 } with sched := es2 } ∧
      addressInRange .ten 0x2A5 ∧ 2 ≤ bufSize base 0x700) ∧
    HwEntry { hw .polling Xfer.reset idleDev with sched := es3 } ∧ addressInRange .seven 0x77 ∧
      ((0x77 : BitVec 10).toNat < 0x78 ∨ 0x7B < (0x77 : BitVec 10).toNat) := by
  refine ⟨⟨hw_entry _ 0x0401 0 ?_ (by decide), .inr (by decide), by decide, by decide +kernel, rfl⟩,
    ⟨hw_entry _ 0x0001 0x0084 ?_ (by decide), .inl rfl, by decide +kernel⟩, hw_entry _ 0x0401 0 ?_ (by decide), .inr (by decide), .inl (by decide)⟩ <;>
    (unfold NoIrq; decide +kernel)

/-- A scan on an instance that is not pending. -/
theorem wit_HwScanProbe_start :
    let s := hw .polling Xfer.reset idleDev
    NoFault s ∧ s.seq = none ∧ (Initialized s [1] ∧ (row s 1).config.kind = .hw ∧ 1 < s.peri.length ∧ NoIrq s) ∧
      pending s 1 = false ∧ (0x700 : Word) ≠ 0 ∧ (8 : Half) ≠ 0 :=
  ⟨rfl, rfl, ready_hw _ _ _, by decide +kernel, by decide, by decide⟩

/-- A scan in progress whose peripheral is idle. -/
def scanning (found : Half) (ops : List Op) (es : List Sched) : State :=
  { hw .polling Xfer.reset idleDev with
    sched := es, seq := some ⟨1, .scanBus 1 0x700 2, base.words, ops, { resp := { found := found } }⟩ }

/-- The end of the range; a full buffer; and a probe of 0x77, its schedule one of the five. -/
theorem wit_HwScanProbe :
    let s := scanning 1 (hwProbe 0x700 2 3 0x77) []
    s.mark = none ∧ 1 < nInst s ∧ 1 < s.peri.length ∧ (row s 1).config.kind = .hw ∧
      (scanning 1 [] []).seq = some ⟨1, .scanBus 1 0x700 2, base.words, [], { resp := { found := 1 } }⟩ ∧
      (scanning 2 (hwProbe 0x700 2 3 0x77) []).seq =
        some ⟨1, .scanBus 1 0x700 2, base.words, hwProbe 0x700 2 3 0x77 ++ [], { resp := { found := 2 } }⟩ ∧
      s.seq = some ⟨1, .scanBus 1 0x700 2, base.words, hwProbe 0x700 2 3 0x77 ++ [], { resp := { found := 1 } }⟩ ∧
      (1 : Half) ≠ 2 ∧ 0x08 ≤ (0x77 : BitVec 10).toNat ∧ (0x77 : BitVec 10).toNat ≤ 0x77 ∧
      (dev s 1).cr1 &&& 0xFBFF = 0x0001 ∧ (dev s 1).sr1 &&& 0xFFBF = 0 ∧ (dev s 1).sr2 = 0 ∧ (dev s 1).ph = .idle ∧
      (1 : Half).toNat < bufSize s 0x700 ∧ (1 : Half) ≠ 0xFFFF ∧ (3 : Word).toNat ≤ (3 : Word).toNat ∧
      (3 : Word).toNat < 2 ^ 31 := by decide +kernel

/-- What HwScanProbe asks of a scan of address 0x77 under the schedule `es`. -/
def ProbeEntry (es : List Sched) : Prop :=
  let s := scanning 1 (hwProbe 0x700 2 3 0x77) es
  NoFault s ∧ 1 < nInst s ∧ 1 < s.peri.length ∧ (row s 1).config.kind = .hw ∧
    s.seq = some ⟨1, .scanBus 1 0x700 2, base.words, hwProbe 0x700 2 3 0x77 ++ [], { resp := { found := 1 } }⟩ ∧
    (dev s 1).cr1 &&& 0xFBFF = 0x0001 ∧ (dev s 1).sr1 &&& 0xFFBF = 0 ∧ (dev s 1).sr2 = 0 ∧ (dev s 1).ph = .idle ∧ s.sched = es

theorem probeEntry (es : List Sched) : ProbeEntry es :=
  ⟨rfl, by show 1 < 2; decide, by show 1 < 2; decide, rfl, rfl, by show (0x0401 : Half) &&& 0xFBFF = 1; decide,
    by show (0 : Half) &&& 0xFFBF = 0; decide, rfl, rfl, rfl⟩

/-- The status and the count that the step of such a scan answers. -/
def probed (es : List Sched) : Option (List (Status × Half)) :=
  shows (fun s => (responses s).map fun r => (r.2.status, r.2.found)) (step (scanning 1 (hwProbe 0x700 2 3 0x77) es))

/-- Each of the seven schedules meets the hypotheses, and the probe ends as 44_hw_blocking.md R295 says: the address found;
NACK; no START in time; no answer in time; BERR at the first poll; BERR at the second; arbitration lost. -/
theorem wit_HwScanProbe_schedules :
    (ProbeEntry (paced 1 [(3, .startGen), (3, .addrSend .ack)] 6 ++ []) ∧
      probed (paced 1 [(3, .startGen), (3, .addrSend .ack)] 6 ++ []) = some [(.ok, 2)]) ∧
    (ProbeEntry (paced 1 [(3, .startGen), (3, .addrSend .nack)] 4 ++ []) ∧
      probed (paced 1 [(3, .startGen), (3, .addrSend .nack)] 4 ++ []) = some [(.ok, 1)]) ∧
    (ProbeEntry (List.replicate 5 .block ++ [.tick 3, .block, .block] ++ []) ∧
      probed (List.replicate 5 .block ++ [.tick 3, .block, .block] ++ []) = some [(.ok, 1)]) ∧
    (ProbeEntry (paced 1 [(3, .startGen)] 5 ++ [.tick 3, .block, .block] ++ []) ∧
      probed (paced 1 [(3, .startGen)] 5 ++ [.tick 3, .block, .block] ++ []) = some [(.ok, 1)]) ∧
    (ProbeEntry (paced 1 [(3, .berr)] 4 ++ []) ∧ probed (paced 1 [(3, .berr)] 4 ++ []) = some [(.busError, 1)]) ∧
    (ProbeEntry (paced 1 [(3, .startGen), (3, .addrSend .ack), (0, .berr)] 4 ++ []) ∧
      probed (paced 1 [(3, .startGen), (3, .addrSend .ack), (0, .berr)] 4 ++ []) = some [(.busError, 1)]) ∧
    ProbeEntry (paced 1 [(3, .startGen), (3, .addrSend .lost)] 3 ++ []) ∧
      probed (paced 1 [(3, .startGen), (3, .addrSend .lost)] 3 ++ []) = some [(.arbitrationLost, 1)] := by
  simp only [probeEntry, true_and]
  decide +kernel

/-- A poll of a probe and the end of a probe, in progress on a peripheral with SR1 = `sr1`. -/
def probing (op : Op) (scr : Scratch) (sr1 : Half) : State :=
  { hw .polling Xfer.reset { idleDev with sr1 := sr1 } with
    seq := some ⟨1, .scanBus 1 0x700 2, base.words, [op], scr⟩ }

/-- A poll after a poll that failed; an error; the flag; neither, at elapsed = tmo and at elapsed = tmo - 1, in a later
round and in the first. The end after a timeout and after BERR, ARLO and AF. -/
theorem wit_HwScanProbe_polls (t0 : Option Word) (c : Half) :
    let op : Op := .probePoll .addr 32
    let s := probing op { t0 := t0 } c
    (NoFault s ∧ 1 < nInst s ∧ 1 < s.peri.length ∧ isTransaction (.scanBus 1 0x700 2) = true ∧ s.sched = [] ∧
      (dev s 1).cr1.getLsbD 0 = true ∧ (dev s 1).cr1.getLsbD 15 = false ∧
      s.seq = some ⟨1, .scanBus 1 0x700 2, base.words, op :: [], { t0 := t0 }⟩ ∧ (dev s 1).sr1 = c ∧ s.ticks = 100) ∧
    ({ p := .timeout : Scratch }.p ≠ .ok ∧ { t0 := t0 : Scratch }.p = .ok) ∧
    (0x0400 : Half) &&& 0x0700 ≠ 0 ∧ ((0x0002 : Half) &&& 0x0700 = 0 ∧ (0x0002 : Half) &&& flagMask .addr ≠ 0) ∧
    ((0 : Half) &&& 0x0700 = 0 ∧ (0 : Half) &&& flagMask .addr = 0) ∧
    (32 : Word).toNat ≤ ((100 : Word) - (some (68 : Word)).getD 100).toNat ∧
    ¬ (32 : Word).toNat ≤ ((100 : Word) - (some (69 : Word)).getD 100).toNat ∧
    ¬ (32 : Word).toNat ≤ ((100 : Word) - (none : Option Word).getD 100).toNat ∧
    (probing (.probeEnd 0x700 0x77) { p := .timeout } c).seq =
      some ⟨1, .scanBus 1 0x700 2, base.words, .probeEnd 0x700 0x77 :: [], { p := .timeout }⟩ ∧
    (0x0700 : Half).getLsbD 8 = true ∧ ((0x0600 : Half).getLsbD 8 = false ∧ (0x0600 : Half).getLsbD 9 = true) ∧
    ((0x0400 : Half).getLsbD 8 = false ∧ (0x0400 : Half).getLsbD 9 = false) :=
  ⟨⟨rfl, by show 1 < 2; decide, by show 1 < 2; decide, rfl, rfl, by show (0x0401 : Half).getLsbD 0 = true; decide,
    by show (0x0401 : Half).getLsbD 15 = false; decide, rfl, rfl, rfl⟩, ⟨by decide, rfl⟩, by decide, by decide, by decide,
    by decide, by decide, by decide, rfl, by decide, by decide, by decide⟩

end Sys2Proof.Tests
end

section
/-! What is fixed at launch (10_state.md R21, R24, R31): the small moves of Laws/Moves.lean leave it alone, so every step
does. -/

namespace Sys2Proof.Machine

/-- A peripheral is written in its place: none is added or removed. -/
theorem Moves.peri_length {R : Nat → Prop} {s t : State} (h : Moves R s t) : t.peri.length = s.peri.length :=
  h.keep (P := fun u => u.peri.length = s.peri.length)
    (fun u v hp hu => by
      cases hp with
      | dev i p _ => rw [setDev_peri, List.length_set]; exact hu
      | _ => exact hu) rfl

/-- The parameter ranges read the parameters and N_INST alone. -/
theorem Moves.paramsOk {R : Nat → Prop} {s t : State} (h : Moves R s t) (hs : ParamsOk s) : ParamsOk t := by
  unfold ParamsOk PlatformReady at *
  rwa [h.par, h.nInst]

/-- Settles O10: a step from a state with the invariant is a sequence of small moves, and each leaves the parameters, the
configurations and the sizes alone. -/
theorem stepKeepsParameters : Obligations.StepKeepsParameters := by
  intro s t hinv hstep
  obtain ⟨hseq, -⟩ := hinv
  have hm : Moves anyRow s t := step_ok hseq t hstep
  exact ⟨hm.par, hm.configs, hm.bufs, hm.nInst, hm.peri_length, hm.paramsOk⟩

end Sys2Proof.Machine
end

section
/-! A step by the mark, the command in progress and the host's program (10_state.md R20, R23, 60_exceptions.md R401): an
equation for each case, which later proofs rewrite with instead of unfolding `step`. -/

namespace Sys2Proof.Machine

theorem step_of_mark {s : State} {m : Mark} (hm : s.mark = some m) : step s = markOutcome m := by
  rw [step, hm]

theorem step_of_noFault {s : State} (hs : NoFault s) : step s = unmarkedStep s := by
  rw [step, show s.mark = none from hs]

/-- The command in progress has the step: the host has no move (70_reset_and_hazards.md R470). -/
theorem step_of_inProgress {s : State} {q : Seq} (hs : NoFault s) (hq : s.seq = some q) : step s = resume q s := by
  rw [step_of_noFault hs, unmarkedStep, hq]

/-- With no command in progress the host moves in the state the other agents' turn leaves (20_memory.md R94). -/
theorem step_eq_hostTurn {s u : State} (hs : NoFault s) (hq : s.seq = none) (ht : turn none s = .next u) :
    step s = hostTurn u := by
  rw [step_of_noFault hs, unmarkedStep, hq, ht, andThen]

theorem hostTurn_of_nil {u : State} (hu : u.host = []) : hostTurn u = .next u := by
  rw [hostTurn, hu]

theorem hostTurn_of_cons {u : State} {a : HostAct} {as : List HostAct} (hu : u.host = a :: as) :
    hostTurn u = hostMove a { u with host := as } := by
  rw [hostTurn, hu]

theorem hostMove_of_decoded {w : Words} {i : Instr} (hw : decodeHost w = .ok i) (s : State) :
    hostMove (.command w) s = exec i { s with words := w } := by
  rw [hostMove, hw]

theorem hostMove_of_undecoded {w : Words} {r : Reject} (hw : decodeHost w = .error r) (s : State) :
    hostMove (.command w) s = .refused (.illegalCommand r) := by
  rw [hostMove, hw]

/-- The block's own choice ends the other agents' turn before any of them moves. -/
theorem turn_of_block {s : State} {es : List Sched} (hb : s.sched = .block :: es) (lent : Option (Nat × Word)) :
    turn lent s = .next { s with sched := es } := by
  rw [turn, hb, turnFrom]

/-- Settles O6, clause by clause from the equations above: a decoded command, a refused one, the block's choice, an empty
schedule, an idle host, a command in progress, and the two marks. -/
theorem stepRunsDecoded : Obligations.StepRunsDecoded := by
  refine ⟨?decoded, ?undecoded, ?block, ?quiet, ?idle, ?inProgress, ?fault, ?refused⟩
  case decoded =>
    intro s u w as i hs hq ht hu hw
    rw [step_eq_hostTurn hs hq ht, hostTurn_of_cons hu, hostMove_of_decoded hw]
  case undecoded =>
    intro s u w as r hs hq ht hu hw
    rw [step_eq_hostTurn hs hq ht, hostTurn_of_cons hu, hostMove_of_undecoded hw]
  case block => exact fun _ _ lent hb => turn_of_block hb lent
  case quiet => exact fun _ _ h => turn_quiet h
  case idle =>
    intro s u hs hq ht hu
    rw [step_eq_hostTurn hs hq ht, hostTurn_of_nil hu]
  case inProgress =>
    intro s q hs hq
    rw [step_of_inProgress hs hq, resume]
  case fault => exact fun _ _ hm => step_of_mark hm
  case refused => exact fun _ _ hm => step_of_mark hm

end Sys2Proof.Machine
end

section
/-! The frame of a host command over the Instance State Table: a command's small moves write its own row alone where no
handler has a turn (46_instance.md R369, 20_memory.md R94). -/

namespace Sys2Proof.Machine

/-- Settles O11: with no handler's turn the moves of `exec` write the rows of the command's own index alone, and no move
writes a configuration. -/
theorem ownRowAlone : Obligations.OwnRowAlone := by
  intro cmd s t hcmd hq hexec
  have hm : Moves (fun n => cmd.index = some n) s t :=
    exec_ok cmd _ s (.inr hq) (fun _ hn => hn) (fun hi => absurd hi (by simp [hcmd])) t hexec
  exact ⟨fun j hj => hm.row_other j hj, hm.configs⟩

end Sys2Proof.Machine
end

section
/-! The host's own accesses of its buffers (20_memory.md R81, R99): who borrows a buffer, and what a read and a write answer
once nobody does. -/

namespace Sys2Proof.Machine

/-- The transfer of row `j` is pending and holds the buffer (20_memory.md R99). -/
def HeldBy (s : State) (buf : Word) (j : Nat) : Prop :=
  j < nInst s ∧ pending s j = true ∧ (row s j).xfer.buf = buf

theorem xstate_pending_iff (x : XState) :
    x.pending = true ↔ x = .startSent ∨ x = .addressPhase ∨ x = .dataPhase := by
  cases x <;> decide

theorem heldBy_iff (s : State) (buf : Word) (j : Nat) :
    HeldBy s buf j ↔ j < nInst s ∧ (row s j).xfer.buf = buf ∧
      ((row s j).xfer.state = .startSent ∨ (row s j).xfer.state = .addressPhase ∨ (row s j).xfer.state = .dataPhase) := by
  rw [← xstate_pending_iff]
  unfold HeldBy pending
  tauto

/-- With no command being executed, only a pending transfer borrows. -/
theorem heldBy_of_borrower {s : State} {buf : Word} {j : Nat} (h : borrower none s buf = some j) : HeldBy s buf j := by
  unfold borrower at h
  split at h
  case h_1 i hfind =>
    obtain rfl := Option.some.inj h
    have hlt := List.mem_of_find?_eq_some hfind
    have hholds := List.find?_some hfind
    simp only [List.mem_range, Bool.and_eq_true, beq_iff_eq] at hlt hholds
    exact ⟨hlt, hholds⟩
  case h_2 => cases h

theorem borrower_none_iff (s : State) (buf : Word) : borrower none s buf = none ↔ ∀ j, ¬ HeldBy s buf j := by
  simp [borrower_eq_none, HeldBy]

/-- A buffer that a transfer holds is lent, to a transfer that holds it. -/
theorem exists_borrower {s : State} {buf : Word} (h : ∃ j, HeldBy s buf j) :
    ∃ j, HeldBy s buf j ∧ borrower none s buf = some j := by
  cases hb : borrower none s buf with
  | none => exact absurd h (not_exists.2 ((borrower_none_iff s buf).1 hb))
  | some j => exact ⟨j, heldBy_of_borrower hb, rfl⟩

/-- The buffer of the command being executed is lent for its duration (20_memory.md R99). -/
theorem exists_borrower_of_lent (s : State) (i : Nat) (buf : Word) : ∃ j, borrower (some (i, buf)) s buf = some j := by
  refine Option.ne_none_iff_exists'.1 fun h => ?_
  exact ((borrower_eq_none _ s buf).1 h).2 i rfl

/-- The null handle and a handle nobody declared have no bytes (20_memory.md R81). -/
theorem bufSize_undeclared {s : State} {buf : Word} (h : buf = 0 ∨ ∀ n, (buf, n) ∉ s.bufs) : bufSize s buf = 0 := by
  unfold bufSize
  split_ifs with h0
  · rfl
  · have hnone : s.bufs.find? (fun d => d.1 == buf) = none := by
      refine List.find?_eq_none.2 fun d hd heq => h.resolve_left h0 d.2 ?_
      rwa [← eq_of_beq heq]
    rw [hnone]

theorem memByte_memPut_of_ne (m : List Host.Cell) {a b : Nat} (v : Byte) (h : b ≠ a) :
    memByte (memPut m a v) b = memByte m b := by
  rw [memByte, memGet_memPut_other m a b v h, memByte]

/-- A write through one handle is seen at its own byte, and at no other byte of any handle. -/
theorem memByte_memPut (m : List Host.Cell) (buf b : Word) {k j : Nat} (v : Byte) (hk : k < 2 ^ 32) (hj : j < 2 ^ 32) :
    memByte (memPut m (cellAddr buf k) v) (cellAddr b j) =
      if b = buf ∧ j = k then v else memByte m (cellAddr b j) := by
  split_ifs with h
  · rw [(cellAddr_inj hj hk).2 h, memByte, memGet_memPut_same, Option.getD_some]
  · exact memByte_memPut_of_ne m v (mt (cellAddr_inj hj hk).1 h)

/-- The host's access `a` is a touch of a byte, to read it (`v = none`) or to write it. -/
def Touches (a : HostAct) (buf : Word) (k : Half) (v : Option Byte) : Prop :=
  a = match v with
    | none => .readBuf buf k
    | some b => .writeBuf buf k b

theorem hostMove_touch {a : HostAct} {buf : Word} {k : Half} {v : Option Byte} (h : Touches a buf k v) (s : State) :
    hostMove a s = hostTouch none buf k v s := by
  cases v <;> (cases h; rfl)

theorem nestedAct_touch {a : HostAct} {buf : Word} {k : Half} {v : Option Byte} (h : Touches a buf k v)
    (lent : Option (Nat × Word)) (s : State) : nestedAct lent a s = hostTouch lent buf k v s := by
  cases v <;> (cases h; rfl)

/-- A step at which the host touches a buffer, the other agents still. -/
theorem step_touch {s : State} {a : HostAct} {rest : List HostAct} {buf : Word} {k : Half} {v : Option Byte}
    (hm : NoFault s) (hseq : s.seq = none) (hs : s.sched = []) (hh : s.host = a :: rest) (ha : Touches a buf k v) :
    step s = hostTouch none buf k v { s with host := rest } := by
  rw [step_eq_hostTurn hm hseq (turn_quiet hs), hostTurn_of_cons hh, hostMove_touch ha]

/-- A callback's touch of the buffer of the command being executed (20_memory.md R99, 45_hw_interrupt.md R335). -/
theorem nestedActs_race {a : HostAct} {buf : Word} {k : Half} {v : Option Byte} (h : Touches a buf k v) (i : Nat)
    (as : List HostAct) (s : State) :
    ∃ j, nestedActs (some (i, buf)) (a :: as) s = .fault (.bufferRace ⟨none, j, 99⟩ buf) := by
  obtain ⟨j, hj⟩ := exists_borrower_of_lent s i buf
  exact ⟨j, by rw [nestedActs, nestedAct_touch h, hostTouch_lent _ _ _ _ _ _ hj, andThen_fault]⟩

theorem lentBy_eq {cmd : Instr} {i n : Nat} {buf : Word} (hi : cmd.index = some i) (hb : bufferOf cmd = some (buf, n)) :
    lentBy cmd = some (i, buf) := by
  simp [lentBy, hi, hb]

/-- Settles O56: a borrowed buffer is a race, whatever the index; else the index decides, and an access in bounds is the
one byte's. -/
theorem hostBuffers : Obligations.HostBuffers := by
  refine ⟨?step, ?callback, fun s buf h => bufSize_undeclared h⟩
  case step =>
    intro s buf k v w rest hm hseq hs hh lent
    have hlent : ∀ j, lent j ↔ HeldBy s buf j := fun j => (heldBy_iff s buf j).symm
    have htouch : step s = hostTouch none buf k (if w then some v else none) { s with host := rest } :=
      step_touch hm hseq hs hh (by cases w <;> rfl)
    have hfree (hn : ∀ j, ¬ lent j) : borrower none { s with host := rest } buf = none :=
      (borrower_none_iff s buf).2 fun j hj => hn j ((hlent j).2 hj)
    refine ⟨?race, ?bounds, ?read, ?write⟩
    case race =>
      rintro ⟨j, hj⟩
      obtain ⟨i, hi, hb⟩ := exists_borrower ⟨j, (hlent j).1 hj⟩
      exact ⟨i, (hlent i).2 hi, by rw [htouch]; exact hostTouch_lent _ _ _ _ _ _ hb⟩
    case bounds =>
      intro hn hk
      rw [htouch, hostTouch_free _ _ _ _ _ (hfree hn)]
      exact if_neg (Nat.not_lt.2 hk)
    case read =>
      rintro hn hk rfl
      rw [htouch, hostTouch_free _ _ _ _ _ (hfree hn)]
      exact if_pos hk
    case write =>
      rintro hn hk rfl hwf
      refine ⟨{ s with host := rest, mem := memPut s.mem (cellAddr buf k.toNat) v }, ?_, rfl, wf_memPut _ _ _ hwf, ?_⟩
      · rw [htouch, hostTouch_free _ _ _ _ _ (hfree hn)]
        exact if_pos hk
      · exact fun b j hj => memByte_memPut _ _ _ _ (by omega) hj
  case callback =>
    rintro s cmd i n buf k a v as hi hb ha
    rw [lentBy_eq hi hb]
    obtain rfl | rfl := ha
    · exact nestedActs_race (v := none) rfl i as s
    · exact nestedActs_race (v := some v) rfl i as s

end Sys2Proof.Machine
end

section
/-! What a micro-operation keeps and what it leaves behind. A property of the state that depends on no peripheral, clock,
trace or draw is kept by every operation but for the bytes the operation stores; beside it stand the count of a scan and
where an operation may wait (44_hw_blocking.md R280, R295, log entry 1). -/

namespace Sys2Proof.Machine

/-- The next state of an outcome, if there is one, has the property. -/
def Answers (P : State → Prop) (o : Out) : Prop := ∀ t, o = .next t → P t

/-- A move that keeps a property of the state. -/
def KeptBy (P : State → Prop) (y : State → Out) : Prop := ∀ s, P s → Answers P (y s)

/-- `P` survives every change a micro-operation makes but a store at one of the addresses `F`: the schedule, the command in
progress and the parameters are for no operation to change. -/
structure Steady (F : Set Nat) (P : State → Prop) : Prop where
  setRow : ∀ {s : State} (i : Nat) {r : Inst}, r.config = (row s i).config → P s → P (Machine.setRow s i r)
  change : ∀ {s : State} {pe : List Periph} {w : Words} {k l : Word} {tr : List Event} {pl : List PinCall}
    {hs : List HostAct} {e : Env}, P s →
    P { s with peri := pe, words := w, ticks := k, lastNow := l, trace := tr, pinLog := pl, host := hs, env := e }
  store : ∀ {s : State} {a : Nat} (v : Byte), a ∉ F → P s → P { s with mem := memPut s.mem a v }

namespace Answers

variable {P : State → Prop}

theorem next {s : State} (h : P s) : Answers P (.next s) := fun _ e => by cases e; exact h

theorem fault (f : Fault) : Answers P (.fault f) := fun _ e => by cases e

theorem refused (r : Refusal) : Answers P (.refused r) := fun _ e => by cases e

theorem andThen {Q : State → Prop} {o : Out} {k : State → Out} (ho : Answers P o) (hk : ∀ s, P s → Answers Q (k s)) :
    Answers Q (Machine.andThen o k) := fun t h => by
  obtain ⟨s, hs, ht⟩ := andThen_eq_next h
  exact hk s (ho s hs) t ht

end Answers

theorem keptBy_noTurn (P : State → Prop) : KeptBy P noTurn := fun _ h => .next h

/-! ## The named operations on the state -/

namespace Steady

variable {F : Set Nat} {P : State → Prop} (hP : Steady F P) {s : State}
include hP

/-- A CSR access: a peripheral and the trace. -/
theorem access {i : Nat} {p : Periph} {e : Event} (hs : P s) : P (emit e (setDev s i p)) := hP.change (s := s) hs

theorem writeLine (i : Nat) (l : Line) (v : Bool) (hs : P s) : P (Machine.writeLine i l v s) :=
  hP.change (hP.setRow i (config_setDrive _ l v) hs)

theorem lineOp (i : Nat) (op : LineOp) (hs : P s) : P (Machine.lineOp i op s) := by
  cases op with
  | pin l v => exact hP.writeLine i l v hs
  | delay => exact hP.change hs

theorem readLine (i : Nat) (l : Line) (hs : P s) : P (Machine.readLine i l s).2 := by
  unfold Machine.readLine drawSample
  split <;> exact hP.change (s := s) hs

theorem configurePin (port pin : Nat) (m : PinMode) (hs : P s) : P (Machine.configurePin port pin m s).2 := by
  unfold Machine.configurePin drawPinResult
  split <;> exact hP.change (s := s) hs

theorem readReg (i : Nat) (r : Reg) (hs : P s) : P (Machine.readReg i r s).2 := by
  cases r with
  | sr1 | sr2 | dr => exact hP.access hs
  | _ => exact hP.change hs

theorem finish (c : Ctx) (st : Status) (r : Response) (hs : P s) : P (Machine.finish c st r s) :=
  hP.change (hP.setRow c.inst rfl hs)

theorem memWrite {site : Site} {buf : Word} {k : Nat} {v : Byte} {t : State} (hF : cellAddr buf k ∉ F) (hs : P s)
    (h : Machine.memWrite site buf k v s = .ok t) : P t := by
  rw [(memWrite_ok h).2]
  exact hP.store v hF hs

end Steady

/-! ## Answers of operations -/

/-- What an operation's answer holds where a scan had found `n` addresses: the property `P` of the state, what `N` says of
the count where the command goes on, and `w` where it waits. -/
def OpRes.Holds (P : State → Prop) (n : Half) (N : Half → Prop) (w : Prop) : OpRes → Prop
  | .go scr s => P s ∧ N scr.resp.found
  | .done _ _ s => P s
  | .wait scr s => P s ∧ scr.resp.found = n ∧ w
  | .fault _ => True
  | .refused _ => True

/-- An operation that can answer that it waits. -/
def mayWait : Op → Bool
  | .waitNotBusy _ => true
  | .waitFlag _ _ => true
  | .probePoll _ _ => true
  | .apply _ _ => true
  | _ => false

/-- An operation that can record an address a scan has found. -/
def recordsFound : Op → Bool
  | .scanRecord _ _ => true
  | .probeEnd _ _ => true
  | _ => false

/-- The count `x` with which a command goes on after an operation that found `n` (42_transactions.md R211). -/
def CountAfter (op : Op) (n x : Half) : Prop :=
  match op with
  | .scanBreak max => x = n ∧ n ≠ max
  | .scanRecord _ _ => x = n ∨ x.toNat = n.toNat + 1
  | .probeEnd _ _ => x = n ∨ x.toNat = n.toNat + 1
  | _ => x = n

/-- The operation stores to no address of `F`, a scan having found `n` (20_memory.md R81, 42_transactions.md R211). -/
def StoresOutside (F : Set Nat) (n : Half) : Op → Prop
  | .memWrite buf k => cellAddr buf k ∉ F
  | .scanRecord buf _ => cellAddr buf n.toNat ∉ F
  | .probeEnd buf _ => cellAddr buf n.toNat ∉ F
  | .apply _ pol => pol.stores = true → F = ∅
  | _ => True

/-- An entry of the table stores only where the value does; an entry the table lacks refuses. -/
theorem stores_of_entry {pol : Policy} {k : Nat} (h : (pol.jumps.getD k .refuse).stores = true) : pol.stores = true := by
  by_cases hk : k < pol.jumps.length
  · rw [List.getD_eq_getElem _ _ hk] at h
    simp only [Policy.stores, Bool.or_eq_true, List.any_eq_true]
    exact .inr ⟨_, List.getElem_mem hk, h⟩
  · rw [List.getD_eq_default _ _ (Nat.le_of_not_lt hk)] at h
    cases h

section operations

variable {F : Set Nat} {P : State → Prop} {y0 y : State → Out} {s : State} {n : Half} {N : Half → Prop} {w : Prop}

theorem thenOp_holds (hy : KeptBy P y) (hs : P s) {k : State → OpRes} (hk : ∀ u, P u → (k u).Holds P n N w) :
    (thenOp (y s) k).Holds P n N w := by
  cases hu : y s with
  | next u => exact hk u (hy s hs u hu)
  | fault f => trivial
  | refused r => trivial

variable (hP : Steady F P)
include hP

theorem runLines_answers (hy : KeptBy P y) (i : Nat) (ops : List LineOp) (hs : P s) : Answers P (runLines y i ops s) := by
  induction ops generalizing s with
  | nil => exact .next hs
  | cons op ops ih => exact .andThen (hy s hs) fun u hu => ih (hP.lineOp i op hu)

theorem beginWait_holds (hy : KeptBy P y) (c : Ctx) (scr : Scratch) (hs : P s) {k : Word → State → OpRes}
    (hk : c.atomic = false → ∀ t u, P u → (k t u).Holds P n N w) : (beginWait y c scr s k).Holds P n N w := by
  unfold beginWait
  split_ifs with ha
  · trivial
  · have hk := hk (Bool.eq_false_of_not_eq_true ha)
    cases scr.t0 with
    | some t => exact hk t s hs
    | none => exact thenOp_holds hy hs fun u hu => hk _ _ (hP.change hu)

theorem checkTime_holds (hy : KeptBy P y) (t0 tmo : Word) {scr : Scratch} (hn : scr.resp.found = n) (hw : w) (hs : P s)
    {k : State → OpRes} (hk : ∀ u, P u → (k u).Holds P n N w) : (checkTime y t0 tmo scr s k).Holds P n N w := by
  refine thenOp_holds hy hs fun u hu => ?_
  have hnow : P (now u).2 := hP.change hu
  simp only []
  split_ifs
  · exact hk _ hnow
  · exact ⟨hnow, hn, hw⟩

theorem pollRound_holds (h0 : KeptBy P y0) (hy : KeptBy P y) (c : Ctx) (f : Flag) (tmo : Word) {scr : Scratch}
    (hn : scr.resp.found = n) (hw : c.atomic = false → w) (hs : P s) {k : PollResult → Scratch → State → OpRes}
    (hk : ∀ p r u, r.resp.found = n → P u → (k p r u).Holds P n N w) : (pollRound y0 y c f tmo scr s k).Holds P n N w := by
  refine beginWait_holds hP h0 c scr hs fun ha t u hu => thenOp_holds hy hu fun v hv => ?_
  have hread : P (readSR1 c.inst v).2 := hP.access hv
  simp only []
  split_ifs
  · exact hk _ _ _ hn hread
  · exact hk _ _ _ hn hread
  · exact checkTime_holds hP hy _ _ hn (hw ha) hread fun x hx => hk _ _ _ hn hx

theorem stopAndReturn_holds (hy : KeptBy P y) (c : Ctx) (st : Status) (scr : Scratch) (hs : P s) :
    (stopAndReturn y c st scr s).Holds P n N w :=
  thenOp_holds hy hs fun _ hu => hP.access hu

theorem waitFlagEnd_holds (hy : KeptBy P y) (c : Ctx) (p : PollResult) {scr : Scratch} (hN : N scr.resp.found)
    (hs : P s) : (waitFlagEnd y c p scr s).Holds P n N w := by
  cases p with
  | ok => exact ⟨hs, hN⟩
  | timeout => exact stopAndReturn_holds hP hy c _ scr hs
  | err e =>
    refine thenOp_holds hy hs fun u hu => ?_
    have hclear : P (clearErrors c.inst e u) := hP.access hu
    simp only []
    split_ifs
    · exact hclear
    · exact stopAndReturn_holds hP hy c _ scr hclear

/-- One more address found: the byte at the count is stored, and the count goes up by one. -/
theorem recordFound_holds (c : Ctx) (buf : Word) (a : Byte) {scr : Scratch} (hF : cellAddr buf scr.resp.found.toNat ∉ F)
    (hN : ∀ x : Half, x.toNat = scr.resp.found.toNat + 1 → N x) (hs : P s) :
    (recordFound c buf a scr s).Holds P n N w := by
  unfold recordFound
  cases hm : memWrite (siteOf c 81) buf scr.resp.found.toNat a s with
  | error f => trivial
  | ok u =>
    simp only [succ16]
    split_ifs with hmax
    · trivial
    · refine ⟨hP.memWrite hF hs hm, hN _ ?_⟩
      have hlt : scr.resp.found.toNat ≠ 0xFFFF := fun h => hmax (BitVec.eq_of_toNat_eq h)
      bv_omega

theorem probeEnd_holds (h0 : KeptBy P y0) (hy : KeptBy P y) (c : Ctx) (buf : Word) (a : Byte) {scr : Scratch}
    (hF : cellAddr buf scr.resp.found.toNat ∉ F) (hN : N scr.resp.found)
    (hN' : ∀ x : Half, x.toNat = scr.resp.found.toNat + 1 → N x) (hs : P s) :
    (probeEnd y0 y c buf a scr s).Holds P n N w := by
  unfold probeEnd
  cases scr.p with
  | ok =>
    exact thenOp_holds h0 hs fun u hu => thenOp_holds hy (hP.access hu) fun u hu => thenOp_holds hy (hP.access hu) fun u hu =>
      thenOp_holds hy (hP.access hu) fun u hu => recordFound_holds hP c buf a hF hN' hu
  | timeout => exact thenOp_holds h0 hs fun u hu => ⟨hP.access hu, hN⟩
  | err e =>
    refine thenOp_holds h0 hs fun u hu => ?_
    have hclear : P (clearErrors c.inst e u) := hP.access hu
    simp only []
    split
    · exact hclear
    · exact stopAndReturn_holds hP hy c _ _ hclear
    · exact thenOp_holds hy hclear fun v hv => ⟨hP.access hv, hN⟩

theorem asyncClaim_holds (c : Ctx) (buf : Word) (len : Half) (a : BitVec 10) (d : Dir) {scr : Scratch}
    (hN : N scr.resp.found) (hs : P s) : (asyncClaim c buf len a d scr s).Holds P n N w := by
  have hread : P (readSR2 c.inst s).2 := hP.access hs
  unfold asyncClaim
  split_ifs
  · exact hs
  · simp only []
    split_ifs
    · exact hread
    · exact ⟨hP.setRow c.inst rfl hread, hN⟩

theorem shutDown_holds (h0 : KeptBy P y0) (hy : KeptBy P y) (c : Ctx) {scr : Scratch} (hN : N scr.resp.found) (hs : P s) :
    (shutDown y0 y c scr s).Holds P n N w := by
  refine thenOp_holds h0 (hP.setRow c.inst ?_ hs) fun u hu => ?_
  · rfl
  · iterate 3 refine thenOp_holds hy (hP.access hu) fun u hu => ?_
    exact ⟨hP.access hu, hN⟩

/-! ## The programs of the OPEN parameters (00_scope.md R8) -/

theorem policyAct_holds (c : Ctx) (p : OpenParam) (a : PolicyAct) {scr : Scratch} (hn : scr.resp.found = n)
    (hF : ∀ buf idx v, a = .memWrite buf idx v → F = ∅) (hs : P s) {k : Scratch → State → OpRes}
    (hk : ∀ r u, r.resp.found = n → P u → (k r u).Holds P n N w) : (policyAct c p a scr s k).Holds P n N w := by
  cases a with
  | set x e => exact hk _ _ hn hs
  | pin l v => exact hk _ _ hn (hP.writeLine _ l v hs)
  | delay us => exact hk _ _ hn (hP.change hs)
  | sample x l => exact hk _ _ hn (hP.readLine _ l hs)
  | enableClock l => exact hk _ _ hn (hP.change hs)
  | configurePin x l mode => exact hk _ _ hn (hP.configurePin _ _ mode hs)
  | write f =>
    refine hk _ _ hn ?_
    split_ifs
    · exact hP.access hs
    · exact hs
  | read x r => exact hk _ _ hn (hP.readReg _ r hs)
  | now x => exact hk _ _ hn (hP.change hs)
  | memRead x buf idx =>
    simp only [policyAct]
    split
    · exact hk _ _ hn hs
    · trivial
  | memWrite buf idx v =>
    simp only [policyAct]
    split
    next u hu => exact hk _ _ hn (hP.memWrite (by simp [hF _ _ _ rfl]) hs hu)
    next => trivial
  | store a => exact hk _ _ hn (hP.setRow _ (config_rowAct _ a _) hs)

theorem runProg_holds (h0 : KeptBy P y0) (hy : KeptBy P y) (c : Ctx) (p : OpenParam) (q : PolicyProg) {scr : Scratch}
    (hn : scr.resp.found = n) (hN : N n) (hw : c.atomic = false → w) (hF : q.stores = true → F = ∅) (hs : P s) :
    (runProg y c p q y0 scr s).Holds P n N w := by
  induction q generalizing y0 scr s with
  | refuse => trivial
  | ret st => exact hs
  | rest => exact ⟨hs, hn ▸ hN⟩
  | act a next ih =>
    have hact : ∀ buf idx v, a = .memWrite buf idx v → F = ∅ := fun buf idx v e => hF (by rw [e]; rfl)
    have hnext : next.stores = true → F = ∅ := fun h => hF (by cases a <;> simp [PolicyProg.stores, h])
    simp only [runProg]
    split_ifs
    · exact thenOp_holds h0 hs fun u hu =>
        policyAct_holds hP c p a (scr := { scr with acted := true }) hn hact hu fun r v hr hv => ih hy hr hnext hv
    · exact policyAct_holds hP c p a hn hact hs fun r v hr hv => ih h0 hr hnext hv
  | test b yes no ihYes ihNo =>
    simp only [PolicyProg.stores, Bool.or_eq_true] at hF
    simp only [runProg]
    split_ifs
    · exact ihYes h0 hn (fun h => hF (.inl h)) hs
    · exact ihNo h0 hn (fun h => hF (.inr h)) hs
  | jump k =>
    simp only [runProg]
    split_ifs with ha
    · trivial
    · exact ⟨hs, hn, hw (Bool.eq_false_of_not_eq_true ha)⟩

theorem applyPolicy_holds (h0 : KeptBy P y0) (hy : KeptBy P y) (c : Ctx) (p : OpenParam) (pol : Policy) {scr : Scratch}
    (hn : scr.resp.found = n) (hN : N n) (hw : c.atomic = false → w) (hF : pol.stores = true → F = ∅) (hs : P s) :
    (applyPolicy y0 y c p pol scr s).Holds P n N w := by
  unfold applyPolicy
  cases scr.next with
  | none => exact runProg_holds hP h0 hy c p _ hn hN hw (fun h => hF (by simp [Policy.stores, h])) hs
  | some k =>
    exact thenOp_holds h0 hs fun u hu =>
      runProg_holds hP (keptBy_noTurn P) hy c p _ hn hN hw (fun h => hF (stores_of_entry h)) hu

/-! ## Every operation -/

/-- Everything an operation that stores outside `F` can answer. -/
theorem opStep_holds (h0 : KeptBy P y0) (hy : KeptBy P y) (c : Ctx) (op : Op) (scr : Scratch)
    (hF : StoresOutside F scr.resp.found op) (hs : P s) :
    (opStep y0 y c op scr s).Holds P scr.resp.found (CountAfter op scr.resp.found)
      (mayWait op = true ∧ c.atomic = false) := by
  cases op with
  | line l => exact thenOp_holds h0 hs fun u hu => ⟨hP.lineOp _ l hu, rfl⟩
  | pinBit k => exact thenOp_holds h0 hs fun u hu => ⟨hP.writeLine _ _ _ hu, rfl⟩
  | sampleBit k => exact thenOp_holds h0 hs fun u hu => ⟨hP.readLine _ _ hu, rfl⟩
  | sampleAck => exact thenOp_holds h0 hs fun u hu => ⟨hP.readLine _ _ hu, rfl⟩
  | needAck =>
    simp only [opStep]
    split_ifs
    · exact ⟨hs, rfl⟩
    · exact thenOp_holds (y := runLines y c.inst stopLines)
        (fun u hu => runLines_answers hP hy c.inst stopLines hu) hs fun u hu => hu
  | swBusy =>
    refine thenOp_holds h0 hs fun u hu => thenOp_holds hy (hP.readLine _ _ hu) fun v hv => ?_
    simp only []
    split_ifs
    · exact hP.readLine _ _ hv
    · exact ⟨hP.readLine _ _ hv, rfl⟩
  | byte b => exact ⟨hs, rfl⟩
  | ackToFlag => exact ⟨hs, rfl⟩
  | byteToResponse => exact ⟨hs, rfl⟩
  | memRead buf k =>
    refine thenOp_holds h0 hs fun u hu => ?_
    cases memRead (siteOf c 81) buf k u with
    | ok b => exact ⟨hu, rfl⟩
    | error f => trivial
  | memWrite buf k =>
    refine thenOp_holds h0 hs fun u hu => ?_
    cases hm : memWrite (siteOf c 81) buf k scr.byte u with
    | ok v => exact ⟨hP.memWrite hF hu hm, rfl⟩
    | error f => trivial
  | scanBreak max =>
    simp only [opStep]
    split_ifs with hmax
    · exact hs
    · exact ⟨hs, rfl, hmax⟩
  | scanRecord buf a =>
    simp only [opStep]
    split_ifs
    · exact thenOp_holds h0 hs fun u hu => recordFound_holds hP c buf a hF (fun _ => .inr) hu
    · exact ⟨hs, .inl rfl⟩
  | waitNotBusy tmo =>
    refine beginWait_holds hP h0 c scr hs fun ha t u hu => thenOp_holds hy hu fun v hv => ?_
    have hread : P (readSR2 c.inst v).2 := hP.access hv
    simp only []
    split_ifs
    · exact checkTime_holds hP hy _ _ (scr := { scr with t0 := none }) rfl ⟨rfl, ha⟩ hread fun _ hx => hx
    · exact ⟨hread, rfl⟩
  | waitFlag f tmo =>
    exact pollRound_holds hP h0 hy c f tmo rfl (fun ha => ⟨rfl, ha⟩) hs fun p r u hr hu => waitFlagEnd_holds hP hy c p hr hu
  | probePoll f tmo =>
    simp only [opStep]
    cases scr.p with
    | ok => exact pollRound_holds hP h0 hy c f tmo rfl (fun ha => ⟨rfl, ha⟩) hs fun p r u hr hu => ⟨hu, hr⟩
    | timeout => exact ⟨hs, rfl⟩
    | err e => exact ⟨hs, rfl⟩
  | probeDR b =>
    simp only [opStep]
    cases scr.p with
    | ok => exact thenOp_holds h0 hs fun u hu => ⟨hP.access hu, rfl⟩
    | timeout => exact ⟨hs, rfl⟩
    | err e => exact ⟨hs, rfl⟩
  | probeEnd buf a => exact probeEnd_holds hP h0 hy c buf a hF (.inl rfl) (fun _ => .inr) hs
  | csr r m v => exact thenOp_holds h0 hs fun u hu => ⟨hP.access hu, rfl⟩
  | writeDR => exact thenOp_holds h0 hs fun u hu => ⟨hP.access hu, rfl⟩
  | readSR1 => exact thenOp_holds h0 hs fun u hu => ⟨hP.access hu, rfl⟩
  | readSR2 => exact thenOp_holds h0 hs fun u hu => ⟨hP.access hu, rfl⟩
  | readDR => exact thenOp_holds h0 hs fun u hu => ⟨hP.access hu, rfl⟩
  | asyncClaim buf len a d => exact thenOp_holds h0 hs fun u hu => asyncClaim_holds hP c buf len a d rfl hu
  | enableClock port => exact thenOp_holds h0 hs fun u hu => ⟨hP.change hu, rfl⟩
  | configPin port pin mode =>
    refine thenOp_holds h0 hs fun u hu => ?_
    simp only []
    split_ifs
    · exact ⟨hP.configurePin _ _ mode hu, rfl⟩
    · exact hP.configurePin _ _ mode hu
  | setNvic v => exact ⟨hP.setRow _ rfl hs, rfl⟩
  | initRow => exact ⟨hP.setRow _ rfl hs, rfl⟩
  | resetRow => exact ⟨hP.setRow _ rfl hs, rfl⟩
  | setMode m => exact ⟨hP.setRow _ rfl hs, rfl⟩
  | abandon =>
    simp only [opStep]
    split_ifs
    · exact ⟨hP.setRow _ rfl hs, rfl⟩
    · exact ⟨hs, rfl⟩
  | shutDown =>
    simp only [opStep]
    split_ifs
    · exact shutDown_holds hP h0 hy c rfl hs
    · exact ⟨hs, rfl⟩
  | apply p pol => exact applyPolicy_holds hP h0 hy c p pol rfl rfl (fun ha => ⟨rfl, ha⟩) hF hs

end operations

end Sys2Proof.Machine
end

section
/-! A command's program, what it may store and where it may wait: what is asked of a list of operations, and what running it
then answers (42_transactions.md R211, log entry 1). -/

namespace Sys2Proof.Machine

/-- The operations, a scan having found `n` addresses, store outside `F` whatever they read, and the count fits `W` wherever
they may wait. -/
def Fits (F : Set Nat) (W : Half → Prop) : List Op → Half → Prop
  | [], _ => True
  | op :: ops, n => StoresOutside F n op ∧ (mayWait op = true → W n) ∧ ∀ x, CountAfter op n x → Fits F W ops x

/-- The state `t` in which the command waits with some of `ops` left: `P` holds of it but for the command in progress, and
the count fits `W`. -/
def Waiting (P : State → Prop) (W : Half → Prop) (c : Ctx) (ops : List Op) (t : State) : Prop :=
  c.atomic = false ∧ ∃ u op rest scr, P u ∧ W scr.resp.found ∧ mayWait op = true ∧ op :: rest <:+ ops ∧
    t = { u with seq := some ⟨c.inst, c.cmd, c.words, op :: rest, scr⟩ }

/-- A program that fits returns, or it waits with some of its operations left. -/
theorem run_answers {F : Set Nat} {P : State → Prop} {W : Half → Prop} (hP : Steady F P) {y0 y : State → Out}
    (h0 : KeptBy P y0) (hy : KeptBy P y) (c : Ctx) {ops : List Op} {scr : Scratch} (hf : Fits F W ops scr.resp.found)
    {s : State} (hs : P s) : Answers (fun t => P t ∨ Waiting P W c ops t) (run y0 y c ops scr s) := by
  induction ops generalizing y0 scr s with
  | nil => exact .next (.inl (hP.finish c _ _ hs))
  | cons op ops ih =>
    obtain ⟨hstore, hwait, hnext⟩ := hf
    have hstep := opStep_holds hP h0 hy c op scr hstore hs
    simp only [run]
    revert hstep
    cases opStep y0 y c op scr s with
    | go scr' u =>
      rintro ⟨hu, hcount⟩ t ht
      have hturn : KeptBy P (if makesNoStep op scr' then y0 else y) := by split_ifs <;> assumption
      refine (ih hturn (hnext _ hcount) hu t ht).imp_right ?_
      rintro ⟨ha, v, o, rest, r, hv, hW, ho, hsuff, hteq⟩
      exact ⟨ha, v, o, rest, r, hv, hW, ho, hsuff.trans (List.suffix_cons op ops), hteq⟩
    | done st scr' u => exact fun hu => .next (.inl (hP.finish c _ _ hu))
    | wait scr' u =>
      rintro ⟨hu, hcount, hmay, ha⟩
      exact .next (.inr ⟨ha, u, op, ops, scr', hu, hcount ▸ hwait hmay, hmay, List.suffix_rfl, rfl⟩)
    | fault f => exact fun _ => .fault f
    | refused r => exact fun _ => .refused r

/-! ## Which operations fit -/

theorem countAfter_eq {op : Op} (h : recordsFound op = false) {n x : Half} (hx : CountAfter op n x) : x = n := by
  cases op <;> first
    | exact hx
    | exact hx.1
    | cases h

/-- Operations that record no address and store outside `F`, before others. -/
theorem fits_append {F : Set Nat} {W : Half → Prop} {ops rest : List Op} {n : Half}
    (h : ∀ op ∈ ops, recordsFound op = false ∧ StoresOutside F n op) (hW : (∃ op ∈ ops, mayWait op = true) → W n)
    (hr : Fits F W rest n) : Fits F W (ops ++ rest) n := by
  induction ops with
  | nil => exact hr
  | cons op ops ih =>
    obtain ⟨hop, hops⟩ := List.forall_mem_cons.1 h
    refine ⟨hop.2, fun hm => hW ⟨op, List.mem_cons_self, hm⟩, fun x hx => ?_⟩
    rw [countAfter_eq hop.1 hx]
    exact ih hops fun ⟨o, ho, hm⟩ => hW ⟨o, List.mem_cons_of_mem _ ho, hm⟩

theorem fits_of_forall {F : Set Nat} {W : Half → Prop} {ops : List Op} {n : Half}
    (h : ∀ op ∈ ops, recordsFound op = false ∧ StoresOutside F n op) (hW : W n) : Fits F W ops n := by
  simpa using fits_append (rest := []) h (fun _ => hW) trivial

/-! ## The programs of the transactions, but for SCAN_BUS -/

/-- An operation that stores nothing but bytes of `buf` below `len`, and records no address. -/
def storesBelow (buf : Word) (len : Nat) : Op → Bool
  | .memWrite b k => b == buf && decide (k < len)
  | op => !storingOp op

theorem storesBelow_zero (buf : Word) (op : Op) : storesBelow buf 0 op = !storingOp op := by
  cases op
  case memWrite b k => exact Bool.and_false _
  all_goals rfl

theorem storesBelow_spec {buf : Word} {len : Nat} {op : Op} (h : storesBelow buf len op = true) {F : Set Nat}
    (hF : ∀ k < len, cellAddr buf k ∉ F) (n : Half) : recordsFound op = false ∧ StoresOutside F n op := by
  cases op
  case memWrite b k =>
    simp only [storesBelow, Bool.and_eq_true, beq_iff_eq, decide_eq_true_eq] at h
    obtain ⟨rfl, hk⟩ := h
    exact ⟨rfl, hF k hk⟩
  case scanRecord => cases h
  case probeEnd => cases h
  case apply p pol =>
    refine ⟨rfl, fun hs => ?_⟩
    simp [storesBelow, storingOp, hs] at h
  all_goals exact ⟨rfl, trivial⟩

section storesBelow

variable (buf : Word) (len : Nat)

@[simp] theorem storesBelow_lines (l : List LineOp) : (lines l).all (storesBelow buf len) = true :=
  List.all_eq_true.2 fun op h => by obtain ⟨x, -, rfl⟩ := List.mem_map.1 h; rfl

@[simp] theorem storesBelow_startOps : startOps.all (storesBelow buf len) = true := storesBelow_lines buf len _
@[simp] theorem storesBelow_restartOps : restartOps.all (storesBelow buf len) = true := storesBelow_lines buf len _
@[simp] theorem storesBelow_stopOps : stopOps.all (storesBelow buf len) = true := storesBelow_lines buf len _
@[simp] theorem storesBelow_sendByteOps : sendByteOps.all (storesBelow buf len) = true := rfl
@[simp] theorem storesBelow_receiveByteOps (ack : Bool) : (receiveByteOps ack).all (storesBelow buf len) = true := rfl

@[simp] theorem storesBelow_sendAll (bs : List Byte) : (sendAll bs).all (storesBelow buf len) = true := by
  simp [sendAll, List.all_flatMap, sendCheckedOps, storesBelow, storingOp]

@[simp] theorem storesBelow_swSendBuf (b : Word) (n : Nat) : (swSendBuf b n).all (storesBelow buf len) = true := by
  simp [swSendBuf, List.all_flatMap, sendCheckedOps, storesBelow, storingOp]

@[simp] theorem storesBelow_swReceiveBuf : (swReceiveBuf buf len).all (storesBelow buf len) = true := by
  simp [swReceiveBuf, List.all_flatMap, storesBelow]

@[simp] theorem storesBelow_swAR (am : AddrMode) (a : BitVec 10) : (swAR am a).all (storesBelow buf len) = true := by
  cases am <;> simp [swAR]

@[simp] theorem storesBelow_hwStart (t : Word) : (hwStart t).all (storesBelow buf len) = true := rfl
@[simp] theorem storesBelow_clearAddr : clearAddrOps.all (storesBelow buf len) = true := rfl
@[simp] theorem storesBelow_hwStop : hwStop.all (storesBelow buf len) = true := rfl
@[simp] theorem storesBelow_hwPut (b : Byte) (f : Flag) (t : Word) : (hwPut b f t).all (storesBelow buf len) = true := rfl

@[simp] theorem storesBelow_hwAW (am : AddrMode) (a : BitVec 10) (t : Word) :
    (hwAW am a t).all (storesBelow buf len) = true := by
  cases am <;> rfl

@[simp] theorem storesBelow_hwAR (am : AddrMode) (a : BitVec 10) (t : Word) :
    (hwAR am a t).all (storesBelow buf len) = true := by
  cases am <;> simp [hwAR]

@[simp] theorem storesBelow_hwARPrime (am : AddrMode) (a : BitVec 10) (t : Word) :
    (hwARPrime am a t).all (storesBelow buf len) = true := rfl

@[simp] theorem storesBelow_hwTxBody (bs : List Byte) (b : Word) (n : Nat) (t : Word) :
    (hwTxBody bs b n t).all (storesBelow buf len) = true := by
  simp [hwTxBody, List.all_flatMap, hwTxByte, storesBelow, storingOp]

theorem storesBelow_hwRxByte (t : Word) {k : Nat} (hk : k < len) :
    (hwRxByte buf len t k).all (storesBelow buf len) = true := by
  unfold hwRxByte
  split_ifs <;> simp [storesBelow, storingOp, hk]

@[simp] theorem storesBelow_hwRx (t : Word) : (hwRx buf len t).all (storesBelow buf len) = true := by
  unfold hwRx
  split_ifs with h
  · simp [hwRxOne, storesBelow, storingOp, h]
  · have hbytes : ∀ k < len, (hwRxByte buf len t k).all (storesBelow buf len) = true :=
      fun k hk => storesBelow_hwRxByte buf len t hk
    simp only [List.all_eq_true] at hbytes
    simpa [hwRxMany, List.all_flatMap, storesBelow, storingOp] using hbytes

end storesBelow

/-- The bytes a transaction but SCAN_BUS may store (42_transactions.md R206, R209, R210): none where its length is 0. -/
def receives : Instr → Word × Nat
  | .masterReceive _ _ _ buf len _ => (buf, len.toNat)
  | .masterReadReg _ _ _ _ out _ => (out, 1)
  | .masterReadRegs _ _ _ _ buf len _ => (buf, len.toNat)
  | _ => (0, 0)

/-- The bytes of `F` are for the command to leave alone. -/
def LeavesAlone (s : State) (cmd : Instr) (F : Set Nat) : Prop := ∀ a ∈ F, notStored s cmd a

theorem LeavesAlone.receives {s : State} {cmd : Instr} {F : Set Nat} (h : LeavesAlone s cmd F) :
    ∀ k < (receives cmd).2, cellAddr (receives cmd).1 k ∉ F := by
  intro k hk hm
  have ha := h _ hm
  cases cmd
  case masterReceive => exact ha k hk rfl
  case masterReadReg => exact ha (by rw [Nat.lt_one_iff.1 hk]; rfl)
  case masterReadRegs => exact ha k hk rfl
  all_goals exact absurd hk (Nat.not_lt_zero k)

/-- The blocking program of a transaction but SCAN_BUS stores below its length alone. -/
theorem storesBelow_hwProgram (t : Word) {cmd : Instr} (hc : ∀ i buf max, cmd ≠ .scanBus i buf max) :
    (hwProgram t cmd).all (storesBelow (receives cmd).1 (receives cmd).2) = true := by
  cases cmd
  case masterTransmit => simp [hwProgram, hwTransmit, storesBelow, storingOp]
  case masterReceive => simp [hwProgram, hwReceive, receives, storesBelow, storingOp]
  case masterWriteReg => simp [hwProgram, hwWriteReg, storesBelow, storingOp]
  case masterReadReg => simp [hwProgram, hwReadRegs, receives, storesBelow, storingOp]
  case masterWriteRegs => simp [hwProgram, hwWriteRegs, storesBelow, storingOp]
  case masterReadRegs => simp [hwProgram, hwReadRegs, receives, storesBelow, storingOp]
  case scanBus i buf max => exact absurd rfl (hc i buf max)
  all_goals rfl

/-! ## The programs of SCAN_BUS -/

/-- What must hold of a scan's count where it waits: it has found fewer addresses than it may record. -/
def HasRoom (cmd : Instr) (n : Half) : Prop := ∀ i buf max, cmd = .scanBus i buf max → n.toNat < max.toNat

/-- A probe of a scan: the test whether the buffer is full, operations that store nothing, and the record
(42_transactions.md R211, 44_hw_blocking.md R295). -/
def IsProbe (buf : Word) (max : Half) (ops : List Op) : Prop :=
  ∃ mid last, ops = .scanBreak max :: (mid ++ [last]) ∧ mid.all (storesBelow 0 0) = true ∧
    ((∃ a, last = .scanRecord buf a) ∨ ∃ a, last = .probeEnd buf a)

theorem isProbe_hwProbe (buf : Word) (max : Half) (t : Word) (a : BitVec 10) : IsProbe buf max (hwProbe buf max t a) :=
  ⟨(hwProbe buf max t a).tail.dropLast, .probeEnd buf (scanByte a), rfl, rfl, .inr ⟨_, rfl⟩⟩

theorem isProbe_swProbe (buf : Word) (max : Half) (a : BitVec 10) : IsProbe buf max (swProbe buf max a) := by
  refine ⟨[.swBusy] ++ startOps ++ [.byte (enc7 a .write)] ++ sendByteOps ++ stopOps, .scanRecord buf (scanByte a), rfl, ?_,
    .inl ⟨_, rfl⟩⟩
  simp [storesBelow, storingOp]

section scan

variable {F : Set Nat} {W : Half → Prop} {buf : Word} {max : Half} (hF : ∀ k < max.toNat, cellAddr buf k ∉ F)
  (hW : ∀ n : Half, n.toNat < max.toNat → W n)
include hF hW

theorem fits_probe {probe rest : List Op} (hp : IsProbe buf max probe)
    (hr : ∀ n : Half, n.toNat ≤ max.toNat → Fits F W rest n) {n : Half} (hn : n.toNat ≤ max.toNat) :
    Fits F W (probe ++ rest) n := by
  obtain ⟨mid, last, rfl, hmid, hlast⟩ := hp
  rw [List.cons_append, List.append_assoc]
  refine ⟨trivial, fun h => absurd h Bool.false_ne_true, fun x hx => ?_⟩
  obtain ⟨rfl, hne⟩ := hx
  have hlt : x.toNat < max.toNat := lt_of_le_of_ne hn fun e => hne (BitVec.eq_of_toNat_eq e)
  refine fits_append (fun op hop => storesBelow_spec (List.all_eq_true.1 hmid op hop) (by simp) x) (fun _ => hW x hlt) ?_
  have hrest : ∀ z : Half, z = x ∨ z.toNat = x.toNat + 1 → Fits F W rest z := fun z hz =>
    hr z (by rcases hz with rfl | hz <;> omega)
  obtain ⟨a, rfl⟩ | ⟨a, rfl⟩ := hlast <;> exact ⟨hF _ hlt, fun h => absurd h Bool.false_ne_true, hrest⟩

theorem fits_probes {probe : BitVec 10 → List Op} (hp : ∀ a, IsProbe buf max (probe a)) (as : List (BitVec 10)) {n : Half}
    (hn : n.toNat ≤ max.toNat) : Fits F W (as.flatMap probe) n := by
  induction as generalizing n with
  | nil => trivial
  | cons a as ih => exact fits_probe hF hW (hp a) (fun _ => ih) hn

theorem fits_hwScan (t : Word) {n : Half} (hn : n.toNat ≤ max.toNat) : Fits F W (hwScan buf max t) n :=
  fits_probes hF hW (isProbe_hwProbe buf max t) scanRange hn

theorem fits_swScan {n : Half} (hn : n.toNat ≤ max.toNat) : Fits F W (swScan buf max) n := by
  refine fits_append (fun op hop => ?_) (fun h => ?_) (fits_probes hF hW (isProbe_swProbe buf max) scanRange hn)
  · obtain rfl := List.mem_singleton.1 hop
    exact ⟨rfl, trivial⟩
  · obtain ⟨op, hop, hm⟩ := h
    obtain rfl := List.mem_singleton.1 hop
    cases hm

end scan

/-- Where a count with room stays as it was: an operation that does not end the scan may leave it so. -/
theorem countAfter_self {op : Op} {n : Half} (h : ∀ max, op = .scanBreak max → n ≠ max) : CountAfter op n n := by
  cases op
  case scanBreak max => exact ⟨rfl, h max rfl⟩
  case scanRecord => exact .inl rfl
  case probeEnd => exact .inl rfl
  all_goals rfl

/-- What is left of a scan that fits every count with room fits them too. -/
theorem fits_suffix {F : Set Nat} {W : Half → Prop} {max : Half} {made ops : List Op}
    (hb : ∀ m, .scanBreak m ∈ made → m = max) (hf : ∀ n : Half, n.toNat < max.toNat → Fits F W (made ++ ops) n) :
    ∀ n : Half, n.toNat < max.toNat → Fits F W ops n := by
  induction made with
  | nil => exact hf
  | cons op made ih =>
    refine ih (fun m hm => hb m (List.mem_cons_of_mem _ hm)) fun n hn => ?_
    obtain ⟨-, -, hnext⟩ := hf n hn
    refine hnext n (countAfter_self fun m hm hnm => ?_)
    rw [hnm, hb m (hm ▸ List.mem_cons_self)] at hn
    exact Nat.lt_irrefl _ hn

theorem scanBreak_mem_hwScan {buf : Word} {max m : Half} {t : Word} (h : .scanBreak m ∈ hwScan buf max t) : m = max := by
  have hm : (∃ x, x ∈ scanRange) ∧ m = max := by simpa [hwScan, hwProbe] using h
  exact hm.2

theorem LeavesAlone.scanBus {s : State} {i : Nat} {buf : Word} {max : Half} {F : Set Nat}
    (h : LeavesAlone s (.scanBus i buf max) F) : ∀ k < max.toNat, cellAddr buf k ∉ F :=
  fun k hk hm => h _ hm k hk rfl

theorem hasRoom_scanBus {i : Nat} {buf : Word} {max n : Half} : HasRoom (.scanBus i buf max) n ↔ n.toNat < max.toNat :=
  ⟨fun h => h i buf max rfl, fun h _ _ _ e => by cases e; exact h⟩

theorem hasRoom_of_ne {cmd : Instr} (hc : ∀ i buf max, cmd ≠ .scanBus i buf max) (n : Half) : HasRoom cmd n :=
  fun i buf max e => absurd e (hc i buf max)

theorem fits_of_storesBelow {s : State} {cmd : Instr} {F : Set Nat} (hF : LeavesAlone s cmd F)
    (hc : ∀ i buf max, cmd ≠ .scanBus i buf max) {ops : List Op}
    (h : ∀ op ∈ ops, storesBelow (receives cmd).1 (receives cmd).2 op = true) (n : Half) : Fits F (HasRoom cmd) ops n :=
  fits_of_forall (fun op hop => storesBelow_spec (h op hop) hF.receives n) (hasRoom_of_ne hc n)

/-- A blocking transaction fits from its start. -/
theorem fits_hwProgram {s : State} {cmd : Instr} {F : Set Nat} (hF : LeavesAlone s cmd F) (t : Word) :
    Fits F (HasRoom cmd) (hwProgram t cmd) 0 := by
  by_cases hc : ∀ i buf max, cmd ≠ .scanBus i buf max
  · exact fits_of_storesBelow hF hc (List.all_eq_true.1 (storesBelow_hwProgram t hc)) 0
  · push Not at hc
    obtain ⟨i, buf, max, rfl⟩ := hc
    exact fits_hwScan hF.scanBus (fun _ => hasRoom_scanBus.2) t (Nat.zero_le _)

/-- What is left of a blocking transaction fits a count with room. -/
theorem fits_hwProgram_suffix {s : State} {cmd : Instr} {F : Set Nat} (hF : LeavesAlone s cmd F) {t : Word}
    {made ops : List Op} (hm : hwProgram t cmd = made ++ ops) {n : Half} (hn : HasRoom cmd n) :
    Fits F (HasRoom cmd) ops n := by
  by_cases hc : ∀ i buf max, cmd ≠ .scanBus i buf max
  · refine fits_of_storesBelow hF hc (fun op hop => ?_) n
    exact List.all_eq_true.1 (storesBelow_hwProgram t hc) op (hm ▸ List.mem_append_right made hop)
  · push Not at hc
    obtain ⟨i, buf, max, rfl⟩ := hc
    have hscan : hwScan buf max t = made ++ ops := hm
    refine fits_suffix (fun m h => scanBreak_mem_hwScan (t := t) (hscan ▸ List.mem_append_left ops h)) (fun x hx => ?_) n
      (hasRoom_scanBus.1 hn)
    exact hscan ▸ fits_hwScan hF.scanBus (fun _ => hasRoom_scanBus.2) t hx.le

/-! ## The commands that are no transaction -/

theorem notStored_of_not_transaction {s : State} {cmd : Instr} (hc : isTransaction cmd = false) {a : Nat} :
    notStored s cmd a ↔ ∀ pol, appliedPolicy s cmd = some pol → pol.stores = false := by
  cases cmd <;> first
    | rfl
    | cases hc

/-- The operations store nothing but through the value of the OPEN parameter that the command applies. -/
def StoresByPolicy (s : State) (cmd : Instr) (ops : List Op) : Prop :=
  ∀ op ∈ ops, storingOp op = true → ∃ p pol, op = .apply p pol ∧ appliedPolicy s cmd = some pol

theorem storesByPolicy_of_all {s : State} {cmd : Instr} {ops : List Op} (h : ops.all (storesBelow 0 0) = true) :
    StoresByPolicy s cmd ops := by
  intro op hop hst
  have hb := List.all_eq_true.1 h op hop
  rw [storesBelow_zero, hst] at hb
  cases hb

theorem fits_of_storesByPolicy {s : State} {cmd : Instr} (hc : isTransaction cmd = false) {F : Set Nat}
    (hF : LeavesAlone s cmd F) {ops : List Op} (h : StoresByPolicy s cmd ops) (n : Half) :
    Fits F (HasRoom cmd) ops n := by
  have hscan : ∀ i buf max, cmd ≠ .scanBus i buf max := fun i buf max e => by rw [e] at hc; cases hc
  refine fits_of_forall (fun op hop => ?_) (hasRoom_of_ne hscan n)
  by_cases hst : storingOp op = true
  · obtain ⟨p, pol, rfl, hpol⟩ := h op hop hst
    refine ⟨rfl, fun hs => Set.eq_empty_iff_forall_notMem.2 fun a ha => ?_⟩
    rw [(notStored_of_not_transaction hc).1 (hF a ha) pol hpol] at hs
    cases hs
  · exact storesBelow_spec (buf := 0) (by rw [storesBelow_zero, Bool.eq_false_of_not_eq_true hst]; rfl) (by simp) n

end Sys2Proof.Machine
end

section
/-! How a host command ends: it has returned, or it waits with the rest of its program left. The preambles and programs of
all commands are gone through once here (42_transactions.md R200, 46_instance.md R360 to R370). -/

namespace Sys2Proof.Machine

/-- What every program of a command begun in state `s` is: it fits the bytes that the command is to leave alone; a
transaction that waits runs the blocking program; and another command stores through an OPEN parameter's value alone. -/
structure Program (s : State) (cmd : Instr) (ops : List Op) : Prop where
  fits : ∀ F, LeavesAlone s cmd F → Fits F (HasRoom cmd) ops 0
  blocking : isTransaction cmd = true →
    ops = hwProgram s.par.scanProbeTimeoutMs cmd ∨ ∀ op ∈ ops, mayWait op = false
  stores : isTransaction cmd = false → StoresByPolicy s cmd ops

theorem mayWait_of_offBus {op : Op} (h : offBus op = true) : mayWait op = false := by
  cases op <;> first
    | rfl
    | cases h

namespace Program

variable {s : State} {cmd : Instr} {ops : List Op}

theorem of_hwProgram (hc : isTransaction cmd = true) : Program s cmd (hwProgram s.par.scanProbeTimeoutMs cmd) where
  fits _ hF := fits_hwProgram hF _
  blocking _ := .inl rfl
  stores h := absurd hc (by simp [h])

/-- A transaction's program that never waits. -/
theorem of_storesBelow (hc : isTransaction cmd = true) (hscan : ∀ i buf max, cmd ≠ .scanBus i buf max)
    (hw : ∀ op ∈ ops, mayWait op = false) (h : ops.all (storesBelow (receives cmd).1 (receives cmd).2) = true) :
    Program s cmd ops where
  fits _ hF := fits_of_storesBelow hF hscan (List.all_eq_true.1 h) 0
  blocking _ := .inr hw
  stores h := absurd hc (by simp [h])

theorem of_offBus (hc : isTransaction cmd = true) (hscan : ∀ i buf max, cmd ≠ .scanBus i buf max)
    (ho : ops.all offBus = true) (h : ops.all (storesBelow (receives cmd).1 (receives cmd).2) = true) :
    Program s cmd ops :=
  of_storesBelow hc hscan (fun op hop => mayWait_of_offBus (List.all_eq_true.1 ho op hop)) h

theorem of_swScan (i : Nat) (buf : Word) (max : Half) : Program s (.scanBus i buf max) (swScan buf max) where
  fits _ hF := fits_swScan hF.scanBus (fun _ => hasRoom_scanBus.2) (Nat.zero_le _)
  blocking _ := .inr fun op hop => mayWait_of_offBus (List.all_eq_true.1 (offBus_scan buf max) op hop)
  stores h := by cases h

theorem of_storesByPolicy (hc : isTransaction cmd = false) (h : StoresByPolicy s cmd ops) : Program s cmd ops where
  fits _ hF := fits_of_storesByPolicy hc hF h 0
  blocking ht := absurd ht (by simp [hc])
  stores _ := h

/-- A program without a store, of a command that is no transaction. -/
theorem of_all (hc : isTransaction cmd = false) (h : ops.all (storesBelow 0 0) = true) : Program s cmd ops :=
  of_storesByPolicy hc (storesByPolicy_of_all h)

/-- The value of an OPEN parameter applied before operations that store nothing. -/
theorem of_apply (hc : isTransaction cmd = false) (p : OpenParam) {pol : Policy} (hpol : appliedPolicy s cmd = some pol)
    (h : ops.all (storesBelow 0 0) = true) : Program s cmd (.apply p pol :: ops) :=
  of_storesByPolicy hc <| List.forall_mem_cons.2 ⟨fun _ => ⟨p, pol, rfl, hpol⟩, storesByPolicy_of_all h⟩

end Program

/-- The state `t` after command `c` begun in state `s`: it has returned, or it waits. -/
def Ends (P : State → Prop) (s : State) (c : Ctx) (t : State) : Prop :=
  P t ∨ ∃ ops, Program s c.cmd ops ∧ Waiting P (HasRoom c.cmd) c ops t

theorem config_claimState (s : State) (i j : Nat) : (row (claimState s i) j).config = (row s j).config := by
  have h : configsOf (claimState s i) = configsOf s := configsOf_setRow s i _ rfl
  rw [config_row, config_row, h]

section commands

variable {F : Set Nat} {P : State → Prop} (hP : Steady F P) {y : State → Out} {s : State}
include hP

theorem finish_ends (c : Ctx) (st : Status) (r : Response) {u : State} (hu : P u) :
    Answers (Ends P s c) (.next (finish c st r u)) := .next (.inl (hP.finish c st r hu))

theorem respond_ends (c : Ctx) (cmd : Instr) (r : Response) {u : State} (hu : P u) :
    Answers (Ends P s c) (.next (respond cmd r u)) := .next (.inl (hP.change hu))

theorem run_ends (hy : KeptBy P y) {c : Ctx} (hF : LeavesAlone s c.cmd F) {ops : List Op} (hp : Program s c.cmd ops)
    {u : State} (hu : P u) : Answers (Ends P s c) (run noTurn y c ops {} u) := fun t ht =>
  (run_answers hP (keptBy_noTurn P) hy c (hp.fits F hF) hu t ht).imp_right fun hw => ⟨ops, hp, hw⟩

variable (hy : KeptBy P y) (hs : P s)
include hs

theorem claimed_ends (c : Ctx) {k : State → Out}
    (hk : P (claimState s c.inst) → Answers (Ends P s c) (k (claimState s c.inst))) :
    Answers (Ends P s c) (claimed c s k) := by
  unfold claimed
  split_ifs
  · exact .fault _
  · exact hk (hP.setRow c.inst rfl hs)
  · exact respond_ends hP c _ _ hs

theorem claimedInit_ends (c : Ctx) {k : State → Out}
    (hk : P (claimState s c.inst) → Answers (Ends P s c) (k (claimState s c.inst))) :
    Answers (Ends P s c) (claimedInit c s k) :=
  claimed_ends hP hs c fun hu => by
    split_ifs
    · exact hk hu
    · exact finish_ends hP c _ _ hu

theorem indexed_ends (c : Ctx) (cmd : Instr) (i : Nat) {k : State → State} (hk : P (k s)) :
    Answers (Ends P s c) (indexed cmd i s k) := by
  unfold indexed
  split_ifs
  · exact .next (.inl hk)
  · exact respond_ends hP c _ _ hs

theorem cmdSetCallback_ends (c : Ctx) (i : Nat) (cb ud : Word) : Answers (Ends P s c) (cmdSetCallback i cb ud s) := by
  have hrow : P (setRow s i { row s i with callback := cb, userData := ud }) := hP.setRow i rfl hs
  refine indexed_ends hP hs c _ i ?_
  exact hP.change hrow

include hy

theorem cmdInit_ends (b : Bool) (i : Nat) (hF : LeavesAlone s (.init i) F) :
    Answers (Ends P s ⟨i, .init i, s.words, b⟩) (cmdInit y b i s) := by
  unfold cmdInit
  refine claimed_ends hP hs ⟨i, .init i, s.words, b⟩ fun hu => ?_
  simp only []
  split_ifs
  · exact finish_ends hP _ _ _ hu
  · split
    · exact run_ends hP hy hF (.of_all rfl rfl) hu
    · exact run_ends hP hy hF (.of_all rfl rfl) hu
  · exact finish_ends hP _ _ _ hu

theorem cmdDeinit_ends (b : Bool) (i : Nat) (hF : LeavesAlone s (.deinit i) F) :
    Answers (Ends P s ⟨i, .deinit i, s.words, b⟩) (cmdDeinit y b i s) := by
  unfold cmdDeinit
  refine claimed_ends hP hs ⟨i, .deinit i, s.words, b⟩ fun hu => ?_
  have hops : ∀ r, (deinitOps r).all (storesBelow 0 0) = true := fun r => by
    unfold deinitOps
    cases r.config.kind <;> cases r.initialized <;> rfl
  simp only []
  split_ifs with hk
  · have hpol : appliedPolicy s (.deinit i) = some (instParams s.par i).deinitWhilePending :=
      if_pos (by rw [← config_claimState s i i]; exact hk.1)
    exact run_ends hP hy hF (.of_apply rfl _ hpol (hops _)) hu
  · exact run_ends hP hy hF (.of_all rfl (hops _)) hu

theorem cmdSetTransferMode_ends (b : Bool) (i : Nat) (m : TransferMode) (hF : LeavesAlone s (.setTransferMode i m) F) :
    Answers (Ends P s ⟨i, .setTransferMode i m, s.words, b⟩) (cmdSetTransferMode y b i m s) := by
  refine claimedInit_ends hP hs ⟨i, .setTransferMode i m, s.words, b⟩ fun hu => ?_
  refine run_ends hP hy hF (.of_all rfl ?_) hu
  generalize (row _ _).config.kind = k
  cases k <;> cases m <;> rfl

theorem cmdSoftwareReset_ends (b : Bool) (i : Nat) (hF : LeavesAlone s (.softwareReset i) F) :
    Answers (Ends P s ⟨i, .softwareReset i, s.words, b⟩) (cmdSoftwareReset y b i s) := by
  refine claimedInit_ends hP hs ⟨i, .softwareReset i, s.words, b⟩ fun hu => ?_
  split
  case h_1 => exact run_ends hP hy hF (.of_all rfl (storesBelow_lines 0 0 _)) hu
  case h_2 hk =>
    split_ifs
    · exact finish_ends hP _ _ _ hu
    · have hpol : appliedPolicy s (.softwareReset i) = some (instParams s.par i).hwSoftwareReset :=
        if_pos (by rw [← config_claimState s i i]; exact hk)
      exact run_ends hP hy hF (.of_apply rfl _ hpol rfl) hu

theorem bitCommand_ends (c : Ctx) (hF : LeavesAlone s c.cmd F) (hc : isTransaction c.cmd = false) (held : Bool)
    {ops : List Op} (ho : ops.all (storesBelow 0 0) = true) : Answers (Ends P s c) (bitCommand y c held ops s) := by
  refine claimedInit_ends hP hs c fun hu => ?_
  simp only []
  split_ifs
  · exact run_ends hP hy hF (.of_all hc ho) hu
  · exact finish_ends hP _ _ _ hu

theorem cmdIsBusBusy_ends (c : Ctx) (i : Nat) : Answers (Ends P s c) (cmdIsBusBusy y i s) := by
  unfold cmdIsBusBusy
  split_ifs
  · exact .andThen (hy _ (hP.readLine i .sda hs)) fun u hu => respond_ends hP c _ _ (hP.readLine i .scl hu)
  · refine indexed_ends hP hs c _ i ?_
    split_ifs
    · exact hP.change (hP.readReg i .sr2 hs)
    · exact hP.change hs

/-- The preamble of a transaction, then its program (42_transactions.md R200). -/
theorem transact_ends (c : Ctx) (hF : LeavesAlone s c.cmd F) (ok async : Inst → Bool) {prog : State → List Op}
    (hp : Program s c.cmd (prog (claimState s c.inst))) : Answers (Ends P s c) (transact y c ok async prog s) := by
  refine claimedInit_ends hP hs c fun hu => ?_
  simp only []
  split_ifs
  · exact finish_ends hP _ _ _ hu
  · exact run_ends hP hy hF hp hu
  · exact finish_ends hP _ _ _ hu

theorem cmdMasterTransmit_ends (b : Bool) (i : Nat) (am : AddrMode) (a : BitVec 10) (buf : Word) (len : Half) (tmo : Word)
    (hF : LeavesAlone s (.masterTransmit i am a buf len tmo) F) :
    Answers (Ends P s ⟨i, .masterTransmit i am a buf len tmo, s.words, b⟩) (cmdMasterTransmit y b i am a buf len tmo s) := by
  refine transact_ends hP hy hs ⟨i, .masterTransmit i am a buf len tmo, s.words, b⟩ hF _ _ ?_
  cases (row (claimState s i) i).config.kind with
  | sw => exact .of_offBus rfl nofun (by simp [swTransmit, offBus]) (by simp [swTransmit, storesBelow, storingOp])
  | hw =>
    simp only []
    split_ifs
    · exact .of_storesBelow rfl nofun (by simp [asyncTransmit, asyncEnable, mayWait]) rfl
    · exact .of_hwProgram rfl

theorem cmdMasterReceive_ends (b : Bool) (i : Nat) (am : AddrMode) (a : BitVec 10) (buf : Word) (len : Half) (tmo : Word)
    (hF : LeavesAlone s (.masterReceive i am a buf len tmo) F) :
    Answers (Ends P s ⟨i, .masterReceive i am a buf len tmo, s.words, b⟩) (cmdMasterReceive y b i am a buf len tmo s) := by
  refine transact_ends hP hy hs ⟨i, .masterReceive i am a buf len tmo, s.words, b⟩ hF _ _ ?_
  cases (row (claimState s i) i).config.kind with
  | sw => exact .of_offBus rfl nofun (by simp [swReceive, offBus]) (by simp [swReceive, receives, storesBelow, storingOp])
  | hw =>
    simp only []
    split_ifs
    · exact .of_storesBelow rfl nofun (by simp [asyncReceive, asyncEnable, mayWait]) rfl
    · exact .of_hwProgram rfl

theorem cmdMasterWriteReg_ends (b : Bool) (i : Nat) (am : AddrMode) (a : BitVec 10) (reg val : Byte) (tmo : Word)
    (hF : LeavesAlone s (.masterWriteReg i am a reg val tmo) F) :
    Answers (Ends P s ⟨i, .masterWriteReg i am a reg val tmo, s.words, b⟩) (cmdMasterWriteReg y b i am a reg val tmo s) := by
  refine transact_ends hP hy hs ⟨i, .masterWriteReg i am a reg val tmo, s.words, b⟩ hF _ _ ?_
  cases (row (claimState s i) i).config.kind with
  | sw => exact .of_offBus rfl nofun (by simp [swWriteReg, offBus]) (by simp [swWriteReg, storesBelow, storingOp])
  | hw => exact .of_hwProgram rfl

theorem cmdMasterReadReg_ends (b : Bool) (i : Nat) (am : AddrMode) (a : BitVec 10) (reg : Byte) (out tmo : Word)
    (hF : LeavesAlone s (.masterReadReg i am a reg out tmo) F) :
    Answers (Ends P s ⟨i, .masterReadReg i am a reg out tmo, s.words, b⟩) (cmdMasterReadReg y b i am a reg out tmo s) := by
  refine transact_ends hP hy hs ⟨i, .masterReadReg i am a reg out tmo, s.words, b⟩ hF _ _ ?_
  cases (row (claimState s i) i).config.kind with
  | sw => exact .of_offBus rfl nofun (by simp [swReadRegs, offBus]) (by simp [swReadRegs, receives, storesBelow, storingOp])
  | hw => exact .of_hwProgram rfl

theorem cmdMasterWriteRegs_ends (b : Bool) (i : Nat) (am : AddrMode) (a : BitVec 10) (reg : Byte) (buf : Word) (len : Half)
    (tmo : Word) (hF : LeavesAlone s (.masterWriteRegs i am a reg buf len tmo) F) :
    Answers (Ends P s ⟨i, .masterWriteRegs i am a reg buf len tmo, s.words, b⟩)
      (cmdMasterWriteRegs y b i am a reg buf len tmo s) := by
  refine transact_ends hP hy hs ⟨i, .masterWriteRegs i am a reg buf len tmo, s.words, b⟩ hF _ _ ?_
  cases (row (claimState s i) i).config.kind with
  | sw => exact .of_offBus rfl nofun (by simp [swWriteRegs, offBus]) (by simp [swWriteRegs, storesBelow, storingOp])
  | hw => exact .of_hwProgram rfl

theorem cmdMasterReadRegs_ends (b : Bool) (i : Nat) (am : AddrMode) (a : BitVec 10) (reg : Byte) (buf : Word) (len : Half)
    (tmo : Word) (hF : LeavesAlone s (.masterReadRegs i am a reg buf len tmo) F) :
    Answers (Ends P s ⟨i, .masterReadRegs i am a reg buf len tmo, s.words, b⟩)
      (cmdMasterReadRegs y b i am a reg buf len tmo s) := by
  refine transact_ends hP hy hs ⟨i, .masterReadRegs i am a reg buf len tmo, s.words, b⟩ hF _ _ ?_
  cases (row (claimState s i) i).config.kind with
  | sw => exact .of_offBus rfl nofun (by simp [swReadRegs, offBus]) (by simp [swReadRegs, receives, storesBelow, storingOp])
  | hw => exact .of_hwProgram rfl

theorem cmdScanBus_ends (b : Bool) (i : Nat) (buf : Word) (max : Half) (hF : LeavesAlone s (.scanBus i buf max) F) :
    Answers (Ends P s ⟨i, .scanBus i buf max, s.words, b⟩) (cmdScanBus y b i buf max s) := by
  refine transact_ends hP hy hs ⟨i, .scanBus i buf max, s.words, b⟩ hF _ _ ?_
  cases (row (claimState s i) i).config.kind with
  | sw => exact .of_swScan i buf max
  | hw => exact .of_hwProgram rfl

end commands

/-- A command as its micro-operations run, with the turn `y` between them: what the host's commands and a callback's have
in common (46_instance.md R369, 45_hw_interrupt.md R335). The handler entries have no such form. -/
def commandWith (y : State → Out) (atomic : Bool) (cmd : Instr) (s : State) : Out :=
  match cmd with
  | .init i => cmdInit y atomic i s
  | .deinit i => cmdDeinit y atomic i s
  | .setTransferMode i m => cmdSetTransferMode y atomic i m s
  | .setCallback i cb ud => cmdSetCallback i cb ud s
  | .isInitialized i => cmdIsInitialized i s
  | .isBusBusy i => cmdIsBusBusy y i s
  | .getConfig i => cmdGetConfig i s
  | .softwareReset i => cmdSoftwareReset y atomic i s
  | .getXferStatus i => cmdGetXferStatus i s
  | .encodeAddress am rw a => cmdEncodeAddress am rw a s
  | .masterTransmit i am a buf len tmo => cmdMasterTransmit y atomic i am a buf len tmo s
  | .masterReceive i am a buf len tmo => cmdMasterReceive y atomic i am a buf len tmo s
  | .masterWriteReg i am a reg val tmo => cmdMasterWriteReg y atomic i am a reg val tmo s
  | .masterReadReg i am a reg out tmo => cmdMasterReadReg y atomic i am a reg out tmo s
  | .masterWriteRegs i am a reg buf len tmo => cmdMasterWriteRegs y atomic i am a reg buf len tmo s
  | .masterReadRegs i am a reg buf len tmo => cmdMasterReadRegs y atomic i am a reg buf len tmo s
  | .scanBus i buf max => cmdScanBus y atomic i buf max s
  | .blStart i => cmdBlStart y atomic i s
  | .blStop i => cmdBlStop y atomic i s
  | .blRestart i => cmdBlRestart y atomic i s
  | .blSendByte i val => cmdBlSendByte y atomic i val s
  | .blReceiveByte i ack => cmdBlReceiveByte y atomic i ack s
  | .evIrq _ => .refused (.illegalCommand (.internalOp 0x30#8))
  | .erIrq _ => .refused (.illegalCommand (.internalOp 0x31#8))

theorem exec_eq_commandWith {cmd : Instr} (h : cmd.internal = false) (s : State) :
    exec cmd s = commandWith (turn (lentBy cmd)) false cmd s := by
  cases cmd <;> first
    | rfl
    | cases h

theorem nestedExec_eq_commandWith (cmd : Instr) (s : State) : nestedExec cmd s = commandWith noTurn true cmd s := by
  cases cmd <;> rfl

/-- Everything a host command can end in. -/
theorem commandWith_ends {F : Set Nat} {P : State → Prop} (hP : Steady F P) {y : State → Out} (hy : KeptBy P y) {s : State}
    (hs : P s) (b : Bool) (cmd : Instr) (hF : LeavesAlone s cmd F) :
    Answers (Ends P s ⟨cmd.index.getD 0, cmd, s.words, b⟩) (commandWith y b cmd s) := by
  cases cmd
  case init i => exact cmdInit_ends hP hy hs b i hF
  case deinit i => exact cmdDeinit_ends hP hy hs b i hF
  case setTransferMode i m => exact cmdSetTransferMode_ends hP hy hs b i m hF
  case setCallback i cb ud => exact cmdSetCallback_ends hP hs _ i cb ud
  case isInitialized i => exact indexed_ends hP hs _ _ i (hP.change hs)
  case isBusBusy i => exact cmdIsBusBusy_ends hP hy hs _ i
  case getConfig i => exact indexed_ends hP hs _ _ i (hP.change hs)
  case softwareReset i => exact cmdSoftwareReset_ends hP hy hs b i hF
  case getXferStatus i => exact indexed_ends hP hs _ _ i (hP.change hs)
  case encodeAddress am rw a => exact respond_ends hP _ _ _ hs
  case masterTransmit i am a buf len tmo => exact cmdMasterTransmit_ends hP hy hs b i am a buf len tmo hF
  case masterReceive i am a buf len tmo => exact cmdMasterReceive_ends hP hy hs b i am a buf len tmo hF
  case masterWriteReg i am a reg val tmo => exact cmdMasterWriteReg_ends hP hy hs b i am a reg val tmo hF
  case masterReadReg i am a reg out tmo => exact cmdMasterReadReg_ends hP hy hs b i am a reg out tmo hF
  case masterWriteRegs i am a reg buf len tmo => exact cmdMasterWriteRegs_ends hP hy hs b i am a reg buf len tmo hF
  case masterReadRegs i am a reg buf len tmo => exact cmdMasterReadRegs_ends hP hy hs b i am a reg buf len tmo hF
  case scanBus i buf max => exact cmdScanBus_ends hP hy hs b i buf max hF
  case blStart i => exact bitCommand_ends hP hy hs ⟨i, .blStart i, s.words, b⟩ hF rfl _ (by simp)
  case blStop i => exact bitCommand_ends hP hy hs ⟨i, .blStop i, s.words, b⟩ hF rfl _ (by simp)
  case blRestart i => exact bitCommand_ends hP hy hs ⟨i, .blRestart i, s.words, b⟩ hF rfl _ (by simp)
  case blSendByte i val =>
    exact bitCommand_ends hP hy hs ⟨i, .blSendByte i val, s.words, b⟩ hF rfl _ (by simp [storesBelow, storingOp])
  case blReceiveByte i ack =>
    exact bitCommand_ends hP hy hs ⟨i, .blReceiveByte i ack, s.words, b⟩ hF rfl _ (by simp [storesBelow, storingOp])
  case evIrq => exact .refused _
  case erIrq => exact .refused _

end Sys2Proof.Machine
end

section
/-! The handlers, the callback with the commands it issues, and the other agents' turn keep every property that no store and
no schedule can break: a handler's atomic step has no wait, so it leaves the command in progress alone
(45_hw_interrupt.md R335, 60_exceptions.md R407, R408). -/

namespace Sys2Proof.Machine

theorem leavesAlone_empty (s : State) (cmd : Instr) : LeavesAlone s cmd ∅ := fun _ h => absurd h (Set.notMem_empty _)

section handlers

variable {P : State → Prop} (hP : Steady ∅ P) (lent : Option (Nat × Word))
include hP

theorem hostTouch_answers (buf : Word) (k : Half) (v : Option Byte) {s : State} (hs : P s) :
    Answers P (hostTouch lent buf k v s) := by
  unfold hostTouch
  split
  · exact .fault _
  · cases v with
    | none =>
      simp only []
      split
      · exact .next hs
      · exact .fault _
    | some b =>
      simp only []
      split
      next u hu => exact .next (hP.memWrite (Set.notMem_empty _) hs hu)
      next => exact .fault _

/-- A command inside a handler's atomic step does not wait (45_hw_interrupt.md R335). -/
theorem nestedExec_answers (cmd : Instr) {s : State} (hs : P s) : Answers P (nestedExec cmd s) := by
  intro t ht
  rw [nestedExec_eq_commandWith] at ht
  obtain h | ⟨ops, -, hatomic, -⟩ := commandWith_ends hP (keptBy_noTurn P) hs true cmd (leavesAlone_empty s cmd) t ht
  · exact h
  · cases hatomic

theorem nestedAct_answers (a : HostAct) {s : State} (hs : P s) : Answers P (nestedAct lent a s) := by
  cases a with
  | command w =>
    simp only [nestedAct]
    split
    · exact nestedExec_answers hP _ (hP.change hs)
    · exact .refused _
  | readBuf buf k => exact hostTouch_answers hP lent buf k none hs
  | writeBuf buf k v => exact hostTouch_answers hP lent buf k (some v) hs

theorem nestedActs_answers (as : List HostAct) {s : State} (hs : P s) : Answers P (nestedActs lent as s) := by
  induction as generalizing s with
  | nil => exact .next hs
  | cons a as ih => exact .andThen (nestedAct_answers hP lent a hs) fun u hu => ih hu

theorem callback_answers (i : Nat) (st : Status) {s : State} (hs : P s) : Answers P (callback lent i st s) := by
  unfold callback
  split_ifs
  · exact .next hs
  · refine nestedActs_answers hP lent _ ?_
    unfold drawCall
    split <;> exact hP.change (s := s) hs

theorem setXfer_keeps (i : Nat) (x : Xfer) {s : State} (hs : P s) : P (setXfer i x s) := hP.setRow i rfl hs

theorem completeXfer_answers (i : Nat) (stop : Bool) {s : State} (hs : P s) : Answers P (completeXfer lent i stop s) := by
  have hclear : P (clearEnables i (if stop then setCr1 i Cr1.stop s else s)) := by
    refine hP.access ?_
    split_ifs
    · exact hP.access hs
    · exact hs
  exact callback_answers hP lent i .ok (hP.setRow i rfl hclear)

theorem evAddress_answers (i : Nat) {s : State} (hs : P s) : Answers P (evAddress i s) := by
  refine .next (setXfer_keeps hP i _ (hP.access ?_))
  split_ifs
  · have hack : P (csrWrite i .cr1 Cr1.ack 0 s) := hP.access hs
    have hread : P (readSR2 i (csrWrite i .cr1 Cr1.ack 0 s)).2 := hP.access hack
    exact hP.access hread
  · exact hP.access hs

theorem evTxByte_answers (site : Site) (i : Nat) {s : State} (hs : P s) : Answers P (evTxByte site i s) := by
  simp only [evTxByte]
  split
  · exact .fault _
  next b hb =>
    have hsent := setXfer_keeps hP i { (row s i).xfer with idx := (row s i).xfer.idx + 1 } (hP.access hs : P (writeDR i b s))
    split_ifs
    · exact .next (hP.access hsent)
    · exact .next hsent

theorem evRxByte_answers (site : Site) (i : Nat) {s : State} (hs : P s) : Answers P (evRxByte lent site i s) := by
  simp only [evRxByte]
  split
  · exact .fault _
  next t ht =>
    have hstored : P t := hP.memWrite (Set.notMem_empty _) (hP.access hs : P (readDR i s).2) ht
    split
    · exact .refused _
    next k hk =>
      have hidx := setXfer_keeps hP i { (row s i).xfer with idx := k } hstored
      have hack : P (if k = (row s i).xfer.len - 1 then
          csrWrite i .cr1 Cr1.ack 0 (setXfer i { (row s i).xfer with idx := k } t)
          else setXfer i { (row s i).xfer with idx := k } t) := by
        split_ifs
        · exact hP.access hidx
        · exact hidx
      split
      · exact .refused _
      · split
        · exact completeXfer_answers hP lent i _ hack
        · exact .next hack

theorem evHandler_answers (i : Nat) {s : State} (hs : P s) : Answers P (evHandler lent i s) := by
  have hread : P (readSR1 i s).2 := hP.access hs
  simp only [evHandler]
  split
  · exact .next hread
  · split
    · exact .fault _
    · exact .fault _
    · split
      · exact .next (setXfer_keeps hP i _ (hP.access hread))
      · exact .fault _
    · split
      · exact evAddress_answers hP i hread
      · exact .fault _
    · split
      · split
        · exact evTxByte_answers hP _ i hread
        · split
          · exact completeXfer_answers hP lent i true hread
          · exact .fault _
      · split
        · exact evRxByte_answers hP lent _ i hread
        · exact .fault _

theorem erHandler_answers (i : Nat) {s : State} (hs : P s) : Answers P (erHandler lent i s) := by
  have hread : P (readSR1 i s).2 := hP.access hs
  have hclear : ∀ e, P (clearErrors i e (readSR1 i s).2) := fun e => hP.access hread
  have hend : ∀ {u : State}, P u →
      P (csrWrite i .cr2 Cr2.iterren 0 (csrWrite i .cr2 Cr2.itbufen 0 (csrWrite i .cr2 Cr2.itevten 0 u))) :=
    fun hu => hP.access (hP.access (hP.access hu))
  simp only [erHandler]
  split_ifs
  · exact .fault _
  · exact callback_answers hP lent i _ (hP.setRow i rfl (hend (hclear _)))
  · exact callback_answers hP lent i _ (hP.setRow i rfl (hend (hP.access (hclear _))))

theorem serveInterrupt_answers {s : State} (hs : P s) : Answers P (serveInterrupt lent s) := by
  unfold serveInterrupt
  split
  · unfold cmdErIrq
    split_ifs
    · exact erHandler_answers hP lent _ hs
    · exact .fault _
  · unfold cmdEvIrq
    split_ifs
    · exact evHandler_answers hP lent _ hs
    · exact .fault _
  · exact .next hs

theorem agentStep_answers (e : Sched) {s : State} (hs : P s) : Answers P (agentStep lent e s) := by
  cases e with
  | block => exact .next hs
  | peri i p =>
    simp only [agentStep, periphStep]
    split_ifs
    · exact .next (hP.change (s := s) hs)
    · exact .next hs
  | tick d =>
    simp only [agentStep, advanceClock]
    split_ifs
    · exact .next (hP.change hs)
    · exact .next hs
  | irq => exact serveInterrupt_answers hP lent hs

/-- A turn of the other agents, handlers among them (20_memory.md R94). -/
theorem turn_keeps (hsched : ∀ {s : State} (es : List Sched), P s → P { s with sched := es }) :
    KeptBy P (turn lent) := by
  intro s hs
  unfold turn
  generalize s.sched = es
  induction es generalizing s with
  | nil => exact .next (hsched [] hs)
  | cons e es ih =>
    have hcons : Answers P (andThen (agentStep lent e s) (turnFrom lent es)) :=
      .andThen (agentStep_answers hP lent e hs) fun u hu => ih u hu
    cases e with
    | block => exact .next (hsched es hs)
    | peri i p => exact hcons
    | tick d => exact hcons
    | irq => exact hcons

end handlers

end Sys2Proof.Machine
end

section
/-! The frame of a command over memory, and what the command in progress has left (20_memory.md R81, 42_transactions.md R206,
R209 to R211, log entry 1). -/

namespace Sys2Proof.Machine

/-! ## Memory: no handler has a turn, and the bytes of `F` read as they did -/

/-- The bytes of `F` read as in `s`, and no handler has a turn. -/
def SameBytes (s : State) (F : Set Nat) (t : State) : Prop :=
  NoIrq t ∧ ∀ a ∈ F, memByte t.mem a = memByte s.mem a

theorem steady_sameBytes (s : State) (F : Set Nat) : Steady F (SameBytes s F) where
  setRow _ _ _ h := h
  change h := h
  store v ha h := ⟨h.1, fun b hb => (memByte_memPut_of_ne _ v (ne_of_mem_of_not_mem hb ha)).trans (h.2 b hb)⟩

theorem keptBy_turn_sameBytes (s : State) (F : Set Nat) (lent : Option (Nat × Word)) :
    KeptBy (SameBytes s F) (turn lent) := by
  intro u hu t ht
  obtain ⟨v, hv, hmoved⟩ := turn_noIrq (l := lent) hu.1
  obtain rfl : v = t := Host.Outcome.next.inj (hv.symm.trans ht)
  have hmem : v.mem = u.mem := by rw [hmoved.parts]
  exact ⟨hmoved.1, fun a ha => by rw [hmem, hu.2 a ha]⟩

theorem sameBytes_of_waiting {s t : State} {F : Set Nat} {W : Half → Prop} {c : Ctx} {ops : List Op}
    (h : Waiting (SameBytes s F) W c ops t) : SameBytes s F t := by
  obtain ⟨-, u, op, rest, scr, hu, -, -, -, rfl⟩ := h
  exact hu

/-- The bytes a command leaves alone read as before, whether it has returned or waits. -/
theorem exec_sameBytes {s t : State} {cmd : Instr} {F : Set Nat} (hq : NoIrq s) (hc : cmd.internal = false)
    (hF : LeavesAlone s cmd F) (h : exec cmd s = .next t) : SameBytes s F t := by
  rw [exec_eq_commandWith hc] at h
  have hends := commandWith_ends (steady_sameBytes s F) (keptBy_turn_sameBytes s F (lentBy cmd)) ⟨hq, fun _ _ => rfl⟩ false
    cmd hF t h
  obtain hs | ⟨ops, -, hw⟩ := hends
  · exact hs
  · exact sameBytes_of_waiting hw

/-! ## The command in progress -/

theorem storesByPolicy_of_suffix {s : State} {cmd : Instr} {ops rest : List Op} (h : StoresByPolicy s cmd ops)
    (hsuff : rest <:+ ops) : StoresByPolicy s cmd rest :=
  fun op hop => h op (hsuff.subset hop)

/-- What is left of the command in progress fits what it has found. -/
theorem fits_of_inProgress {s : State} {q : Seq} {F : Set Nat} (hp : InProgress s) (hq : s.seq = some q)
    (hF : LeavesAlone s q.cmd F) : Fits F (HasRoom q.cmd) q.ops q.scr.resp.found := by
  obtain ⟨hblocking, hstores, hroom⟩ := hp q hq
  cases hc : isTransaction q.cmd with
  | true =>
    obtain ⟨made, hmade⟩ := hblocking hc
    exact fits_hwProgram_suffix hF hmade hroom
  | false => exact fits_of_storesByPolicy hc hF (hstores hc) _

/-- The bytes the command in progress leaves alone read as before after a step of it. -/
theorem resume_sameBytes {s t : State} {q : Seq} {F : Set Nat} (hn : NoIrq s) (hp : InProgress s) (hq : s.seq = some q)
    (hF : LeavesAlone s q.cmd F) (h : resume q s = .next t) : SameBytes s F t := by
  have hturn := keptBy_turn_sameBytes s F (lentBy q.cmd)
  have hstart : SameBytes s F { s with seq := none } := ⟨hn, fun _ _ => rfl⟩
  obtain hs | hw := run_answers (steady_sameBytes s F) hturn hturn _ (fits_of_inProgress hp hq hF) hstart t h
  · exact hs
  · exact sameBytes_of_waiting hw

/-- No command is in progress in `t`, and its parameters and configurations are those of `s`. -/
def Between (s t : State) : Prop := t.seq = none ∧ t.par = s.par ∧ configsOf t = configsOf s

theorem steady_between (s : State) : Steady ∅ (Between s) where
  setRow i _ hc h := ⟨h.1, h.2.1, (configsOf_setRow _ i _ hc).trans h.2.2⟩
  change h := h
  store _ _ h := h

theorem keptBy_turn_between (s : State) (lent : Option (Nat × Word)) : KeptBy (Between s) (turn lent) :=
  turn_keeps (steady_between s) lent fun _ h => h

/-- The value a command may apply is fixed at launch (10_state.md R21, R31). -/
theorem appliedPolicy_congr {s t : State} (hpar : t.par = s.par) (hcfg : configsOf t = configsOf s) (cmd : Instr) :
    appliedPolicy t cmd = appliedPolicy s cmd := by
  have hrow : ∀ i, (row t i).config = (row s i).config := fun i => by rw [config_row, config_row, hcfg]
  cases cmd <;> first
    | rfl
    | simp only [appliedPolicy, hrow, hpar]

theorem inProgress_of_seq_none {s : State} (h : s.seq = none) : InProgress s := fun q hq => by
  rw [h] at hq
  cases hq

/-- A command that waits has left what a command in progress may have left. -/
theorem inProgress_of_waiting {s t : State} {c : Ctx} {ops : List Op}
    (hblocking : isTransaction c.cmd = true →
      (∃ made, hwProgram s.par.scanProbeTimeoutMs c.cmd = made ++ ops) ∨ ∀ op ∈ ops, mayWait op = false)
    (hstores : isTransaction c.cmd = false → StoresByPolicy s c.cmd ops)
    (h : Waiting (Between s) (HasRoom c.cmd) c ops t) : InProgress t := by
  obtain ⟨-, u, op, rest, scr, ⟨-, hpar, hcfg⟩, hroom, hmay, hsuff, rfl⟩ := h
  intro q hq
  obtain rfl := Option.some.inj hq
  refine ⟨fun hc => ?_, fun hc => ?_, hroom⟩
  · obtain ⟨gone, rfl⟩ := hsuff
    obtain ⟨made, hmade⟩ | hnever := hblocking hc
    · exact ⟨made ++ gone, by rw [List.append_assoc, ← hmade, ← hpar]⟩
    · rw [hnever op (List.mem_append_right _ List.mem_cons_self)] at hmay
      cases hmay
  · intro o ho hst
    obtain ⟨p, pol, rfl, hpol⟩ := storesByPolicy_of_suffix (hstores hc) hsuff o ho hst
    exact ⟨p, pol, rfl, (appliedPolicy_congr hpar hcfg _).trans hpol⟩

theorem exec_inProgress {s t : State} {cmd : Instr} (hseq : s.seq = none) (hc : cmd.internal = false)
    (h : exec cmd s = .next t) : InProgress t := by
  rw [exec_eq_commandWith hc] at h
  have hends := commandWith_ends (steady_between s) (keptBy_turn_between s (lentBy cmd)) ⟨hseq, rfl, rfl⟩ false cmd
    (leavesAlone_empty s cmd) t h
  obtain hs | ⟨ops, hprog, hw⟩ := hends
  · exact inProgress_of_seq_none hs.1
  · exact inProgress_of_waiting (fun ht => (hprog.blocking ht).imp_left fun e => ⟨[], e.symm⟩) hprog.stores hw

theorem resume_inProgress {s t : State} {q : Seq} (hp : InProgress s) (hq : s.seq = some q) (h : resume q s = .next t) :
    InProgress t := by
  have hturn := keptBy_turn_between s (lentBy q.cmd)
  have hstart : Between s { s with seq := none } := ⟨rfl, rfl, rfl⟩
  obtain ⟨hblocking, hstores, -⟩ := hp q hq
  obtain hs | hw := run_answers (steady_between s) hturn hturn _ (fits_of_inProgress hp hq (leavesAlone_empty s q.cmd))
    hstart t h
  · exact inProgress_of_seq_none hs.1
  · exact inProgress_of_waiting (fun ht => .inl (hblocking ht)) hstores hw

/-- A word of the host is no handler entry (30_encoding.md R104). -/
theorem internal_of_decodeHost {w : Words} {cmd : Instr} (h : decodeHost w = .ok cmd) : cmd.internal = false := by
  unfold decodeHost at h
  split at h
  · split_ifs at h with hi
    obtain rfl := Except.ok.inj h
    exact Bool.eq_false_of_not_eq_true hi
  · cases h

theorem hostMove_inProgress {s t : State} {a : HostAct} (hseq : s.seq = none) (h : hostMove a s = .next t) :
    InProgress t := by
  have htouch : ∀ buf k v, Answers (Between s) (hostTouch none buf k v s) := fun buf k v =>
    hostTouch_answers (steady_between s) none buf k v ⟨hseq, rfl, rfl⟩
  cases a with
  | command w =>
    cases hw : decodeHost w with
    | ok cmd =>
      rw [hostMove_of_decoded hw] at h
      exact exec_inProgress (s := { s with words := w }) hseq (internal_of_decodeHost hw) h
    | error r =>
      rw [hostMove_of_undecoded hw] at h
      cases h
  | readBuf buf k => exact inProgress_of_seq_none (htouch buf k none t h).1
  | writeBuf buf k v => exact inProgress_of_seq_none (htouch buf k (some v) t h).1

theorem noFault_of_step {s t : State} (h : step s = .next t) : NoFault s := by
  cases hm : s.mark with
  | none => exact hm
  | some m =>
    rw [step_of_mark hm] at h
    cases m <;> cases h

theorem step_inProgress {s t : State} (hp : InProgress s) (h : step s = .next t) : InProgress t := by
  have hm := noFault_of_step h
  cases hq : s.seq with
  | some q =>
    rw [step_of_inProgress hm hq] at h
    exact resume_inProgress hp hq h
  | none =>
    rw [step_of_noFault hm, unmarkedStep, hq] at h
    obtain ⟨u, hu, hhost⟩ := andThen_eq_next h
    have hseq : u.seq = none := (keptBy_turn_between s none s ⟨hq, rfl, rfl⟩ u hu).1
    cases hh : u.host with
    | nil =>
      rw [hostTurn_of_nil hh] at hhost
      cases hhost
      exact inProgress_of_seq_none hseq
    | cons a as =>
      rw [hostTurn_of_cons hh] at hhost
      exact hostMove_inProgress (s := { u with host := as }) hseq hhost

/-- Settles O57: every program stores at the addresses its command names alone, and a step leaves in progress an end of such
a program. -/
theorem memoryFrame : Obligations.MemoryFrame := by
  refine ⟨?command, ?resumed, fun s t hp h => step_inProgress hp h, fun s h => inProgress_of_seq_none h⟩
  case command =>
    intro s t cmd a hn hc _ h ha
    exact (exec_sameBytes (F := {a}) hn hc (by rintro b rfl; exact ha) h).2 a rfl
  case resumed =>
    intro s t q a hn _ hq hp h ha
    rw [step_of_inProgress (noFault_of_step h) hq] at h
    exact (resume_sameBytes (F := {a}) hn hp hq (by rintro b rfl; exact ha) h).2 a rfl

end Sys2Proof.Machine
end

section
/-! Which headers a row selects, and what `decode` can answer (30_encoding.md R100 to R105). A mask of R105 keeps OP and
clears the fields its rows use, so it is the complement of a header whose used fields are all ones. -/

namespace Sys2Proof

theorem instOf_lt (h : Word) : instOf h < 16 := (h.extractLsb' 8 4).isLt

theorem ofNat_instOf (h : Word) : BitVec.ofNat 4 (instOf h) = h.extractLsb' 8 4 := by
  rw [instOf, BitVec.ofNat_toNat, BitVec.setWidth_eq]

theorem instOf_and (h : Word) : instOf h &&& 15 = instOf h := Nat.and_two_pow_sub_one_of_lt_two_pow (n := 4) (instOf_lt h)

/-- The fields of `h` at the ones of a header with OP 0, beside the OP of `h`: the bits of `h` there, and 0 elsewhere. -/
theorem header_and_bit (h : Word) (n : Nat) (am fl : Bool) (a : BitVec 10) (j : Nat) (hj : j < 32) :
    (header (opOf h) (instOf h &&& n) (h.getLsbD 12 && am) (h.getLsbD 13 && fl) (addrOf h &&& a)).getLsbD j =
      (h.getLsbD j && (decide (j < 8) || (header 0 n am fl a).getLsbD j)) := by
  rw [header_bit _ _ _ _ _ j hj, header_bit _ _ _ _ _ j hj, BitVec.ofNat_and, ofNat_instOf]
  split_ifs with hop hinst h12 h13 hres
  · simp [opOf, hop]
  · have : 8 + (j - 8) = j := by omega
    simp [hop, show j - 8 < 4 by omega, this]
  · simp [h12]
  · simp [h13]
  · simp [hop]
  · have : 16 + (j - 16) = j := by omega
    by_cases ha : j - 16 < 10
    · simp [addrOf, hop, ha, this]
    · simp [addrOf, hop, ha, BitVec.getLsbD_of_ge a (j - 16) (by omega)]

/-- A mask that clears the ones of the fields `n`, `am`, `fl` and `a` selects the headers that are 0 outside those ones. -/
theorem selects_compl_header (h : Word) (n : Nat) (am fl : Bool) (a : BitVec 10) :
    selects (~~~ header 0 n am fl a) h = true ↔
      header (opOf h) (instOf h &&& n) (h.getLsbD 12 && am) (h.getLsbD 13 && fl) (addrOf h &&& a) = h := by
  simp only [selects, beq_iff_eq, BitVec.eq_of_getLsbD_eq_iff]
  refine forall₂_congr fun j hj => ?_
  rw [header_and_bit h n am fl a j hj, BitVec.getLsbD_and, BitVec.getLsbD_not, header_bit 0 _ _ _ _ j hj,
    BitVec.getLsbD_setWidth, opOf, BitVec.getLsbD_extractLsb']
  by_cases hop : j < 8 <;> simp [hop, hj]

theorem selects_maskInst (h : Word) : selects maskInst h = true ↔ header (opOf h) (instOf h) false false 0 = h := by
  rw [show maskInst = ~~~ header 0 15 false false 0 by decide, selects_compl_header, instOf_and, Bool.and_false,
    Bool.and_false, show addrOf h &&& 0 = 0 from BitVec.and_zero]

theorem selects_maskInstFl (h : Word) :
    selects maskInstFl h = true ↔ header (opOf h) (instOf h) false (h.getLsbD 13) 0 = h := by
  rw [show maskInstFl = ~~~ header 0 15 false true 0 by decide, selects_compl_header, instOf_and, Bool.and_false,
    Bool.and_true, show addrOf h &&& 0 = 0 from BitVec.and_zero]

theorem selects_maskAmFlAddr (h : Word) :
    selects maskAmFlAddr h = true ↔ header (opOf h) 0 (h.getLsbD 12) (h.getLsbD 13) (addrOf h) = h := by
  rw [show maskAmFlAddr = ~~~ header 0 0 true true (BitVec.allOnes 10) by decide, selects_compl_header, Nat.and_zero,
    Bool.and_true, Bool.and_true, BitVec.and_allOnes]

theorem selects_maskInstAmAddr (h : Word) :
    selects maskInstAmAddr h = true ↔ header (opOf h) (instOf h) (h.getLsbD 12) false (addrOf h) = h := by
  rw [show maskInstAmAddr = ~~~ header 0 15 true false (BitVec.allOnes 10) by decide, selects_compl_header, instOf_and,
    Bool.and_true, Bool.and_false, BitVec.and_allOnes]

theorem bit_amOf (h : Word) : (amOf h).bit = h.getLsbD 12 := by
  unfold amOf; cases h.getLsbD 12 <;> rfl

theorem bit_dirOf (h : Word) : (dirOf h).bit = h.getLsbD 13 := by
  unfold dirOf; cases h.getLsbD 13 <;> rfl

theorem bit_modeOf (h : Word) : (modeOf h).bit = h.getLsbD 13 := by
  unfold modeOf; cases h.getLsbD 13 <;> rfl

theorem opOf_eq {h : Word} {n : Nat} (hn : (opOf h).toNat = n) : opOf h = BitVec.ofNat 8 n := by
  rw [← hn, BitVec.ofNat_toNat, BitVec.setWidth_eq]

theorem selects_maskInst_header (op : Byte) {n : Nat} (hn : n < 16) :
    selects maskInst (header op n false false 0) = true := by
  rw [selects_maskInst, opOf_header, instOf_header _ _ _ _ _ hn]

theorem selects_maskInstFl_header (op : Byte) {n : Nat} (hn : n < 16) (fl : Bool) :
    selects maskInstFl (header op n false fl 0) = true := by
  rw [selects_maskInstFl, opOf_header, instOf_header _ _ _ _ _ hn, bit13_header]

theorem selects_maskAmFlAddr_header (op : Byte) (am fl : Bool) (a : BitVec 10) :
    selects maskAmFlAddr (header op 0 am fl a) = true := by
  rw [selects_maskAmFlAddr, opOf_header, bit12_header, bit13_header, addrOf_header]

theorem selects_maskInstAmAddr_header (op : Byte) {n : Nat} (hn : n < 16) (am : Bool) (a : BitVec 10) :
    selects maskInstAmAddr (header op n am false a) = true := by
  rw [selects_maskInstAmAddr, opOf_header, instOf_header _ _ _ _ _ hn, bit12_header, addrOf_header]

theorem tableRow_of_selects {mask : Word} {w : Words} (h : selects mask w.h = true) (i : Instr) :
    tableRow mask w i = .ok i := if_pos h

theorem tableRow_ok {mask : Word} {w : Words} {i j : Instr} (h : tableRow mask w i = .ok j) :
    selects mask w.h = true ∧ i = j := by
  unfold tableRow at h
  split_ifs at h with hs
  exact ⟨hs, Except.ok.inj h⟩

theorem wf_iff (i : Instr) : i.wf = true ↔ ∀ n, i.index = some n → n < 16 := by
  unfold Instr.wf
  cases i.index <;> simp

/-- Settles O1: each field reads back what the encoder wrote, and the row's mask selects the header. -/
theorem decodeEncode : Obligations.DecodeEncode := by
  unfold Obligations.DecodeEncode
  intro i hwf
  cases i
  case encodeAddress am rw a =>
    simp only [decode, encode, opOf_header, amOf_header, dirOf_header, addrOf_header]
    exact tableRow_of_selects (selects_maskAmFlAddr_header _ _ _ _) _
  all_goals
    have hn := (wf_iff _).1 hwf _ rfl
    simp only [decode, encode, plain, opOf_header, instOf_header, hn, modeOf_header, ackOf_header, amOf_header,
      addrOf_header, regOf_arg, valOf_arg, lenOf_arg]
  case setTransferMode | blReceiveByte => exact tableRow_of_selects (selects_maskInstFl_header _ hn _) _
  case masterTransmit | masterReceive | masterWriteReg | masterReadReg | masterWriteRegs | masterReadRegs =>
    exact tableRow_of_selects (selects_maskInstAmAddr_header _ hn _ _) _
  all_goals exact tableRow_of_selects (selects_maskInst_header _ hn) _

/-- Settles O2: a row's mask selects the headers that are the encoder's header of the fields the row uses. -/
theorem decodedHeader : Obligations.DecodedHeader := by
  unfold Obligations.DecodedHeader
  intro w i h
  unfold decode at h
  split at h
  case h_25 => cases h
  all_goals
    rename_i hop
    obtain ⟨hs, rfl⟩ := tableRow_ok h
    simp only [selects_maskInst, selects_maskInstFl, selects_maskAmFlAddr, selects_maskInstAmAddr, opOf_eq hop] at hs
    refine ⟨(wf_iff _).2 ?_, ?_⟩
    · simp [Instr.index, instOf_lt]
    · simp only [encode, plain, bit_amOf, bit_dirOf, bit_modeOf, ackOf]
      exact hs

end Sys2Proof
end

section
/-! What follows from `decodedHeader`: the operation codes the host cannot use, and the header bits that are 0 in every
command (30_encoding.md R102, R103, R104, R114). -/

namespace Sys2Proof

/-- A header that decodes has the OP of its row, by `decodedHeader`. -/
theorem opOf_of_decode {w : Words} {i : Instr} (h : decode w = .ok i) : opOf w.h = Laws.EncodesOwnOp.opcode i := by
  rw [← (decodedHeader w i h).2]
  cases i <;> exact opOf_header _ _ _ _ _

theorem decode_of_decodeHost {w : Words} {i : Instr} (h : decodeHost w = .ok i) : decode w = .ok i := by
  unfold decodeHost at h
  split at h
  case h_1 j hj =>
    split_ifs at h
    rw [hj, h]
  case h_2 => cases h

/-- The 22 operation codes a host word can have (30_encoding.md R104). -/
def IsHostOp (op : Byte) : Prop :=
  (0x01 ≤ op.toNat ∧ op.toNat ≤ 0x0A) ∨ (0x10 ≤ op.toNat ∧ op.toNat ≤ 0x16) ∨ (0x20 ≤ op.toNat ∧ op.toNat ≤ 0x24)

theorem isHostOp_opcode {i : Instr} (h : i.internal = false) : IsHostOp (Laws.EncodesOwnOp.opcode i) := by
  unfold IsHostOp
  cases i
  case evIrq | erIrq => cases h
  all_goals simp [Laws.EncodesOwnOp.opcode]

theorem isHostOp_of_decodeHost {w : Words} {i : Instr} (h : decodeHost w = .ok i) : IsHostOp (opOf w.h) := by
  rw [opOf_of_decode (decode_of_decodeHost h)]
  exact isHostOp_opcode (Machine.internal_of_decodeHost h)

theorem decode_of_reservedOp {w : Words} (hop : ¬ IsHostOp (opOf w.h)) (hev : (opOf w.h).toNat ≠ 0x30)
    (her : (opOf w.h).toNat ≠ 0x31) : decode w = .error (.reservedOp (opOf w.h)) := by
  unfold IsHostOp at hop
  unfold decode
  split
  case h_25 => rfl
  all_goals omega

/-- Settles O3: no row has a reserved code, the code of a host word that decodes is one of the 22, which 0x30 and 0x31 are
not, and the host's move with a word that does not decode is refused. -/
theorem hostWordsRefused : Obligations.HostWordsRefused := by
  refine ⟨?reserved, ?internal, fun w i h => isHostOp_of_decodeHost h, fun w r s h => Machine.hostMove_of_undecoded h s⟩
  case reserved =>
    intro w hop
    rw [decodeHost, decode_of_reservedOp (by unfold IsHostOp; omega) (by omega) (by omega)]
  case internal =>
    intro w hop
    cases hw : decodeHost w with
    | error r => exact ⟨r, rfl⟩
    | ok i =>
      have hcode := isHostOp_of_decodeHost hw
      obtain hop | hop := hop <;> simp [hop, IsHostOp] at hcode

theorem reservedBits_header (op : Byte) (inst : Nat) (am fl : Bool) (a : BitVec 10) :
    (header op inst am fl a).extractLsb' 14 2 = 0 ∧ (header op inst am fl a).extractLsb' 26 6 = 0 := by
  constructor <;> refine BitVec.eq_of_getLsbD_eq fun j hj => ?_ <;>
    rw [BitVec.getLsbD_extractLsb', header_bit _ _ _ _ _ _ (by omega)]
  · interval_cases j <;> rfl
  · have hlow : ¬ 26 + j < 8 ∧ ¬ 26 + j < 12 ∧ ¬ 26 + j < 16 ∧ 26 + j ≠ 12 ∧ 26 + j ≠ 13 := by omega
    have hhigh : a.getLsbD (26 + j - 16) = false := BitVec.getLsbD_of_ge _ _ (by omega)
    simp [hlow, hhigh]

theorem addrField_header (op : Byte) (inst : Nat) (am fl : Bool) (a : BitVec 10) :
    (header op inst am fl a).extractLsb' 16 10 = a := addrOf_header _ _ _ _ _

theorem instField_header_zero (op : Byte) (am fl : Bool) (a : BitVec 10) :
    (header op 0 am fl a).extractLsb' 8 4 = 0 := by
  rw [← ofNat_instOf, instOf_header _ _ _ _ _ (by decide)]
  rfl

/-- Settles O4: the header is the encoding of the instruction it gives (`decodedHeader`), which sets the fields its command
uses alone (R102). -/
theorem reservedHeaderBits : Obligations.ReservedHeaderBits := by
  intro w i h
  rw [← (decodedHeader w i h).2]
  cases i
  all_goals
    refine ⟨(reservedBits_header _ _ _ _ _).1, (reservedBits_header _ _ _ _ _).2, ?_⟩
    simp only [encode, plain, opOf_header, bit12_header, bit13_header, addrField_header]
  case encodeAddress => simp [instField_header_zero]
  all_goals simp

/-- Settles O5: each word is decoded by the table. -/
theorem decodeWords : Obligations.DecodeWords := by
  unfold Obligations.DecodeWords
  decide

end Sys2Proof
end

section
/-! The bit-level commands on an SW instance (40_bit_level.md R150 to R156): a program runs on the claimed instance with no
turn, line by line, and the host's turns between its micro-steps then move the peripherals and the clock alone. -/

namespace Sys2Proof.Machine

/-- The program `ops` of command `c`, run on the claimed instance with no turn, returns Ok: the lines are left at `a` and `b`
after the events `es`, the draws at `e`, and the response is `r`. -/
def Returns (s : State) (c : Ctx) (ops : List Op) (a b : Bool) (r : Response) (es : List Event) (e : Env) : Prop :=
  run noTurn noTurn c ops {} (claimState s c.inst) =
    .next (finish c .ok r (lineState (claimState s c.inst) c.inst a b (es.reverse ++ s.trace) e))

section commands

variable {s : State} {c : Ctx} {ops : List Op} {r : Response} {a b : Bool} {es : List Event} {e : Env}

/-! ## What the programs return -/

/-- The claimed state in the form that the lemmas on lines run on. -/
theorem returns_iff (hi : c.inst < nInst s) : Returns s c ops a b r es e ↔
    run noTurn noTurn c ops {}
        (lineState (claimState s c.inst) c.inst (row s c.inst).drvSCL (row s c.inst).drvSDA s.trace s.env) =
      .next (finish c .ok r (lineState (claimState s c.inst) c.inst a b (es.reverse ++ s.trace) e)) := by
  rw [Returns, ← claimState_lines hi]

/-- Draws one after another (40_bit_level.md R141). -/
theorem drawSamples_eq (n : Nat) (s : State) : drawSamples n s =
    ((List.range n).map fun k => nextDraw (envAfter^[k] s.env), { s with env := envAfter^[n] s.env }) := by
  induction n generalizing s with
  | zero => rfl
  | succ n ih =>
    simp [drawSamples, drawSample_eq, ih, List.range_succ_eq_map, Function.iterate_succ_apply, Function.comp_def]

/-- Every list of eight bits is that of a byte, its first bit being bit 7 (20_memory.md R86). -/
theorem exists_byteBits (b7 b6 b5 b4 b3 b2 b1 b0 : Bool) :
    ∃ v, byteBits v = [b7, b6, b5, b4, b3, b2, b1, b0] :=
  ⟨bitsByte [b0, b1, b2, b3, b4, b5, b6, b7], by revert b7 b6 b5 b4 b3 b2 b1 b0; decide⟩

theorem bitDelayUs_claimState (hi : c.inst < nInst s) :
    (row (claimState s c.inst) c.inst).config.bitDelayUs = delayOf s c.inst := by
  rw [row_claimState hi, delayOf]

section programs

variable (hi : c.inst < nInst s)
include hi

theorem returns_start : Returns s c startOps false false {} (startEvents c.inst (delayOf s c.inst)) s.env := by
  have hrun := run_start ((nInst_claimState s c.inst).symm ▸ hi) (row s c.inst).drvSCL (row s c.inst).drvSDA s.trace
    s.env [] {}
  rwa [List.append_nil, bitDelayUs_claimState hi, run, ← returns_iff hi] at hrun

theorem returns_stop : Returns s c stopOps true true {} (stopEvents c.inst (delayOf s c.inst)) s.env := by
  have hrun := run_stop ((nInst_claimState s c.inst).symm ▸ hi) (row s c.inst).drvSCL (row s c.inst).drvSDA s.trace
    s.env [] {}
  rwa [List.append_nil, bitDelayUs_claimState hi, run, ← returns_iff hi] at hrun

theorem returns_softwareReset :
    Returns s c (lines softwareResetLines) true true {} (resetEvents c.inst (delayOf s c.inst)) s.env := by
  have hrun := run_softwareReset ((nInst_claimState s c.inst).symm ▸ hi) (row s c.inst).drvSCL (row s c.inst).drvSDA
    s.trace s.env [] {}
  rwa [List.append_nil, bitDelayUs_claimState hi, run, ← returns_iff hi] at hrun

/-- The ninth bit is the next draw, and the response's flag is its inverse (40_bit_level.md R146, R153). -/
theorem returns_sendByte (v : Byte) : Returns s c ([.byte v] ++ sendByteOps ++ [.ackToFlag]) false true
    { flag := !nextDraw s.env } (sendEvents c.inst (delayOf s c.inst) v (nextDraw s.env)) (envAfter s.env) := by
  have hrun := run_sendByte ((nInst_claimState s c.inst).symm ▸ hi) (row s c.inst).drvSCL (row s c.inst).drvSDA s.trace
    s.env [.ackToFlag] { byte := v }
  rw [bitDelayUs_claimState hi] at hrun
  rw [returns_iff hi]
  exact hrun

/-- The bits sampled are the next eight draws (40_bit_level.md R147, R154). -/
theorem returns_receiveByte (ack : Bool) {v : Byte} (hv : byteBits v = (drawSamples 8 s).1) :
    Returns s c (receiveByteOps ack ++ [.byteToResponse]) false true { byte := v }
      (receiveEvents c.inst (delayOf s c.inst) v ack) (drawSamples 8 s).2.env := by
  have hi' : c.inst < nInst (claimState s c.inst) := (nInst_claimState s c.inst).symm ▸ hi
  have hops : receiveByteOps ack ++ [.byteToResponse] = .line (.pin .sda true) :: .byte 0 :: (receiveBitOps 7 ++
      (receiveBitOps 6 ++ (receiveBitOps 5 ++ (receiveBitOps 4 ++ (receiveBitOps 3 ++ (receiveBitOps 2 ++
      (receiveBitOps 1 ++ (receiveBitOps 0 ++ (receiveAckOps ack ++ [.byteToResponse]))))))))) := by
    simp [receiveByteOps, bitsDown]
  rw [drawSamples_eq] at hv ⊢
  have hdraws : byteBits v = [nextDraw s.env, _, _, _, _, _, _, _] := hv
  simp only [byteBits, List.cons.injEq, and_true, Function.iterate_succ_apply', Function.iterate_zero_apply] at hdraws
  obtain ⟨h7, h6, h5, h4, h3, h2, h1, h0⟩ := hdraws
  rw [returns_iff hi, hops]
  simp only [run, ite_self, opStep, thenOp, noTurn, lineOp, writeSda_lineState hi', run_receiveBit hi', ← h7, ← h6, ← h5,
    ← h4, ← h3, ← h2, ← h1, ← h0, putBits]
  rw [receiveAckOps, run_lines hi', bitDelayUs_claimState hi]
  simp [lineOp, writeScl_lineState hi', writeSda_lineState hi', delay_lineState hi', bitDelayUs_claimState hi, receiveEvents,
    byteBits, run, opStep]

end programs

/-! ## From a program to its command -/

/-- A program of the SW engine returns the same with the host's turns, but for what these move. -/
theorem Returns.run (h : Returns s c ops a b r es e) (hi : c.inst < nInst s) (ho : (row s c.inst).opActive = false)
    (hq : NoIrq s) (hr : recordsError c.cmd = true) (hops : ops.all offBus = true) :
    ∃ t, Machine.run noTurn (turn none) c ops {} (claimState s c.inst) = .next t ∧
      AgentsMoved (returned { s with env := e } c.inst a b .ok c.cmd r es) t :=
  run_via noTurn_tame (turn_tame none) hops hq h (finish_lines hi hr ho .ok r a b es e s.mem)

/-- A BL command whose guard holds returns what its program does. -/
theorem Returns.bitCommand (h : Returns s c ops a b r es e) {held : Bool} (hinit : Initialized s [c.inst])
    (hk : (row s c.inst).config.kind = .sw) (hq : NoIrq s) (hscl : (row s c.inst).drvSCL = !held)
    (hr : recordsError c.cmd = true) (hops : ops.all offBus = true) :
    ∃ t, Machine.bitCommand (turn none) c held ops s = .next t ∧
      AgentsMoved (returned { s with env := e } c.inst a b .ok c.cmd r es) t := by
  obtain ⟨hi, -, ho, -⟩ := hinit _ List.mem_cons_self
  rw [bitCommand_held hinit hk hscl]
  exact h.run hi ho hq hr hops

/-- A BL command whose guard fails returns before it has touched a line. -/
theorem bitCommand_turned_away {held : Bool} (hi : c.inst < nInst s) (hn : (row s c.inst).initialized = true)
    (ho : (row s c.inst).opActive = false) (hr : recordsError c.cmd = true)
    (hg : (row s c.inst).config.kind = .hw ∨ (row s c.inst).drvSCL = held) (y : State → Out) :
    bitCommand y c held ops s =
      .next (returned s c.inst (row s c.inst).drvSCL (row s c.inst).drvSDA .invalidParameter c.cmd {} []) := by
  have hguard : ¬ ((row s c.inst).config.kind = .sw ∧ (row s c.inst).drvSCL = !held) := by
    rintro ⟨hsw, hscl⟩
    rcases hg with hhw | hheld
    · simp [hsw] at hhw
    · simp [hheld] at hscl
  unfold bitCommand
  rw [claimedInit_free hi ho hn]
  simp only [row_claimState hi, if_neg hguard, finish_claimState hi ho, hr, if_true]
  rfl

end commands

/-- Settles O15: both commands run the START sequence. -/
theorem blStart : Obligations.BlStart := by
  intro s i cmd h hk hq hcmd
  obtain ⟨hi, -⟩ := h i List.mem_cons_self
  obtain ⟨rfl, hscl⟩ | ⟨rfl, hscl⟩ := hcmd
  · exact (returns_start (c := ⟨i, .blStart i, s.words, false⟩) hi).bitCommand h hk hq hscl rfl offBus_start
  · exact (returns_start (c := ⟨i, .blRestart i, s.words, false⟩) hi).bitCommand h hk hq hscl rfl offBus_restart

/-- Settles O16: BL_STOP runs the STOP sequence. -/
theorem blStop : Obligations.BlStop := by
  intro s i h hk hq hscl
  obtain ⟨hi, -⟩ := h i List.mem_cons_self
  exact (returns_stop (c := ⟨i, .blStop i, s.words, false⟩) hi).bitCommand h hk hq hscl rfl offBus_stop

/-- Settles O18: the ninth bit of `returns_sendByte` is the draw the statement names. -/
theorem blSendByte : Obligations.BlSendByte := by
  intro s i v h hk hq hscl
  obtain ⟨hi, -⟩ := h i List.mem_cons_self
  rw [drawSample_eq]
  exact (returns_sendByte (c := ⟨i, .blSendByte i v, s.words, false⟩) hi v).bitCommand h hk hq hscl rfl (by simp [offBus])

/-- Settles O19: the byte is the one whose bits are the next eight draws. -/
theorem blReceiveByte : Obligations.BlReceiveByte := by
  intro s i ack h hk hq hscl
  obtain ⟨hi, -⟩ := h i List.mem_cons_self
  obtain ⟨v, hv⟩ : ∃ v, byteBits v = (drawSamples 8 s).1 := by
    rw [drawSamples_eq]
    exact exists_byteBits _ _ _ _ _ _ _ _
  have hret := returns_receiveByte (c := ⟨i, .blReceiveByte i ack, s.words, false⟩) hi ack hv
  obtain ⟨t, ht, hm⟩ := hret.bitCommand (held := true) h hk hq hscl rfl (by simp [offBus])
  exact ⟨v, t, hv, ht, hm⟩

/-- Settles O20: no command's guard holds. -/
theorem blGuards : Obligations.BlGuards := by
  intro s i cmd v ack hi hn ho hcmd
  obtain ⟨rfl, hg⟩ | ⟨rfl | rfl | rfl | rfl, hg⟩ := hcmd <;>
    exact bitCommand_turned_away hi hn ho rfl hg _

/-- Settles O21: SOFTWARE_RESET on an SW instance runs the lines of `softwareReset()`, whatever the drive was. -/
theorem softwareResetSW : Obligations.SoftwareResetSW := by
  intro s i h hk hq
  obtain ⟨hi, hn, ho, -⟩ := h i List.mem_cons_self
  refine ⟨rfl, rfl, ?_⟩
  have hexec : exec (.softwareReset i) s =
      run noTurn (turn none) ⟨i, .softwareReset i, s.words, false⟩ (lines softwareResetLines) {} (claimState s i) := by
    show cmdSoftwareReset (turn none) false i s = _
    unfold cmdSoftwareReset
    rw [claimedInit_free hi ho hn]
    simp only [row_claimState hi, hk]
  rw [hexec]
  exact (returns_softwareReset (c := ⟨i, .softwareReset i, s.words, false⟩) hi).run hi ho hq rfl (offBus_lines _)

end Sys2Proof.Machine
end

section
/-! SOFTWARE_RESET on an HW instance (40_bit_level.md R149): the command before its OPEN parameter, and what the programs of
00_scope.md R8 named in the statement do (log entry 9). -/

namespace Sys2Proof.Machine

/-- What SOFTWARE_RESET does on a free, initialized HW instance. -/
theorem exec_softwareReset_hw {s : State} {i : Nat} (hi : i < nInst s) (hn : (row s i).initialized = true)
    (ho : (row s i).opActive = false) (hk : (row s i).config.kind = .hw) :
    exec (.softwareReset i) s =
      if pending s i then .next (finish ⟨i, .softwareReset i, s.words, false⟩ .busy {} (claimState s i))
      else run noTurn (turn none) ⟨i, .softwareReset i, s.words, false⟩
        [.apply .hwSoftwareReset (instParams s.par i).hwSoftwareReset] {} (claimState s i) := by
  show cmdSoftwareReset (turn none) false i s = _
  unfold cmdSoftwareReset
  rw [claimedInit_free hi ho hn]
  simp only [row_claimState hi, hk, pending_claimState hi]
  rfl

@[simp] theorem dev_claimState (s : State) (i j : Nat) : dev (claimState s i) j = dev s j := rfl

/-! ## Programs of an OPEN parameter -/

/-- A program that ends the command with status `st`: it returns it, or goes on to the end with Ok (log entry 9). -/
def EndsWith (last : PolicyProg) (st : Status) : Prop := last = .ret st ∨ last = .rest ∧ st = .ok

/-- A value whose program comes to such an end, the command having no operation after it. -/
theorem run_apply_of_endsWith {y0 y y1 : State → Out} {c : Ctx} {p : OpenParam} {pol : Policy} {scr scr' : Scratch}
    {s u : State} {last : PolicyProg} {st : Status} (hlast : EndsWith last st)
    (h : applyPolicy y0 y c p pol scr s = runProg y c p last y1 scr' u) :
    run y0 y c [.apply p pol] scr s = .next (finish c st scr'.resp u) := by
  simp only [run, opStep, h]
  obtain rfl | ⟨rfl, rfl⟩ := hlast <;> rfl

/-- A value whose program comes to a jump: the command waits (log entry 1). -/
theorem run_apply_of_wait {y0 y : State → Out} {c : Ctx} {p : OpenParam} {pol : Policy} {scr scr' : Scratch} {s u : State}
    (h : applyPolicy y0 y c p pol scr s = .wait scr' u) :
    run y0 y c [.apply p pol] scr s = .next { u with seq := some ⟨c.inst, c.cmd, c.words, [.apply p pol], scr'⟩ } := by
  simp only [run, opStep, h]

/-- The test of BUSY in what a program has read of SR2 (10_state.md R47). -/
theorem testHolds_busy (sr2 : Half) (r : Inst) :
    testHolds (evalExpr [sr2.setWidth 32] r) (.eq (.and (.var 0) (.const 2)) (.const 0)) = !sr2.getLsbD 1 := by
  show (sr2.setWidth 32 &&& BitVec.twoPow 32 1 == 0#32) = _
  rw [BitVec.and_twoPow, BitVec.getLsbD_setWidth]
  cases sr2.getLsbD 1 <;> rfl

/-- Setting SWRST puts the peripheral at reset (43_hw_peripheral.md R264). -/
theorem periphWrite_swrst (p : Periph) : periphWrite .cr1 Cr1.swrst Cr1.swrst p = softResetPeriph p := by
  have hset : has (setBits (written .cr1 p.cr1 Cr1.swrst Cr1.swrst) (p.cr1 &&& Cr1.requests)) Cr1.swrst = true := by
    have hone : (Cr1.swrst &&& writableBits .cr1) &&& Cr1.swrst = BitVec.twoPow 16 15 := rfl
    have hbit : (setBits (written .cr1 p.cr1 Cr1.swrst Cr1.swrst) (p.cr1 &&& Cr1.requests)).getLsbD 15 = true := by
      simp [setBits, written, merge, hone]
    show (_ &&& BitVec.twoPow 16 15 != 0#16) = true
    rw [BitVec.and_twoPow, hbit]
    rfl
  simp only [periphWrite, periphWriteCR1, hset, if_true]

/-- Settles O22: the value's program is followed to its end, or to the jump where it waits. -/
theorem softwareResetHW : Obligations.SoftwareResetHW := by
  intro s i hi hp hk hn ho cmd pol back
  let c : Ctx := ⟨i, cmd, s.words, false⟩
  have hexec := exec_softwareReset_hw hi hn ho hk
  have hback : ∀ st, finish c st {} (claimState s i) = back s st [] := fun st => finish_claimState hi ho st {}
  have hback_access : ∀ st p e, finish c st {} (emit e (setDev (claimState s i) i p)) =
      back (emit e (setDev s i p)) st [] := fun st p e => finish_claimState (s := emit e (setDev s i p)) (c := c) hi ho st {}
  refine ⟨fun hpend => ?busy, fun hpend => ?free⟩
  case busy => rw [hexec, if_pos hpend, hback]
  case free =>
    rw [if_neg (by simp [hpend])] at hexec
    refine ⟨fun hpol => ?refuse, hexec, fun st last jumps hlast => ⟨fun hpol => ?ends, fun hpol => ?swrst, fun hpol => ?wait⟩⟩
    all_goals rw [show (instParams s.par i).hwSoftwareReset = _ from hpol] at hexec
    case refuse =>
      rw [hexec]
      simp only [run, opStep, applyPolicy_refuse, refusalOf]
    case ends => rw [hexec, run_apply_of_endsWith hlast rfl, hback]
    case swrst =>
      have happly : applyPolicy noTurn (turn none) c .hwSoftwareReset ⟨.act (.write (.swrst true)) last, jumps⟩ {}
          (claimState s i) = runProg (turn none) c .hwSoftwareReset last (turn none) { acted := true }
            (csrWrite i .cr1 Cr1.swrst Cr1.swrst (claimState s i)) := rfl
      have hdev : ∀ e, dev (back (emit e (setDev s i (softResetPeriph (dev s i)))) st []) i = softResetPeriph (dev s i) :=
        fun e => dev_setDev_self s i _ hp
      refine ⟨_, hexec.trans (run_apply_of_endsWith hlast happly), ?_⟩
      rw [csrWrite, periphWrite_swrst, dev_claimState, hback_access, hdev]
      exact ⟨rfl, rfl⟩
    case wait =>
      let u := emit (.csrR i .sr2 (dev s i).sr2) (setDev (claimState s i) i (periphReadSR2 (dev s i)))
      let scr : Scratch := { vars := [(dev s i).sr2.setWidth 32], acted := true }
      have happly : applyPolicy noTurn (turn none) c .hwSoftwareReset ⟨.act (.read 0 .sr2)
          (.test (.eq (.and (.var 0) (.const 2)) (.const 0)) last (.jump 0)), jumps⟩ {} (claimState s i) =
          if !(dev s i).sr2.getLsbD 1 then runProg (turn none) c .hwSoftwareReset last (turn none) scr u
          else .wait { scr with next := some 0 } u := by
        rw [← testHolds_busy _ (row u i)]
        rfl
      refine ⟨fun hbusy => ?_, fun hbusy => ?_⟩ <;> rw [hbusy] at happly
      · rw [hexec, run_apply_of_endsWith hlast happly]
        exact congrArg _ (hback_access st _ _)
      · rw [hpol]
        exact hexec.trans (run_apply_of_wait happly)

end Sys2Proof.Machine
end

section
/-! What an operation of one instance leaves alone. `Steady` lets a move write any row, so it cannot follow the line drives
of the rows (40_bit_level.md R157). Here the property may speak of the rows: an operation's own moves write its instance's
row alone, and the turns between them keep the property for their own reasons (20_memory.md R94, 45_hw_interrupt.md R335). -/

namespace Sys2Proof.Machine

/-- Row `q` has the claim and the line drives of row `r`. -/
def SameLines (r q : Inst) : Prop := q.opActive = r.opActive ∧ q.drvSCL = r.drvSCL ∧ q.drvSDA = r.drvSDA

/-- `P` survives what an operation of instance `i` does itself: a write of the instance's row, which leaves its claim and its
line drives alone unless `free`, and every change outside the Instance State Table but of the command in progress. -/
structure KeptAt (i : Nat) (free : Bool) (P : State → Prop) : Prop where
  setRow : ∀ {s : State} {r : Inst}, r.config = (row s i).config → free = true ∨ SameLines (row s i) r → P s →
    P (Machine.setRow s i r)
  change : ∀ {s : State} {pe : List Periph} {w : Words} {m : List Host.Cell} {k l : Word} {tr : List Event}
    {pl : List PinCall} {hs : List HostAct} {es : List Sched} {e : Env}, P s →
    P { s with peri := pe, words := w, mem := m, ticks := k, lastNow := l, trace := tr, pinLog := pl, host := hs
               sched := es, env := e }

namespace KeptAt

variable {i : Nat} {free : Bool} {P : State → Prop} (hP : KeptAt i free P) {s : State}
include hP

/-- A CSR access. -/
theorem access {j : Nat} {p : Periph} {e : Event} (hs : P s) : P (emit e (setDev s j p)) := hP.change (s := s) hs

theorem readLine (j : Nat) (l : Line) (hs : P s) : P (Machine.readLine j l s).2 := by
  unfold Machine.readLine drawSample
  split <;> exact hP.change (s := s) hs

theorem configurePin (port pin : Nat) (m : PinMode) (hs : P s) : P (Machine.configurePin port pin m s).2 := by
  unfold Machine.configurePin drawPinResult
  split <;> exact hP.change (s := s) hs

theorem readReg (j : Nat) (r : Reg) (hs : P s) : P (Machine.readReg j r s).2 := by
  cases r with
  | sr1 | sr2 | dr => exact hP.access hs
  | _ => exact hP.change hs

theorem memWrite {site : Site} {buf : Word} {k : Nat} {v : Byte} {t : State} (hs : P s)
    (h : Machine.memWrite site buf k v s = .ok t) : P t := by
  rw [(memWrite_ok h).2]
  exact hP.change hs

theorem writeLine (hf : free = true) (l : Line) (v : Bool) (hs : P s) : P (Machine.writeLine i l v s) :=
  hP.change (hP.setRow (config_setDrive _ l v) (.inl hf) hs)

theorem lineOp (hf : free = true) (op : LineOp) (hs : P s) : P (Machine.lineOp i op s) := by
  cases op with
  | pin l v => exact hP.writeLine hf l v hs
  | delay => exact hP.change hs

end KeptAt

/-- What an operation's answer keeps: `P` of every state it holds, `d` where the command returns, `w` where it waits. -/
def OpRes.Keeps (P : State → Prop) (d w : Prop) : OpRes → Prop
  | .go _ s => P s
  | .done _ _ s => P s ∧ d
  | .wait _ s => P s ∧ w
  | .fault _ => True
  | .refused _ => True

/-- An operation that can end its command. -/
def mayReturn : Op → Bool
  | .needAck => true
  | .swBusy => true
  | .scanBreak _ => true
  | .waitNotBusy _ => true
  | .waitFlag _ _ => true
  | .probeEnd _ _ => true
  | .asyncClaim _ _ _ _ => true
  | .configPin _ _ _ => true
  | .apply _ _ => true
  | _ => false

/-- An operation that can move the line drives of its instance. -/
def movesLines : Op → Bool
  | .line _ => true
  | .pinBit _ => true
  | .needAck => true
  | .resetRow => true
  | .apply _ _ => true
  | _ => false

section operations

variable {P : State → Prop} {y0 y : State → Out} {s : State} {d w : Prop}

theorem thenOp_keeps (hy : KeptBy P y) (hs : P s) {k : State → OpRes} (hk : ∀ u, P u → (k u).Keeps P d w) :
    (thenOp (y s) k).Keeps P d w := by
  cases hu : y s with
  | next u => exact hk u (hy s hs u hu)
  | fault f => trivial
  | refused r => trivial

variable {c : Ctx} {free : Bool} (hP : KeptAt c.inst free P)
include hP

theorem runLines_keeps (hf : free = true) (hy : KeptBy P y) (ops : List LineOp) (hs : P s) :
    Answers P (runLines y c.inst ops s) := by
  induction ops generalizing s with
  | nil => exact .next hs
  | cons op ops ih => exact .andThen (hy s hs) fun u hu => ih (hP.lineOp hf op hu)

/-! ## Waits -/

theorem beginWait_keeps (hy : KeptBy P y) (scr : Scratch) (hs : P s) {k : Word → State → OpRes}
    (hk : ∀ t u, P u → (k t u).Keeps P d w) : (beginWait y c scr s k).Keeps P d w := by
  unfold beginWait
  split_ifs
  · trivial
  · cases scr.t0 with
    | some t => exact hk t s hs
    | none => exact thenOp_keeps hy hs fun u hu => hk _ _ (hP.change hu)

theorem checkTime_keeps (hy : KeptBy P y) (t0 tmo : Word) (scr : Scratch) (hw : w) (hs : P s) {k : State → OpRes}
    (hk : ∀ u, P u → (k u).Keeps P d w) : (checkTime y t0 tmo scr s k).Keeps P d w := by
  refine thenOp_keeps hy hs fun u hu => ?_
  have hnow : P (now u).2 := hP.change hu
  simp only []
  split_ifs
  · exact hk _ hnow
  · exact ⟨hnow, hw⟩

theorem pollRound_keeps (h0 : KeptBy P y0) (hy : KeptBy P y) (f : Flag) (tmo : Word) (scr : Scratch) (hw : w) (hs : P s)
    {k : PollResult → Scratch → State → OpRes} (hk : ∀ p r u, P u → (k p r u).Keeps P d w) :
    (pollRound y0 y c f tmo scr s k).Keeps P d w := by
  refine beginWait_keeps hP h0 scr hs fun t u hu => thenOp_keeps hy hu fun v hv => ?_
  have hread : P (readSR1 c.inst v).2 := hP.access hv
  simp only []
  split_ifs
  · exact hk _ _ _ hread
  · exact hk _ _ _ hread
  · exact checkTime_keeps hP hy _ _ _ hw hread fun x hx => hk _ _ _ hx

theorem stopAndReturn_keeps (hy : KeptBy P y) (st : Status) (scr : Scratch) (hd : d) (hs : P s) :
    (stopAndReturn y c st scr s).Keeps P d w :=
  thenOp_keeps hy hs fun _ hu => ⟨hP.access hu, hd⟩

theorem waitFlagEnd_keeps (hy : KeptBy P y) (p : PollResult) (scr : Scratch) (hd : d) (hs : P s) :
    (waitFlagEnd y c p scr s).Keeps P d w := by
  cases p with
  | ok => exact hs
  | timeout => exact stopAndReturn_keeps hP hy _ scr hd hs
  | err e =>
    refine thenOp_keeps hy hs fun u hu => ?_
    have hclear : P (clearErrors c.inst e u) := hP.access hu
    simp only []
    split_ifs
    · exact ⟨hclear, hd⟩
    · exact stopAndReturn_keeps hP hy _ scr hd hclear

/-! ## The longer operations -/

theorem recordFound_keeps (buf : Word) (a : Byte) (scr : Scratch) (hs : P s) :
    (recordFound c buf a scr s).Keeps P d w := by
  unfold recordFound
  cases hm : memWrite (siteOf c 81) buf scr.resp.found.toNat a s with
  | error f => trivial
  | ok u =>
    simp only []
    cases succ16 scr.resp.found with
    | none => trivial
    | some n => exact hP.memWrite hs hm

theorem probeEnd_keeps (h0 : KeptBy P y0) (hy : KeptBy P y) (buf : Word) (a : Byte) (scr : Scratch) (hd : d) (hs : P s) :
    (probeEnd y0 y c buf a scr s).Keeps P d w := by
  unfold probeEnd
  cases scr.p with
  | ok =>
    exact thenOp_keeps h0 hs fun u hu => thenOp_keeps hy (hP.access hu) fun u hu => thenOp_keeps hy (hP.access hu) fun u hu =>
      thenOp_keeps hy (hP.access hu) fun u hu => recordFound_keeps hP buf a _ hu
  | timeout => exact thenOp_keeps h0 hs fun u hu => hP.access hu
  | err e =>
    refine thenOp_keeps h0 hs fun u hu => ?_
    have hclear : P (clearErrors c.inst e u) := hP.access hu
    simp only []
    split
    · exact ⟨hclear, hd⟩
    · exact stopAndReturn_keeps hP hy _ _ hd hclear
    · exact thenOp_keeps hy hclear fun v hv => hP.access hv

theorem asyncClaim_keeps (buf : Word) (len : Half) (a : BitVec 10) (dir : Dir) (scr : Scratch) (hd : d) (hs : P s) :
    (asyncClaim c buf len a dir scr s).Keeps P d w := by
  have hread : P (readSR2 c.inst s).2 := hP.access hs
  unfold asyncClaim
  split_ifs
  · exact ⟨hs, hd⟩
  · simp only []
    split_ifs
    · exact ⟨hread, hd⟩
    · exact hP.setRow rfl (.inr ⟨rfl, rfl, rfl⟩) hread

theorem shutDown_keeps (h0 : KeptBy P y0) (hy : KeptBy P y) (scr : Scratch) (hs : P s) :
    (shutDown y0 y c scr s).Keeps P d w := by
  have hrow : P (setRow s c.inst { row s c.inst with nvicEn := false }) := hP.setRow rfl (.inr ⟨rfl, rfl, rfl⟩) hs
  refine thenOp_keeps h0 hrow fun u hu => ?_
  iterate 3 refine thenOp_keeps hy (hP.access hu) fun u hu => ?_
  exact hP.access hu

theorem policyAct_keeps (hf : free = true) (p : OpenParam) (a : PolicyAct) (scr : Scratch) (hs : P s)
    {k : Scratch → State → OpRes} (hk : ∀ r u, P u → (k r u).Keeps P d w) : (policyAct c p a scr s k).Keeps P d w := by
  cases a with
  | set x e => exact hk _ _ hs
  | pin l v => exact hk _ _ (hP.writeLine hf l v hs)
  | sample x l => exact hk _ _ (hP.readLine _ l hs)
  | configurePin x l mode => exact hk _ _ (hP.configurePin _ _ mode hs)
  | write f =>
    refine hk _ _ ?_
    split_ifs
    · exact hP.access hs
    · exact hs
  | read x r => exact hk _ _ (hP.readReg _ r hs)
  | memRead x buf idx =>
    simp only [policyAct]
    split
    · exact hk _ _ hs
    · trivial
  | memWrite buf idx v =>
    simp only [policyAct]
    split
    next u hu => exact hk _ _ (hP.memWrite hs hu)
    next => trivial
  | store a => exact hk _ _ (hP.setRow (config_rowAct _ a _) (.inl hf) hs)
  | delay _ | enableClock _ | now _ => exact hk _ _ (hP.change hs)

theorem runProg_keeps (hf : free = true) (h0 : KeptBy P y0) (hy : KeptBy P y) (p : OpenParam) (q : PolicyProg)
    (scr : Scratch) (hd : d) (hw : w) (hs : P s) : (runProg y c p q y0 scr s).Keeps P d w := by
  induction q generalizing y0 scr s with
  | refuse => trivial
  | ret st => exact ⟨hs, hd⟩
  | rest => exact hs
  | act a next ih =>
    simp only [runProg]
    split_ifs
    · exact thenOp_keeps h0 hs fun u hu => policyAct_keeps hP hf p a _ hu fun r v hv => ih hy r hv
    · exact policyAct_keeps hP hf p a _ hs fun r v hv => ih h0 r hv
  | test b yes no ihYes ihNo =>
    simp only [runProg]
    split_ifs
    · exact ihYes h0 scr hs
    · exact ihNo h0 scr hs
  | jump k =>
    simp only [runProg]
    split_ifs
    · trivial
    · exact ⟨hs, hw⟩

theorem applyPolicy_keeps (hf : free = true) (h0 : KeptBy P y0) (hy : KeptBy P y) (p : OpenParam) (pol : Policy)
    (scr : Scratch) (hd : d) (hw : w) (hs : P s) : (applyPolicy y0 y c p pol scr s).Keeps P d w := by
  unfold applyPolicy
  cases scr.next with
  | none => exact runProg_keeps hP hf h0 hy p _ scr hd hw hs
  | some k => exact thenOp_keeps h0 hs fun u hu => runProg_keeps hP hf (keptBy_noTurn P) hy p _ _ hd hw hu

/-- Everything an operation can answer, one that moves lines only where these are free. -/
theorem opStep_keeps (h0 : KeptBy P y0) (hy : KeptBy P y) (op : Op) (hop : movesLines op = true → free = true)
    (scr : Scratch) (hs : P s) : (opStep y0 y c op scr s).Keeps P (mayReturn op = true) (mayWait op = true) := by
  cases op with
  | line l => exact thenOp_keeps h0 hs fun u hu => hP.lineOp (hop rfl) l hu
  | pinBit k => exact thenOp_keeps h0 hs fun u hu => hP.writeLine (hop rfl) _ _ hu
  | sampleBit k => exact thenOp_keeps h0 hs fun u hu => hP.readLine _ _ hu
  | sampleAck => exact thenOp_keeps h0 hs fun u hu => hP.readLine _ _ hu
  | needAck =>
    simp only [opStep]
    split_ifs
    · exact hs
    · exact thenOp_keeps (y := runLines y c.inst stopLines)
        (fun u hu => runLines_keeps hP (hop rfl) hy stopLines hu) hs fun u hu => ⟨hu, rfl⟩
  | swBusy =>
    refine thenOp_keeps h0 hs fun u hu => thenOp_keeps hy (hP.readLine _ _ hu) fun v hv => ?_
    simp only []
    split_ifs
    · exact ⟨hP.readLine _ _ hv, rfl⟩
    · exact hP.readLine _ _ hv
  | byte _ | ackToFlag | byteToResponse => exact hs
  | memRead buf k =>
    refine thenOp_keeps h0 hs fun u hu => ?_
    cases memRead (siteOf c 81) buf k u with
    | ok b => exact hu
    | error f => trivial
  | memWrite buf k =>
    refine thenOp_keeps h0 hs fun u hu => ?_
    cases hm : memWrite (siteOf c 81) buf k scr.byte u with
    | ok v => exact hP.memWrite hu hm
    | error f => trivial
  | scanBreak max =>
    simp only [opStep]
    split_ifs
    · exact ⟨hs, rfl⟩
    · exact hs
  | scanRecord buf a =>
    simp only [opStep]
    split_ifs
    · exact thenOp_keeps h0 hs fun u hu => recordFound_keeps hP buf a scr hu
    · exact hs
  | waitNotBusy tmo =>
    refine beginWait_keeps hP h0 scr hs fun t u hu => thenOp_keeps hy hu fun v hv => ?_
    have hread : P (readSR2 c.inst v).2 := hP.access hv
    simp only []
    split_ifs
    · exact checkTime_keeps hP hy _ _ _ rfl hread fun _ hx => ⟨hx, rfl⟩
    · exact hread
  | waitFlag f tmo =>
    exact pollRound_keeps hP h0 hy f tmo scr rfl hs fun p r u hu => waitFlagEnd_keeps hP hy p r rfl hu
  | probePoll f tmo =>
    simp only [opStep]
    cases scr.p with
    | ok => exact pollRound_keeps hP h0 hy f tmo scr rfl hs fun p r u hu => hu
    | timeout | err _ => exact hs
  | probeDR b =>
    simp only [opStep]
    cases scr.p with
    | ok => exact thenOp_keeps h0 hs fun u hu => hP.access hu
    | timeout | err _ => exact hs
  | probeEnd buf a => exact probeEnd_keeps hP h0 hy buf a scr rfl hs
  | csr _ _ _ | writeDR | readSR1 | readSR2 | readDR => exact thenOp_keeps h0 hs fun u hu => hP.access hu
  | asyncClaim buf len a dir => exact thenOp_keeps h0 hs fun u hu => asyncClaim_keeps hP buf len a dir scr rfl hu
  | enableClock port => exact thenOp_keeps h0 hs fun u hu => hP.change hu
  | configPin port pin mode =>
    refine thenOp_keeps h0 hs fun u hu => ?_
    simp only []
    split_ifs
    · exact hP.configurePin _ _ mode hu
    · exact ⟨hP.configurePin _ _ mode hu, rfl⟩
  | resetRow => exact hP.setRow rfl (.inl (hop rfl)) hs
  | setNvic _ | initRow | setMode _ => exact hP.setRow rfl (.inr ⟨rfl, rfl, rfl⟩) hs
  | abandon =>
    simp only [opStep]
    split_ifs
    · exact hP.setRow rfl (.inr ⟨rfl, rfl, rfl⟩) hs
    · exact hs
  | shutDown =>
    simp only [opStep]
    split_ifs
    · exact shutDown_keeps hP h0 hy scr hs
    · exact hs
  | apply p pol => exact applyPolicy_keeps hP (hop rfl) h0 hy p pol scr rfl rfl hs

end operations

/-- A program of any operations, the lines of its instance free. -/
theorem run_keeps {P : State → Prop} {c : Ctx} (hP : KeptAt c.inst true P)
    (hwait : ∀ {s : State} {q : Seq}, q.inst = c.inst → P s → P { s with seq := some q }) {y0 y : State → Out}
    (h0 : KeptBy P y0) (hy : KeptBy P y) (ops : List Op) (scr : Scratch) {s : State} (hs : P s) :
    Answers P (run y0 y c ops scr s) := by
  have hfinish : ∀ {t : State} (st : Status) (r : Response), P t → P (finish c st r t) := fun st r ht =>
    hP.change (hP.setRow rfl (.inl rfl) ht)
  induction ops generalizing y0 scr s with
  | nil => exact .next (hfinish _ _ hs)
  | cons op ops ih =>
    have hstep := opStep_keeps hP h0 hy op (fun _ => rfl) scr hs
    simp only [run]
    revert hstep
    cases opStep y0 y c op scr s with
    | go scr' u => exact fun hu => ih (by split_ifs <;> assumption) scr' hu
    | done st scr' u => exact fun hu => .next (hfinish _ _ hu.1)
    | wait scr' u => exact fun hu => .next (hwait rfl hu.1)
    | fault f => exact fun _ => .fault f
    | refused r => exact fun _ => .refused r

end Sys2Proof.Machine
end

section
/-! The line drives of every SW instance (40_bit_level.md R157): what holds of them between the micro-steps, while one or more
commands hold lines, and which programs of the SW engine leave the lines at a boundary state wherever they end. -/

namespace Sys2Proof.Machine

/-- One of the drives (1, 1), (0, 0) and (0, 1) of SCL and SDA (40_bit_level.md R157). -/
def onBoundary (d : Bool × Bool) : Bool := !d.1 || d.2

/-- The lines of an SW row: a command that is being executed holds them at `some d`, else they are at a boundary state. -/
def LinesAt : Option (Bool × Bool) → Inst → Prop
  | none, r => boundaryDrive r = true
  | some d, r => r.opActive = true ∧ r.drvSCL = d.1 ∧ r.drvSDA = d.2

theorem LinesAt.of_same {o : Option (Bool × Bool)} {r q : Inst} (h : LinesAt o r) (hq : SameLines r q) : LinesAt o q := by
  obtain ⟨hop, hscl, hsda⟩ := hq
  cases o with
  | none => simpa only [LinesAt, boundaryDrive, hscl, hsda] using h
  | some d => simpa only [LinesAt, hop, hscl, hsda] using h

/-- The instances have the kinds `k`, the lines of every SW instance are as `h` says, and a command that waits is one of an
HW instance. -/
structure Calm (k : Nat → Kind) (h : Nat → Option (Bool × Bool)) (s : State) : Prop where
  waits : ∀ q, s.seq = some q → k q.inst = .hw
  kinds : ∀ j, (row s j).config.kind = k j
  lines : ∀ j, k j = .sw → LinesAt (h j) (row s j)

/-- The same with the lines of instance `i` held at `d`. -/
abbrev hold (h : Nat → Option (Bool × Bool)) (i : Nat) (d : Bool × Bool) : Nat → Option (Bool × Bool) :=
  Function.update h i (some d)

namespace Calm

variable {k : Nat → Kind} {h : Nat → Option (Bool × Bool)} {s : State}

/-- A write of row `i`, after which the lines are as `h'` says. -/
theorem setRow {h' : Nat → Option (Bool × Bool)} (hs : Calm k h s) {i : Nat} {r : Inst} (hc : r.config = (row s i).config)
    (hi : i < nInst s) (hother : ∀ j, j ≠ i → h' j = h j) (hr : k i = .sw → LinesAt (h' i) r) :
    Calm k h' (Machine.setRow s i r) where
  waits := hs.waits
  kinds j := by
    by_cases hj : i = j
    · subst hj
      rw [row_setRow_self s i r hi, hc, hs.kinds]
    · rw [row_setRow_other s i j r hj, hs.kinds]
  lines j hsw := by
    by_cases hj : i = j
    · subst hj
      rw [row_setRow_self s i r hi]
      exact hr hsw
    · rw [row_setRow_other s i j r hj, hother j (Ne.symm hj)]
      exact hs.lines j hsw

theorem setRow_of_le {i : Nat} (hi : nInst s ≤ i) (r : Inst) : Machine.setRow s i r = s := by
  simp [Machine.setRow, List.set_eq_of_length_le hi]

/-- An operation that does not move the lines of its instance, or whose instance is an HW one, keeps those of every SW
instance. -/
theorem keptAt {i : Nat} {free : Bool} (hf : free = true → k i = .hw) : KeptAt i free (Calm k h) where
  setRow {s r} hc hfree hs := by
    by_cases hi : i < nInst s
    · refine hs.setRow hc hi (fun _ _ => rfl) fun hsw => ?_
      obtain hfree | hsame := hfree
      · simp [hf hfree] at hsw
      · exact (hs.lines i hsw).of_same hsame
    · rw [setRow_of_le (Nat.le_of_not_lt hi)]
      exact hs
  change hs := ⟨hs.waits, hs.kinds, hs.lines⟩

/-- A write of a row that moves no line. -/
theorem setRow_same (hs : Calm k h s) {i : Nat} {r : Inst} (hc : r.config = (row s i).config := by rfl)
    (hsame : SameLines (row s i) r := by exact ⟨rfl, rfl, rfl⟩) : Calm k h (Machine.setRow s i r) :=
  (keptAt (free := false) (by simp)).setRow hc (.inr hsame) hs

theorem seq {q : Option Seq} (hs : Calm k h s) (hq : ∀ x, q = some x → k x.inst = .hw) : Calm k h { s with seq := q } :=
  ⟨hq, hs.kinds, hs.lines⟩

theorem change (hs : Calm k h s) {pe : List Periph} {w : Words} {m : List Host.Cell} {t l : Word} {tr : List Event}
    {pl : List PinCall} {as : List HostAct} {es : List Sched} {e : Env} :
    Calm k h { s with peri := pe, words := w, mem := m, ticks := t, lastNow := l, trace := tr, pinLog := pl, host := as
                      sched := es, env := e } := ⟨hs.waits, hs.kinds, hs.lines⟩

section held

variable {i : Nat} {d : Bool × Bool} (hs : Calm k (hold h i d) s) (hk : k i = .sw)
include hs hk

theorem row_held : (row s i).opActive = true ∧ (row s i).drvSCL = d.1 ∧ (row s i).drvSDA = d.2 := by
  simpa [LinesAt] using hs.lines i hk

/-- An instance whose lines are held is one of the table. -/
theorem lt_nInst : i < nInst s := by
  by_contra hi
  have hrow : row s i = Inst.reset ⟨.sw, 0, 0, 0, 0, 0, 0, 0, 0⟩ := List.getD_eq_default _ _ (Nat.le_of_not_lt hi)
  have hop := (hs.row_held hk).1
  rw [hrow] at hop
  cases hop

/-- The command that holds the lines moves them. -/
theorem move {r : Inst} (hc : r.config = (row s i).config) (hop : r.opActive = (row s i).opActive) :
    Calm k (hold h i (r.drvSCL, r.drvSDA)) (Machine.setRow s i r) := by
  refine hs.setRow hc (hs.lt_nInst hk) (fun j hj => ?_) fun _ => ?_
  · simp [hj]
  · simp [LinesAt, hop.trans (hs.row_held hk).1]

/-- The command that holds the lines returns at a boundary state. -/
theorem finish {c : Ctx} (hi : c.inst = i) (hh : h i = none) (hd : onBoundary d = true) (st : Status) (r : Response) :
    Calm k h (Machine.finish c st r s) := by
  subst hi
  obtain ⟨-, hscl, hsda⟩ := hs.row_held hk
  refine (hs.setRow ?_ (hs.lt_nInst hk) (fun j hj => ?_) fun _ => ?_).change
  · rfl
  · simp [hj]
  · rw [hh]
    show (!(row s c.inst).drvSCL || (row s c.inst).drvSDA) = true
    rw [hscl, hsda]
    exact hd

end held

end Calm

/-! ## Programs of the SW engine -/

/-- The drive after a pin write or a delay. -/
def lineAfter (d : Bool × Bool) : LineOp → Bool × Bool
  | .pin .scl v => (v, d.2)
  | .pin .sda v => (d.1, v)
  | .delay => d

/-- The drives an operation can leave, from `d`: a bit sent is the byte's. -/
def linesAfter (d : Bool × Bool) : Op → List (Bool × Bool)
  | .line op => [lineAfter d op]
  | .pinBit _ => [(d.1, false), (d.1, true)]
  | .resetRow => [(true, true)]
  | _ => [d]

/-- An operation that can end its command with the lines as they are; SendChecked makes a STOP first (42_transactions.md
R204). -/
def returnsAsIs : Op → Bool
  | .needAck => false
  | op => mayReturn op

/-- From the drive `d`, the operations leave a boundary state wherever the command returns. -/
def Lands : List Op → Bool × Bool → Bool
  | [], d => onBoundary d
  | op :: ops, d => (!returnsAsIs op || onBoundary d) && (linesAfter d op).all (Lands ops)

/-- What an operation of the SW engine answers, its command holding the lines of instance `i` at `d`. -/
def OpRes.Moves (k : Nat → Kind) (h : Nat → Option (Bool × Bool)) (i : Nat) (op : Op) (d : Bool × Bool) : OpRes → Prop
  | .go _ t => ∃ d' ∈ linesAfter d op, Calm k (hold h i d') t
  | .done _ _ t => ∃ d', onBoundary d' = true ∧ Calm k (hold h i d') t
  | .wait _ _ => False
  | .fault _ => True
  | .refused _ => True

section operations

variable {k : Nat → Kind} {h : Nat → Option (Bool × Bool)} {y0 y : State → Out} {s : State} {c : Ctx} {d : Bool × Bool}

theorem thenOp_moves {i : Nat} (hy : KeptBy (Calm k (hold h i d)) y) (hs : Calm k (hold h i d) s) {op : Op}
    {f : State → OpRes} (hf : ∀ u, Calm k (hold h i d) u → (f u).Moves k h i op d) :
    (thenOp (y s) f).Moves k h i op d := by
  cases hu : y s with
  | next u => exact hf u (hy s hs u hu)
  | fault f => trivial
  | refused r => trivial

/-- An operation that moves no line. -/
theorem OpRes.Keeps.moves {i : Nat} {op : Op} {o : OpRes}
    (ho : o.Keeps (Calm k (hold h i d)) (mayReturn op = true) (mayWait op = true)) (hm : movesLines op = false)
    (hw : mayWait op = false) (hd : returnsAsIs op = true → onBoundary d = true) : o.Moves k h i op d := by
  have hafter : linesAfter d op = [d] := by cases op <;> simp [movesLines] at hm <;> rfl
  have hreturn : mayReturn op = true → returnsAsIs op = true := by cases op <;> simp [movesLines] at hm <;> exact id
  cases o with
  | go scr t => exact ⟨d, by rw [hafter]; exact List.mem_singleton_self d, ho⟩
  | done st scr t => exact ⟨d, hd (hreturn ho.2), ho.1⟩
  | wait scr t => exact absurd ho.2 (by simp [hw])
  | fault f => trivial
  | refused r => trivial

variable (hk : k c.inst = .sw)
include hk

theorem writeLine_calm (l : Line) (v : Bool) (hs : Calm k (hold h c.inst d) s) :
    Calm k (hold h c.inst (lineAfter d (.pin l v))) (writeLine c.inst l v s) := by
  obtain ⟨-, hscl, hsda⟩ := hs.row_held hk
  have hmove := hs.move hk (config_setDrive _ l v) (by cases l <;> rfl)
  cases l with
  | scl => rw [show lineAfter d (.pin .scl v) = (v, (row s c.inst).drvSDA) from Prod.ext rfl hsda.symm]; exact hmove.change
  | sda => rw [show lineAfter d (.pin .sda v) = ((row s c.inst).drvSCL, v) from Prod.ext hscl.symm rfl]; exact hmove.change

theorem lineOp_calm (op : LineOp) (hs : Calm k (hold h c.inst d) s) :
    Calm k (hold h c.inst (lineAfter d op)) (lineOp c.inst op s) := by
  cases op with
  | pin l v => exact writeLine_calm hk l v hs
  | delay => exact hs.change

variable (h0 : ∀ d, KeptBy (Calm k (hold h c.inst d)) y0) (hy : ∀ d, KeptBy (Calm k (hold h c.inst d)) y)
include hy

theorem runLines_calm (ops : List LineOp) (hs : Calm k (hold h c.inst d) s) :
    Answers (Calm k (hold h c.inst (ops.foldl lineAfter d))) (runLines y c.inst ops s) := by
  induction ops generalizing d s with
  | nil => exact .next hs
  | cons op ops ih => exact .andThen (hy d s hs) fun u hu => ih (lineOp_calm hk op hu)

include h0

theorem opStep_moves {op : Op} (ho : offBus op = true) (hd : returnsAsIs op = true → onBoundary d = true) (scr : Scratch)
    (hs : Calm k (hold h c.inst d) s) : (opStep y0 y c op scr s).Moves k h c.inst op d := by
  cases hm : movesLines op with
  | false =>
    have hkept : KeptAt c.inst false (Calm k (hold h c.inst d)) := Calm.keptAt (by simp)
    exact (opStep_keeps hkept (h0 d) (hy d) op (by simp [hm]) scr hs).moves hm (mayWait_of_offBus ho) hd
  | true =>
    cases op with
    | line op =>
      exact thenOp_moves (h0 d) hs fun u hu => ⟨_, List.mem_singleton_self _, lineOp_calm hk op hu⟩
    | pinBit n =>
      refine thenOp_moves (h0 d) hs fun u hu => ⟨_, ?_, writeLine_calm hk .sda _ hu⟩
      cases scr.byte.getLsbD n <;> simp [linesAfter, lineAfter]
    | needAck =>
      simp only [opStep]
      split_ifs
      · exact ⟨d, List.mem_singleton_self d, hs⟩
      · cases hr : runLines y c.inst stopLines s with
        | next u => exact ⟨(true, true), rfl, runLines_calm hk hy stopLines hs u hr⟩
        | fault f => trivial
        | refused r => trivial
    | resetRow =>
      refine ⟨(true, true), List.mem_singleton_self _, ?_⟩
      exact hs.move (r := { Inst.reset (row s c.inst).config with opActive := (row s c.inst).opActive }) hk rfl rfl
    | apply p pol => cases ho
    | _ => cases hm

/-- A program of the SW engine that leaves a boundary state wherever it returns. -/
theorem run_lands (hh : h c.inst = none) {ops : List Op} (hops : ops.all offBus = true) (hl : Lands ops d = true)
    (scr : Scratch) (hs : Calm k (hold h c.inst d) s) : Answers (Calm k h) (run y0 y c ops scr s) := by
  induction ops generalizing y0 d scr s with
  | nil => exact .next (hs.finish hk rfl hh hl _ _)
  | cons op ops ih =>
    simp only [List.all_cons, Bool.and_eq_true] at hops
    simp only [Lands, Bool.and_eq_true, Bool.or_eq_true, Bool.not_eq_true', List.all_eq_true] at hl
    obtain ⟨ho, hops⟩ := hops
    obtain ⟨hd, hnext⟩ := hl
    have hstep := opStep_moves hk h0 hy ho (fun hr => hd.resolve_left (by simp [hr])) scr hs
    simp only [run]
    revert hstep
    cases opStep y0 y c op scr s with
    | go scr' u =>
      rintro ⟨d', hmem, hu⟩
      exact ih (by split_ifs <;> assumption) hops (hnext d' hmem) scr' hu
    | done st scr' u =>
      rintro ⟨d', hd', hu⟩
      exact .next (hu.finish hk rfl hh hd' _ _)
    | wait scr' u => exact False.elim
    | fault f => exact fun _ => .fault f
    | refused r => exact fun _ => .refused r

end operations

/-! ## Which programs land -/

/-- A program of the SW engine that begins and ends at boundary states. -/
def Closed (ops : List Op) : Prop := ops.all offBus = true ∧ ∀ d, onBoundary d = true → Lands ops d = true

theorem lands_append {p q : List Op} (hq : ∀ d, onBoundary d = true → Lands q d = true) {d : Bool × Bool}
    (hp : Lands p d = true) : Lands (p ++ q) d = true := by
  induction p generalizing d with
  | nil => exact hq d hp
  | cons op p ih =>
    simp only [List.cons_append, Lands, Bool.and_eq_true, List.all_eq_true] at hp ⊢
    exact ⟨hp.1, fun d' hd' => ih (hp.2 d' hd')⟩

namespace Closed

theorem of_eval {ops : List Op} (ho : ops.all offBus = true)
    (h : (Lands ops (false, false) && Lands ops (false, true) && Lands ops (true, true)) = true) : Closed ops := by
  simp only [Bool.and_eq_true] at h
  refine ⟨ho, ?_⟩
  rintro ⟨_ | _, _ | _⟩ hd
  · exact h.1.1
  · exact h.1.2
  · cases hd
  · exact h.2

theorem append {p q : List Op} (hp : Closed p) (hq : Closed q) : Closed (p ++ q) :=
  ⟨by rw [List.all_append, hp.1, hq.1]; rfl, fun d hd => lands_append hq.2 (hp.2 d hd)⟩

theorem flatMap {α : Type} {f : α → List Op} (hf : ∀ a, Closed (f a)) (as : List α) : Closed (as.flatMap f) := by
  induction as with
  | nil => exact ⟨rfl, fun _ hd => hd⟩
  | cons a as ih => exact (hf a).append ih

theorem start : Closed startOps := of_eval rfl rfl
theorem stop : Closed stopOps := of_eval rfl rfl
theorem softwareReset : Closed (lines softwareResetLines) := of_eval rfl rfl
theorem swBusy : Closed [.swBusy] := of_eval rfl rfl

theorem sendByte : Closed sendByteOps :=
  (flatMap (f := sendBitOps) (fun _ => of_eval rfl rfl) bitsDown).append (q := sendAckOps) (of_eval rfl rfl)

theorem receiveByte (ack : Bool) : Closed (receiveByteOps ack) := by
  have hack : Closed (receiveAckOps ack) := by cases ack <;> exact of_eval rfl rfl
  have hfirst : Closed [.line (.pin .sda true), .byte 0] := of_eval rfl rfl
  exact (hfirst.append (flatMap (f := receiveBitOps) (fun _ => of_eval rfl rfl) bitsDown)).append hack

theorem sendChecked : Closed sendCheckedOps := sendByte.append (q := [.needAck]) (of_eval rfl rfl)

theorem sendAll (bs : List Byte) : Closed (sendAll bs) :=
  flatMap (fun b => append (p := [.byte b]) (of_eval rfl rfl) sendChecked) bs

theorem sendBuf (buf : Word) (n : Nat) : Closed (swSendBuf buf n) :=
  flatMap (fun j => append (p := [.memRead buf j]) (of_eval rfl rfl) sendChecked) _

theorem receiveBuf (buf : Word) (n : Nat) : Closed (swReceiveBuf buf n) :=
  flatMap (fun j => append (q := [.memWrite buf j]) (receiveByte _) (of_eval rfl rfl)) _

theorem ar (am : AddrMode) (a : BitVec 10) : Closed (swAR am a) := by
  cases am with
  | seven => exact sendAll _
  | ten => exact ((sendAll _).append start).append (sendAll _)

theorem swTransmit (am : AddrMode) (a : BitVec 10) (buf : Word) (n : Nat) : Closed (swTransmit am a buf n) :=
  (((swBusy.append start).append (sendAll _)).append (sendBuf buf n)).append stop

theorem swReceive (am : AddrMode) (a : BitVec 10) (buf : Word) (n : Nat) : Closed (swReceive am a buf n) :=
  (((swBusy.append start).append (ar am a)).append (receiveBuf buf n)).append stop

theorem swWriteReg (am : AddrMode) (a : BitVec 10) (reg val : Byte) : Closed (swWriteReg am a reg val) :=
  (((swBusy.append start).append (sendAll _)).append (sendAll _)).append stop

theorem swWriteRegs (am : AddrMode) (a : BitVec 10) (reg : Byte) (buf : Word) (n : Nat) :
    Closed (swWriteRegs am a reg buf n) :=
  ((((swBusy.append start).append (sendAll _)).append (sendAll _)).append (sendBuf buf n)).append stop

theorem swReadRegs (am : AddrMode) (a : BitVec 10) (reg : Byte) (buf : Word) (n : Nat) :
    Closed (swReadRegs am a reg buf n) :=
  ((((((swBusy.append start).append (sendAll _)).append (sendAll _)).append start).append (sendAll _)).append
    (receiveBuf buf n)).append stop

theorem swProbe (buf : Word) (max : Half) (a : BitVec 10) : Closed (swProbe buf max a) := by
  have hbegin : Closed [.scanBreak max, .swBusy] := of_eval rfl rfl
  have hbyte : Closed [.byte (enc7 a .write)] := of_eval rfl rfl
  have hrecord : Closed [.scanRecord buf (scanByte a)] := of_eval rfl rfl
  exact ((((hbegin.append start).append hbyte).append sendByte).append stop).append hrecord

theorem swScan (buf : Word) (max : Half) : Closed (swScan buf max) := swBusy.append (flatMap (swProbe buf max) scanRange)

end Closed

end Sys2Proof.Machine
end

section
/-! The boundary drives over whole steps (40_bit_level.md R157): commands, handlers with the commands of their callbacks, the
other agents' turns, and the step. -/

namespace Sys2Proof.Machine

/-! ## Commands -/

section commands

variable {k : Nat → Kind} {h : Nat → Option (Bool × Bool)} {y : State → Out} {s : State} (hs : Calm k h s)
include hs

/-- A command that returns before its program. -/
theorem finish_claimState_calm {c : Ctx} (hi : c.inst < nInst s) (ho : (row s c.inst).opActive = false) (st : Status)
    (r : Response) : Calm k h (finish c st r (claimState s c.inst)) := by
  rw [finish_claimState hi ho]
  exact hs.setRow_same.change

theorem kind_claimState (i j : Nat) : (row (claimState s i) j).config.kind = k j := by
  rw [config_claimState, hs.kinds]

/-- A command's program, on the claimed instance: on an SW instance it lands, on an HW one it moves no SW instance's lines. -/
theorem run_claimState_calm (hy : ∀ h, KeptBy (Calm k h) y) {c : Ctx} (hi : c.inst < nInst s)
    (ho : (row s c.inst).opActive = false) {ops : List Op} (hops : k c.inst = .sw → Closed ops) :
    Answers (Calm k h) (run noTurn y c ops {} (claimState s c.inst)) := by
  cases hk : k c.inst with
  | hw =>
    have hkept : KeptAt c.inst true (Calm k h) := Calm.keptAt fun _ => hk
    refine run_keeps hkept (fun hq hu => hu.seq ?_) (keptBy_noTurn _) (hy h) ops {} (hkept.setRow rfl (.inl rfl) hs)
    rintro x ⟨⟩
    rw [hq, hk]
  | sw =>
    obtain ⟨hoff, hlands⟩ := hops hk
    have hlines := hs.lines c.inst hk
    have hh : h c.inst = none := by
      cases hhold : h c.inst with
      | none => rfl
      | some d =>
        rw [hhold] at hlines
        simp [LinesAt, ho] at hlines
    rw [hh] at hlines
    have hclaim : Calm k (hold h c.inst ((row s c.inst).drvSCL, (row s c.inst).drvSDA)) (claimState s c.inst) :=
      hs.setRow rfl hi (fun j hj => by simp [hj]) fun _ => by simp [LinesAt]
    exact run_lands hk (fun _ => keptBy_noTurn _) (fun _ => hy _) hh hoff (hlands (_, _) hlines) {} hclaim

theorem claimed_calm {c : Ctx} {f : State → Out}
    (hf : c.inst < nInst s → (row s c.inst).opActive = false → Answers (Calm k h) (f (claimState s c.inst))) :
    Answers (Calm k h) (claimed c s f) := by
  unfold claimed
  split_ifs with hi ho
  · exact .fault _
  · exact hf hi (Bool.eq_false_of_not_eq_true ho)
  · exact .next hs.change

theorem claimedInit_calm {c : Ctx} {f : State → Out}
    (hf : c.inst < nInst s → (row s c.inst).opActive = false → Answers (Calm k h) (f (claimState s c.inst))) :
    Answers (Calm k h) (claimedInit c s f) :=
  claimed_calm hs fun hi ho => by
    split_ifs
    · exact hf hi ho
    · exact .next (finish_claimState_calm hs hi ho _ _)

theorem indexed_calm (cmd : Instr) (i : Nat) {f : State → State} (hf : Calm k h (f s)) :
    Answers (Calm k h) (indexed cmd i s f) := by
  unfold indexed
  split_ifs
  · exact .next hf
  · exact .next hs.change

theorem cmdSetCallback_calm (i : Nat) (cb ud : Word) : Answers (Calm k h) (cmdSetCallback i cb ud s) := by
  have hrow : Calm k h (setRow s i { row s i with callback := cb, userData := ud }) :=
    hs.setRow_same
  exact indexed_calm hs _ i hrow.change

variable (hy : ∀ h, KeptBy (Calm k h) y)
include hy

theorem cmdInit_calm (b : Bool) (i : Nat) : Answers (Calm k h) (cmdInit y b i s) := by
  have hsw : ∀ c, Closed (initSwOps c) := fun c => .of_eval rfl rfl
  unfold cmdInit
  refine claimed_calm hs fun hi ho => ?_
  simp only []
  split_ifs
  · exact .next (finish_claimState_calm hs hi ho _ _)
  · split
    · exact run_claimState_calm hs hy hi ho fun _ => hsw _
    next hk => exact run_claimState_calm hs hy hi ho fun hsw => by simp [kind_claimState hs, hsw] at hk
  · exact .next (finish_claimState_calm hs hi ho _ _)

theorem cmdDeinit_calm (b : Bool) (i : Nat) : Answers (Calm k h) (cmdDeinit y b i s) := by
  unfold cmdDeinit
  refine claimed_calm hs fun hi ho => ?_
  simp only []
  split_ifs with hk
  · exact run_claimState_calm hs hy hi ho fun hsw => by simp [kind_claimState hs, hsw] at hk
  · refine run_claimState_calm hs hy hi ho fun hsw => ?_
    have hkind := (kind_claimState hs i i).trans hsw
    unfold deinitOps
    rw [hkind]
    simp only []
    split_ifs <;> exact .of_eval rfl rfl

theorem cmdSetTransferMode_calm (b : Bool) (i : Nat) (m : TransferMode) :
    Answers (Calm k h) (cmdSetTransferMode y b i m s) := by
  refine claimedInit_calm hs fun hi ho => run_claimState_calm hs hy hi ho fun hsw => ?_
  rw [kind_claimState hs, hsw]
  cases m <;> exact .of_eval rfl rfl

theorem cmdSoftwareReset_calm (b : Bool) (i : Nat) : Answers (Calm k h) (cmdSoftwareReset y b i s) := by
  refine claimedInit_calm hs fun hi ho => ?_
  split
  · exact run_claimState_calm hs hy hi ho fun _ => .softwareReset
  next hk =>
    split_ifs
    · exact .next (finish_claimState_calm hs hi ho _ _)
    · exact run_claimState_calm hs hy hi ho fun hsw => by simp [kind_claimState hs, hsw] at hk

theorem bitCommand_calm (c : Ctx) (held : Bool) {ops : List Op} (hops : Closed ops) :
    Answers (Calm k h) (bitCommand y c held ops s) := by
  refine claimedInit_calm hs fun hi ho => ?_
  simp only []
  split_ifs
  · exact run_claimState_calm hs hy hi ho fun _ => hops
  · exact .next (finish_claimState_calm hs hi ho _ _)

theorem cmdIsBusBusy_calm (i : Nat) : Answers (Calm k h) (cmdIsBusBusy y i s) := by
  have hkept : KeptAt i false (Calm k h) := Calm.keptAt (by simp)
  unfold cmdIsBusBusy
  split_ifs
  · exact .andThen (hy h _ (hkept.readLine i .sda hs)) fun u hu => .next (hkept.readLine i .scl hu).change
  · refine indexed_calm hs _ i ?_
    split_ifs
    · exact (hkept.readReg i .sr2 hs).change
    · exact hs.change

/-- A transaction whose program on an SW instance lands (42_transactions.md R200). -/
theorem transact_calm (i : Nat) (cmd : Instr) (ws : Words) (b : Bool) (ok async : Inst → Bool) {prog : State → List Op}
    (hprog : ∀ t, (row t i).config.kind = .sw → Closed (prog t)) :
    Answers (Calm k h) (transact y ⟨i, cmd, ws, b⟩ ok async prog s) := by
  refine claimedInit_calm hs fun hi ho => ?_
  simp only []
  split_ifs
  · exact .next (finish_claimState_calm hs hi ho _ _)
  · exact run_claimState_calm hs hy hi ho fun hsw => hprog _ ((kind_claimState hs _ _).trans hsw)
  · exact .next (finish_claimState_calm hs hi ho _ _)

/-- Every command leaves the lines of every SW instance at a boundary state, but for those held by another command. -/
theorem commandWith_calm (b : Bool) (cmd : Instr) : Answers (Calm k h) (commandWith y b cmd s) := by
  cases cmd
  case init i => exact cmdInit_calm hs hy b i
  case deinit i => exact cmdDeinit_calm hs hy b i
  case setTransferMode i m => exact cmdSetTransferMode_calm hs hy b i m
  case setCallback i cb ud => exact cmdSetCallback_calm hs i cb ud
  case isInitialized i => exact indexed_calm hs _ i hs.change
  case isBusBusy i => exact cmdIsBusBusy_calm hs hy i
  case getConfig i => exact indexed_calm hs _ i hs.change
  case softwareReset i => exact cmdSoftwareReset_calm hs hy b i
  case getXferStatus i => exact indexed_calm hs _ i hs.change
  case encodeAddress am rw a => exact .next hs.change
  case masterTransmit i am a buf len tmo =>
    simp only [commandWith, cmdMasterTransmit]
    refine transact_calm hs hy i _ _ b _ _ fun t ht => ?_
    rw [ht]
    exact .swTransmit am a buf _
  case masterReceive i am a buf len tmo =>
    simp only [commandWith, cmdMasterReceive]
    refine transact_calm hs hy i _ _ b _ _ fun t ht => ?_
    rw [ht]
    exact .swReceive am a buf _
  case masterWriteReg i am a reg val tmo =>
    simp only [commandWith, cmdMasterWriteReg]
    refine transact_calm hs hy i _ _ b _ _ fun t ht => ?_
    rw [ht]
    exact .swWriteReg am a reg val
  case masterReadReg i am a reg out tmo =>
    simp only [commandWith, cmdMasterReadReg]
    refine transact_calm hs hy i _ _ b _ _ fun t ht => ?_
    rw [ht]
    exact .swReadRegs am a reg out 1
  case masterWriteRegs i am a reg buf len tmo =>
    simp only [commandWith, cmdMasterWriteRegs]
    refine transact_calm hs hy i _ _ b _ _ fun t ht => ?_
    rw [ht]
    exact .swWriteRegs am a reg buf _
  case masterReadRegs i am a reg buf len tmo =>
    simp only [commandWith, cmdMasterReadRegs]
    refine transact_calm hs hy i _ _ b _ _ fun t ht => ?_
    rw [ht]
    exact .swReadRegs am a reg buf _
  case scanBus i buf max =>
    simp only [commandWith, cmdScanBus]
    refine transact_calm hs hy i _ _ b _ _ fun t ht => ?_
    rw [ht]
    exact .swScan buf max
  case blStart i => exact bitCommand_calm hs hy _ _ .start
  case blStop i => exact bitCommand_calm hs hy _ _ .stop
  case blRestart i => exact bitCommand_calm hs hy _ _ .start
  case blSendByte i val =>
    have hbyte : Closed [.byte val] := .of_eval rfl rfl
    exact bitCommand_calm hs hy _ _ ((hbyte.append .sendByte).append (.of_eval rfl rfl))
  case blReceiveByte i ack => exact bitCommand_calm hs hy _ _ ((Closed.receiveByte ack).append (.of_eval rfl rfl))
  case evIrq => exact .refused _
  case erIrq => exact .refused _

end commands

/-! ## The callback and the handlers -/

section handlers

variable {k : Nat → Kind} {h : Nat → Option (Bool × Bool)} (lent : Option (Nat × Word)) {s : State} (hs : Calm k h s)
include hs

theorem hostTouch_calm (buf : Word) (j : Half) (v : Option Byte) : Answers (Calm k h) (hostTouch lent buf j v s) := by
  have hkept : KeptAt 0 false (Calm k h) := Calm.keptAt (by simp)
  unfold hostTouch
  split
  · exact .fault _
  · cases v with
    | none =>
      simp only []
      split
      · exact .next hs
      · exact .fault _
    | some b =>
      simp only []
      split
      next u hu => exact .next (hkept.memWrite hs hu)
      next => exact .fault _

theorem nestedAct_calm (a : HostAct) : Answers (Calm k h) (nestedAct lent a s) := by
  cases a with
  | command w =>
    simp only [nestedAct]
    split
    · rw [nestedExec_eq_commandWith]
      exact commandWith_calm hs.change (fun _ => keptBy_noTurn _) true _
    · exact .refused _
  | readBuf buf j => exact hostTouch_calm lent hs buf j none
  | writeBuf buf j v => exact hostTouch_calm lent hs buf j (some v)

theorem nestedActs_calm (as : List HostAct) : Answers (Calm k h) (nestedActs lent as s) := by
  induction as generalizing s with
  | nil => exact .next hs
  | cons a as ih => exact .andThen (nestedAct_calm lent hs a) fun u hu => ih hu

theorem callback_calm (i : Nat) (st : Status) : Answers (Calm k h) (callback lent i st s) := by
  unfold callback
  split_ifs
  · exact .next hs
  · refine nestedActs_calm lent ?_ _
    unfold drawCall
    split <;> exact hs.change (s := s)

/-! The handlers write their own row, which is an HW instance's. -/

theorem completeXfer_calm (i : Nat) (stop : Bool) : Answers (Calm k h) (completeXfer lent i stop s) := by
  have hstop : Calm k h (if stop then setCr1 i Cr1.stop s else s) := by
    split_ifs
    · exact hs.change
    · exact hs
  have hclear : Calm k h (clearEnables i (if stop then setCr1 i Cr1.stop s else s)) := hstop.change
  exact callback_calm lent (hclear.setRow_same) i .ok

theorem setXfer_calm (i : Nat) (x : Xfer) : Calm k h (setXfer i x s) := hs.setRow_same

theorem evAddress_calm (i : Nat) : Answers (Calm k h) (evAddress i s) := by
  refine .next (setXfer_calm (Calm.change ?_) i _)
  split_ifs
  · exact hs.change
  · exact hs.change

theorem evTxByte_calm (site : Site) (i : Nat) : Answers (Calm k h) (evTxByte site i s) := by
  simp only [evTxByte]
  split
  · exact .fault _
  next b hb =>
    have hsent : Calm k h (setXfer i { (row s i).xfer with idx := (row s i).xfer.idx + 1 } (writeDR i b s)) :=
      setXfer_calm hs.change i _
    split_ifs
    · exact .next hsent.change
    · exact .next hsent

theorem evRxByte_calm (site : Site) (i : Nat) : Answers (Calm k h) (evRxByte lent site i s) := by
  have hkept : KeptAt i false (Calm k h) := Calm.keptAt (by simp)
  simp only [evRxByte]
  split
  · exact .fault _
  next t ht =>
    have hstored : Calm k h t := hkept.memWrite (s := (readDR i s).2) hs.change ht
    split
    · exact .refused _
    next n hn =>
      have hidx : Calm k h (setXfer i { (row s i).xfer with idx := n } t) := setXfer_calm hstored i _
      have hack : Calm k h (if n = (row s i).xfer.len - 1 then
          csrWrite i .cr1 Cr1.ack 0 (setXfer i { (row s i).xfer with idx := n } t)
          else setXfer i { (row s i).xfer with idx := n } t) := by
        split_ifs
        · exact hidx.change
        · exact hidx
      split
      · exact .refused _
      · split
        · exact completeXfer_calm lent hack i _
        · exact .next hack

theorem evHandler_calm (i : Nat) : Answers (Calm k h) (evHandler lent i s) := by
  have hread : Calm k h (readSR1 i s).2 := hs.change
  simp only [evHandler]
  split
  · exact .next hread
  · split
    · exact .fault _
    · exact .fault _
    · split
      · exact .next (setXfer_calm hread.change i _)
      · exact .fault _
    · split
      · exact evAddress_calm hread i
      · exact .fault _
    · split
      · split
        · exact evTxByte_calm hread _ i
        · split
          · exact completeXfer_calm lent hread i true
          · exact .fault _
      · split
        · exact evRxByte_calm lent hread _ i
        · exact .fault _

theorem erHandler_calm (i : Nat) : Answers (Calm k h) (erHandler lent i s) := by
  have hclear : ∀ e, Calm k h (clearErrors i e (readSR1 i s).2) := fun e => hs.change
  have hend : ∀ {u : State}, Calm k h u →
      Calm k h (csrWrite i .cr2 Cr2.iterren 0 (csrWrite i .cr2 Cr2.itbufen 0 (csrWrite i .cr2 Cr2.itevten 0 u))) :=
    fun hu => hu.change
  have hstop : ∀ e, Calm k h (setCr1 i Cr1.stop (clearErrors i e (readSR1 i s).2)) := fun e => (hclear e).change
  simp only [erHandler]
  split_ifs
  · exact .fault _
  · exact callback_calm lent ((hend (hclear _)).setRow_same) i _
  · exact callback_calm lent ((hend (hstop _)).setRow_same) i _

theorem serveInterrupt_calm : Answers (Calm k h) (serveInterrupt lent s) := by
  unfold serveInterrupt
  split
  · unfold cmdErIrq
    split_ifs
    · exact erHandler_calm lent hs _
    · exact .fault _
  · unfold cmdEvIrq
    split_ifs
    · exact evHandler_calm lent hs _
    · exact .fault _
  · exact .next hs

/-! ## The other agents' turn and the step -/

theorem agentStep_calm (e : Sched) : Answers (Calm k h) (agentStep lent e s) := by
  cases e with
  | block => exact .next hs
  | peri i p =>
    simp only [agentStep, periphStep]
    split_ifs
    · exact .next (hs.change (s := s))
    · exact .next hs
  | tick d =>
    simp only [agentStep, advanceClock]
    split_ifs
    · exact .next hs.change
    · exact .next hs
  | irq => exact serveInterrupt_calm lent hs

end handlers

theorem turn_calm (k : Nat → Kind) (lent : Option (Nat × Word)) (h : Nat → Option (Bool × Bool)) :
    KeptBy (Calm k h) (turn lent) := by
  intro s hs
  unfold turn
  generalize s.sched = es
  induction es generalizing s with
  | nil => exact .next hs.change
  | cons e es ih =>
    have hcons : Answers (Calm k h) (andThen (agentStep lent e s) (turnFrom lent es)) :=
      .andThen (agentStep_calm lent hs e) fun u hu => ih u hu
    cases e with
    | block => exact .next hs.change
    | peri i p => exact hcons
    | tick d => exact hcons
    | irq => exact hcons

section step

variable {k : Nat → Kind} {h : Nat → Option (Bool × Bool)} {s : State} (hs : Calm k h s)
include hs

/-- The command in progress is an HW instance's, whose operations move no SW instance's lines. -/
theorem resume_calm {q : Seq} (hq : s.seq = some q) : Answers (Calm k h) (resume q s) := by
  have hk : k q.inst = .hw := hs.waits q hq
  have hturn : KeptBy (Calm k h) (turn (lentBy q.cmd)) := turn_calm k _ h
  refine run_keeps (Calm.keptAt fun _ => hk) (fun hi hu => hu.seq ?_) hturn hturn q.ops q.scr (hs.seq (by simp))
  rintro x ⟨⟩
  rw [hi, hk]

theorem hostMove_calm (a : HostAct) : Answers (Calm k h) (hostMove a s) := by
  cases a with
  | command w =>
    cases hw : decodeHost w with
    | ok cmd =>
      rw [hostMove_of_decoded hw, exec_eq_commandWith (internal_of_decodeHost hw)]
      exact commandWith_calm hs.change (turn_calm k _) false cmd
    | error r =>
      rw [hostMove_of_undecoded hw]
      exact .refused _
  | readBuf buf j => exact hostTouch_calm none hs buf j none
  | writeBuf buf j v => exact hostTouch_calm none hs buf j (some v)

theorem hostTurn_calm : Answers (Calm k h) (hostTurn s) := by
  cases hh : s.host with
  | nil =>
    rw [hostTurn_of_nil hh]
    exact .next hs
  | cons a as =>
    rw [hostTurn_of_cons hh]
    exact hostMove_calm hs.change a

theorem step_calm : Answers (Calm k h) (step s) := by
  intro t ht
  have hm := noFault_of_step ht
  revert ht
  cases hq : s.seq with
  | some q =>
    rw [step_of_inProgress hm hq]
    exact resume_calm hs hq t
  | none =>
    rw [step_of_noFault hm, unmarkedStep, hq]
    exact Answers.andThen (turn_calm k none h s hs) (fun u hu => hostTurn_calm hu) t

end step

/-! ## Between steps no command holds the lines -/

theorem boundaryDrive_row {s : State} (hs : AtBoundary s) {j : Nat} (hj : (row s j).config.kind = .sw) :
    boundaryDrive (row s j) = true := by
  by_cases hlt : j < s.inst.length
  · have hmem : row s j ∈ s.inst := by
      rw [show row s j = s.inst[j] from List.getD_eq_getElem _ _ hlt]
      exact List.getElem_mem hlt
    exact hs.2 _ hmem hj
  · rw [show row s j = Inst.reset ⟨.sw, 0, 0, 0, 0, 0, 0, 0, 0⟩ from List.getD_eq_default _ _ (Nat.le_of_not_lt hlt)]
    rfl

theorem calm_of_atBoundary {s : State} (hs : AtBoundary s) :
    Calm (fun j => (row s j).config.kind) (fun _ => none) s where
  waits := hs.1
  kinds _ := rfl
  lines _ hj := boundaryDrive_row hs hj

theorem Calm.atBoundary {k : Nat → Kind} {s : State} (hs : Calm k (fun _ => none) s) : AtBoundary s := by
  refine ⟨fun q hq => (hs.kinds _).trans (hs.waits q hq), fun r hr hsw => ?_⟩
  obtain ⟨j, hj, rfl⟩ := List.getElem_of_mem hr
  have hrow : row s j = s.inst[j] := List.getD_eq_getElem _ _ hj
  rw [← hrow] at hsw ⊢
  exact hs.lines j ((hs.kinds j).symm.trans hsw)

theorem powerOn_atBoundary (par : Params) (cs : List InstConfig) : AtBoundary (State.powerOn par cs) := by
  refine ⟨by rintro q ⟨⟩, fun r hr _ => ?_⟩
  obtain ⟨c, -, rfl⟩ := List.mem_map.mp hr
  rfl

theorem mem_of_boundaryDrive {r : Inst} (h : boundaryDrive r = true) :
    (r.drvSCL, r.drvSDA) ∈ [(true, true), (false, false), (false, true)] := by
  unfold boundaryDrive at h
  cases hscl : r.drvSCL with
  | false => cases r.drvSDA <;> simp
  | true =>
    have hsda : r.drvSDA = true := by simpa [hscl] using h
    simp [hsda]

/-- Settles O17: a command of an SW instance never waits, so a step that begins with no lines held ends so; the other
agents' moves and the callback's commands leave held lines alone, and every program of the SW engine leaves a boundary state
wherever it returns. -/
theorem driveBoundary : Obligations.DriveBoundary := by
  refine ⟨?step, ?reset, ?values⟩
  case step => exact fun s t hs ht => (step_calm (calm_of_atBoundary hs) t ht).atBoundary
  case reset => exact powerOn_atBoundary
  case values => exact fun s i hs _ hsw => mem_of_boundaryDrive (boundaryDrive_row hs hsw)

end Sys2Proof.Machine
end

section
/-! The address encoder (41_address_encoder.md R180 to R190): the bytes it forms as numbers, the addresses at which a 7-bit
byte is a 10-bit header, and the transactions that its range turns away. -/

namespace Sys2Proof.Machine

/-! ## The bytes as numbers -/

theorem enc7_eq_concat (a : BitVec 10) (rw : Dir) : enc7 a rw = (a.extractLsb' 0 7).concat rw.bit := rfl

theorem hdr10_eq_concat (a : BitVec 10) (rw : Dir) : hdr10 a rw = (0b11110#5 ++ a.extractLsb' 8 2).concat rw.bit := rfl

theorem toNat_dirBit (rw : Dir) : rw.bit.toNat = if rw = .read then 1 else 0 := by
  cases rw <;> rfl

theorem toNat_enc7 (a : BitVec 10) (rw : Dir) :
    (enc7 a rw).toNat = 2 * (a.toNat % 128) + (if rw = .read then 1 else 0) := by
  rw [enc7_eq_concat, BitVec.toNat_concat, toNat_dirBit, BitVec.extractLsb'_toNat, Nat.shiftRight_zero, Nat.mul_comm]

theorem toNat_hdr10 (a : BitVec 10) (rw : Dir) :
    (hdr10 a rw).toNat = 0xF0 + 2 * (a.toNat / 256) + (if rw = .read then 1 else 0) := by
  have htop : (a.extractLsb' 8 2).toNat = a.toNat / 256 := by
    rw [BitVec.extractLsb'_toNat, Nat.shiftRight_eq_div_pow]
    omega
  rw [hdr10_eq_concat, BitVec.toNat_concat, toNat_dirBit, BitVec.toNat_append,
    ← Nat.shiftLeft_add_eq_or_of_lt (BitVec.isLt _), htop]
  simp only [BitVec.toNat_ofNat]
  omega

theorem toNat_hdr10_bounds (a : BitVec 10) (rw : Dir) : 0xF0 ≤ (hdr10 a rw).toNat ∧ (hdr10 a rw).toNat ≤ 0xF7 := by
  rw [toNat_hdr10]
  split <;> omega

theorem toNat_lo10 (a : BitVec 10) : (lo10 a).toNat = a.toNat % 256 := by
  rw [lo10, BitVec.extractLsb'_toNat, Nat.shiftRight_zero]

/-- The shift drops bit 7, so this holds of every address operand (41_address_encoder.md R181). -/
theorem enc7_eq_shiftLeft_or (a : BitVec 10) (rw : Dir) :
    enc7 a rw = a.setWidth 8 <<< 1 ||| (if rw = .read then 1 else 0) := by
  rw [enc7_eq_concat]
  ext j hj
  cases j with
  | zero => cases rw <;> simp [Dir.bit]
  | succ k => cases rw <;> simp [BitVec.getElem_one]

/-- Settles O12: the numbers of the three bytes, and the spec's examples by evaluation. -/
theorem encodeAddressBytes : Obligations.EncodeAddressBytes := by
  intro a rw
  obtain ⟨hmin, hmax⟩ := toNat_hdr10_bounds a rw
  exact ⟨toNat_enc7 a rw, fun _ => enc7_eq_shiftLeft_or a rw, toNat_hdr10 a rw, hmin, hmax, toNat_lo10 a, by decide⟩

/-! ## Reserved addresses -/

/-- A 7-bit byte and a 10-bit header are the same byte where the low seven bits are 0b11110 and the header's two. -/
theorem enc7_eq_hdr10_iff (a b : BitVec 10) (rw : Dir) :
    enc7 a rw = hdr10 b rw ↔ a.toNat % 128 = 0x78 + b.toNat / 256 := by
  rw [← BitVec.toNat_inj, toNat_enc7, toNat_hdr10]
  omega

theorem toNat_lt_of_mem_scanRange {a : BitVec 10} (h : a ∈ scanRange) : a.toNat < 0x78 := by
  obtain ⟨k, hk, rfl⟩ := List.mem_map.1 h
  rw [List.mem_range] at hk
  rw [BitVec.toNat_ofNat]
  omega

/-- Settles O14: `enc7_eq_hdr10_iff` at the header whose two high bits are those of `a - 0x78`, and at the 7-bit address
that a header's two bits give. -/
theorem reservedAddresses : Obligations.ReservedAddresses := by
  refine ⟨?reserved, ?header, fun a => toNat_lt_of_mem_scanRange⟩
  case reserved =>
    intro a rw hlo hhi
    obtain ⟨b, hb⟩ : ∃ b : BitVec 10, hdr10 b rw = enc7 a rw := by
      refine ⟨BitVec.ofNat 10 (256 * (a.toNat - 0x78)), ((enc7_eq_hdr10_iff _ _ _).2 ?_).symm⟩
      rw [BitVec.toNat_ofNat]
      omega
    obtain ⟨hmin, hmax⟩ := hb ▸ toNat_hdr10_bounds b rw
    exact ⟨(addrValid_iff .seven a).2 (.inr (by omega)), hmin, hmax, b, hb⟩
  case header =>
    intro b rw
    have ha : (BitVec.ofNat 10 (0x78 + b.toNat / 256)).toNat = 0x78 + b.toNat / 256 := by
      rw [BitVec.toNat_ofNat]
      omega
    refine ⟨BitVec.ofNat 10 (0x78 + b.toNat / 256), ?_, ?_, (enc7_eq_hdr10_iff _ _ _).2 ?_⟩ <;> omega

/-! ## ENCODE_ADDRESS -/

theorem exec_encodeAddress (am : AddrMode) (rw : Dir) (a : BitVec 10) (s : State) :
    exec (.encodeAddress am rw a) s =
      .next (tracing s [Event.resp (.encodeAddress am rw a) (encodeResponse am rw a)]) := rfl

theorem encodeResponse_seven (rw : Dir) (a : BitVec 10) : encodeResponse .seven rw a =
    if a.toNat ≤ 0x7F then { n := 1, byte := enc7 a rw } else { status := .invalidParameter } := by
  simp [encodeResponse, addrValid]

/-- Settles O13: the response alone is new, and `addrValid` decides which it is. -/
theorem encodeAddressCommand : Obligations.EncodeAddressCommand := by
  intro s rw a
  refine ⟨fun h => ?_, fun h => ?_, exec_encodeAddress .ten rw a s⟩
  · rw [exec_encodeAddress, encodeResponse_seven, if_pos h]
  · rw [exec_encodeAddress, encodeResponse_seven, if_neg (Nat.not_le_of_lt h)]

/-! ## Parameter checks -/

/-- A transaction whose parameters do not pass, on a free, initialized instance (42_transactions.md R200 step 4). -/
theorem transact_of_not_ok {s : State} {c : Ctx} {ok async : Inst → Bool} {prog : State → List Op} (y : State → Out)
    (hi : c.inst < nInst s) (hn : (row s c.inst).initialized = true) (ho : (row s c.inst).opActive = false)
    (hr : recordsError c.cmd = true) (hok : ¬ ok { row s c.inst with opActive := true } = true) :
    transact y c ok async prog s =
      .next (tracing (setRow s c.inst { row s c.inst with lastError := .invalidParameter })
        [.resp c.cmd { status := .invalidParameter }]) := by
  rw [transact_free y hi ho hn, if_neg hok, finish_claimState hi ho, if_pos hr]

/-- A row's `opActive` plays no part in whether a transfer runs asynchronously (42_transactions.md R214). -/
theorem runsAsync_eq (r : Inst) (b : Bool) : runsAsync { r with opActive := b } =
    decide (r.config.kind = .hw ∧ r.transferMode = .interrupt) := by
  rw [runsAsync, Bool.decide_and]
  rfl

theorem recordsError_of_isTransaction {cmd : Instr} (h : isTransaction cmd = true) : recordsError cmd = true := by
  cases cmd
  case masterTransmit | masterReceive | masterWriteReg | masterReadReg | masterWriteRegs | masterReadRegs | scanBus => rfl
  all_goals cases h

theorem internal_of_isTransaction {cmd : Instr} (h : isTransaction cmd = true) : cmd.internal = false := by
  cases cmd
  case evIrq | erIrq => cases h
  all_goals rfl

/-- Every transaction is the preamble of 42_transactions.md R200 before a program, its parameter checks those of
`transactionOk`. -/
theorem commandWith_eq_transact {cmd : Instr} {i : Nat} (hc : isTransaction cmd = true) (hi : cmd.index = some i)
    (y : State → Out) (b : Bool) (s : State) :
    ∃ (ok async : Inst → Bool) (prog : State → List Op),
      commandWith y b cmd s = transact y ⟨i, cmd, s.words, b⟩ ok async prog s ∧
        ∀ r, ok r = true ↔ transactionOk (runsAsync r) cmd := by
  cases cmd
  case masterTransmit | masterReceive | masterWriteReg | masterReadReg | masterWriteRegs | masterReadRegs | scanBus =>
    obtain rfl := Option.some.inj hi
    dsimp only [commandWith]
    refine ⟨_, _, _, rfl, fun r => ?_⟩
    simp [transactionOk, paramsOk_iff]
  all_goals cases hc

/-- Settles O34: the checks of `commandWith_eq_transact` fail, and the command returns before its program. -/
theorem parameterChecks : Obligations.ParameterChecks := by
  refine ⟨fun a => ⟨by simp [addrValid], iff_of_true rfl (Nat.le_of_lt_succ a.isLt)⟩, ?checks⟩
  case checks =>
    intro cmd i s hc hidx hi hn ho hbad
    rw [exec_eq_commandWith (internal_of_isTransaction hc)]
    obtain ⟨ok, async, prog, hcmd, hok⟩ := commandWith_eq_transact hc hidx (turn (lentBy cmd)) false s
    rw [hcmd]
    refine transact_of_not_ok _ hi hn ho (recordsError_of_isTransaction hc) ?_
    rwa [hok, runsAsync_eq]

end Sys2Proof.Machine
end

section
/-! The dispatch of a transaction (42_transactions.md R200, R214): which checks its preamble makes and which program follows,
said once for the seven commands, and what a command answers where its preamble turns the host away. -/

namespace Sys2Proof.Machine

/-- The program of a transaction on the SW engine (42_transactions.md R205 to R211). -/
def swProgram : Instr → List Op
  | .masterTransmit _ am a buf len _ => swTransmit am a buf len.toNat
  | .masterReceive _ am a buf len _ => swReceive am a buf len.toNat
  | .masterWriteReg _ am a reg val _ => swWriteReg am a reg val
  | .masterReadReg _ am a reg out _ => swReadRegs am a reg out 1
  | .masterWriteRegs _ am a reg buf len _ => swWriteRegs am a reg buf len.toNat
  | .masterReadRegs _ am a reg buf len _ => swReadRegs am a reg buf len.toNat
  | .scanBus _ buf max => swScan buf max
  | _ => []

/-- What `transact` is given for the transaction `cmd` on instance `i`: its parameter checks, its program on the SW engine,
and, where the pending test is left to it, a program that begins with the atomic claim (45_hw_interrupt.md R321, R322). -/
structure Dispatches (cmd : Instr) (i : Nat) (ok async : Inst → Bool) (prog : State → List Op) : Prop where
  checks : ∀ r, ok r = true ↔ transactionOk (runsAsync r) cmd
  sw : ∀ t, (row t i).config.kind = .sw → prog t = swProgram cmd
  claims : ∀ t, (row t i).config.kind = .hw → async (row t i) = true →
    ∃ buf len a d ops, prog t = .asyncClaim buf len a d :: ops

theorem exec_eq_transact {cmd : Instr} {i : Nat} (hc : isTransaction cmd = true) (hidx : cmd.index = some i) (s : State) :
    ∃ (ok async : Inst → Bool) (prog : State → List Op),
      exec cmd s = transact (turn (lentBy cmd)) ⟨i, cmd, s.words, false⟩ ok async prog s ∧
        Dispatches cmd i ok async prog := by
  rw [exec_eq_commandWith (internal_of_isTransaction hc)]
  cases cmd
  case masterTransmit | masterReceive =>
    obtain rfl := Option.some.inj hidx
    dsimp only [commandWith]
    refine ⟨_, _, _, rfl, fun r => ?checks, fun t hk => ?sw, fun t hk ha => ?claims⟩
    case checks => simp [transactionOk, paramsOk_iff]
    case sw => simp only [hk, swProgram]
    case claims => exact ⟨_, _, _, _, _, by simp only [hk, ha, if_true]; rfl⟩
  case masterWriteReg | masterReadReg | masterWriteRegs | masterReadRegs | scanBus =>
    obtain rfl := Option.some.inj hidx
    dsimp only [commandWith]
    refine ⟨_, _, _, rfl, fun r => ?checks, fun t hk => ?sw, fun t _ ha => absurd ha Bool.false_ne_true⟩
    case checks => simp [transactionOk, paramsOk_iff]
    case sw => simp only [hk, swProgram]
  all_goals cases hc

/-! ## An instance that is not initialized (42_transactions.md R200 step 3, 46_instance.md R363) -/

theorem claimedInit_of_not_initialized {s : State} {c : Ctx} {k : State → Out} (hi : c.inst < nInst s)
    (ho : (row s c.inst).opActive = false) (hn : (row s c.inst).initialized = false) :
    claimedInit c s k = .next (tracing (setRow s c.inst { row s c.inst with
        lastError := if recordsError c.cmd then .notInitialized else (row s c.inst).lastError })
      [.resp c.cmd { status := .notInitialized }]) := by
  rw [claimedInit, claimed_free hi ho, finish_claimState hi ho, row_claimState hi]
  exact if_neg (by simp [hn])

theorem cmdSoftwareReset_eq_claimedInit (y : State → Out) (atomic : Bool) (i : Nat) (s : State) :
    ∃ k, cmdSoftwareReset y atomic i s = claimedInit ⟨i, .softwareReset i, s.words, atomic⟩ s k := ⟨_, rfl⟩

theorem bitCommand_eq_claimedInit (y : State → Out) (c : Ctx) (held : Bool) (ops : List Op) (s : State) :
    ∃ k, bitCommand y c held ops s = claimedInit c s k := ⟨_, rfl⟩

/-- Settles O33: each of these commands is `claimedInit` before anything else, and SET_TRANSFER_MODE alone leaves `lastError`
as it is. -/
theorem notInitialized : Obligations.NotInitialized := by
  intro cmd i s hidx hi ho hn
  refine ⟨?records, ?setTransferMode⟩
  case records =>
    intro hc
    obtain ⟨hrec, k, hexec⟩ : recordsError cmd = true ∧ ∃ k, exec cmd s = claimedInit ⟨i, cmd, s.words, false⟩ s k := by
      rcases hc with hc | rfl | rfl | rfl | rfl | ⟨v, rfl⟩ | ⟨a, rfl⟩
      case inl =>
        obtain ⟨ok, async, prog, hexec, -⟩ := exec_eq_transact hc hidx s
        exact ⟨recordsError_of_isTransaction hc, _, hexec⟩
      case inr.inl => exact ⟨rfl, cmdSoftwareReset_eq_claimedInit _ _ _ _⟩
      all_goals exact ⟨rfl, bitCommand_eq_claimedInit _ ⟨i, _, s.words, false⟩ _ _ s⟩
    rw [hexec, claimedInit_of_not_initialized (c := ⟨i, cmd, s.words, false⟩) hi ho hn, if_pos hrec]
  case setTransferMode =>
    rintro m rfl
    refine (claimedInit_of_not_initialized (c := ⟨i, .setTransferMode i m, s.words, false⟩) hi ho hn).trans ?_
    exact congrArg (fun t => Host.Outcome.next (tracing t _)) (setRow_row s i)

/-! ## A pending instance (45_hw_interrupt.md R320, R323) -/

/-- The claim of an asynchronous start, where it comes first, finds the pending transfer. -/
theorem run_asyncClaim_of_pending {c : Ctx} {s : State} (hp : pending s c.inst = true) (y : State → Out) (buf : Word)
    (len : Half) (a : BitVec 10) (d : Dir) (ops : List Op) (scr : Scratch) :
    run noTurn y c (.asyncClaim buf len a d :: ops) scr s = .next (finish c .busy scr.resp s) := by
  simp only [run, opStep, thenOp, noTurn, asyncClaim, hp, if_true]

/-- Settles O45: the preamble makes the pending test, or leaves it to the claim that the program begins with. -/
theorem pendingIsBusy : Obligations.PendingIsBusy := by
  intro s i cmd hc hidx hinit hk hp hparams
  obtain ⟨hi, hn, ho, -⟩ := hinit i List.mem_cons_self
  obtain ⟨ok, async, prog, hexec, hd⟩ := exec_eq_transact hc hidx s
  have hok : ok { row s i with opActive := true } = true := by
    rw [hd.checks, runsAsync_eq]
    simpa only [hk, true_and] using hparams
  have hrec := recordsError_of_isTransaction hc
  have hrow : row (claimState s i) i = { row s i with opActive := true } := row_claimState hi
  rw [hexec, transact_free _ hi ho hn, if_pos hok]
  split_ifs with htest
  · rw [finish_claimState hi ho, if_pos hrec]
  · have hasync : async (row (claimState s i) i) = true := by
      simpa only [hrow, hk, hp, true_and, and_true, Bool.not_eq_false] using htest
    obtain ⟨buf, len, a, d, ops, hprog⟩ := hd.claims (claimState s i) (by rw [hrow]; exact hk) hasync
    have hpend : pending (claimState s i) i = true := (pending_claimState hi).trans hp
    rw [hprog, run_asyncClaim_of_pending hpend, finish_claimState hi ho, if_pos hrec]

end Sys2Proof.Machine
end

section
/-! Programs of the SW engine from their parts (42_transactions.md R202 to R211): the lemmas of Laws/SwTrace.lean in one form,
so that a program's trace is put together along its list of operations. A part goes through to the part after it, or ends the
command at a NACK (42_transactions.md R204). -/

namespace Sys2Proof.Machine

/-- State `s` with a command of instance `i` under way: the line drives, the events made so far, the samples to come. -/
def swState (s : State) (i : Nat) (scl sda : Bool) (es : List Event) (xs : List Bool) : State :=
  lineState s i scl sda (es.reverse ++ s.trace) { s.env with samples := xs }

/-- `ops` takes SCL from drive `a` to drive `a'` and the rest of the state from `s` to `t`, uses up the samples `used` and
makes the events `es`. SDA is released where SCL is (40_bit_level.md R157), and the response is left alone. -/
def Performs (c : Ctx) (s t : State) (ops : List Op) (a a' : Bool) (used : List Bool) (es : List Event) : Prop :=
  ∀ (b : Bool) (pre : List Event) (xs : List Bool) (rest : List Op) (scr : Scratch), (a = true → b = true) →
    ∃ (r : Scratch) (b' : Bool), r.resp = scr.resp ∧ (a' = true → b' = true) ∧
      run noTurn noTurn c (ops ++ rest) scr (swState s c.inst a b pre (used ++ xs)) =
        run noTurn noTurn c rest r (swState t c.inst a' b' (pre ++ es) xs)

/-- `ops` ends the command with Nack and the lines released, having used up the samples `used` and made the events `es`. -/
def EndsInNack (c : Ctx) (s : State) (ops : List Op) (a : Bool) (used : List Bool) (es : List Event) : Prop :=
  ∀ (b : Bool) (pre : List Event) (xs : List Bool) (rest : List Op) (scr : Scratch), (a = true → b = true) →
    run noTurn noTurn c (ops ++ rest) scr (swState s c.inst a b pre (used ++ xs)) =
      .next (finish c .nack scr.resp (swState s c.inst true true (pre ++ es) xs))

/-- `ops` sends the bytes `bytes` (42_transactions.md R204): all of them where they are ACKed, and the first bytes up to the
one that is NACKed, which ends the command. -/
structure Sends (c : Ctx) (s : State) (ops : List Op) (bytes : List Byte) : Prop where
  acked : Performs c s s ops false false (List.replicate bytes.length false)
    (sentEvents c.inst (delayOf s c.inst) bytes)
  nacked : ∀ bs x ys, bytes = bs ++ x :: ys → EndsInNack c s ops false (List.replicate bs.length false ++ [true])
    (sentEvents c.inst (delayOf s c.inst) bs ++
      (sendEvents c.inst (delayOf s c.inst) x true ++ stopEvents c.inst (delayOf s c.inst)))

/-- The operations that read and send the bytes of a buffer at some indices (42_transactions.md R205). -/
def sendCells (buf : Word) (ks : List Nat) : List Op := ks.flatMap fun k => [.memRead buf k] ++ sendCheckedOps

/-- The bytes of a buffer at some indices. -/
def cellBytes (s : State) (buf : Word) (ks : List Nat) : List Byte := ks.map fun k => memByte s.mem (cellAddr buf k)

theorem sentEvents_append (i : Nat) (w : Word) (bs bs' : List Byte) :
    sentEvents i w (bs ++ bs') = sentEvents i w bs ++ sentEvents i w bs' := List.flatMap_append

section parts

variable {c : Ctx} {s t u : State} {ops ops' : List Op} {a a' a'' : Bool} {used used' : List Bool} {es es' : List Event}

theorem Performs.append (h : Performs c s t ops a a' used es) (h' : Performs c t u ops' a' a'' used' es') :
    Performs c s u (ops ++ ops') a a'' (used ++ used') (es ++ es') := by
  intro b pre xs rest scr hb
  obtain ⟨r, b', hr, hb', hrun⟩ := h b pre (used' ++ xs) (ops' ++ rest) scr hb
  obtain ⟨r', b'', hr', hb'', hrun'⟩ := h' b' (pre ++ es) xs rest r hb'
  refine ⟨r', b'', hr'.trans hr, hb'', ?_⟩
  rw [List.append_assoc, List.append_assoc, hrun, hrun', List.append_assoc]

theorem Performs.append_endsInNack (h : Performs c s s ops a a' used es) (h' : EndsInNack c s ops' a' used' es') :
    EndsInNack c s (ops ++ ops') a (used ++ used') (es ++ es') := by
  intro b pre xs rest scr hb
  obtain ⟨r, b', hr, hb', hrun⟩ := h b pre (used' ++ xs) (ops' ++ rest) scr hb
  rw [List.append_assoc, List.append_assoc, hrun, h' b' (pre ++ es) xs rest r hb', hr, List.append_assoc]

/-- What would have followed the NACKed byte is left out. -/
theorem EndsInNack.append (h : EndsInNack c s ops a used es) (ops' : List Op) : EndsInNack c s (ops ++ ops') a used es := by
  intro b pre xs rest scr hb
  rw [List.append_assoc, h b pre xs (ops' ++ rest) scr hb]

/-! ## The parts of a transaction -/

variable (hi : c.inst < nInst s)
include hi

theorem performs_swBusy : Performs c s s [.swBusy] true true [true, true] (idleSamples c.inst) := by
  intro b pre xs rest scr hb
  obtain rfl := hb rfl
  refine ⟨scr, true, rfl, id, (run_swBusy hi _ _ rest scr xs rfl).trans ?_⟩
  simp [swState, idleSamples]

theorem performs_start (a : Bool) :
    Performs c s s startOps a false [] (startEvents c.inst (delayOf s c.inst)) := by
  intro b pre xs rest scr _
  refine ⟨scr, false, rfl, nofun, (run_start hi _ _ _ _ rest scr).trans ?_⟩
  simp [swState, delayOf]

theorem performs_stop (a : Bool) : Performs c s s stopOps a true [] (stopEvents c.inst (delayOf s c.inst)) := by
  intro b pre xs rest scr _
  refine ⟨scr, true, rfl, id, (run_stop hi _ _ _ _ rest scr).trans ?_⟩
  simp [swState, delayOf]

theorem performs_sendAll (bs : List Byte) :
    Performs c s s (sendAll bs) false false (List.replicate bs.length false)
      (sentEvents c.inst (delayOf s c.inst) bs) := by
  intro b pre xs rest scr _
  obtain ⟨r, hr, hrun⟩ := run_sendAll_ack hi b (pre.reverse ++ s.trace)
    { s.env with samples := List.replicate bs.length false ++ xs } rest scr bs xs rfl
  refine ⟨r, b || !bs.isEmpty, hr, nofun, hrun.trans ?_⟩
  simp [swState, sentEvents, delayOf]

theorem performs_sendCells {buf : Word} {ks : List Nat} (hk : ∀ k ∈ ks, k < bufSize s buf) :
    Performs c s s (sendCells buf ks) false false (List.replicate (cellBytes s buf ks).length false)
      (sentEvents c.inst (delayOf s c.inst) (cellBytes s buf ks)) := by
  intro b pre xs rest scr _
  obtain ⟨r, hr, hrun⟩ := run_sendBuf_ack hi b (pre.reverse ++ s.trace)
    { s.env with samples := List.replicate (cellBytes s buf ks).length false ++ xs } rest scr buf ks hk xs
    (by simp [cellBytes])
  refine ⟨r, b || !ks.isEmpty, hr, nofun, hrun.trans ?_⟩
  simp [swState, sentEvents, delayOf, cellBytes, List.flatMap_map]

theorem performs_receiveBuf {buf : Word} {n : Nat} (d : Nat → Byte) (hn : n ≤ bufSize s buf) :
    Performs c s { s with mem := storeBytes s.mem buf d n } (swReceiveBuf buf n) false false (byteSamples d n)
      (receivedEvents c.inst (delayOf s c.inst) d n) := by
  intro b pre xs rest scr _
  obtain ⟨r, hr, hrun⟩ := run_receiveBuf hi b (pre.reverse ++ s.trace) { s.env with samples := byteSamples d n ++ xs } rest
    scr buf (fun k => decide (k + 1 < n)) d (List.range n) (fun k hk => (List.mem_range.1 hk).trans_le hn) xs rfl
  refine ⟨r, b || !(List.range n).isEmpty, hr, nofun, hrun.trans ?_⟩
  simp [swState, receivedEvents, delayOf, storeBytes]

/-- A byte that the operation `src` brings in hand, NACKed. -/
theorem endsInNack_of_load {src : Op} {x : Byte}
    (hsrc : ∀ (scr : Scratch) (b : Bool) (pre : List Event) (xs : List Bool),
      opStep noTurn noTurn c src scr (swState s c.inst false b pre xs) =
        .go { scr with byte := x } (swState s c.inst false b pre xs)) :
    EndsInNack c s (src :: sendCheckedOps) false [true]
      (sendEvents c.inst (delayOf s c.inst) x true ++ stopEvents c.inst (delayOf s c.inst)) := by
  intro b pre xs rest scr _
  rw [List.cons_append, run, hsrc]
  simp only [ite_self]
  refine (run_sendChecked_nack hi _ _ _ _ rest { scr with byte := x } xs rfl).trans ?_
  simp [swState, delayOf]

/-! ## Bytes that are sent -/

theorem sends_sendAll (bytes : List Byte) : Sends c s (sendAll bytes) bytes where
  acked := performs_sendAll hi bytes
  nacked bs x ys h := by
    have hops : sendAll bytes = sendAll bs ++ ((.byte x :: sendCheckedOps) ++ sendAll ys) := by
      simp [h, sendAll]
    have hx : EndsInNack c s (.byte x :: sendCheckedOps) false [true] _ := endsInNack_of_load hi fun _ _ _ _ => rfl
    rw [hops]
    exact (performs_sendAll hi bs).append_endsInNack (hx.append _)

theorem sends_sendCells {buf : Word} {ks : List Nat} (hk : ∀ k ∈ ks, k < bufSize s buf) :
    Sends c s (sendCells buf ks) (cellBytes s buf ks) where
  acked := performs_sendCells hi hk
  nacked bs x ys h := by
    obtain ⟨ks₁, ks', rfl, rfl, h'⟩ := List.map_eq_append_iff.1 h
    obtain ⟨k, ks₂, rfl, rfl, -⟩ := List.map_eq_cons_iff.1 h'
    have hops : sendCells buf (ks₁ ++ k :: ks₂) =
        sendCells buf ks₁ ++ ((.memRead buf k :: sendCheckedOps) ++ sendCells buf ks₂) := by simp [sendCells]
    have hkb : k < bufSize s buf := hk k (by simp)
    have hx : EndsInNack c s (.memRead buf k :: sendCheckedOps) false [true] _ :=
      endsInNack_of_load hi (x := memByte s.mem (cellAddr buf k)) fun scr b pre xs => by
        have hb : k < bufSize (swState s c.inst false b pre xs) buf := hkb
        simp only [opStep, thenOp, noTurn, memRead, hb, if_true]
        rfl
    rw [hops]
    exact (performs_sendCells hi fun j hj => hk j (List.mem_append_left _ hj)).append_endsInNack (hx.append _)

theorem sends_swSendBuf {buf : Word} {n : Nat} (hn : n ≤ bufSize s buf) :
    Sends c s (swSendBuf buf n) (bufferBytes s buf n) :=
  sends_sendCells hi fun _ hk => (List.mem_range.1 hk).trans_le hn

omit hi in
theorem Sends.append {bytes bytes' : List Byte} (h : Sends c s ops bytes) (h' : Sends c s ops' bytes') :
    Sends c s (ops ++ ops') (bytes ++ bytes') where
  acked := by
    rw [List.length_append, ← List.replicate_append_replicate, sentEvents_append]
    exact h.acked.append h'.acked
  nacked bs x ys hb := by
    obtain ⟨bs', rfl, hbs'⟩ | ⟨ys', rfl, hys'⟩ := List.append_eq_append_iff.1 hb
    · rw [List.length_append, ← List.replicate_append_replicate, sentEvents_append, List.append_assoc, List.append_assoc]
      exact h.acked.append_endsInNack (h'.nacked bs' x ys hbs')
    · cases ys' with
      | nil =>
        rw [List.nil_append] at hys'
        have hfirst := h.acked.append_endsInNack (h'.nacked [] x ys hys'.symm)
        simpa [sentEvents] using hfirst
      | cons y ys' =>
        obtain ⟨rfl, -⟩ := List.cons.inj hys'
        exact (h.nacked bs _ ys' rfl).append ops'

end parts

end Sys2Proof.Machine
end

section
/-! The six transfers of the SW engine (42_transactions.md R205 to R210). Each sends a frame, segments of bytes after a START
or a repeated START each, and ends in a STOP, a read after the bytes it receives; the first NACK of the frame ends it at
once (R204). -/

namespace Sys2Proof.Machine

/-- The program of a transfer: the bus-busy check, the segments, and what follows them. -/
def transferOps (segs : List (List Op)) (tail : List Op) : List Op :=
  [.swBusy] ++ (segs.flatMap (fun ops => startOps ++ ops) ++ tail)

/-- `ops` is a transfer that sends the segments of `frame` and then does `tail`. -/
def Transfers (c : Ctx) (s : State) (ops : List Op) (frame : List (List Byte)) (tail : List Op) : Prop :=
  ∃ segs, ops = transferOps segs tail ∧ List.Forall₂ (Sends c s) segs frame

theorem segmentEvents_cons (i : Nat) (w : Word) (bs : List Byte) (frame : List (List Byte)) :
    segmentEvents i w (bs :: frame) = startEvents i w ++ sentEvents i w bs ++ segmentEvents i w frame := rfl

theorem awBytes_eq_addressBytes (am : AddrMode) (a : BitVec 10) : awBytes am a = addressBytes am a := by
  cases am <;> rfl

theorem arPrimeByte_eq_readByte (am : AddrMode) (a : BitVec 10) : arPrimeByte am a = readByte am a := by
  cases am <;> rfl

section frames

variable {c : Ctx} {s t : State} (hi : c.inst < nInst s)
include hi

theorem Sends.started {ops : List Op} {bytes : List Byte} (h : Sends c s ops bytes) (a : Bool) :
    Performs c s s (startOps ++ ops) a false (List.replicate bytes.length false)
      (startEvents c.inst (delayOf s c.inst) ++ sentEvents c.inst (delayOf s c.inst) bytes) :=
  (performs_start hi a).append h.acked

/-- The segments of a frame, all ACKed. -/
theorem performs_segments {ops : List Op} {bytes : List Byte} {segs : List (List Op)} {frame : List (List Byte)}
    (h : Sends c s ops bytes) (hs : List.Forall₂ (Sends c s) segs frame) (a : Bool) :
    Performs c s s ((ops :: segs).flatMap fun ops => startOps ++ ops) a false
      (List.replicate (bytes :: frame).flatten.length false)
      (segmentEvents c.inst (delayOf s c.inst) (bytes :: frame)) := by
  induction hs generalizing ops bytes a with
  | nil => simpa [segmentEvents] using h.started hi a
  | cons h' _ ih =>
    rw [List.flatMap_cons, List.flatten_cons, List.length_append, ← List.replicate_append_replicate, segmentEvents_cons]
    exact (h.started hi a).append (ih h' false)

/-- The segments of a frame, ACKed up to a byte that is NACKed. -/
theorem endsInNack_segments {segs : List (List Op)} {us vs : List (List Byte)} {bs ys : List Byte} {x : Byte}
    (hs : List.Forall₂ (Sends c s) segs (us ++ (bs ++ x :: ys) :: vs)) (a : Bool) :
    EndsInNack c s (segs.flatMap fun ops => startOps ++ ops) a
      (List.replicate (us.flatten.length + bs.length) false ++ [true])
      (segmentEvents c.inst (delayOf s c.inst) us ++ (startEvents c.inst (delayOf s c.inst) ++
        (sentEvents c.inst (delayOf s c.inst) bs ++
          (sendEvents c.inst (delayOf s c.inst) x true ++ stopEvents c.inst (delayOf s c.inst))))) := by
  induction us generalizing segs a with
  | nil =>
    obtain ⟨ops, segs, h, -, rfl⟩ := List.forall₂_cons_right_iff.1 hs
    have hfirst := ((performs_start hi a).append_endsInNack (h.nacked bs x ys rfl)).append
      (segs.flatMap fun ops => startOps ++ ops)
    simpa [segmentEvents] using hfirst
  | cons bytes us ih =>
    obtain ⟨ops, segs, h, hs', rfl⟩ := List.forall₂_cons_right_iff.1 hs
    rw [List.flatMap_cons, List.flatten_cons, List.length_append, Nat.add_assoc, ← List.replicate_append_replicate,
      segmentEvents_cons, List.append_assoc (List.replicate _ _), List.append_assoc (startEvents _ _ ++ _)]
    exact (h.started hi a).append_endsInNack (ih hs' false)

/-! ## A whole transfer -/

theorem Transfers.performs {ops tail : List Op} {bytes : List Byte} {frame : List (List Byte)} {used : List Bool}
    {es : List Event} (h : Transfers c s ops (bytes :: frame) tail) (htail : Performs c s t tail false true used es) :
    Performs c s t ops true true ([true, true] ++ (List.replicate (bytes :: frame).flatten.length false ++ used))
      (idleSamples c.inst ++ (segmentEvents c.inst (delayOf s c.inst) (bytes :: frame) ++ es)) := by
  obtain ⟨segs, rfl, hs⟩ := h
  obtain ⟨ops, segs, h, hs', rfl⟩ := List.forall₂_cons_right_iff.1 hs
  exact (performs_swBusy hi).append ((performs_segments hi h hs' true).append htail)

theorem Transfers.endsInNack {ops tail : List Op} {us vs : List (List Byte)} {bs ys : List Byte} {x : Byte}
    (h : Transfers c s ops (us ++ (bs ++ x :: ys) :: vs) tail) :
    EndsInNack c s ops true ([true, true] ++ (List.replicate (us.flatten.length + bs.length) false ++ [true]))
      (idleSamples c.inst ++ (segmentEvents c.inst (delayOf s c.inst) us ++ (startEvents c.inst (delayOf s c.inst) ++
        (sentEvents c.inst (delayOf s c.inst) bs ++
          (sendEvents c.inst (delayOf s c.inst) x true ++ stopEvents c.inst (delayOf s c.inst)))))) := by
  obtain ⟨segs, rfl, hs⟩ := h
  exact (performs_swBusy hi).append_endsInNack ((endsInNack_segments hi hs true).append tail)

/-! ## The programs -/

variable (am : AddrMode) (a : BitVec 10) (reg val : Byte) {buf : Word} {n : Nat}

theorem transfers_swTransmit (hn : n ≤ bufSize s buf) :
    Transfers c s (swTransmit am a buf n) [addressBytes am a ++ bufferBytes s buf n] stopOps := by
  refine ⟨[sendAll (awBytes am a) ++ swSendBuf buf n], by simp [swTransmit, transferOps], .cons ?_ .nil⟩
  rw [← awBytes_eq_addressBytes]
  exact (sends_sendAll hi _).append (sends_swSendBuf hi hn)

theorem transfers_swWriteReg :
    Transfers c s (swWriteReg am a reg val) [addressBytes am a ++ [reg, val]] stopOps := by
  refine ⟨[sendAll (awBytes am a) ++ sendAll [reg, val]], by simp [swWriteReg, transferOps], .cons ?_ .nil⟩
  rw [← awBytes_eq_addressBytes]
  exact (sends_sendAll hi _).append (sends_sendAll hi _)

theorem transfers_swWriteRegs (hn : n ≤ bufSize s buf) :
    Transfers c s (swWriteRegs am a reg buf n) [addressBytes am a ++ reg :: bufferBytes s buf n] stopOps := by
  refine ⟨[sendAll (awBytes am a) ++ (sendAll [reg] ++ swSendBuf buf n)], by simp [swWriteRegs, transferOps],
    .cons ?_ .nil⟩
  rw [← awBytes_eq_addressBytes]
  exact (sends_sendAll hi _).append ((sends_sendAll hi [reg]).append (sends_swSendBuf hi hn))

/-- The segments that MASTER_RECEIVE sends (42_transactions.md R203). -/
theorem transfers_swReceive (buf : Word) (n : Nat) : Transfers c s (swReceive am a buf n)
    (if am = .seven then [[readByte am a]] else [addressBytes am a, [readByte am a]]) (swReceiveBuf buf n ++ stopOps) := by
  cases am with
  | seven => exact ⟨[sendAll [enc7 a .read]], by simp [swReceive, swAR, transferOps], .cons (sends_sendAll hi _) .nil⟩
  | ten =>
    exact ⟨[sendAll (awBytes .ten a), sendAll [hdr10 a .read]],
      by simp [swReceive, swAR, transferOps, restartOps, restartLines, startOps],
      .cons (sends_sendAll hi _) (.cons (sends_sendAll hi _) .nil)⟩

theorem transfers_swReadRegs (buf : Word) (n : Nat) : Transfers c s (swReadRegs am a reg buf n)
    [addressBytes am a ++ [reg], [readByte am a]] (swReceiveBuf buf n ++ stopOps) := by
  refine ⟨[sendAll (awBytes am a) ++ sendAll [reg], sendAll [arPrimeByte am a]],
    by simp [swReadRegs, transferOps, restartOps, restartLines, startOps], .cons ?_ (.cons ?_ .nil)⟩
  · rw [← awBytes_eq_addressBytes]
    exact (sends_sendAll hi _).append (sends_sendAll hi _)
  · rw [← arPrimeByte_eq_readByte]
    exact sends_sendAll hi _

theorem performs_receive_stop (d : Nat → Byte) (hn : n ≤ bufSize s buf) :
    Performs c s { s with mem := storeBytes s.mem buf d n } (swReceiveBuf buf n ++ stopOps) false true (byteSamples d n)
      (receivedEvents c.inst (delayOf s c.inst) d n ++ stopEvents c.inst (delayOf s c.inst)) := by
  have h := (performs_receiveBuf hi d hn).append (performs_stop (s := { s with mem := storeBytes s.mem buf d n }) hi false)
  rwa [List.append_nil] at h

end frames

end Sys2Proof.Machine
end

section
/-! From the program of an SW transaction to its command (42_transactions.md R200, R205 to R211): the preamble lets the host
in, the program runs on the claimed instance with no turn, and the host's turns between its micro-steps then move the
peripherals and the clock alone. -/

namespace Sys2Proof.Machine

theorem offBus_swProgram (cmd : Instr) : (swProgram cmd).all offBus = true := by
  cases cmd
  case masterTransmit | masterReceive | masterWriteReg | masterReadReg | masterWriteRegs | masterReadRegs | scanBus =>
    simp [swProgram, swTransmit, swReceive, swWriteReg, swWriteRegs, swReadRegs, offBus]
  all_goals rfl

theorem delayOf_claimState {s : State} {i : Nat} (hi : i < nInst s) : delayOf (claimState s i) i = delayOf s i := by
  rw [delayOf, row_claimState hi, delayOf]

/-- `cmd` is a transaction that the preamble lets in on SW instance `i` (42_transactions.md R200), and no handler has a turn
meanwhile. -/
structure RunsOnSw (s : State) (i : Nat) (cmd : Instr) : Prop where
  transaction : isTransaction cmd = true
  index : cmd.index = some i
  initialized : Initialized s [i]
  sw : (row s i).config.kind = .sw
  noIrq : NoIrq s
  params : transactionOk false cmd

section commands

variable {s : State} {i : Nat} {cmd : Instr}

theorem RunsOnSw.lt_nInst (hr : RunsOnSw s i cmd) : i < nInst s := (hr.initialized i List.mem_cons_self).1

theorem RunsOnSw.lt_nInst_claimState (hr : RunsOnSw s i cmd) : i < nInst (claimState s i) :=
  (nInst_claimState s i).symm ▸ hr.lt_nInst

theorem exec_eq_swProgram (hr : RunsOnSw s i cmd) : exec cmd s =
    run noTurn (turn (lentBy cmd)) ⟨i, cmd, s.words, false⟩ (swProgram cmd) {} (claimState s i) := by
  obtain ⟨hc, hidx, hinit, hk, -, hp⟩ := hr
  obtain ⟨hi, hn, ho, -⟩ := hinit i List.mem_cons_self
  obtain ⟨ok, async, prog, hexec, hd⟩ := exec_eq_transact hc hidx s
  have hok : ok { row s i with opActive := true } = true := by
    rw [hd.checks, runsAsync_eq]
    simpa [hk] using hp
  rw [hexec, transact_free _ hi ho hn, if_pos hok, if_neg (by simp [hk]), hd.sw _ (by rw [row_claimState hi]; exact hk)]

/-- A program that ends with no turn in some state of the lines, the draws and the memory is the command's end. -/
theorem exec_of_run (hr : RunsOnSw s i cmd) {st : Status} {r : Response} {a b : Bool} {es : List Event} {e : Env}
    {m : List Host.Cell}
    (h : run noTurn noTurn ⟨i, cmd, s.words, false⟩ (swProgram cmd) {}
        (lineState (claimState s i) i (row s i).drvSCL (row s i).drvSDA s.trace s.env) =
      .next (finish ⟨i, cmd, s.words, false⟩ st r
        (lineState { claimState s i with mem := m } i a b (es.reverse ++ s.trace) e))) :
    ∃ t, exec cmd s = .next t ∧ AgentsMoved (returned { s with env := e, mem := m } i a b st cmd r es) t := by
  have hrec := recordsError_of_isTransaction hr.transaction
  obtain ⟨hi, -, ho, -⟩ := hr.initialized i List.mem_cons_self
  rw [exec_eq_swProgram hr]
  rw [← claimState_lines hi] at h
  exact run_via noTurn_tame (turn_tame _) (offBus_swProgram cmd) hr.noIrq h
    (finish_lines (c := ⟨i, cmd, s.words, false⟩) hi hrec ho st r a b es e m)

theorem swProgram_eq_swBusy_cons (hc : isTransaction cmd = true) : ∃ ops, swProgram cmd = .swBusy :: ops := by
  cases cmd
  case masterTransmit | masterReceive | masterWriteReg | masterReadReg | masterWriteRegs | masterReadRegs | scanBus =>
    exact ⟨_, rfl⟩
  all_goals cases hc

/-! ## Commands that begin with the lines released -/

variable (hr : RunsOnSw s i cmd) (hclean : CleanEntry s i)
include hr hclean

/-- A program that runs from the lines released with the scripted draws. -/
theorem exec_of_clean {st : Status} {r : Response} {a b : Bool} {es : List Event} {xs : List Bool} {m : List Host.Cell}
    (h : run noTurn noTurn ⟨i, cmd, s.words, false⟩ (swProgram cmd) {}
        (swState (claimState s i) i true true [] s.env.samples) =
      .next (finish ⟨i, cmd, s.words, false⟩ st r (swState { claimState s i with mem := m } i a b es xs))) :
    ∃ t, exec cmd s = .next t ∧
      AgentsMoved (returned { withSamples s xs with mem := m } i a b st cmd r es) t := by
  obtain ⟨hscl, hsda⟩ : (row s i).drvSCL = true ∧ (row s i).drvSDA = true := by
    unfold CleanEntry at hclean
    rwa [hr.sw] at hclean
  refine exec_of_run hr (e := { s.env with samples := xs }) ?_
  rw [hscl, hsda]
  exact h

theorem exec_of_performs {used xs : List Bool} {es : List Event} {m : List Host.Cell}
    (h : Performs ⟨i, cmd, s.words, false⟩ (claimState s i) { claimState s i with mem := m } (swProgram cmd) true true
      used es)
    (hxs : s.env.samples = used ++ xs) :
    ∃ t, exec cmd s = .next t ∧
      AgentsMoved (returned { withSamples s xs with mem := m } i true true .ok cmd {} es) t := by
  obtain ⟨r, b, hresp, hb, hrun⟩ := h true [] xs [] {} id
  obtain rfl := hb rfl
  refine exec_of_clean hr hclean ?_
  rw [List.append_nil, run, hresp, ← hxs] at hrun
  exact hrun

theorem exec_of_endsInNack {used xs : List Bool} {es : List Event}
    (h : EndsInNack ⟨i, cmd, s.words, false⟩ (claimState s i) (swProgram cmd) true used es)
    (hxs : s.env.samples = used ++ xs) :
    ∃ t, exec cmd s = .next t ∧ AgentsMoved (returned (withSamples s xs) i true true .nack cmd {} es) t := by
  have hrun := h true [] xs [] {} id
  rw [List.append_nil, ← hxs] at hrun
  exact exec_of_clean hr hclean (m := s.mem) hrun

/-- A transfer whose frame is ACKed, with what follows the frame. -/
theorem exec_of_transfer {bytes : List Byte} {frame : List (List Byte)} {tail : List Op} {used xs : List Bool}
    {es : List Event} {m : List Host.Cell}
    (h : Transfers ⟨i, cmd, s.words, false⟩ (claimState s i) (swProgram cmd) (bytes :: frame) tail)
    (htail : Performs ⟨i, cmd, s.words, false⟩ (claimState s i) { claimState s i with mem := m } tail false true used es)
    (hxs : s.env.samples = true :: true :: (List.replicate (bytes :: frame).flatten.length false ++ (used ++ xs))) :
    ∃ t, exec cmd s = .next t ∧ AgentsMoved (returned { withSamples s xs with mem := m } i true true .ok cmd {}
      (idleSamples i ++ (segmentEvents i (delayOf s i) (bytes :: frame) ++ es))) t := by
  have hperf := h.performs hr.lt_nInst_claimState htail
  rw [delayOf_claimState hr.lt_nInst] at hperf
  refine exec_of_performs hr hclean hperf ?_
  rw [hxs, List.append_assoc, List.append_assoc]
  rfl

/-- A transfer of one segment that ends in the STOP after it. -/
theorem exec_of_write {bytes : List Byte} {xs : List Bool}
    (h : Transfers ⟨i, cmd, s.words, false⟩ (claimState s i) (swProgram cmd) [bytes] stopOps)
    (hxs : s.env.samples = true :: true :: (List.replicate bytes.length false ++ xs)) :
    ∃ t, exec cmd s = .next t ∧ AgentsMoved (returned (withSamples s xs) i true true .ok cmd {}
      (idleSamples i ++ startEvents i (delayOf s i) ++ sentEvents i (delayOf s i) bytes ++
        stopEvents i (delayOf s i))) t := by
  have hstop := performs_stop (c := ⟨i, cmd, s.words, false⟩) hr.lt_nInst_claimState false
  rw [delayOf_claimState hr.lt_nInst] at hstop
  have hes : idleSamples i ++ startEvents i (delayOf s i) ++ sentEvents i (delayOf s i) bytes ++ stopEvents i (delayOf s i) =
      idleSamples i ++ (segmentEvents i (delayOf s i) [bytes] ++ stopEvents i (delayOf s i)) := by
    simp [segmentEvents]
  rw [hes]
  exact exec_of_transfer hr hclean (m := s.mem) h hstop (by simpa using hxs)

/-- A transfer that receives `n` bytes after its frame. -/
theorem exec_of_read {bytes : List Byte} {frame : List (List Byte)} {buf : Word} {n : Nat} {d : Nat → Byte}
    {xs : List Bool} (hn : n ≤ bufSize s buf)
    (h : Transfers ⟨i, cmd, s.words, false⟩ (claimState s i) (swProgram cmd) (bytes :: frame)
      (swReceiveBuf buf n ++ stopOps))
    (hxs : s.env.samples =
      true :: true :: (List.replicate (bytes :: frame).flatten.length false ++ (byteSamples d n ++ xs))) :
    ∃ t, exec cmd s = .next t ∧
      AgentsMoved (returned { withSamples s xs with mem := storeBytes s.mem buf d n } i true true .ok cmd {}
        (idleSamples i ++ (segmentEvents i (delayOf s i) (bytes :: frame) ++
          (receivedEvents i (delayOf s i) d n ++ stopEvents i (delayOf s i))))) t := by
  have htail := performs_receive_stop (c := ⟨i, cmd, s.words, false⟩) (s := claimState s i) (buf := buf) (n := n)
    hr.lt_nInst_claimState d hn
  rw [delayOf_claimState hr.lt_nInst] at htail
  exact exec_of_transfer hr hclean h htail hxs

/-- A transfer whose frame is ACKed up to a byte that is NACKed. -/
theorem exec_of_nack {us vs : List (List Byte)} {bs ys : List Byte} {x : Byte} {tail : List Op} {xs : List Bool}
    (h : Transfers ⟨i, cmd, s.words, false⟩ (claimState s i) (swProgram cmd) (us ++ (bs ++ x :: ys) :: vs) tail)
    (hxs : s.env.samples =
      true :: true :: (List.replicate (us.flatten.length + bs.length) false ++ true :: xs)) :
    ∃ t, exec cmd s = .next t ∧ AgentsMoved (returned (withSamples s xs) i true true .nack cmd {}
      (idleSamples i ++ segmentEvents i (delayOf s i) us ++ startEvents i (delayOf s i) ++
        sentEvents i (delayOf s i) bs ++ sendEvents i (delayOf s i) x true ++ stopEvents i (delayOf s i))) t := by
  have hnack := h.endsInNack hr.lt_nInst_claimState
  rw [delayOf_claimState hr.lt_nInst] at hnack
  simp only [List.append_assoc] at hnack ⊢
  refine exec_of_endsInNack hr hclean hnack ?_
  rw [hxs]
  simp

end commands

/-- The bus-busy check on a bus with a line low (42_transactions.md R201). -/
theorem run_swBusy_of_low {s : State} {c : Ctx} (hi : c.inst < nInst s) (a b : Bool) (tr : List Event) (e : Env)
    (ops : List Op) (scr : Scratch) (hlow : (b && nextDraw e && (a && nextDraw (envAfter e))) = false) :
    run noTurn noTurn c (.swBusy :: ops) scr (lineState s c.inst a b tr e) =
      .next (finish c .busy scr.resp (lineState s c.inst a b (.sample c.inst .scl (a && nextDraw (envAfter e)) ::
        .sample c.inst .sda (b && nextDraw e) :: tr) (envAfter (envAfter e)))) := by
  have htest : (!(b && nextDraw e) || !(a && nextDraw (envAfter e))) = true := by rw [← Bool.not_and, hlow, Bool.not_false]
  simp only [run, opStep, thenOp, noTurn, readSda_lineState hi, readScl_lineState hi, htest, if_true]

end Sys2Proof.Machine
end

section
/-! The statements about the transactions of the SW engine (42_transactions.md). Their names are those of programs of the
model, so they stand in a namespace of their own. -/

namespace Sys2Proof.Transactions

open Sys2Proof.Machine

/-- Settles O35: every program begins with the bus-busy check, which samples both lines and finds one low. -/
theorem swBusBusy : Obligations.SwBusBusy := by
  intro cmd i s hc hidx hinit hk hq hp a b hlow
  have hr : RunsOnSw s i cmd := ⟨hc, hidx, hinit, hk, hq, hp⟩
  obtain ⟨ops, hops⟩ := swProgram_eq_swBusy_cons hc
  simp only [a, b, drawSample_eq] at hlow
  simp only [a, b, drawSample_eq, drawSamples]
  refine exec_of_run hr (m := s.mem) ?_
  rw [hops]
  exact run_swBusy_of_low (c := ⟨i, cmd, s.words, false⟩) hr.lt_nInst_claimState _ _ _ _ ops {} hlow

/-- Settles O36: the frame is the address, the register and the value. -/
theorem swWriteReg : Obligations.SwWriteReg := by
  intro s i am a reg val tmo xs hinit hk hq hclean ha bs hxs
  have hr : RunsOnSw s i (.masterWriteReg i am a reg val tmo) := ⟨rfl, rfl, hinit, hk, hq, ha⟩
  exact exec_of_write hr hclean (transfers_swWriteReg hr.lt_nInst_claimState am a reg val) hxs

/-- Settles O37: the frame is the address and the buffer's bytes. -/
theorem swTransmit : Obligations.SwTransmit := by
  intro s i am a buf len tmo xs hinit hk hq hclean ha hbuf hlen hn bs hxs
  have hr : RunsOnSw s i (.masterTransmit i am a buf len tmo) := ⟨rfl, rfl, hinit, hk, hq, hbuf, hlen, ha, nofun⟩
  exact exec_of_write hr hclean (transfers_swTransmit hr.lt_nInst_claimState am a hn) hxs

/-- Settles O38: the frame is the address, the register and the buffer's bytes. -/
theorem swWriteRegs : Obligations.SwWriteRegs := by
  intro s i am a reg buf len tmo xs hinit hk hq hclean ha hbuf hlen hn bs hxs
  have hr : RunsOnSw s i (.masterWriteRegs i am a reg buf len tmo) := ⟨rfl, rfl, hinit, hk, hq, hbuf, hlen, ha⟩
  exact exec_of_write hr hclean (transfers_swWriteRegs hr.lt_nInst_claimState am a reg hn) hxs

/-- Settles O39: each of the six transfers sends its frame, and `exec_of_nack` says where it ends. -/
theorem swNackFailFast : Obligations.SwNackFailFast := by
  intro s i cmd am a reg val buf len tmo frame us vs bs ys b xs hinit hk hq hclean ha hcmd hframe hxs w
  have hi : i < nInst (claimState s i) := (nInst_claimState s i).symm ▸ (hinit i List.mem_cons_self).1
  obtain ⟨hr, tail, h⟩ : RunsOnSw s i cmd ∧
      ∃ tail, Transfers ⟨i, cmd, s.words, false⟩ (claimState s i) (swProgram cmd) frame tail := by
    obtain ⟨rfl, rfl⟩ | ⟨⟨hbuf, hlen, hn⟩, ⟨rfl, rfl⟩ | ⟨rfl, rfl⟩⟩ |
      ⟨hbuf, ⟨hlen, rfl, rfl⟩ | ⟨rfl | ⟨hlen, rfl⟩, rfl⟩⟩ := hcmd
    · exact ⟨⟨rfl, rfl, hinit, hk, hq, ha⟩, _, transfers_swWriteReg hi am a reg val⟩
    · exact ⟨⟨rfl, rfl, hinit, hk, hq, hbuf, hlen, ha, nofun⟩, _, transfers_swTransmit hi am a hn⟩
    · exact ⟨⟨rfl, rfl, hinit, hk, hq, hbuf, hlen, ha⟩, _, transfers_swWriteRegs hi am a reg hn⟩
    · exact ⟨⟨rfl, rfl, hinit, hk, hq, hbuf, hlen, ha, nofun⟩, _, transfers_swReceive hi am a buf len.toNat⟩
    · exact ⟨⟨rfl, rfl, hinit, hk, hq, hbuf, ha⟩, _, transfers_swReadRegs hi am a reg buf 1⟩
    · exact ⟨⟨rfl, rfl, hinit, hk, hq, hbuf, hlen, ha⟩, _, transfers_swReadRegs hi am a reg buf len.toNat⟩
  exact exec_of_nack hr hclean (hframe ▸ h) hxs

/-- Settles O40: the frame is the read address, of one segment or of two (42_transactions.md R203). -/
theorem swReceive : Obligations.SwReceive := by
  intro s i am a buf len tmo d xs hinit hk hq hclean ha hbuf hlen hn hxs w
  have hr : RunsOnSw s i (.masterReceive i am a buf len tmo) := ⟨rfl, rfl, hinit, hk, hq, hbuf, hlen, ha, nofun⟩
  have h := transfers_swReceive (c := ⟨i, .masterReceive i am a buf len tmo, s.words, false⟩) hr.lt_nInst_claimState am a
    buf len.toNat
  cases am with
  | seven => simpa [segmentEvents, readByte] using exec_of_read hr hclean hn h hxs
  | ten => simpa [segmentEvents, readByte, addressBytes] using exec_of_read hr hclean hn h hxs

/-- Settles O41: the frame is the address with the register, and the read address. -/
theorem swReadReg : Obligations.SwReadReg := by
  intro s i cmd am a reg buf len tmo n d xs hinit hk hq hclean ha hbuf hn hcmd w bs hxs
  obtain ⟨hr, hprog⟩ : RunsOnSw s i cmd ∧ swProgram cmd = swReadRegs am a reg buf n := by
    obtain ⟨rfl, rfl⟩ | ⟨rfl, rfl, hlen⟩ := hcmd
    · exact ⟨⟨rfl, rfl, hinit, hk, hq, hbuf, ha⟩, rfl⟩
    · exact ⟨⟨rfl, rfl, hinit, hk, hq, hbuf, hlen, ha⟩, rfl⟩
  have h := transfers_swReadRegs (c := ⟨i, cmd, s.words, false⟩) hr.lt_nInst_claimState am a reg buf n
  rw [← hprog] at h
  simpa [segmentEvents, readByte, bs, w] using exec_of_read hr hclean hn h (by simpa [bs] using hxs)

end Sys2Proof.Transactions
end

section
/-! SCAN_BUS on the SW engine (42_transactions.md R211): a probe of one address, the probes of a first part of ScanRange, and
the three ends of a scan, at the end of the range, at `maxCount` and at a busy bus. -/

namespace Sys2Proof.Machine

/-- The byte a scan has recorded at index `k`, having found the addresses `found`. -/
def foundByte (found : List (BitVec 10)) (k : Nat) : Byte := (found.getD k 0).setWidth 8

/-- `s` with the addresses `found` recorded in the buffer, from index 0. -/
def recorded (s : State) (buf : Word) (found : List (BitVec 10)) : State :=
  { s with mem := storeBytes s.mem buf (foundByte found) found.length }

/-- The events of a probe of address `a`, answered by an ACK or not. -/
def probeEvents (i : Nat) (w : Word) (acked : BitVec 10 → Bool) (a : BitVec 10) : List Event :=
  idleSamples i ++ startEvents i w ++ sendEvents i w (enc7 a .write) (!acked a) ++ stopEvents i w

/-- The samples of a probe: an idle bus, and the answer. -/
def probeSamples (acked : BitVec 10 → Bool) (a : BitVec 10) : List Bool := [true, true, !acked a]

theorem storeBytes_succ (m : List Host.Cell) (buf : Word) (d : Nat → Byte) (n : Nat) :
    storeBytes m buf d (n + 1) = memPut (storeBytes m buf d n) (cellAddr buf n) (d n) := by
  simp [storeBytes, List.range_succ]

theorem storeBytes_congr (m : List Host.Cell) (buf : Word) {d d' : Nat → Byte} {n : Nat} (h : ∀ k < n, d k = d' k) :
    storeBytes m buf d n = storeBytes m buf d' n :=
  List.foldl_ext _ _ m fun _ k hk => by rw [h k (List.mem_range.1 hk)]

/-- One address more is recorded at the next index. -/
theorem recorded_append (s : State) (buf : Word) (found : List (BitVec 10)) (a : BitVec 10) :
    recorded s buf (found ++ [a]) =
      { s with mem := memPut (recorded s buf found).mem (cellAddr buf found.length) (scanByte a) } := by
  have hlast : foundByte (found ++ [a]) found.length = scanByte a := by
    simp [foundByte, scanByte, BitVec.setWidth_eq_extractLsb']
  have hfirst : ∀ k < found.length, foundByte (found ++ [a]) k = foundByte found k := fun k hk => by
    simp [foundByte, List.getElem?_append_left hk]
  rw [recorded, List.length_append, List.length_singleton, storeBytes_succ, hlast, storeBytes_congr _ _ hfirst]
  rfl

/-- Recording an address below `maxCount` and the buffer's size. -/
theorem recordFound_eq {c : Ctx} {buf : Word} {v : Byte} {scr : Scratch} {s : State} {n : Nat} {max : Half}
    (hf : scr.resp.found = BitVec.ofNat 16 n) (hmax : n < max.toNat) (hb : n < bufSize s buf) :
    recordFound c buf v scr s = .go { scr with resp := { scr.resp with found := BitVec.ofNat 16 (n + 1) } }
      { s with mem := memPut s.mem (cellAddr buf n) v } := by
  have hlt := max.isLt
  have hn : (BitVec.ofNat 16 n).toNat = n := by rw [BitVec.toNat_ofNat]; omega
  have hsucc : succ16 (BitVec.ofNat 16 n) = some (BitVec.ofNat 16 (n + 1)) := by
    rw [succ16, if_neg (by rw [← BitVec.toNat_inj, hn]; simp; omega), BitVec.ofNat_add]
    rfl
  simp only [recordFound, memWrite, hf, hn, hb, if_true, hsucc]

section scan

variable {c : Ctx} {s : State} (hi : c.inst < nInst s) (acked : BitVec 10 → Bool) {buf : Word} {max : Half}

/-- A scan that has not reached `maxCount` goes on to the next probe. -/
theorem run_scanBreak_of_lt {n : Nat} {scr : Scratch} (hf : scr.resp = { found := BitVec.ofNat 16 n }) (hn : n < max.toNat)
    (ops : List Op) (u : State) :
    run noTurn noTurn c (.scanBreak max :: ops) scr u = run noTurn noTurn c ops scr u := by
  have hne : BitVec.ofNat 16 n ≠ max := fun h => by
    have := congrArg BitVec.toNat h
    rw [BitVec.toNat_ofNat] at this
    have := max.isLt
    omega
  simp only [run, opStep, hf, hne, if_false, ite_self]

/-- The end of a probe: an address that ACKed is recorded. -/
theorem run_scanRecord {a : BitVec 10} {found : List (BitVec 10)} (hmax : found.length < max.toNat)
    (hb : (found ++ [a].filter acked).length ≤ bufSize s buf) {scr : Scratch}
    (hscr : scr.resp = { found := BitVec.ofNat 16 found.length }) (hack : scr.ack = acked a) (x y : Bool) (es : List Event)
    (xs : List Bool) (rest : List Op) :
    ∃ r : Scratch, r.resp = { found := BitVec.ofNat 16 (found ++ [a].filter acked).length } ∧
      run noTurn noTurn c (.scanRecord buf (scanByte a) :: rest) scr (swState (recorded s buf found) c.inst x y es xs) =
        run noTurn noTurn c rest r (swState (recorded s buf (found ++ [a].filter acked)) c.inst x y es xs) := by
  cases ha : acked a with
  | false =>
    rw [List.filter_singleton, ha, cond_false, List.append_nil]
    refine ⟨scr, hscr, ?_⟩
    simp [run, opStep, hack, ha]
  | true =>
    rw [List.filter_singleton, ha, cond_true, List.length_append, List.length_singleton] at hb ⊢
    have hf : scr.resp.found = BitVec.ofNat 16 found.length := by rw [hscr]
    have hroom : found.length < bufSize (swState (recorded s buf found) c.inst x y es xs) buf := hb
    refine ⟨{ scr with resp := { scr.resp with found := BitVec.ofNat 16 (found.length + 1) } }, by rw [hscr], ?_⟩
    rw [recorded_append]
    simp only [run, opStep, thenOp, noTurn, hack, ha, if_true, ite_self, recordFound_eq hf hmax hroom]
    rfl

include hi

/-- The byte of a probe, answered at level `x`, and the STOP after it, whatever the answer (42_transactions.md R211). -/
theorem run_probeByte (v : Byte) (b x : Bool) (es : List Event) (xs : List Bool) (rest : List Op) (scr : Scratch) :
    run noTurn noTurn c (.byte v :: (sendByteOps ++ (stopOps ++ rest))) scr (swState s c.inst false b es (x :: xs)) =
      run noTurn noTurn c rest { scr with byte := v, ack := !x }
        (swState s c.inst true true
          (es ++ (sendEvents c.inst (delayOf s c.inst) v x ++ stopEvents c.inst (delayOf s c.inst))) xs) := by
  simp only [run, opStep, ite_self, swState]
  rw [run_sendByte hi, run_stop hi]
  simp [delayOf, nextDraw, envAfter]

/-- One probe (42_transactions.md R211). -/
theorem run_swProbe {a : BitVec 10} {found : List (BitVec 10)} (hmax : found.length < max.toNat)
    (hb : (found ++ [a].filter acked).length ≤ bufSize s buf) {scr : Scratch}
    (hscr : scr.resp = { found := BitVec.ofNat 16 found.length }) (es : List Event) (xs : List Bool) (rest : List Op) :
    ∃ r : Scratch, r.resp = { found := BitVec.ofNat 16 (found ++ [a].filter acked).length } ∧
      run noTurn noTurn c (swProbe buf max a ++ rest) scr
          (swState (recorded s buf found) c.inst true true es (probeSamples acked a ++ xs)) =
        run noTurn noTurn c rest r (swState (recorded s buf (found ++ [a].filter acked)) c.inst true true
          (es ++ probeEvents c.inst (delayOf s c.inst) acked a) xs) := by
  have hi' : c.inst < nInst (recorded s buf found) := hi
  have hops : swProbe buf max a ++ rest = .scanBreak max :: (([.swBusy] ++ startOps) ++ (.byte (enc7 a .write) ::
      (sendByteOps ++ (stopOps ++ (.scanRecord buf (scanByte a) :: rest))))) := by simp [swProbe]
  obtain ⟨r, b, hr, -, hstart⟩ := (performs_swBusy hi').append (performs_start hi' true) true es ((!acked a) :: xs)
    (.byte (enc7 a .write) :: (sendByteOps ++ (stopOps ++ (.scanRecord buf (scanByte a) :: rest)))) scr id
  obtain ⟨r', hr', hrecord⟩ := run_scanRecord (c := c) acked hmax hb
    (scr := { r with byte := enc7 a .write, ack := !!acked a }) (hr.trans hscr) (Bool.not_not _) true true
    (es ++ probeEvents c.inst (delayOf s c.inst) acked a) xs rest
  refine ⟨r', hr', ?_⟩
  rw [← hrecord, hops, run_scanBreak_of_lt hscr hmax]
  refine hstart.trans ((run_probeByte hi' _ _ _ _ _ _ _).trans ?_)
  have hdelay : delayOf (recorded s buf found) c.inst = delayOf s c.inst := rfl
  simp only [hdelay, probeEvents, List.append_assoc]

/-- The probes of a first part of ScanRange, before each of which the count is below `maxCount`. -/
theorem run_swProbes {pre : List (BitVec 10)}
    (hmax : ∀ q r, pre = q ++ r → r ≠ [] → (q.filter acked).length < max.toNat)
    (hb : (pre.filter acked).length ≤ bufSize s buf) {scr : Scratch} (hscr : scr.resp = {}) (es : List Event)
    (xs : List Bool) (rest : List Op) :
    ∃ r : Scratch, r.resp = { found := BitVec.ofNat 16 (pre.filter acked).length } ∧
      run noTurn noTurn c (pre.flatMap (swProbe buf max) ++ rest) scr
          (swState s c.inst true true es (pre.flatMap (probeSamples acked) ++ xs)) =
        run noTurn noTurn c rest r (swState (recorded s buf (pre.filter acked)) c.inst true true
          (es ++ pre.flatMap (probeEvents c.inst (delayOf s c.inst) acked)) xs) := by
  induction pre using List.reverseRecOn generalizing xs rest with
  | nil => exact ⟨scr, hscr, by simp [recorded, storeBytes]⟩
  | append_singleton pre a ih =>
    rw [List.filter_append] at hb ⊢
    have hfit : (pre.filter acked).length ≤ bufSize s buf :=
      (List.length_append ▸ Nat.le_add_right _ _).trans hb
    obtain ⟨r, hr, hpre⟩ := ih (fun q r h hne => hmax q (r ++ [a]) (by rw [h, List.append_assoc]) (by simp)) hfit
      (probeSamples acked a ++ xs) (swProbe buf max a ++ rest)
    obtain ⟨r', hr', hprobe⟩ := run_swProbe (s := s) hi acked (hmax pre [a] rfl (by simp)) hb hr
      (es ++ pre.flatMap (probeEvents c.inst (delayOf s c.inst) acked)) xs rest
    refine ⟨r', hr', ?_⟩
    simp only [List.flatMap_append, List.flatMap_singleton, List.append_assoc] at hpre hprobe ⊢
    rw [hpre, hprobe]

/-- A whole scan up to the end of such a part. -/
theorem run_swScan {pre post : List (BitVec 10)} (hrange : scanRange = pre ++ post)
    (hmax : ∀ q r, pre = q ++ r → r ≠ [] → (q.filter acked).length < max.toNat)
    (hb : (pre.filter acked).length ≤ bufSize s buf) (xs : List Bool) :
    ∃ r : Scratch, r.resp = { found := BitVec.ofNat 16 (pre.filter acked).length } ∧
      run noTurn noTurn c (swScan buf max) {}
          (swState s c.inst true true [] (true :: true :: (pre.flatMap (probeSamples acked) ++ xs))) =
        run noTurn noTurn c (post.flatMap (swProbe buf max)) r
          (swState (recorded s buf (pre.filter acked)) c.inst true true
            (idleSamples c.inst ++ pre.flatMap (probeEvents c.inst (delayOf s c.inst) acked)) xs) := by
  obtain ⟨r, b, hr, hb', hbusy⟩ := performs_swBusy hi true [] (pre.flatMap (probeSamples acked) ++ xs)
    (scanRange.flatMap (swProbe buf max)) {} id
  obtain rfl := hb' rfl
  rw [hrange, List.flatMap_append] at hbusy
  obtain ⟨r', hr', hprobes⟩ := run_swProbes (s := s) hi acked hmax hb hr (idleSamples c.inst) xs
    (post.flatMap (swProbe buf max))
  refine ⟨r', hr', ?_⟩
  rw [swScan, hrange, List.flatMap_append]
  exact hbusy.trans hprobes

end scan

/-- A scan that has reached `maxCount` ends with Ok. -/
theorem run_swProbes_of_full {c : Ctx} {buf : Word} {max : Half} {post : List (BitVec 10)} {r : Scratch}
    (h : post = [] ∨ r.resp.found = max) (u : State) :
    run noTurn noTurn c (post.flatMap (swProbe buf max)) r u = .next (finish c .ok r.resp u) := by
  cases post with
  | nil => rfl
  | cons a post =>
    have hfull : r.resp.found = max := h.resolve_left (List.cons_ne_nil _ _)
    simp only [List.flatMap_cons, swProbe, List.cons_append, run, opStep, hfull, if_true]

/-- A scan whose next probe finds a line low ends with Busy (42_transactions.md R201, R211). -/
theorem run_swProbes_of_busy {c : Ctx} {s : State} (hi : c.inst < nInst s) {buf : Word} {max : Half} {n : Nat}
    {r : Scratch} (hr : r.resp = { found := BitVec.ofNat 16 n }) (hn : n < max.toNat) {x y : Bool} (hlow : (x && y) = false)
    (a : BitVec 10) (post : List (BitVec 10)) (es : List Event) (xs : List Bool) :
    run noTurn noTurn c ((a :: post).flatMap (swProbe buf max)) r (swState s c.inst true true es (x :: y :: xs)) =
      .next (finish c .busy r.resp
        (swState s c.inst true true (es ++ [.sample c.inst .sda x, .sample c.inst .scl y]) xs)) := by
  simp only [List.flatMap_cons, swProbe, List.cons_append]
  rw [run_scanBreak_of_lt hr hn]
  refine (run_swBusy_of_low hi true true _ { s.env with samples := x :: y :: xs } _ r hlow).trans ?_
  simp [swState, nextDraw, envAfter]

end Sys2Proof.Machine
end

section
/-! The statement about SCAN_BUS on the SW engine (42_transactions.md R211). -/

namespace Sys2Proof.Transactions

open Sys2Proof.Machine

/-- Settles O42: the scan up to the end of `pre`, and then its end, at `maxCount` or the end of the range, or at a busy
bus. -/
theorem swScan : Obligations.SwScan := by
  refine ⟨?ends, ?busy⟩
  case ends =>
    intro s i buf max acked pre post xs hinit hk hq hclean hbuf hmax hrange hcount hend hb hxs w found
    have hr : RunsOnSw s i (.scanBus i buf max) := ⟨rfl, rfl, hinit, hk, hq, hbuf, hmax⟩
    obtain ⟨r, hresp, hrun⟩ := run_swScan (c := ⟨i, .scanBus i buf max, s.words, false⟩) hr.lt_nInst_claimState acked hrange
      hcount hb xs
    have hfull : post = [] ∨ r.resp.found = max := hend.imp_right fun h => by
      rw [hresp, h, BitVec.ofNat_toNat, BitVec.setWidth_eq]
    rw [run_swProbes_of_full hfull, hresp, delayOf_claimState hr.lt_nInst] at hrun
    refine exec_of_clean hr hclean ?_
    rw [hxs]
    exact hrun
  case busy =>
    intro s i buf max acked pre post a x y xs hinit hk hq hclean hbuf hrange hcount hb hlow hxs w found
    have hmax : max ≠ 0 := by rintro rfl; exact absurd hcount (Nat.not_lt_zero _)
    have hr : RunsOnSw s i (.scanBus i buf max) := ⟨rfl, rfl, hinit, hk, hq, hbuf, hmax⟩
    have hbelow : ∀ q r, pre = q ++ r → r ≠ [] → (q.filter acked).length < max.toNat := by
      rintro q r rfl -
      rw [List.filter_append, List.length_append] at hcount
      omega
    obtain ⟨r, hresp, hrun⟩ := run_swScan (c := ⟨i, .scanBus i buf max, s.words, false⟩) hr.lt_nInst_claimState acked hrange
      hbelow hb (x :: y :: xs)
    rw [run_swProbes_of_busy (s := recorded (claimState s i) buf (pre.filter acked)) hr.lt_nInst_claimState hresp hcount hlow,
      hresp, delayOf_claimState hr.lt_nInst] at hrun
    refine exec_of_clean hr hclean ?_
    rw [hxs]
    exact hrun

end Sys2Proof.Transactions
end

section
/-! The bits of a register (10_state.md R41 to R47): the model's tests of one flag, in the bit numbers of the statements, and
which bits `clearBits`, `setBits` and a controller write leave 0. -/

namespace Sys2Proof.Machine

theorem has_twoPow (v : Half) (k : Fin 16) : has v (BitVec.twoPow 16 k) = v.getLsbD k := by
  have hne : ∀ k : Fin 16, (BitVec.twoPow 16 k != 0#16) = true := by decide
  rw [has, BitVec.and_twoPow]
  cases v.getLsbD k with
  | false => rfl
  | true => exact hne k

@[simp] theorem has_pe (v : Half) : has v Cr1.pe = v.getLsbD 0 := has_twoPow v 0
@[simp] theorem has_start (v : Half) : has v Cr1.start = v.getLsbD 8 := has_twoPow v 8
@[simp] theorem has_stop (v : Half) : has v Cr1.stop = v.getLsbD 9 := has_twoPow v 9
@[simp] theorem has_ack (v : Half) : has v Cr1.ack = v.getLsbD 10 := has_twoPow v 10
@[simp] theorem has_swrst (v : Half) : has v Cr1.swrst = v.getLsbD 15 := has_twoPow v 15
@[simp] theorem has_sb (v : Half) : has v Sr1.sb = v.getLsbD 0 := has_twoPow v 0
@[simp] theorem has_addr (v : Half) : has v Sr1.addr = v.getLsbD 1 := has_twoPow v 1
@[simp] theorem has_add10 (v : Half) : has v Sr1.add10 = v.getLsbD 3 := has_twoPow v 3
@[simp] theorem has_rxne (v : Half) : has v Sr1.rxne = v.getLsbD 6 := has_twoPow v 6
@[simp] theorem has_msl (v : Half) : has v Sr2.msl = v.getLsbD 0 := has_twoPow v 0
@[simp] theorem has_busy (v : Half) : has v Sr2.busy = v.getLsbD 1 := has_twoPow v 1

/-- A bit among those of `m`, none of which is set. -/
theorem getLsbD_of_and_eq_zero {v m : Half} (h : v &&& m = 0#16) {k : Nat} (hk : m.getLsbD k = true) :
    v.getLsbD k = false := by
  simpa [hk] using congrArg (BitVec.getLsbD · k) h

theorem and_and_eq_zero {v m : Half} (h : v &&& m = 0#16) (k : Half) : v &&& k &&& m = 0#16 := by
  rw [BitVec.and_assoc, BitVec.and_comm k, ← BitVec.and_assoc, h, BitVec.zero_and]

theorem clearBits_and_eq_zero {v m : Half} (h : v &&& m = 0#16) (k : Half) : clearBits v k &&& m = 0#16 :=
  and_and_eq_zero h _

theorem setBits_and_eq_zero {v k m : Half} (h : v &&& m = 0#16) (hk : k &&& m = 0#16) : setBits v k &&& m = 0#16 := by
  rw [setBits, BitVec.and_comm, BitVec.and_or_distrib_left, BitVec.and_comm m, h, BitVec.and_comm m, hk, BitVec.or_zero]

/-- A controller write leaves bits 0 that it does not set, or that are reserved (10_state.md R40). -/
theorem written_and_eq_zero {r : Reg} {old mask v m : Half} (h : old &&& m = 0#16)
    (hv : mask &&& v &&& m = 0#16 ∨ writableBits r &&& m = 0#16) : written r old mask v &&& m = 0#16 := by
  refine setBits_and_eq_zero (clearBits_and_eq_zero h mask) ?_
  rcases hv with hv | hv
  · rw [show v &&& writableBits r &&& mask &&& m = mask &&& v &&& m &&& writableBits r by ac_rfl, hv, BitVec.zero_and]
  · rw [show v &&& writableBits r &&& mask &&& m = writableBits r &&& m &&& (v &&& mask) by ac_rfl, hv, BitVec.zero_and]

theorem written_all (r : Reg) (old v : Half) : written r old 0xFFFF v = v &&& writableBits r := by
  rw [written, merge, show (0xFFFF : Half) = BitVec.allOnes 16 from rfl, BitVec.not_allOnes, BitVec.and_zero,
    BitVec.zero_or, BitVec.and_allOnes]

/-- `clearBits` leaves a bit alone that is not in the mask. -/
theorem getLsbD_clearBits (v : Half) {m : Half} {k : Nat} (hm : m.getLsbD k = false) :
    (clearBits v m).getLsbD k = v.getLsbD k := by
  rw [clearBits, BitVec.getLsbD_and, BitVec.getLsbD_not, hm]
  by_cases hk : k < 16
  · simp [hk]
  · simp [BitVec.getLsbD_of_ge _ _ (Nat.le_of_not_lt hk)]

/-- Clearing bits that hold those of `m`. -/
theorem clearBits_and_eq_zero_of_subset (v : Half) {k m : Half} (hk : ~~~k &&& m = 0#16) : clearBits v k &&& m = 0#16 := by
  rw [clearBits, BitVec.and_assoc, hk, BitVec.and_zero]

end Sys2Proof.Machine
end

section
/-! What the steps and accesses of a peripheral keep (43_hw_peripheral.md R250, R251). -/

namespace Sys2Proof.Machine

/-- `periphOk`, one rule for each register and each rule on the phase. -/
structure PeriphRules (p : Periph) : Prop where
  cr1 : p.cr1 &&& 0x78FE#16 = 0#16
  cr2 : p.cr2 &&& 0xF8C0#16 = 0#16
  sr1 : p.sr1 &&& 0xF830#16 = 0#16
  sr2 : p.sr2 &&& 0xFFF8#16 = 0#16
  dr : p.dr &&& 0xFF00#16 = 0#16
  oar2 : p.oar2 = 0#16
  oar1 : p.oar1 &&& 0x3C00#16 = 0#16
  ccr : p.ccr &&& 0x3000#16 = 0#16
  trise : p.trise &&& 0xFFC0#16 = 0#16
  flags : p.ph = .idle → p.sr1 &&& 0x009F#16 = 0#16
  msl : p.ph = .idle → p.sr2 &&& Sr2.msl = 0#16
  off : p.cr1.getLsbD 0 = false → p.ph = .idle

theorem periphOk_iff (p : Periph) : periphOk p = true ↔ PeriphRules p := by
  have hm : has p.sr2 Sr2.msl = false ↔ p.sr2 &&& Sr2.msl = 0#16 := by simp [has, -has_msl]
  have hi : idleOk p = true ↔ p.ph = .idle → p.sr1 &&& 0x009F#16 = 0#16 ∧ p.sr2 &&& Sr2.msl = 0#16 := by
    by_cases h : p.ph = .idle <;> simp [idleOk, h, -has_msl, hm]
  have ho : (has p.cr1 Cr1.pe || p.ph == .idle) = true ↔ (p.cr1.getLsbD 0 = false → p.ph = .idle) := by
    rw [has_pe]
    cases p.cr1.getLsbD 0 <;> simp
  simp only [periphOk, Bool.and_eq_true, hi, ho, reservedOk, beq_iff_eq]
  constructor
  · rintro ⟨⟨⟨⟨⟨⟨⟨⟨⟨⟨cr1, cr2⟩, sr1⟩, sr2⟩, dr⟩, oar2⟩, oar1⟩, ccr⟩, trise⟩, idle⟩, off⟩
    exact { cr1, cr2, sr1, sr2, dr, oar2, oar1, ccr, trise, off, flags := fun h => (idle h).1, msl := fun h => (idle h).2 }
  · rintro ⟨cr1, cr2, sr1, sr2, dr, oar2, oar1, ccr, trise, flags, msl, off⟩
    exact ⟨⟨⟨⟨⟨⟨⟨⟨⟨⟨cr1, cr2⟩, sr1⟩, sr2⟩, dr⟩, oar2⟩, oar1⟩, ccr⟩, trise⟩, fun h => ⟨flags h, msl h⟩⟩, off⟩

theorem byte_and_eq_zero : ∀ b : Byte, b.setWidth 16 &&& 0xFF00#16 = 0#16 := by decide

theorem periphRules_resetWith (wire : List BusSym) : PeriphRules (Periph.resetWith wire) := by
  constructor <;> simp [Periph.resetWith]

namespace PeriphRules

section

variable {p : Periph}

theorem clearSr1 (h : PeriphRules p) (m : Half) : PeriphRules (Machine.clearSr1 m p) :=
  { h with sr1 := clearBits_and_eq_zero h.sr1 m, flags := fun hp => clearBits_and_eq_zero (h.flags hp) m }

theorem clearIfSeen (h : PeriphRules p) (m : Half) : PeriphRules (Machine.clearIfSeen m p) := by
  unfold Machine.clearIfSeen
  split_ifs
  · exact h.clearSr1 m
  · exact h

/-- ADDR is 1 in no Idle phase, so reading SR2 starts no phase on a peripheral whose PE is 0. -/
theorem periphReadSR2 (h : PeriphRules p) : PeriphRules (Machine.periphReadSR2 p) := by
  unfold Machine.periphReadSR2
  split_ifs with hs
  · have hne : p.ph ≠ .idle := fun hp => by
      rw [has_addr, has_addr, getLsbD_of_and_eq_zero (h.flags hp) (k := 1) rfl, Bool.and_false] at hs
      cases hs
    have hoff : ∀ {P : Prop}, p.cr1.getLsbD 0 = false → P := fun h0 => absurd (h.off h0) hne
    simp only [leaveAddrDone]
    split_ifs
    · exact { h.clearSr1 Sr1.addr with flags := nofun, msl := nofun, off := hoff }
    · exact { h.clearSr1 Sr1.addr with
              sr1 := setBits_and_eq_zero (h.clearSr1 Sr1.addr).sr1 (by decide), flags := nofun, msl := nofun, off := hoff }
  · exact { h with }

theorem takeByte (h : PeriphRules p) : PeriphRules (Machine.takeByte p) := by
  unfold Machine.takeByte
  split
  · split
    case h_3 => exact { h.clearSr1 Sr1.txe with } -- Tx, the phase that clears a flag
    all_goals exact { h with }
  · exact h

theorem periphWriteDR (h : PeriphRules p) (v : Byte) : PeriphRules (Machine.periphWriteDR v p) :=
  takeByte { ((h.clearIfSeen Sr1.sb).clearIfSeen Sr1.add10).clearIfSeen Sr1.btf with dr := byte_and_eq_zero v }

theorem periphWriteCR1 (h : PeriphRules p) {v : Half} (hv : v &&& 0x78FE#16 = 0#16) :
    PeriphRules (Machine.periphWriteCR1 v p) := by
  have hc : setBits v (p.cr1 &&& Cr1.requests) &&& 0x78FE#16 = 0#16 := setBits_and_eq_zero hv (and_and_eq_zero h.cr1 _)
  unfold Machine.periphWriteCR1
  simp only [has_swrst, has_pe]
  split_ifs with hr hon hpe hpe
  · exact periphRules_resetWith _
  · exact { h with cr1 := hc, off := fun h0 => nomatch hpe.symm.trans h0 }
  · exact { h with
            cr1 := clearBits_and_eq_zero hc _, sr1 := BitVec.zero_and, sr2 := BitVec.zero_and
            flags := fun _ => BitVec.zero_and, msl := fun _ => BitVec.zero_and, off := fun _ => rfl }
  · have hp := h.off (Bool.eq_false_iff.2 hon)
    exact { h with
            cr1 := clearBits_and_eq_zero hc _, flags := fun _ => h.flags hp, msl := fun _ => h.msl hp, off := fun _ => rfl }
  · exact { h with cr1 := clearBits_and_eq_zero hc _, off := fun _ => h.off (Bool.eq_false_iff.2 hon) }

theorem periphWrite (h : PeriphRules p) {r : Reg} {m v : Half} (hw : writeOk r m v = true) :
    PeriphRules (Machine.periphWrite r m v p) := by
  cases r with
  | cr1 => exact h.periphWriteCR1 (written_and_eq_zero h.cr1 (.inl (eq_of_beq hw)))
  | cr2 => exact { h with cr2 := written_and_eq_zero h.cr2 (.inl (eq_of_beq hw)) }
  | oar1 => exact { h with oar1 := written_and_eq_zero h.oar1 (.inr rfl) }
  | oar2 => cases hw
  | dr => exact h.periphWriteDR _
  | sr1 => exact h.clearSr1 _
  | sr2 => exact h
  | ccr => exact { h with ccr := written_and_eq_zero h.ccr (.inr rfl) }
  | trise => exact { h with trise := written_and_eq_zero h.trise (.inr rfl) }

/-! Steps: first those that end Idle or leave the phase, then those of a peripheral whose PE is 1. -/

/-- STOPF is 0 always, so with the progress flags cleared every flag the Idle rule names is 0. -/
theorem clearBits_progressFlags (h : PeriphRules p) : clearBits p.sr1 progressFlags &&& 0x009F#16 = 0#16 := by
  rw [clearBits, BitVec.and_assoc, show ~~~progressFlags &&& 0x009F#16 = 0xF830#16 &&& 0x0010#16 by decide,
    ← BitVec.and_assoc, h.sr1, BitVec.zero_and]

theorem sendDR (h : PeriphRules p) : PeriphRules (Machine.sendDR p) := { h with }

theorem loseBus (h : PeriphRules p) : PeriphRules (Machine.loseBus p) :=
  { h with
    sr1 := setBits_and_eq_zero (clearBits_and_eq_zero h.sr1 _) rfl, sr2 := clearBits_and_eq_zero h.sr2 _
    flags := fun _ => setBits_and_eq_zero h.clearBits_progressFlags rfl
    msl := fun _ => clearBits_and_eq_zero_of_subset _ rfl, off := fun _ => rfl }

theorem stopGen (h : PeriphRules p) : PeriphRules (Machine.stopGen p) :=
  { h with
    cr1 := clearBits_and_eq_zero h.cr1 _, sr1 := clearBits_and_eq_zero h.sr1 _, sr2 := clearBits_and_eq_zero h.sr2 _
    flags := fun _ => h.clearBits_progressFlags, msl := fun _ => clearBits_and_eq_zero_of_subset _ rfl, off := fun _ => rfl }

theorem stopCancel (h : PeriphRules p) : PeriphRules { p with cr1 := clearBits p.cr1 (Cr1.stop ||| Cr1.start) } :=
  { h with
    cr1 := clearBits_and_eq_zero h.cr1 _
    off := fun h0 => h.off ((getLsbD_clearBits _ rfl).symm.trans h0) }

theorem extBusy (h : PeriphRules p) (d : Bool) :
    PeriphRules { p with sr2 := if d then setBits p.sr2 Sr2.busy else clearBits p.sr2 Sr2.busy } := by
  cases d with
  | true => exact { h with sr2 := setBits_and_eq_zero h.sr2 rfl, msl := fun hp => setBits_and_eq_zero (h.msl hp) rfl }
  | false => exact { h with sr2 := clearBits_and_eq_zero h.sr2 _, msl := fun hp => clearBits_and_eq_zero (h.msl hp) _ }

theorem berr (h : PeriphRules p) : PeriphRules { p with sr1 := setBits p.sr1 Sr1.berr } :=
  { h with sr1 := setBits_and_eq_zero h.sr1 rfl, flags := fun hp => setBits_and_eq_zero (h.flags hp) rfl }

variable (on : p.cr1.getLsbD 0 = true)

include on

/-- The rule on PE = 0 asks nothing of a peripheral whose PE is 1. -/
theorem of_on {P : Prop} : p.cr1.getLsbD 0 = false → P := fun h0 => nomatch on.symm.trans h0

theorem startGen (h : PeriphRules p) : PeriphRules (Machine.startGen p) :=
  { h with
    cr1 := clearBits_and_eq_zero h.cr1 _, sr1 := setBits_and_eq_zero (clearBits_and_eq_zero h.sr1 _) rfl
    sr2 := clearBits_and_eq_zero (setBits_and_eq_zero h.sr2 rfl) _, flags := nofun, msl := nofun
    off := of_on ((getLsbD_clearBits _ rfl).trans on) }

theorem nackByte (h : PeriphRules p) : PeriphRules (Machine.nackByte p) :=
  { h with sr1 := setBits_and_eq_zero h.sr1 rfl, flags := nofun, msl := nofun, off := of_on on }

theorem addrAcked (h : PeriphRules p) (rd : Bool) : PeriphRules (Machine.addrAcked rd p) :=
  { h with
    sr1 := setBits_and_eq_zero h.sr1 rfl
    sr2 := by cases rd with
      | true => exact clearBits_and_eq_zero h.sr2 _
      | false => exact setBits_and_eq_zero h.sr2 rfl
    flags := nofun, msl := nofun, off := of_on on }

theorem addrOutcome (h : PeriphRules p) (b : Byte) (r : Outcome3) : PeriphRules (Machine.addrOutcome b r p) := by
  cases r with
  | lost => exact h.loseBus
  | nack => exact h.nackByte on
  | ack =>
    simp only [Machine.addrOutcome]
    split_ifs
    · exact { h with sr1 := setBits_and_eq_zero h.sr1 rfl, flags := nofun, msl := nofun, off := of_on on }
    · exact { h.addrAcked on _ with }

theorem loOutcome (h : PeriphRules p) (r : Outcome3) : PeriphRules (Machine.loOutcome r p) := by
  cases r with
  | lost => exact h.loseBus
  | nack => exact h.nackByte on
  | ack => exact { h.addrAcked on _ with }

theorem txOutcome (h : PeriphRules p) (hp : p.ph = .tx) (r : Outcome3) : PeriphRules (Machine.txOutcome r p) := by
  cases r with
  | lost => exact h.loseBus
  | nack => exact h.nackByte on
  | ack =>
    have hne : p.ph ≠ .idle := fun h0 => nomatch hp.symm.trans h0
    exact { h with
            sr1 := setBits_and_eq_zero h.sr1 rfl, flags := fun h0 => absurd h0 hne, msl := fun h0 => absurd h0 hne
            off := of_on on }

theorem rxByte (h : PeriphRules p) (v : Byte) : PeriphRules (Machine.rxByte v p) := by
  have hne : (Machine.rxByte v p).ph ≠ .idle := by simp only [Machine.rxByte]; split_ifs <;> nofun
  exact { h with
          dr := byte_and_eq_zero v, sr1 := setBits_and_eq_zero h.sr1 rfl, flags := fun h0 => absurd h0 hne
          msl := fun h0 => absurd h0 hne, off := of_on on }

omit on

theorem stepEffect (h : PeriphRules p) {st : PeriphStep} (he : stepEnabled st p = true) :
    PeriphRules (Machine.stepEffect st p) := by
  obtain ⟨on, hst⟩ := Bool.and_eq_true_iff.1 he
  rw [cr1Is, has_pe] at on
  have hsent : (Machine.sendDR p).cr1.getLsbD 0 = true := on
  cases st with
  | startGen => exact h.startGen on
  | addrSend r => exact h.sendDR.addrOutcome hsent _ r
  | loSend r => exact h.sendDR.loOutcome hsent r
  | txByte r => exact h.sendDR.txOutcome hsent (eq_of_beq (Bool.and_eq_true_iff.1 hst).1) r
  | rxByte v => exact h.rxByte on v
  | stopGen => exact h.stopGen
  | stopCancel => exact h.stopCancel
  | extBusy d => exact h.extBusy d
  | berr => exact h.berr

end

/-- Whatever moves a peripheral keeps its rules. -/
theorem periphMove {p q : Periph} (h : PeriphRules p) (m : PeriphMove p q) : PeriphRules q := by
  cases m with
  | readSR1 => exact { h with }
  | readSR2 => exact h.periphReadSR2
  | readDR => exact { (h.clearSr1 Sr1.rxne).clearIfSeen Sr1.btf with }
  | write r m v hw => exact h.periphWrite hw
  | step st he => exact h.stepEffect he

end PeriphRules

/-- Outside the table `dev` is a peripheral at reset, and `row` a row at reset. -/
theorem periphOk_dev {s : State} (h : ∀ p ∈ s.peri, periphOk p = true) (i : Nat) : periphOk (dev s i) = true := by
  rw [dev, List.getD_eq_getElem?_getD]
  cases hi : s.peri[i]? with
  | none => decide
  | some p => exact h p (List.mem_of_getElem? hi)

theorem swRowOk_row {s : State} (h : ∀ r ∈ s.inst, swRowOk r = true) (i : Nat) : swRowOk (row s i) = true := by
  rw [row, List.getD_eq_getElem?_getD]
  cases hi : s.inst[i]? with
  | none => decide
  | some p => exact h p (List.mem_of_getElem? hi)

theorem Moves.periphOk {R : Nat → Prop} {s t : State} (h : Moves R s t)
    (hs : ∀ p ∈ s.peri, Machine.periphOk p = true) : ∀ p ∈ t.peri, Machine.periphOk p = true :=
  h.keep (P := fun u => ∀ p ∈ u.peri, Machine.periphOk p = true)
    (fun u v hp hu => by
      cases hp with
      | dev i q hm =>
        intro p hp
        rcases List.mem_or_eq_of_mem_set hp with hp | rfl
        · exact hu p hp
        · exact (periphOk_iff _).2 (((periphOk_iff _).1 (periphOk_dev hu i)).periphMove hm)
      | _ => exact hu) hs

theorem Moves.swRowOk {R : Nat → Prop} {s t : State} (h : Moves R s t) (hs : ∀ r ∈ s.inst, Machine.swRowOk r = true) :
    ∀ r ∈ t.inst, Machine.swRowOk r = true :=
  h.keep (P := fun u => ∀ r ∈ u.inst, Machine.swRowOk r = true)
    (fun u v hp hu => by
      cases hp with
      | row i q hi hc hx =>
        intro r hr
        rcases List.mem_or_eq_of_mem_set hr with hr | rfl
        · exact hu r hr
        · exact hx (swRowOk_row hu i)
      | _ => exact hu) hs

/-- Settles O9: a step is a sequence of small moves, and each keeps every part of the invariant. -/
theorem invStep : Obligations.InvStep := by
  rintro s t ⟨hseq, hmem, hperi, hrows, hlen, hclock⟩ hstep
  have hm : Moves anyRow s t := step_ok hseq t hstep
  refine ⟨hm.seqOk hseq, hm.memWf hmem, hm.periphOk hperi, hm.swRowOk hrows, ?_, hm.clockOk hclock⟩
  exact hm.peri_length.trans (hlen.trans hm.nInst.symm)

end Sys2Proof.Machine
end

section
/-! The side effects of the CSR accesses, in the bits of the statements (43_hw_peripheral.md R255, R256, R264). -/

namespace Sys2Proof.Machine

/-- An access of DR clears a flag of SR1 that the last read of SR1 has seen. -/
theorem clearIfSeen_twoPow (k : Fin 16) (p : Periph) : clearIfSeen (BitVec.twoPow 16 k) p =
    { p with sr1 := p.sr1 &&& ~~~(p.snap &&& BitVec.twoPow 16 k) } := by
  rw [clearIfSeen, has_twoPow, BitVec.and_twoPow]
  cases p.snap.getLsbD k with
  | false =>
    change p = { p with sr1 := p.sr1 &&& ~~~0#16 }
    rw [BitVec.not_zero, BitVec.and_allOnes]
  | true => rfl

theorem clearIfSeen_sb (p : Periph) : clearIfSeen Sr1.sb p = { p with sr1 := p.sr1 &&& ~~~(p.snap &&& Sr1.sb) } :=
  clearIfSeen_twoPow 0 p

theorem clearIfSeen_btf (p : Periph) : clearIfSeen Sr1.btf p = { p with sr1 := p.sr1 &&& ~~~(p.snap &&& Sr1.btf) } :=
  clearIfSeen_twoPow 2 p

theorem clearIfSeen_add10 (p : Periph) :
    clearIfSeen Sr1.add10 p = { p with sr1 := p.sr1 &&& ~~~(p.snap &&& Sr1.add10) } := clearIfSeen_twoPow 3 p

theorem periphReadSR2_eq (p : Periph) : periphReadSR2 p =
    if p.snap.getLsbD 1 = true ∧ p.sr1.getLsbD 1 = true then
      { p with
        snap := 0
        sr1 := if p.arw then p.sr1 &&& ~~~0x0002 else (p.sr1 &&& ~~~0x0002) ||| 0x0080
        ph := if p.arw then .rx else .tx }
    else { p with snap := 0 } := by
  simp only [periphReadSR2, has_addr, Bool.and_eq_true, leaveAddrDone, show (clearSr1 Sr1.addr p).arw = p.arw from rfl]
  split_ifs <;> rfl

theorem periphReadDR_eq (p : Periph) : periphReadDR p =
    { p with snap := 0, sr1 := p.sr1 &&& ~~~0x0040 &&& ~~~(p.snap &&& 0x0004) } := by
  rw [periphReadDR, clearIfSeen_btf]
  rfl

/-- SB, ADD10 and BTF are cleared one after another, each where it was seen. -/
theorem clearIfSeen_all (p : Periph) : clearIfSeen Sr1.btf (clearIfSeen Sr1.add10 (clearIfSeen Sr1.sb p)) =
    { p with sr1 := p.sr1 &&& ~~~(p.snap &&& 0x000D) } := by
  have hseen : ~~~(p.snap &&& 0x000D) =
      ~~~(p.snap &&& Sr1.sb) &&& ~~~(p.snap &&& Sr1.add10) &&& ~~~(p.snap &&& Sr1.btf) := by
    rw [← BitVec.not_or, ← BitVec.not_or, ← BitVec.and_or_distrib_left, ← BitVec.and_or_distrib_left]
    rfl
  rw [clearIfSeen_sb, clearIfSeen_add10, clearIfSeen_btf]
  simp only [hseen, ← BitVec.and_assoc]

theorem takeByte_eq (p : Periph) :
    let sends := p.sr2.getLsbD 0 = true ∧ (p.ph = .start ∨ p.ph = .hdr10 ∨ p.ph = .tx)
    takeByte p =
      { p with
        sr1 := if sends ∧ p.ph = .tx then p.sr1 &&& ~~~0x0080 else p.sr1
        pendDR := if sends then true else p.pendDR } := by
  obtain ⟨_, _, _, _, _, _, sr2, _, _, ph, _, _, _, _⟩ := p
  simp only [takeByte, has_msl]
  cases sr2.getLsbD 0 with
  | false => rfl
  | true => cases ph <;> rfl

theorem periphWriteDR_eq (v : Byte) (p : Periph) :
    let seen := p.snap &&& 0x000D
    let sends := p.sr2.getLsbD 0 = true ∧ (p.ph = .start ∨ p.ph = .hdr10 ∨ p.ph = .tx)
    periphWriteDR v p =
      { p with
        dr := v.setWidth 16, snap := 0
        sr1 := if sends ∧ p.ph = .tx then p.sr1 &&& ~~~seen &&& ~~~0x0080 else p.sr1 &&& ~~~seen
        pendDR := if sends then true else p.pendDR } := by
  rw [periphWriteDR, clearIfSeen_all, takeByte_eq]

/-- Software clears PE with START and STOP as they are: both stay up until hardware clears them (10_state.md R40). -/
theorem setBits_written_pe (c : Half) :
    setBits (written .cr1 c Cr1.pe 0#16) (c &&& Cr1.requests) = clearBits c Cr1.pe := by
  rw [written, merge, setBits, BitVec.zero_and, BitVec.zero_and, BitVec.or_zero, ← BitVec.and_or_distrib_left, clearBits]
  rfl

theorem periphWrite_pe_off {p : Periph} (hon : p.cr1.getLsbD 0 = true) (hr : p.cr1.getLsbD 15 = false) :
    periphWrite .cr1 0x0001 0 p =
      { p with
        cr1 := p.cr1 &&& ~~~0x0701, sr1 := 0, sr2 := 0, ph := .idle, pendDR := false, snap := 0
        wire := if p.sr2.getLsbD 0 then .release :: p.wire else p.wire } := by
  have hc : clearBits (clearBits p.cr1 Cr1.pe) (Cr1.pe ||| Cr1.start ||| Cr1.stop ||| Cr1.ack) = p.cr1 &&& ~~~0x0701 := by
    rw [clearBits, clearBits, BitVec.and_assoc]
    rfl
  have h15 : (clearBits p.cr1 Cr1.pe).getLsbD 15 = false := (getLsbD_clearBits _ rfl).trans hr
  have h0 : (clearBits p.cr1 Cr1.pe).getLsbD 0 = false := by simp [clearBits, Cr1.pe]
  change periphWriteCR1 (written .cr1 p.cr1 Cr1.pe 0#16) p = _
  rw [periphWriteCR1, setBits_written_pe]
  simp only [has_swrst, has_pe, h15, h0, hon, disablePeriph, hc, has_msl]
  rfl

theorem periphWrite_cr1_all {p : Periph} {v : Half} (hon : p.cr1.getLsbD 0 = true) (h0 : v.getLsbD 0 = true)
    (hr : v.getLsbD 15 = false) :
    periphWrite .cr1 0xFFFF v p = { p with cr1 := (v &&& 0xBFFB) ||| (p.cr1 &&& 0x0300) } := by
  have h15 : (setBits (v &&& writableBits .cr1) (p.cr1 &&& Cr1.requests)).getLsbD 15 = false := by
    rw [setBits, BitVec.getLsbD_or, BitVec.getLsbD_and, BitVec.getLsbD_and, hr,
      show Cr1.requests.getLsbD 15 = false from rfl, Bool.false_and, Bool.and_false, Bool.or_self]
  have h0 : (setBits (v &&& writableBits .cr1) (p.cr1 &&& Cr1.requests)).getLsbD 0 = true := by
    rw [setBits, BitVec.getLsbD_or, BitVec.getLsbD_and, h0]
    rfl
  change periphWriteCR1 (written .cr1 p.cr1 0xFFFF v) p = _
  rw [periphWriteCR1, written_all]
  simp only [has_swrst, has_pe, h15, h0, hon]
  rfl

theorem csrWrite_eq {i : Nat} {r : Reg} {m v : Half} {s : State} {p : Periph} (h : periphWrite r m v (dev s i) = p) :
    csrWrite i r m v s = tracing (setDev s i p) [Event.csrW i r m v] := by
  rw [csrWrite, h]
  rfl

/-- Settles O54: each access does to the peripheral what the equations above say. -/
theorem csrSideEffects : Obligations.CsrSideEffects := by
  intro s i b v _ p seen sends
  refine ⟨rfl, ?sr2, ?dr, csrWrite_eq ?writeDR, csrWrite_eq rfl, fun hon hr => csrWrite_eq (periphWrite_pe_off hon hr),
    fun hon h0 hr => csrWrite_eq (periphWrite_cr1_all hon h0 hr), ?cr2, ?oar1, ?ccr, ?trise⟩
  case sr2 => rw [readSR2, periphReadSR2_eq]; rfl
  case dr => rw [readDR, periphReadDR_eq]; rfl
  case writeDR =>
    rw [periphWrite, BitVec.setWidth_setWidth_of_le b (by decide), BitVec.setWidth_eq]
    exact periphWriteDR_eq b p
  all_goals exact csrWrite_eq (by rw [periphWrite, written_all]; rfl)

end Sys2Proof.Machine
end

section
/-! The steps of a peripheral: when each is enabled and what it does, in the bits of the statements (43_hw_peripheral.md
R252 to R263). -/

namespace Sys2Proof.Machine

/-! When a step is enabled. -/

theorem stepEnabled_startGen_iff (p : Periph) : stepEnabled .startGen p = true ↔
    p.cr1.getLsbD 0 = true ∧ p.cr1.getLsbD 8 = true ∧
      (¬ p.sr2.getLsbD 0 = true ∧ p.sr2.getLsbD 1 = false ∧ p.ph = .idle ∨
        p.sr2.getLsbD 0 = true ∧ ¬ p.cr1.getLsbD 9 = true ∧
          (p.ph = .tx ∧ p.pendDR = false ∨ p.ph = .held ∨ p.ph = .rxEnd)) := by
  simp only [stepEnabled, startEnabled, cr1Is, has_pe, has_start, has_stop, has_msl, has_busy, Bool.and_eq_true]
  cases p.sr2.getLsbD 0 with
  | false => simp [and_comm]
  | true => cases p.ph <;> simp

theorem stepEnabled_stopGen_iff (p : Periph) : stepEnabled .stopGen p = true ↔
    p.cr1.getLsbD 0 = true ∧ p.cr1.getLsbD 9 = true ∧ p.sr2.getLsbD 0 = true ∧
      (p.ph = .addrDone ∨ p.ph = .held ∨ p.ph = .rxEnd ∨ p.ph = .rx ∧ p.sr1.getLsbD 6 = true ∨
        (p.ph = .start ∨ p.ph = .hdr10 ∨ p.ph = .tx) ∧ p.pendDR = false) := by
  simp only [stepEnabled, stopPhase, cr1Is, has_pe, has_stop, has_msl, has_rxne, Bool.and_eq_true, and_assoc]
  cases p.ph <;> simp

theorem stepEnabled_addrSend_iff (r : Outcome3) (p : Periph) : stepEnabled (.addrSend r) p = true ↔
    p.cr1.getLsbD 0 = true ∧ p.ph = .start ∧ p.sr1.getLsbD 0 = false ∧ p.pendDR = true := by
  simp only [stepEnabled, cr1Is, has_pe, has_sb, Bool.and_eq_true, beq_iff_eq, Bool.not_eq_true', and_assoc]

theorem stepEnabled_loSend_iff (r : Outcome3) (p : Periph) : stepEnabled (.loSend r) p = true ↔
    p.cr1.getLsbD 0 = true ∧ p.ph = .hdr10 ∧ p.sr1.getLsbD 3 = false ∧ p.pendDR = true := by
  simp only [stepEnabled, cr1Is, has_pe, has_add10, Bool.and_eq_true, beq_iff_eq, Bool.not_eq_true', and_assoc]

theorem stepEnabled_txByte_iff (r : Outcome3) (p : Periph) : stepEnabled (.txByte r) p = true ↔
    p.cr1.getLsbD 0 = true ∧ p.ph = .tx ∧ p.pendDR = true := by
  simp only [stepEnabled, cr1Is, has_pe, Bool.and_eq_true, beq_iff_eq]

theorem stepEnabled_rxByte_iff (v : Byte) (p : Periph) : stepEnabled (.rxByte v) p = true ↔
    p.cr1.getLsbD 0 = true ∧ p.ph = .rx ∧ p.sr1.getLsbD 6 = false := by
  simp only [stepEnabled, cr1Is, has_pe, has_rxne, Bool.and_eq_true, beq_iff_eq, Bool.not_eq_true']

theorem stepEnabled_stopCancel_iff (p : Periph) : stepEnabled .stopCancel p = true ↔
    p.cr1.getLsbD 0 = true ∧ p.cr1.getLsbD 9 = true ∧ ¬ p.sr2.getLsbD 0 = true := by
  simp only [stepEnabled, cr1Is, has_pe, has_stop, has_msl, Bool.and_eq_true, Bool.not_eq_true', Bool.not_eq_true]

theorem stepEnabled_extBusy_iff (d : Bool) (p : Periph) : stepEnabled (.extBusy d) p = true ↔
    p.cr1.getLsbD 0 = true ∧ ¬ p.sr2.getLsbD 0 = true := by
  simp only [stepEnabled, cr1Is, has_pe, has_msl, Bool.and_eq_true, Bool.not_eq_true', Bool.not_eq_true]

theorem stepEnabled_berr_iff (p : Periph) : stepEnabled .berr p = true ↔ p.cr1.getLsbD 0 = true := by
  simp only [stepEnabled, cr1Is, has_pe, Bool.and_true]

/-! What a step does. -/

theorem startGen_eq (p : Periph) : startGen p =
    { p with
      wire := (if p.sr2.getLsbD 0 = true then .restart else .start) :: p.wire
      sr1 := (p.sr1 &&& ~~~0x00CF) ||| 0x0001, sr2 := (p.sr2 ||| 0x0003) &&& ~~~0x0004, cr1 := p.cr1 &&& ~~~0x0100
      pendDR := false, ph := .start } := by
  rw [startGen, has_msl]
  rfl

theorem isWriteHeader_iff : ∀ b : Byte, isWriteHeader b = true ↔ b &&& 0xF9 = 0xF0 := by decide

theorem addrOutcome_ack_eq (b : Byte) (p : Periph) : addrOutcome b .ack p =
    if b &&& 0xF9 = 0xF0 then
      { p with sr1 := p.sr1 ||| 0x0008, arw := false, wire := .ack :: p.wire, ph := .hdr10 }
    else
      { p with
        sr1 := p.sr1 ||| 0x0002, arw := b.getLsbD 0, wire := .ack :: p.wire, ph := .addrDone
        sr2 := if b.getLsbD 0 = true then p.sr2 &&& ~~~0x0004 else p.sr2 ||| 0x0004 } := by
  simp only [addrOutcome, isWriteHeader_iff]
  rfl

theorem rxByte_eq (v : Byte) (p : Periph) : rxByte v p =
    { p with
      dr := v.setWidth 16, sr1 := p.sr1 ||| 0x0040
      wire := (if p.cr1.getLsbD 10 then .ack else .nack) :: .received v :: p.wire
      ph := if p.cr1.getLsbD 10 = false ∨ p.cr1.getLsbD 9 = true then .rxEnd else .rx } := by
  simp only [rxByte, cr1Is, has_ack, has_stop, Bool.or_eq_true, Bool.not_eq_true']
  rfl

/-! A step of an instance's peripheral. -/

theorem periphStep_eq {s : State} {i : Nat} {st : PeriphStep} {enabled : Prop} [Decidable enabled] {q : Periph}
    (hk : (row s i).config.kind = .hw) (he : stepEnabled st (dev s i) = true ↔ enabled)
    (hq : stepEffect st (dev s i) = q) : periphStep i st s = if enabled then setDev s i q else s := by
  simp only [periphStep, hk, true_and, he, hq]

/-- A byte the peripheral sends: ACKed as `acked` says; NACKed, with AF and the bus held; or lost, with BUSY kept
(43_hw_peripheral.md R253, R254, R257, R262). -/
theorem periphStep_sent {s : State} {i : Nat} {st : Outcome3 → PeriphStep} {enabled : Prop} [Decidable enabled]
    {acked : Periph} (hk : (row s i).config.kind = .hw) (he : ∀ r, stepEnabled (st r) (dev s i) = true ↔ enabled)
    (hack : stepEffect (st .ack) (dev s i) = acked) (hnack : stepEffect (st .nack) (dev s i) = nackByte (sendDR (dev s i)))
    (hlost : stepEffect (st .lost) (dev s i) = loseBus (sendDR (dev s i))) :
    let p := dev s i
    let w := BusSym.sent (p.dr.setWidth 8) :: p.wire
    (enabled →
      periphStep i (st .ack) s = setDev s i acked ∧
      periphStep i (st .nack) s = setDev s i
        { p with pendDR := false, sr1 := p.sr1 ||| 0x0400, wire := .nack :: w, ph := .held } ∧
      periphStep i (st .lost) s = setDev s i
        { p with
          pendDR := false, sr1 := (p.sr1 &&& ~~~0x008F) ||| 0x0200, sr2 := p.sr2 &&& ~~~0x0005, wire := w, ph := .idle }) ∧
    (¬ enabled → ∀ r, periphStep i (st r) s = s) := by
  refine ⟨fun h => ⟨?_, ?_, ?_⟩, fun h r => (periphStep_eq hk (he r) rfl).trans (if_neg h)⟩
  · exact (periphStep_eq hk (he .ack) hack).trans (if_pos h)
  · exact (periphStep_eq hk (he .nack) hnack).trans (if_pos h)
  · exact (periphStep_eq hk (he .lost) hlost).trans (if_pos h)

/-- Settles O55: the step is taken exactly where it is enabled, and each has its effect from the equations above. -/
theorem peripheralSteps : Obligations.PeripheralSteps := by
  intro s i hk p on master start stop w sent b
  refine ⟨?startGen, ?addrSend, ?loSend, ?txByte, ?rxByte, ?stopGen, ?stopCancel, ?extBusy, ?berr, ?tick⟩
  case startGen => exact periphStep_eq hk (stepEnabled_startGen_iff p) (startGen_eq p)
  case addrSend => exact periphStep_sent hk (stepEnabled_addrSend_iff · p) (addrOutcome_ack_eq b (sendDR p)) rfl rfl
  case loSend => exact periphStep_sent hk (stepEnabled_loSend_iff · p) rfl rfl rfl
  case txByte => exact periphStep_sent hk (stepEnabled_txByte_iff · p) rfl rfl rfl
  case rxByte => exact fun v => periphStep_eq hk (stepEnabled_rxByte_iff v p) (rxByte_eq v p)
  case stopGen => exact periphStep_eq hk (stepEnabled_stopGen_iff p) rfl
  case stopCancel => exact periphStep_eq hk (stepEnabled_stopCancel_iff p) rfl
  case extBusy => exact fun d => periphStep_eq hk (stepEnabled_extBusy_iff d p) rfl
  case berr => exact periphStep_eq hk (stepEnabled_berr_iff p) rfl
  case tick => exact fun _ _ => rfl

end Sys2Proof.Machine
end

section
/-! A command of an HW instance under way: the state it works on, the other agents' turn before a micro-step, and one round of
a wait (20_memory.md R94, 44_hw_blocking.md R280 to R284). -/

namespace Sys2Proof.Machine

/-- State `s` with a command of HW instance `i` under way: its peripheral, the choices to come, the events made so far. -/
def hwState (s : State) (i : Nat) (p : Periph) (sch : List Sched) (es : List Event) : State :=
  tracing (setDev { s with sched := sch } i p) es

theorem hwState_self (s : State) (i : Nat) : hwState s i (dev s i) s.sched [] = s := by
  by_cases h : i < s.peri.length
  · simp [hwState, tracing, setDev, dev, h]
  · simp [hwState, tracing, setDev, List.set_eq_of_length_le (Nat.le_of_not_lt h)]

@[simp] theorem tracing_hwState (s : State) (i : Nat) (p : Periph) (sch : List Sched) (pre es : List Event) :
    tracing (hwState s i p sch pre) es = hwState s i p sch (pre ++ es) := by
  simp [hwState, tracing]

@[simp] theorem setDev_hwState (s : State) (i : Nat) (p q : Periph) (sch : List Sched) (es : List Event) :
    setDev (hwState s i p sch es) i q = hwState s i q sch es := by
  simp [hwState, tracing, setDev]

@[simp] theorem emit_hwState (s : State) (i : Nat) (p : Periph) (sch : List Sched) (es : List Event) (e : Event) :
    emit e (hwState s i p sch es) = hwState s i p sch (es ++ [e]) := by
  simp [hwState, tracing, setDev, emit]

@[simp] theorem row_hwState (s : State) (i j : Nat) (p : Periph) (sch : List Sched) (es : List Event) :
    row (hwState s i p sch es) j = row s j := rfl

theorem hwState_of_still {s : State} (h : s.sched = []) (i : Nat) (p : Periph) (es : List Event) :
    hwState s i p [] es = tracing (setDev s i p) es := by
  rw [hwState, ← h]

theorem now_hwState (s : State) (i : Nat) (p : Periph) (sch : List Sched) (es : List Event) :
    now (hwState s i p sch es) = (s.ticks, hwState { s with lastNow := s.ticks } i p sch es) := rfl

section accesses

variable {s : State} {i : Nat} (hi : i < s.peri.length) (p : Periph) (sch : List Sched) (es : List Event)
include hi

theorem dev_hwState : dev (hwState s i p sch es) i = p := dev_setDev_self { s with sched := sch } i p hi

theorem readSR1_hwState : readSR1 i (hwState s i p sch es) =
    (p.sr1, hwState s i (periphReadSR1 p) sch (es ++ [Event.csrR i .sr1 p.sr1])) := by
  simp [readSR1, dev_hwState hi]

theorem readSR2_hwState : readSR2 i (hwState s i p sch es) =
    (p.sr2, hwState s i (periphReadSR2 p) sch (es ++ [Event.csrR i .sr2 p.sr2])) := by
  simp [readSR2, dev_hwState hi]

theorem readDR_hwState : readDR i (hwState s i p sch es) =
    (p.dr.setWidth 8, hwState s i (periphReadDR p) sch (es ++ [Event.csrR i .dr ((p.dr.setWidth 8 : Byte).setWidth 16)])) := by
  simp [readDR, dev_hwState hi]

theorem csrWrite_hwState (r : Reg) (m v : Half) : csrWrite i r m v (hwState s i p sch es) =
    hwState s i (periphWrite r m v p) sch (es ++ [Event.csrW i r m v]) := by
  simp [csrWrite, dev_hwState hi]

end accesses

/-! ## The other agents' turn -/

/-- The turn before a micro-step of a command of instance `i` takes the peripheral from `p` to `q` and uses the schedule
`sch` up to `rest`; the rest of the state goes from `s` to `t`. -/
def HwTurn (i : Nat) (s : State) (p : Periph) (sch : List Sched) (t : State) (q : Periph) (rest : List Sched) : Prop :=
  ∀ lent es, turn lent (hwState s i p sch es) = .next (hwState t i q rest es)

theorem turn_hwState (lent : Option (Nat × Word)) (s : State) (i : Nat) (p : Periph) (sch : List Sched) (es : List Event) :
    turn lent (hwState s i p sch es) = turnFrom lent sch (hwState s i p sch es) := rfl

/-- The steps `sts` of a peripheral, each enabled where it is taken, take it from `p` to `q`. -/
def Takes (p : Periph) : List PeriphStep → Periph → Prop
  | [], q => p = q
  | st :: sts, q => stepEnabled st p = true ∧ Takes (stepEffect st p) sts q

namespace HwTurn

variable {i : Nat} {s : State} {p : Periph}

theorem still : HwTurn i s p [] s p [] := fun _ _ => rfl

theorem block (rest : List Sched) : HwTurn i s p (.block :: rest) s p rest := fun _ _ => rfl

theorem tick {d : Word} (h : (elapsed s.ticks s.lastNow).toNat + d.toNat < 2 ^ 31) (rest : List Sched) :
    HwTurn i s p (.tick d :: .block :: rest) { s with ticks := s.ticks + d } p rest := by
  intro lent es
  have hadv : advanceClock d (hwState s i p (.tick d :: .block :: rest) es) =
      hwState { s with ticks := s.ticks + d } i p (.tick d :: .block :: rest) es := if_pos h
  rw [turn_hwState, turnFrom, agentStep, hadv]
  · rfl
  · nofun

theorem turnFrom_serve (hi : i < s.peri.length) (hk : (row s i).config.kind = .hw) {sts : List PeriphStep} {q : Periph}
    (h : Takes p sts q) (lent : Option (Nat × Word)) (sch rest : List Sched) (es : List Event) :
    turnFrom lent (sts.map (.peri i) ++ .block :: rest) (hwState s i p sch es) = .next (hwState s i q rest es) := by
  induction sts generalizing p with
  | nil =>
    obtain rfl : p = q := h
    rfl
  | cons st sts ih =>
    have hstep : periphStep i st (hwState s i p sch es) = hwState s i (stepEffect st p) sch es := by
      rw [periphStep, dev_hwState hi, row_hwState, if_pos ⟨hk, h.1⟩, setDev_hwState]
    exact (congrArg (turnFrom lent (sts.map (.peri i) ++ .block :: rest)) hstep).trans (ih h.2)

/-- The steps `sts` of the peripheral before the micro-step, each enabled where it is taken. -/
theorem serve (hi : i < s.peri.length) (hk : (row s i).config.kind = .hw) {sts : List PeriphStep} {q : Periph}
    (h : Takes p sts q) (rest : List Sched) : HwTurn i s p (sts.map (.peri i) ++ .block :: rest) s q rest :=
  fun lent es => turnFrom_serve hi hk h lent _ rest es

end HwTurn

/-! ## One operation -/

/-- `s` with another command in progress, or with none. -/
def withSeq (s : State) (q : Option Seq) : State := { s with seq := q }

theorem withSeq_self {s : State} (h : s.seq = none) : withSeq s none = s := by rw [withSeq, ← h]

section ops

variable {c : Ctx} {s t : State} {p q : Periph} {sch rest : List Sched} {lent : Option (Nat × Word)} (es : List Event)

/-- A command goes on with its next operation after one that makes a micro-step. -/
theorem run_of_go {y0 y : State → Out} {op : Op} {scr r : Scratch} {u v : State} (h : opStep y0 y c op scr u = .go r v)
    (hop : makesNoStep op r = false) (ops : List Op) : run y0 y c (op :: ops) scr u = run y y c ops r v := by
  simp only [run, h, hop, Bool.false_eq_true, if_false]

theorem run_of_done {y0 y : State → Out} {op : Op} {scr r : Scratch} {st : Status} {u v : State}
    (h : opStep y0 y c op scr u = .done st r v) (ops : List Op) :
    run y0 y c (op :: ops) scr u = .next (finish c st r.resp v) := by
  rw [run, h]

theorem run_of_wait {y0 y : State → Out} {op : Op} {scr r : Scratch} {u v : State}
    (h : opStep y0 y c op scr u = .wait r v) (ops : List Op) :
    run y0 y c (op :: ops) scr u = .next { v with seq := some ⟨c.inst, c.cmd, c.words, op :: ops, r⟩ } := by
  rw [run, h]

theorem HwTurn.thenOp (h : HwTurn c.inst s p sch t q rest) (k : State → OpRes) :
    thenOp (turn lent (hwState s c.inst p sch es)) k = k (hwState t c.inst q rest es) := by
  rw [h lent es]
  rfl

/-! ## Waits -/

/-- A wait of a command of instance `i` begins, or goes on, at a state with the start time `t0`. -/
def BeginsWait (y0 : State → Out) (c : Ctx) (scr : Scratch) (s : State) (t0 : Word) (u : State) : Prop :=
  ∀ k, beginWait y0 c scr s k = k t0 u

theorem beginsWait_first {y0 : State → Out} {scr : Scratch} {u v : State} (ha : c.atomic = false) (ht : scr.t0 = none)
    (h : y0 u = .next v) : BeginsWait y0 c scr u v.ticks (now v).2 := fun k => by
  rw [beginWait, ha, ht, h]
  rfl

theorem beginsWait_again {y0 : State → Out} {scr : Scratch} {t0 : Word} (ha : c.atomic = false) (ht : scr.t0 = some t0)
    (u : State) : BeginsWait y0 c scr u t0 u := fun k => by
  rw [beginWait, ha, ht]
  rfl

/-! The time check of a round (44_hw_blocking.md R280, R281). -/

theorem checkTime_of_late (h : HwTurn c.inst s p sch t q rest) {t0 tmo : Word} (hl : tmo.toNat ≤ (t.ticks - t0).toNat)
    (scr : Scratch) (k : State → OpRes) :
    checkTime (turn lent) t0 tmo scr (hwState s c.inst p sch es) k = k (hwState (now t).2 c.inst q rest es) := by
  rw [checkTime, h.thenOp]
  exact if_pos (decide_eq_true hl)

theorem checkTime_of_early (h : HwTurn c.inst s p sch t q rest) {t0 tmo : Word} (hl : ¬ tmo.toNat ≤ (t.ticks - t0).toNat)
    (scr : Scratch) (k : State → OpRes) :
    checkTime (turn lent) t0 tmo scr (hwState s c.inst p sch es) k =
      .wait { scr with t0 := some t0 } (hwState (now t).2 c.inst q rest es) := by
  rw [checkTime, h.thenOp]
  exact if_neg fun he => hl (of_decide_eq_true he)

variable {u : State} {t0 : Word} {y0 : State → Out} {scr : Scratch}

/-! A round of a poll reads SR1; errors end it before the flag, the flag before the time (44_hw_blocking.md R280). -/

section poll

variable (hi : c.inst < t.peri.length) (hb : BeginsWait y0 c scr u t0 (hwState s c.inst p sch es))
  (h : HwTurn c.inst s p sch t q rest) (f : Flag) (tmo : Word) (k : PollResult → Scratch → State → OpRes)
include hi hb h

theorem pollRound_of_error (he : q.sr1 &&& 0x0700 ≠ 0) :
    pollRound y0 (turn lent) c f tmo scr u k = k (.err (q.sr1 &&& 0x0700)) { scr with t0 := none }
      (hwState t c.inst { q with snap := q.sr1 } rest (es ++ [Event.csrR c.inst .sr1 q.sr1])) := by
  rw [pollRound, hb, h.thenOp, readSR1_hwState hi]
  exact if_pos he

theorem pollRound_of_flag (he : q.sr1 &&& 0x0700 = 0) (hf : q.sr1 &&& flagMask f ≠ 0) :
    pollRound y0 (turn lent) c f tmo scr u k = k .ok { scr with t0 := none }
      (hwState t c.inst { q with snap := q.sr1 } rest (es ++ [Event.csrR c.inst .sr1 q.sr1])) := by
  rw [pollRound, hb, h.thenOp, readSR1_hwState hi]
  exact (if_neg (not_not.2 he)).trans (if_pos (bne_iff_ne.2 hf))

theorem pollRound_of_nothing (he : q.sr1 &&& 0x0700 = 0) (hf : q.sr1 &&& flagMask f = 0) :
    pollRound y0 (turn lent) c f tmo scr u k = checkTime (turn lent) t0 tmo scr
      (hwState t c.inst { q with snap := q.sr1 } rest (es ++ [Event.csrR c.inst .sr1 q.sr1]))
      (k .timeout { scr with t0 := none }) := by
  rw [pollRound, hb, h.thenOp, readSR1_hwState hi]
  exact (if_neg (not_not.2 he)).trans (if_neg (by simpa [has] using hf))

end poll

/-- A round of the wait for a free bus (44_hw_blocking.md R284). -/
theorem opStep_waitNotBusy (hi : c.inst < t.peri.length) (hb : BeginsWait y0 c scr u t0 (hwState s c.inst p sch es))
    (h : HwTurn c.inst s p sch t q rest) (tmo : Word) :
    opStep y0 (turn lent) c (.waitNotBusy tmo) scr u =
      if q.sr2.getLsbD 1 = true then checkTime (turn lent) t0 tmo scr
        (hwState t c.inst (periphReadSR2 q) rest (es ++ [Event.csrR c.inst .sr2 q.sr2]))
        (.done .busy { scr with t0 := none })
      else .go { scr with t0 := none } (hwState t c.inst (periphReadSR2 q) rest (es ++ [Event.csrR c.inst .sr2 q.sr2])) := by
  rw [opStep, hb, h.thenOp]
  simp only [readSR2_hwState hi, has_busy]

/-- `s` after a wait has begun or gone on: its first round reads the clock (44_hw_blocking.md R280). -/
def waitBegun (scr : Scratch) (s : State) : State := if scr.t0 = none then (now s).2 else s

theorem waitBegun_cases (scr : Scratch) (s : State) : waitBegun scr s = s ∨ waitBegun scr s = (now s).2 := by
  unfold waitBegun
  split_ifs
  · exact .inr rfl
  · exact .inl rfl

theorem peri_waitBegun (scr : Scratch) (s : State) : (waitBegun scr s).peri = s.peri := by
  rcases waitBegun_cases scr s with h | h <;> simp [h, now]

theorem ticks_waitBegun (scr : Scratch) (s : State) : (waitBegun scr s).ticks = s.ticks := by
  rcases waitBegun_cases scr s with h | h <;> simp [h, now]

theorem now_waitBegun (scr : Scratch) (s : State) : (now (waitBegun scr s)).2 = (now s).2 := by
  rcases waitBegun_cases scr s with h | h <;> simp [h, now]

theorem beginsWait_still (ha : c.atomic = false) (scr : Scratch) (s : State) (p : Periph) :
    BeginsWait (turn lent) c scr (hwState s c.inst p [] es) (scr.t0.getD s.ticks)
      (hwState (waitBegun scr s) c.inst p [] es) := by
  unfold waitBegun
  cases ht : scr.t0 with
  | none => exact beginsWait_first ha ht (HwTurn.still lent es)
  | some t0 => exact beginsWait_again ha ht _

/-- The time check of a round of a wait, the other agents still. -/
theorem checkTime_still (scr : Scratch) (s : State) (p : Periph) (t0 tmo : Word) (k : State → OpRes) :
    checkTime (turn lent) t0 tmo scr (hwState (waitBegun scr s) c.inst p [] es) k =
      if tmo.toNat ≤ (s.ticks - t0).toNat then k (hwState (now s).2 c.inst p [] es)
      else .wait { scr with t0 := some t0 } (hwState (now s).2 c.inst p [] es) := by
  rw [← ticks_waitBegun scr s, ← now_waitBegun scr s]
  split_ifs with hl
  · exact checkTime_of_late es .still hl scr k
  · exact checkTime_of_early es .still hl scr k

/-! ## Requests and errors -/

theorem finish_hwState (hc : recordsError c.cmd = true) (st : Status) (r : Response) (s : State) (p : Periph)
    (sch : List Sched) : finish c st r (hwState s c.inst p sch es) =
      hwState (setRow s c.inst { row s c.inst with lastError := st, opActive := false }) c.inst p sch
        (es ++ [Event.resp c.cmd { r with status := st }]) := by
  rw [finish, hc, ← tracing_hwState]
  rfl

/-- A bit of CR1 set leaves the rest of CR1 as it is (10_state.md R50). -/
theorem periphWrite_cr1_set {p : Periph} {f : Half} (hon : p.cr1.getLsbD 0 = true) (hr : p.cr1.getLsbD 15 = false)
    (hf : f &&& writableBits .cr1 = f) (hf15 : f.getLsbD 15 = false) :
    periphWrite .cr1 f f p = { p with cr1 := p.cr1 ||| f } := by
  have hc : setBits (written .cr1 p.cr1 f f) (p.cr1 &&& Cr1.requests) = p.cr1 ||| f := by
    rw [written, hf, merge, setBits]
    ext k hk
    simp only [BitVec.getElem_or, BitVec.getElem_and, BitVec.getElem_not]
    cases p.cr1[k] <;> cases f[k] <;> simp
  change periphWriteCR1 (written .cr1 p.cr1 f f) p = _
  rw [periphWriteCR1, hc]
  simp only [has_swrst, has_pe, BitVec.getLsbD_or, hon, hr, hf15]
  rfl

theorem periphWrite_stop {p : Periph} (hon : p.cr1.getLsbD 0 = true) (hr : p.cr1.getLsbD 15 = false) :
    periphWrite .cr1 Cr1.stop Cr1.stop p = { p with cr1 := p.cr1 ||| 0x0200 } :=
  periphWrite_cr1_set hon hr rfl rfl

theorem stopAndReturn_hwState (hi : c.inst < t.peri.length) (h : HwTurn c.inst s p sch t q rest)
    (hon : q.cr1.getLsbD 0 = true) (hr : q.cr1.getLsbD 15 = false) (st : Status) (scr : Scratch) :
    stopAndReturn (turn lent) c st scr (hwState s c.inst p sch es) =
      .done st scr (hwState t c.inst { q with cr1 := q.cr1 ||| 0x0200 } rest (es ++ [Event.csrW c.inst .cr1 0x0200 0x0200])) := by
  rw [stopAndReturn, h.thenOp, setCr1, csrWrite_hwState hi, periphWrite_stop hon hr]
  rfl

theorem clearErrors_hwState (hi : c.inst < s.peri.length) (e : Half) :
    clearErrors c.inst e (hwState s c.inst p sch es) =
      hwState s c.inst { p with sr1 := p.sr1 &&& ~~~(e &&& 0x0700) } sch (es ++ [Event.csrW c.inst .sr1 0xFFFF (~~~e)]) := by
  rw [clearErrors, csrWrite_hwState hi, periphWrite, periphWriteSR1, BitVec.not_not]
  rfl

@[simp] theorem has_berr (v : Half) : has v Sr1.berr = v.getLsbD 8 := has_twoPow v 8
@[simp] theorem has_arlo (v : Half) : has v Sr1.arlo = v.getLsbD 9 := has_twoPow v 9

/-- Clearing the errors a read of SR1 has seen clears all of them. -/
theorem clear_seen_errors (v : Half) : v &&& ~~~(v &&& 0x0700 &&& 0x0700) = v &&& ~~~0x0700 := by
  ext k hk
  simp only [BitVec.getElem_and, BitVec.getElem_not]
  cases v[k] <;> simp

theorem errorStatus_eq (e : Half) : errorStatus e =
    if e.getLsbD 8 then .busError else if e.getLsbD 9 then .arbitrationLost else .nack := by
  rw [errorStatus, has_berr, has_arlo]

/-- A wait that its flag ends (44_hw_blocking.md R282). -/
theorem run_waitFlag_of_flag {u : State} {t0 : Word} {y0 : State → Out} {scr : Scratch} (hi : c.inst < t.peri.length)
    (hb : BeginsWait y0 c scr u t0 (hwState s c.inst p sch es)) (h : HwTurn c.inst s p sch t q rest) {f : Flag} (tmo : Word)
    (ops : List Op) (he : q.sr1 &&& 0x0700 = 0) (hf : q.sr1 &&& flagMask f ≠ 0) :
    run y0 (turn lent) c (.waitFlag f tmo :: ops) scr u = run (turn lent) (turn lent) c ops { scr with t0 := none }
      (hwState t c.inst { q with snap := q.sr1 } rest (es ++ [Event.csrR c.inst .sr1 q.sr1])) :=
  run_of_go (op := .waitFlag f tmo) (pollRound_of_flag es hi hb h f tmo (waitFlagEnd (turn lent) c) he hf) rfl ops

/-- A wait that errors end, the other agents still (44_hw_blocking.md R282). -/
theorem waitFlagEnd_err_still (hi : c.inst < s.peri.length) (hon : p.cr1.getLsbD 0 = true) (hr : p.cr1.getLsbD 15 = false)
    (e : Half) (scr : Scratch) :
    waitFlagEnd (turn lent) c (.err e) scr (hwState s c.inst p [] es) =
      .done (errorStatus e) scr (hwState s c.inst
        { p with
          sr1 := p.sr1 &&& ~~~(e &&& 0x0700)
          cr1 := if errorStatus e = .arbitrationLost then p.cr1 else p.cr1 ||| 0x0200 } []
        (es ++ ([.csrW c.inst .sr1 0xFFFF (~~~e)] ++
          if errorStatus e = .arbitrationLost then [] else [.csrW c.inst .cr1 0x0200 0x0200]))) := by
  rw [waitFlagEnd, HwTurn.still.thenOp]
  simp only [clearErrors_hwState es hi]
  split_ifs with hst
  · rfl
  · refine (stopAndReturn_hwState _ hi .still ?_ ?_ _ _).trans (by rw [List.append_assoc])
    · exact hon
    · exact hr

/-! A round of a wait for a flag, the other agents still. -/

section waitFlag

variable {scr : Scratch} (ha : c.atomic = false) (hi : c.inst < s.peri.length) (f : Flag) (tmo : Word) (ops : List Op)
include ha hi

theorem run_waitFlag_of_error_still (hon : p.cr1.getLsbD 0 = true) (hr : p.cr1.getLsbD 15 = false)
    (he : p.sr1 &&& 0x0700 ≠ 0) :
    run (turn lent) (turn lent) c (.waitFlag f tmo :: ops) scr (hwState s c.inst p [] es) =
      .next (finish c (errorStatus (p.sr1 &&& 0x0700)) scr.resp (hwState (waitBegun scr s) c.inst
        { p with
          snap := p.sr1, sr1 := p.sr1 &&& ~~~(p.sr1 &&& 0x0700 &&& 0x0700)
          cr1 := if errorStatus (p.sr1 &&& 0x0700) = .arbitrationLost then p.cr1 else p.cr1 ||| 0x0200 } []
        (es ++ [Event.csrR c.inst .sr1 p.sr1] ++ ([.csrW c.inst .sr1 0xFFFF (~~~(p.sr1 &&& 0x0700))] ++
          if errorStatus (p.sr1 &&& 0x0700) = .arbitrationLost then [] else [.csrW c.inst .cr1 0x0200 0x0200])))) := by
  have hi' : c.inst < (waitBegun scr s).peri.length := peri_waitBegun scr s ▸ hi
  have hpoll := pollRound_of_error (lent := lent) es hi' (beginsWait_still (lent := lent) es ha scr s p) .still f tmo (waitFlagEnd (turn lent) c) he
  exact run_of_done (op := .waitFlag f tmo)
    (hpoll.trans (waitFlagEnd_err_still _ hi' (p := { p with snap := p.sr1 }) hon hr _ _)) ops

theorem run_waitFlag_of_flag_still (he : p.sr1 &&& 0x0700 = 0) (hf : p.sr1 &&& flagMask f ≠ 0) :
    run (turn lent) (turn lent) c (.waitFlag f tmo :: ops) scr (hwState s c.inst p [] es) =
      run (turn lent) (turn lent) c ops { scr with t0 := none }
        (hwState (waitBegun scr s) c.inst { p with snap := p.sr1 } [] (es ++ [Event.csrR c.inst .sr1 p.sr1])) :=
  run_waitFlag_of_flag es (peri_waitBegun scr s ▸ hi) (beginsWait_still (lent := lent) es ha scr s p) .still tmo ops he hf

theorem run_waitFlag_of_late_still (hon : p.cr1.getLsbD 0 = true) (hr : p.cr1.getLsbD 15 = false)
    (he : p.sr1 &&& 0x0700 = 0) (hf : p.sr1 &&& flagMask f = 0)
    (hl : tmo.toNat ≤ (s.ticks - scr.t0.getD s.ticks).toNat) :
    run (turn lent) (turn lent) c (.waitFlag f tmo :: ops) scr (hwState s c.inst p [] es) =
      .next (finish c .timeout scr.resp (hwState (now s).2 c.inst { p with snap := p.sr1, cr1 := p.cr1 ||| 0x0200 } []
        (es ++ [Event.csrR c.inst .sr1 p.sr1] ++ [Event.csrW c.inst .cr1 0x0200 0x0200]))) := by
  have hpoll := pollRound_of_nothing (lent := lent) es (peri_waitBegun scr s ▸ hi) (beginsWait_still (lent := lent) es ha scr s p) .still f tmo
    (waitFlagEnd (turn lent) c) he hf
  rw [checkTime_still, if_pos hl, waitFlagEnd,
    stopAndReturn_hwState (t := (now s).2) (q := { p with snap := p.sr1 }) _ hi .still hon hr] at hpoll
  exact run_of_done (op := .waitFlag f tmo) hpoll ops

theorem run_waitFlag_of_early_still (he : p.sr1 &&& 0x0700 = 0) (hf : p.sr1 &&& flagMask f = 0)
    (hl : ¬ tmo.toNat ≤ (s.ticks - scr.t0.getD s.ticks).toNat) :
    run (turn lent) (turn lent) c (.waitFlag f tmo :: ops) scr (hwState s c.inst p [] es) =
      .next (withSeq (hwState (now s).2 c.inst { p with snap := p.sr1 } [] (es ++ [Event.csrR c.inst .sr1 p.sr1]))
        (some ⟨c.inst, c.cmd, c.words, .waitFlag f tmo :: ops, { scr with t0 := some (scr.t0.getD s.ticks) }⟩)) := by
  have hpoll := pollRound_of_nothing (lent := lent) es (peri_waitBegun scr s ▸ hi) (beginsWait_still (lent := lent) es ha scr s p) .still f tmo
    (waitFlagEnd (turn lent) c) he hf
  rw [checkTime_still, if_neg hl] at hpoll
  exact run_of_wait (op := .waitFlag f tmo) hpoll ops

end waitFlag

end ops

theorem step_eq_run {s : State} {i : Nat} {cmd : Instr} {ws : Words} {ops : List Op} {scr : Scratch} (hs : NoFault s)
    (hq : s.seq = some ⟨i, cmd, ws, ops, scr⟩) :
    step s = run (turn (lentBy cmd)) (turn (lentBy cmd)) ⟨i, cmd, ws, false⟩ ops scr (withSeq s none) :=
  step_of_inProgress hs hq

theorem step_withSeq {s : State} {i : Nat} {cmd : Instr} {ws : Words} {ops : List Op} {scr : Scratch} (hs : NoFault s) :
    step (withSeq s (some ⟨i, cmd, ws, ops, scr⟩)) =
      run (turn (lentBy cmd)) (turn (lentBy cmd)) ⟨i, cmd, ws, false⟩ ops scr (withSeq s none) :=
  step_eq_run (s := withSeq s (some ⟨i, cmd, ws, ops, scr⟩)) hs rfl

/-- The other agents being still, a step runs the command in progress on its peripheral. -/
theorem step_eq_run_still {s : State} {i : Nat} {cmd : Instr} {ws : Words} {ops : List Op} {scr : Scratch} (hs : NoFault s)
    (hsched : s.sched = []) (hq : s.seq = some ⟨i, cmd, ws, ops, scr⟩) :
    step s = run (turn (lentBy cmd)) (turn (lentBy cmd)) ⟨i, cmd, ws, false⟩ ops scr
      (hwState (withSeq s none) i (dev s i) [] []) := by
  have hself : hwState (withSeq s none) i (dev s i) [] [] = withSeq s none :=
    hsched ▸ hwState_self (withSeq s none) i
  rw [hself, step_eq_run hs hq]

end Sys2Proof.Machine
end

section
/-! From a transaction on an HW instance to its program (42_transactions.md R200, R214): the preamble lets the host in, and
the program begins with the wait for a free bus (44_hw_blocking.md R284, R289 to R295). -/

namespace Sys2Proof.Machine

/-- `cmd` is a transaction that the preamble lets in on HW instance `i`, and it is blocking (42_transactions.md R200,
R214). -/
structure RunsOnHw (s : State) (i : Nat) (cmd : Instr) : Prop where
  transaction : isTransaction cmd = true
  index : cmd.index = some i
  initialized : Initialized s [i]
  hw : (row s i).config.kind = .hw
  notPending : pending s i = false
  params : transactionOk false cmd
  polling : (∃ a b c d e f, cmd = .masterTransmit a b c d e f ∨ cmd = .masterReceive a b c d e f) →
    (row s i).transferMode = .polling

theorem RunsOnHw.lt_nInst {s : State} {i : Nat} {cmd : Instr} (hr : RunsOnHw s i cmd) : i < nInst s :=
  (hr.initialized i List.mem_cons_self).1

/-- The dispatch of a transaction on HW instance `i` (42_transactions.md R214): its checks and its blocking program. -/
theorem exec_eq_transact_hw {cmd : Instr} {i : Nat} (hc : isTransaction cmd = true) (hidx : cmd.index = some i) (s : State) :
    ∃ (ok async : Inst → Bool) (prog : State → List Op),
      exec cmd s = transact (turn (lentBy cmd)) ⟨i, cmd, s.words, false⟩ ok async prog s ∧
        ∀ t, (row t i).config.kind = .hw →
          ((∃ a b c d e f, cmd = .masterTransmit a b c d e f ∨ cmd = .masterReceive a b c d e f) →
            (row t i).transferMode = .polling) →
          (transactionOk false cmd → ok (row t i) = true) ∧ prog t = hwProgram t.par.scanProbeTimeoutMs cmd := by
  rw [exec_eq_commandWith (internal_of_isTransaction hc)]
  cases cmd
  case masterTransmit | masterReceive =>
    obtain rfl := Option.some.inj hidx
    dsimp only [commandWith]
    refine ⟨_, _, _, rfl, fun t hk hm => ?_⟩
    simp [transactionOk, paramsOk_iff, hk, runsAsync, hm (by simp), hwProgram]
  case masterWriteReg | masterReadReg | masterWriteRegs | masterReadRegs | scanBus =>
    obtain rfl := Option.some.inj hidx
    dsimp only [commandWith]
    refine ⟨_, _, _, rfl, fun t hk hm => ?_⟩
    simp [transactionOk, paramsOk_iff, hk, hwProgram]
  all_goals cases hc

theorem exec_eq_hwProgram {s : State} {i : Nat} {cmd : Instr} (hr : RunsOnHw s i cmd) : exec cmd s =
    run noTurn (turn (lentBy cmd)) ⟨i, cmd, s.words, false⟩ (hwProgram s.par.scanProbeTimeoutMs cmd) {} (claimState s i) := by
  obtain ⟨hc, hidx, hinit, hk, hp, hok, hmode⟩ := hr
  obtain ⟨hi, hn, ho, -⟩ := hinit i List.mem_cons_self
  obtain ⟨ok, async, prog, hexec, hd⟩ := exec_eq_transact_hw hc hidx s
  have hrow : row (claimState s i) i = { row s i with opActive := true } := row_claimState hi
  obtain ⟨hchecks, hprog⟩ := hd (claimState s i) (by rw [hrow]; exact hk) (by rw [hrow]; exact hmode)
  rw [hrow] at hchecks
  rw [hexec, transact_free _ hi ho hn, if_pos (hchecks hok), if_neg (by simp [hp]), hprog]
  rfl

/-- TMO of a transaction, and SCAN_PROBE_TIMEOUT_MS `t` for SCAN_BUS (44_hw_blocking.md R281, R295). -/
def timeoutOf (t : Word) : Instr → Word
  | .masterTransmit _ _ _ _ _ x => x
  | .masterReceive _ _ _ _ _ x => x
  | .masterWriteReg _ _ _ _ _ x => x
  | .masterReadReg _ _ _ _ _ x => x
  | .masterWriteRegs _ _ _ _ _ _ x => x
  | .masterReadRegs _ _ _ _ _ _ x => x
  | _ => t

/-- A blocking program comes to the wait for a free bus before its first micro-step. -/
theorem hwProgram_begins {t : Word} {cmd : Instr} (hc : isTransaction cmd = true) (hok : transactionOk false cmd) :
    ∃ made rest, hwProgram t cmd = made ++ .waitNotBusy (timeoutOf t cmd) :: rest ∧ ∀ y0 y c s,
      run y0 y c (hwProgram t cmd) {} s = run y0 y c (.waitNotBusy (timeoutOf t cmd) :: rest) {} s := by
  cases cmd
  case masterTransmit | masterReceive | masterWriteReg | masterReadReg | masterWriteRegs | masterReadRegs =>
    exact ⟨[], _, rfl, fun _ _ _ _ => rfl⟩
  case scanBus i buf max =>
    refine ⟨[.scanBreak max], _, rfl, fun y0 y c s => ?_⟩
    have hmax : ¬ (0 : Half) = max := fun h => hok.2 h.symm
    change run y0 y c (.scanBreak max :: _) {} s = _
    simp only [run, opStep, hmax, if_false]
    rfl
  all_goals cases hc

end Sys2Proof.Machine
end

section
/-! The waits of the HW engine, round by round (44_hw_blocking.md R280 to R284). -/

namespace Sys2Proof.Machine

/-- The turn before a program's first micro-step is the block's own: as where the schedule has it (20_memory.md R94). -/
theorem run_noTurn_waitNotBusy {c : Ctx} {lent : Option (Nat × Word)} {tmo : Word} {ops : List Op} {scr : Scratch}
    (ha : c.atomic = false) (ht : scr.t0 = none) (s : State) :
    run noTurn (turn lent) c (.waitNotBusy tmo :: ops) scr s =
      run (turn lent) (turn lent) c (.waitNotBusy tmo :: ops) scr { s with sched := .block :: s.sched } := by
  have hbegin : BeginsWait noTurn c scr s s.ticks (now s).2 := beginsWait_first ha ht rfl
  have hbegin' : BeginsWait (turn lent) c scr { s with sched := .block :: s.sched } s.ticks (now s).2 :=
    beginsWait_first ha ht (turn_of_block rfl lent)
  simp only [run, opStep, hbegin _, hbegin' _, ite_self]
  rfl

/-- A transaction on an HW instance is its program run from its beginning, with no turn of the others before its first
micro-step. -/
theorem exec_eq_step_hwProgram {s : State} {i : Nat} {cmd : Instr} (hr : RunsOnHw s i cmd) (hs : NoFault s)
    (hq : s.seq = none) :
    exec cmd s = step (withSeq { claimState s i with sched := .block :: s.sched }
      (some ⟨i, cmd, s.words, hwProgram s.par.scanProbeTimeoutMs cmd, {}⟩)) := by
  obtain ⟨made, rest, -, hrun⟩ := hwProgram_begins (t := s.par.scanProbeTimeoutMs) hr.transaction hr.params
  have hself : withSeq { claimState s i with sched := .block :: s.sched } none =
      { claimState s i with sched := .block :: s.sched } := withSeq_self hq
  rw [exec_eq_hwProgram hr, hrun, run_noTurn_waitNotBusy rfl rfl, ← hrun]
  exact (congrArg _ hself.symm).trans (step_withSeq (s := { claimState s i with sched := .block :: s.sched }) hs).symm

/-- Settles O43: the rounds of a wait are the four lemmas above; the program of a transaction runs from its wait for a free
bus. -/
theorem hwWaitFlag : Obligations.HwWaitFlag := by
  refine ⟨?rounds, ?starts⟩
  case rounds =>
    intro s i cmd f tmo ops scr ws hi hip hc hsched hs hq hon hr p e t0 u back late
    have hrec : recordsError cmd = true := recordsError_of_isTransaction hc
    have hstep := step_eq_run_still hs hsched hq
    have hu : waitBegun scr (withSeq s none) = withSeq u none := by
      simp only [waitBegun, u]
      split_ifs <;> rfl
    have hmark : NoFault u := by
      simp only [u]
      split_ifs <;> exact hs
    have hus : u.sched = [] := by
      simp only [u]
      split_ifs <;> exact hsched
    have hrow : row u i = row s i := by
      simp only [u]
      split_ifs <;> rfl
    refine ⟨?error, ?flag, ?late, ?goesOn⟩
    case error =>
      intro he st
      have hst : errorStatus (p.sr1 &&& 0x0700) = st := errorStatus_eq _
      rw [hstep, run_waitFlag_of_error_still (c := ⟨i, cmd, ws, false⟩) (s := withSeq s none) [] rfl hip f tmo ops hon hr he,
        finish_hwState _ hrec, hu, hwState_of_still, hst, clear_seen_errors]
      · simp only [back, ← hrow, List.nil_append, List.append_assoc]
        rfl
      · exact hus
    case flag =>
      intro he hf
      rw [hstep, run_waitFlag_of_flag_still (c := ⟨i, cmd, ws, false⟩) (s := withSeq s none) [] rfl hip f tmo ops he hf, hu,
        hwState_of_still]
      · exact (step_withSeq (s := tracing (setDev u i { p with snap := p.sr1 }) [.csrR i .sr1 p.sr1]) hmark).symm
      · exact hus
    case late =>
      intro he hf hl
      rw [hstep, run_waitFlag_of_late_still (c := ⟨i, cmd, ws, false⟩) (s := withSeq s none) [] rfl hip f tmo ops hon hr he hf hl,
        finish_hwState _ hrec, hwState_of_still]
      · rfl
      · exact hsched
    case goesOn =>
      intro he hf hl
      rw [hstep, run_waitFlag_of_early_still (c := ⟨i, cmd, ws, false⟩) (s := withSeq s none) [] rfl hip f tmo ops he hf hl,
        hwState_of_still]
      · rfl
      · exact hsched
  case starts =>
    intro s i cmd hc hidx hinit hk hs hq hp hok hmode
    have hr : RunsOnHw s i cmd := ⟨hc, hidx, hinit, hk, hp, hok, hmode⟩
    exact exec_eq_step_hwProgram hr hs hq

/-! A round of the wait for a free bus, the other agents still. -/

section waitNotBusy

variable {c : Ctx} {s : State} {p : Periph} {lent : Option (Nat × Word)} {scr : Scratch} (es : List Event)
  (ha : c.atomic = false) (hi : c.inst < s.peri.length) (tmo : Word) (ops : List Op)
include ha hi

theorem run_waitNotBusy_of_free_still (hb : p.sr2.getLsbD 1 = false) :
    run (turn lent) (turn lent) c (.waitNotBusy tmo :: ops) scr (hwState s c.inst p [] es) =
      run (turn lent) (turn lent) c ops { scr with t0 := none }
        (hwState (waitBegun scr s) c.inst (periphReadSR2 p) [] (es ++ [Event.csrR c.inst .sr2 p.sr2])) := by
  have hround := opStep_waitNotBusy (lent := lent) es (peri_waitBegun scr s ▸ hi)
    (beginsWait_still (lent := lent) es ha scr s p) .still tmo
  rw [if_neg (by rw [hb]; exact Bool.false_ne_true)] at hround
  exact run_of_go hround rfl ops

theorem run_waitNotBusy_of_late_still (hb : p.sr2.getLsbD 1 = true)
    (hl : tmo.toNat ≤ (s.ticks - scr.t0.getD s.ticks).toNat) :
    run (turn lent) (turn lent) c (.waitNotBusy tmo :: ops) scr (hwState s c.inst p [] es) =
      .next (finish c .busy scr.resp
        (hwState (now s).2 c.inst (periphReadSR2 p) [] (es ++ [Event.csrR c.inst .sr2 p.sr2]))) := by
  have hround := opStep_waitNotBusy (lent := lent) es (peri_waitBegun scr s ▸ hi)
    (beginsWait_still (lent := lent) es ha scr s p) .still tmo
  rw [if_pos hb, checkTime_still, if_pos hl] at hround
  exact run_of_done hround ops

theorem run_waitNotBusy_of_early_still (hb : p.sr2.getLsbD 1 = true)
    (hl : ¬ tmo.toNat ≤ (s.ticks - scr.t0.getD s.ticks).toNat) :
    run (turn lent) (turn lent) c (.waitNotBusy tmo :: ops) scr (hwState s c.inst p [] es) =
      .next (withSeq (hwState (now s).2 c.inst (periphReadSR2 p) [] (es ++ [Event.csrR c.inst .sr2 p.sr2]))
        (some ⟨c.inst, c.cmd, c.words, .waitNotBusy tmo :: ops, { scr with t0 := some (scr.t0.getD s.ticks) }⟩)) := by
  have hround := opStep_waitNotBusy (lent := lent) es (peri_waitBegun scr s ▸ hi)
    (beginsWait_still (lent := lent) es ha scr s p) .still tmo
  rw [if_pos hb, checkTime_still, if_neg hl] at hround
  exact run_of_wait hround ops

end waitNotBusy

theorem setRow_now_claimState (s : State) (i : Nat) (r : Inst) :
    setRow (now (claimState s i)).2 i r = setRow (now s).2 i r := by
  simp [claimState, setRow, now]

/-- The other agents being still, a blocking transaction runs on its peripheral from the wait for a free bus. -/
theorem exec_eq_run_still {s : State} {i : Nat} {cmd : Instr} {tmo : Word} {rest : List Op} (hr : RunsOnHw s i cmd)
    (hsched : s.sched = []) (hrun : ∀ y0 y c u, run y0 y c (hwProgram s.par.scanProbeTimeoutMs cmd) {} u =
      run y0 y c (.waitNotBusy tmo :: rest) {} u) :
    exec cmd s = run (turn (lentBy cmd)) (turn (lentBy cmd)) ⟨i, cmd, s.words, false⟩ (.waitNotBusy tmo :: rest) {}
      (hwState (claimState s i) i (dev s i) [] []) := by
  have hself : hwState (claimState s i) i (dev s i) [] [] = claimState s i :=
    hsched ▸ hwState_self (claimState s i) i
  have hstill : (claimState s i).sched = [] := hsched
  rw [exec_eq_hwProgram hr, hrun, hself, run_quiet noTurn_still (turn_still _) _ _ _ hstill,
    run_quiet (turn_still _) (turn_still _) _ _ _ hstill]

/-- Settles O44: the first round of the wait for a free bus, in the step that begins the command, and the later ones. -/
theorem hwWaitNotBusy : Obligations.HwWaitNotBusy := by
  intro s i cmd ops scr tmo ws hc hidx hsched hs hi hip p timeout seen back
  have hrec : recordsError cmd = true := recordsError_of_isTransaction hc
  refine ⟨?first, ?later⟩
  case first =>
    intro hq hinit hk hp hok hmode hb
    obtain ⟨made, rest, hprog, hrun⟩ := hwProgram_begins (t := s.par.scanProbeTimeoutMs) hc hok
    have hto : timeoutOf s.par.scanProbeTimeoutMs cmd = timeout := by cases cmd <;> rfl
    rw [hto] at hprog hrun
    have hself : (s.ticks - s.ticks).toNat = 0 := by rw [BitVec.sub_self]; rfl
    rw [exec_eq_run_still ⟨hc, hidx, hinit, hk, hp, hok, hmode⟩ hsched hrun]
    refine ⟨fun h0 => ?_, fun h0 => ⟨made, rest, hprog, ?_⟩⟩
    · have hl : timeout.toNat ≤ (s.ticks - s.ticks).toNat := by rw [h0, hself]; rfl
      rw [run_waitNotBusy_of_late_still (c := ⟨i, cmd, s.words, false⟩) (s := claimState s i) (scr := {}) [] rfl hip timeout rest hb hl,
        finish_hwState _ hrec, hwState_of_still]
      · have hrow : row (now (claimState s i)).2 i = { row s i with opActive := true } := row_claimState hi
        rw [hrow, setRow_now_claimState]
        simp only [back, ← hq]
        rfl
      · exact hsched
    · have hl : ¬ timeout.toNat ≤ (s.ticks - s.ticks).toNat := by
        rw [hself, Nat.le_zero]
        exact fun h => h0 (BitVec.eq_of_toNat_eq h)
      rw [run_waitNotBusy_of_early_still (c := ⟨i, cmd, s.words, false⟩) (s := claimState s i) (scr := {}) [] rfl hip timeout rest hb hl,
        hwState_of_still]
      · rfl
      · exact hsched
  case later =>
    intro hq t0
    rw [step_eq_run_still hs hsched hq]
    refine ⟨fun hb => ?free, fun hb hl => ?late, fun hb hl => ?goesOn⟩
    case free =>
      have hbegun : waitBegun scr (withSeq s none) =
          withSeq { s with lastNow := if scr.t0 = none then s.ticks else s.lastNow } none := by
        unfold waitBegun
        split_ifs <;> rfl
      rw [run_waitNotBusy_of_free_still (c := ⟨i, cmd, ws, false⟩) (s := withSeq s none) [] rfl hip tmo ops hb, hbegun,
        hwState_of_still]
      · exact (step_withSeq (s := { seen with lastNow := if scr.t0 = none then s.ticks else s.lastNow }) hs).symm
      · exact hsched
    case late =>
      rw [run_waitNotBusy_of_late_still (c := ⟨i, cmd, ws, false⟩) (s := withSeq s none) [] rfl hip tmo ops hb hl,
        finish_hwState _ hrec, hwState_of_still]
      · rfl
      · exact hsched
    case goesOn =>
      rw [run_waitNotBusy_of_early_still (c := ⟨i, cmd, ws, false⟩) (s := withSeq s none) [] rfl hip tmo ops hb hl,
        hwState_of_still]
      · rfl
      · exact hsched

end Sys2Proof.Machine
end

section
/-! A blocking transfer of an HW instance whose peripheral serves every request before the next poll, piece by piece: the
operations of a piece, the schedule they use up, and the peripheral before and after (44_hw_blocking.md R283 to R286). -/

namespace Sys2Proof.Machine

/-- A command goes on with the operations `ops`, the other agents having their turn before each micro-step (20_memory.md
R94). -/
abbrev goOn (c : Ctx) (ops : List Op) (scr : Scratch) (s : State) : Out :=
  run (turn (lentBy c.cmd)) (turn (lentBy c.cmd)) c ops scr s

/-- Command `c` may wait, and its state has its HW peripheral and the tick counter read. -/
structure HwReady (c : Ctx) (s : State) : Prop where
  mayWait : c.atomic = false
  present : c.inst < s.peri.length
  hw : (row s c.inst).config.kind = .hw
  clockRead : s.lastNow = s.ticks

theorem takes_none (p : Periph) : Takes p [] p := rfl

theorem takes_one {st : PeriphStep} {p q : Periph} (he : stepEnabled st p = true) (h : stepEffect st p = q) :
    Takes p [st] q := ⟨he, h⟩

/-- The operations `ops` use up the schedule `sch` and make the events `es`; the peripheral goes from `p` to `q` and the rest
of the state from `s` to `t`. No wait is left over, and the response stands. -/
def Serves (c : Ctx) (ops : List Op) (sch : List Sched) (es : List Event) (s : State) (p : Periph) (t : State)
    (q : Periph) : Prop :=
  ∀ (pre : List Event) (rest : List Sched) (more : List Op) (scr : Scratch), scr.t0 = none →
    ∃ r : Scratch, r.t0 = none ∧ r.resp = scr.resp ∧
      goOn c (ops ++ more) scr (hwState s c.inst p (sch ++ rest) pre) =
        goOn c more r (hwState t c.inst q rest (pre ++ es))

/-- An operation that makes `b` the byte in hand in `n` micro-steps. -/
def Brings (c : Ctx) (s : State) (src : Op) (b : Byte) (n : Nat) : Prop :=
  ∀ p pre rest more scr, goOn c (src :: more) scr
    (hwState s c.inst p (List.replicate n .block ++ rest) pre) =
      goOn c more { scr with byte := b } (hwState s c.inst p rest pre)

variable {c : Ctx} {s t : State} {p q : Periph}

theorem serves_nil : Serves c [] [] [] s p s p := fun pre rest more scr ht =>
  ⟨scr, ht, rfl, by rw [List.append_nil]; rfl⟩

theorem Serves.append {ops ops' : List Op} {sch sch' : List Sched} {es es' : List Event} {u : State} {p' : Periph}
    (h : Serves c ops sch es s p t q) (h' : Serves c ops' sch' es' t q u p') :
    Serves c (ops ++ ops') (sch ++ sch') (es ++ es') s p u p' := by
  intro pre rest more scr ht
  obtain ⟨r, hr, hresp, hrun⟩ := h pre (sch' ++ rest) (ops' ++ more) scr ht
  obtain ⟨r', hr', hresp', hrun'⟩ := h' (pre ++ es) rest more r hr
  refine ⟨r', hr', hresp'.trans hresp, ?_⟩
  rw [List.append_assoc, List.append_assoc, hrun, hrun', List.append_assoc]

theorem writeDR_hwState {i : Nat} (hi : i < s.peri.length) {b : Byte} (h : periphWriteDR b p = q) (sch : List Sched)
    (es : List Event) : writeDR i b (hwState s i p sch es) = hwState s i q sch (es ++ [drEvent i b]) := by
  rw [writeDR, csrWrite_hwState hi, periphWrite, BitVec.setWidth_setWidth_of_le b (by decide), BitVec.setWidth_eq, h]
  rfl

/-! Operations of one micro-step. -/

theorem opStep_csr (r : Reg) (m v : Half) (y0 y : State → Out) (scr : Scratch) (u : State) :
    opStep y0 y c (.csr r m v) scr u = thenOp (y0 u) fun u => .go scr (csrWrite c.inst r m v u) := rfl

theorem opStep_writeDR (y0 y : State → Out) (scr : Scratch) (u : State) :
    opStep y0 y c .writeDR scr u = thenOp (y0 u) fun u => .go scr (writeDR c.inst scr.byte u) := rfl

theorem opStep_readDR (y0 y : State → Out) (scr : Scratch) (u : State) : opStep y0 y c .readDR scr u =
    thenOp (y0 u) fun u => .go { scr with byte := (readDR c.inst u).1 } (readDR c.inst u).2 := rfl

theorem opStep_memRead (buf : Word) (k : Nat) (y0 y : State → Out) (scr : Scratch) (u : State) :
    opStep y0 y c (.memRead buf k) scr u = thenOp (y0 u) fun u =>
      if k < bufSize u buf then .go { scr with byte := memByte u.mem (cellAddr buf k) } u
      else .fault (.bufferBounds (siteOf c 81)) := by
  refine congrArg (thenOp (y0 u)) (funext fun u => ?_)
  rw [memRead]
  split_ifs <;> rfl

theorem opStep_memWrite (buf : Word) (k : Nat) (y0 y : State → Out) (scr : Scratch) (u : State) :
    opStep y0 y c (.memWrite buf k) scr u = thenOp (y0 u) fun u =>
      if k < bufSize u buf then .go scr { u with mem := memPut u.mem (cellAddr buf k) scr.byte }
      else .fault (.bufferBounds (siteOf c 81)) := by
  refine congrArg (thenOp (y0 u)) (funext fun u => ?_)
  rw [memWrite]
  split_ifs <;> rfl

/-- An operation of one micro-step. -/
theorem run_microStep {op : Op} {scr r : Scratch} {v : State} {rest : List Sched} {pre : List Event} {k : State → OpRes}
    (hop : opStep (turn (lentBy c.cmd)) (turn (lentBy c.cmd)) c op scr (hwState s c.inst p (.block :: rest) pre) =
      thenOp (turn (lentBy c.cmd) (hwState s c.inst p (.block :: rest) pre)) k)
    (hk : k (hwState s c.inst p rest pre) = .go r v) (hstep : makesNoStep op r = false) (more : List Op) :
    goOn c (op :: more) scr (hwState s c.inst p (.block :: rest) pre) =
      goOn c more r v :=
  run_of_go (hop.trans (((HwTurn.block rest).thenOp pre k).trans hk)) hstep more

/-- An operation of one micro-step that does `f` to the state and leaves the scratch. -/
theorem serves_op {op : Op} {es : List Event} {f : State → State}
    (hop : ∀ y scr u, opStep y y c op scr u = thenOp (y u) fun u => .go scr (f u))
    (hstep : ∀ scr, makesNoStep op scr = false)
    (hf : ∀ sch pre, f (hwState s c.inst p sch pre) = hwState t c.inst q sch (pre ++ es)) :
    Serves c [op] [.block] es s p t q := fun pre rest more scr ht =>
  ⟨scr, ht, rfl, run_microStep (hop _ _ _) (congrArg (OpRes.go scr) (hf rest pre)) (hstep _) more⟩

namespace HwReady

variable (hr : HwReady c s)
include hr

theorem withMem (m : List Host.Cell) : HwReady c { s with mem := m } := ⟨hr.mayWait, hr.present, hr.hw, hr.clockRead⟩

theorem now_eq : (now s).2 = s :=
  congrArg (fun w => { s with lastNow := w }) hr.clockRead.symm

theorem csr {r : Reg} {m v : Half} (h : periphWrite r m v p = q) :
    Serves c [.csr r m v] [.block] [.csrW c.inst r m v] s p s q :=
  serves_op (fun _ _ _ => rfl) (fun _ => rfl) fun _ _ => by rw [csrWrite_hwState hr.present, h]

theorem readSR1 : Serves c [.readSR1] [.block] [.csrR c.inst .sr1 p.sr1] s p s { p with snap := p.sr1 } :=
  serves_op (fun _ _ _ => rfl) (fun _ => rfl) fun _ _ => by rw [readSR1_hwState hr.present]; rfl

theorem readSR2 (h : periphReadSR2 p = q) : Serves c [.readSR2] [.block] [.csrR c.inst .sr2 p.sr2] s p s q :=
  serves_op (fun _ _ _ => rfl) (fun _ => rfl) fun _ _ => by rw [readSR2_hwState hr.present, h]

/-- A wait begins with the peripheral's steps `sts` and the reading of the clock. -/
theorem beginsWait {sts : List PeriphStep} {scr : Scratch} (ht : scr.t0 = none) (h : Takes p sts q) (rest : List Sched)
    (pre : List Event) :
    BeginsWait (turn (lentBy c.cmd)) c scr (hwState s c.inst p (sts.map (.peri c.inst) ++ .block :: rest) pre) s.ticks
      (hwState s c.inst q rest pre) := by
  have hbegin := beginsWait_first hr.mayWait ht (HwTurn.serve hr.present hr.hw h rest (lentBy c.cmd) pre)
  have hnow : (now (hwState s c.inst q rest pre)).2 = hwState s c.inst q rest pre :=
    congrArg (fun u => hwState u c.inst q rest pre) hr.now_eq
  rw [hnow] at hbegin
  exact hbegin

/-- A wait whose flag the peripheral sets, by the steps `sts`, before the first poll. -/
theorem waitFlag {sts : List PeriphStep} {f : Flag} (tmo : Word) (v : Half) (h : Takes p sts q) (hv : q.sr1 = v)
    (he : v &&& 0x0700 = 0) (hf : v &&& flagMask f ≠ 0) {q' : Periph} (hq : { q with snap := v } = q') :
    Serves c [.waitFlag f tmo] (sts.map (.peri c.inst) ++ [.block, .block]) [.csrR c.inst .sr1 v] s p s q' := by
  subst hv hq
  intro pre rest more scr ht
  have hbegin := hr.beginsWait ht h (.block :: rest) pre
  rw [List.append_assoc]
  exact ⟨{ scr with t0 := none }, rfl, rfl,
    run_waitFlag_of_flag pre hr.present hbegin (.block rest) tmo more he hf⟩

theorem put {src : Op} {b : Byte} {n : Nat} (h : Brings c s src b n) (hq : periphWriteDR b p = q) :
    Serves c [src, .writeDR] (List.replicate (n + 1) .block) [drEvent c.inst b] s p s q := by
  intro pre rest more scr ht
  refine ⟨{ scr with byte := b }, ht, rfl, ?_⟩
  rw [List.replicate_succ', List.append_assoc]
  refine (h p pre _ _ scr).trans (run_microStep (opStep_writeDR _ _ _ _)
    (congrArg (OpRes.go { scr with byte := b }) (writeDR_hwState hr.present hq rest pre)) rfl more)

/-- The byte received goes to index `k` of the buffer. -/
theorem take {buf : Word} {k : Nat} (hk : k < bufSize s buf) (hq : periphReadDR p = q) :
    Serves c [.readDR, .memWrite buf k] [.block, .block] [.csrR c.inst .dr ((p.dr.setWidth 8 : Byte).setWidth 16)] s p
      { s with mem := memPut s.mem (cellAddr buf k) (p.dr.setWidth 8) } q := by
  intro pre rest more scr ht
  have hread : goOn c (.readDR :: .memWrite buf k :: more) scr
      (hwState s c.inst p (.block :: .block :: rest) pre) = _ :=
    run_microStep (opStep_readDR _ _ _ _) (by rw [readDR_hwState hr.present, hq]) rfl (.memWrite buf k :: more)
  exact ⟨{ scr with byte := p.dr.setWidth 8 }, ht, rfl,
    hread.trans (run_microStep (opStep_memWrite buf k _ _ _ _) (if_pos hk) rfl more)⟩

end HwReady

theorem brings_byte (b : Byte) : Brings c s (.byte b) b 0 := fun _ _ _ _ _ => rfl

theorem brings_memRead {buf : Word} {k : Nat} (hk : k < bufSize s buf) :
    Brings c s (.memRead buf k) (memByte s.mem (cellAddr buf k)) 1 := fun _ _ _ more _ =>
  run_microStep (opStep_memRead buf k _ _ _ _) (if_pos hk) rfl more

end Sys2Proof.Machine
end

section
/-! The address phase, the transmit body and the receive bodies, from one resting point of the peripheral to the next. A
resting point is a peripheral with the fields the transfer moves; the rest of it is `p`'s, and its bus has shown `w`
(43_hw_peripheral.md R252 to R258). -/

namespace Sys2Proof.Machine

/-- The START is on the bus, and SB has been seen. -/
def atStart (p : Periph) (w : List BusSym) : Periph :=
  { p with sr1 := 0x0001, sr2 := 0x0003, ph := .start, pendDR := false, snap := 0x0001, wire := w }

/-- The address byte `b` waits to be sent after a START. -/
def addressing (p : Periph) (b : Byte) (w : List BusSym) : Periph :=
  { atStart p w with sr1 := 0, dr := b.setWidth 16, pendDR := true, snap := 0 }

/-- A 10-bit write header `b` was ACKed, and ADD10 has been seen. -/
def atHeader (p : Periph) (b : Byte) (w : List BusSym) : Periph :=
  { p with
    sr1 := 0x0008, sr2 := 0x0003, dr := b.setWidth 16, ph := .hdr10, pendDR := false, arw := false, snap := 0x0008, wire := w }

/-- The second byte `b` of a 10-bit address waits to be sent. -/
def addressing10 (p : Periph) (b : Byte) (w : List BusSym) : Periph :=
  { atHeader p b w with sr1 := 0, pendDR := true, snap := 0 }

/-- The address was ACKed, `b` its last byte and `rd` its direction, and ADDR has been seen. -/
def atAddr (p : Periph) (b : Byte) (rd : Bool) (w : List BusSym) : Periph :=
  { p with
    sr1 := 0x0002, sr2 := if rd then 0x0003 else 0x0007, dr := b.setWidth 16, ph := .addrDone, pendDR := false, arw := rd
    snap := 0x0002, wire := w }

/-- ADDR is cleared, and no byte is written yet. -/
def mayTransmit (p : Periph) (b : Byte) (w : List BusSym) : Periph :=
  { p with
    sr1 := 0x0080, sr2 := 0x0007, dr := b.setWidth 16, ph := .tx, pendDR := false, arw := false, snap := 0, wire := w }

/-- The byte `b` waits to be sent. -/
def sending (p : Periph) (b : Byte) (w : List BusSym) : Periph :=
  { p with sr1 := 0, sr2 := 0x0007, dr := b.setWidth 16, ph := .tx, pendDR := true, arw := false, snap := 0, wire := w }

/-- The byte `b` was ACKed, and TxE and BTF have been seen. -/
def hasSent (p : Periph) (b : Byte) (w : List BusSym) : Periph :=
  { p with
    sr1 := 0x0084, sr2 := 0x0007, dr := b.setWidth 16, ph := .tx, pendDR := false, arw := false, snap := 0x0084, wire := w }

/-- No byte waits to be read; `v` is in DR, and the next byte arrives if the phase `ph` is Rx. -/
def receiving (p : Periph) (cr1 : Half) (ph : Phase) (v : Byte) (w : List BusSym) : Periph :=
  { p with
    cr1 := cr1, sr1 := 0, sr2 := 0x0003, dr := v.setWidth 16, ph := ph, pendDR := false, arw := true, snap := 0, wire := w }

/-- The byte `v` waits to be read, and RxNE has been seen. -/
def hasReceived (p : Periph) (cr1 : Half) (ph : Phase) (v : Byte) (w : List BusSym) : Periph :=
  { receiving p cr1 ph v w with sr1 := 0x0040, snap := 0x0040 }

/-- CR1 of an enabled peripheral without a request: ACK is 0 or 1. -/
theorem cr1_cases {v : Half} (h : v &&& 0xFBFF = 0x0001) : v = 0x0001 ∨ v = 0x0401 := by
  have hack : v &&& 0x0400 = if v.getLsbD 10 then 0x0400 else 0 := BitVec.and_twoPow v 10
  have hv : v = (v &&& 0xFBFF) ||| (v &&& 0x0400) := by
    rw [← BitVec.and_or_distrib_left]
    exact BitVec.and_allOnes.symm
  rw [hv, h, hack]
  cases v.getLsbD 10
  · exact .inl rfl
  · exact .inr rfl

theorem on_of_idle {v : Half} (h : v &&& 0xFBFF = 0x0001) : v.getLsbD 0 = true := by
  rcases cr1_cases h with e | e <;> rw [e] <;> rfl

/-- CR1 without a request is as before once START has been requested and served. -/
theorem cr1_start {v : Half} (h : v &&& 0xFBFF = 0x0001) :
    v.getLsbD 15 = false ∧ (v ||| 0x0100) &&& ~~~0x0100 = v ∧ (v ||| 0x0100).getLsbD 0 = true ∧
      (v ||| 0x0100).getLsbD 8 = true ∧ ¬ (v ||| 0x0100).getLsbD 9 = true := by
  rcases cr1_cases h with e | e <;> rw [e] <;> decide

/-- START_GEN on a free bus, or from a transmitter at rest. -/
theorem takes_startGen {p : Periph} (hp : p.cr1 &&& 0xFBFF = 0x0001) {sym : BusSym} (hsr1 : p.sr1 &&& 0xFF30 = 0)
    (h : p.sr2 = 0 ∧ p.ph = .idle ∧ sym = .start ∨ p.sr2 = 0x0007 ∧ p.ph = .tx ∧ p.pendDR = false ∧ sym = .restart) :
    Takes { p with cr1 := p.cr1 ||| 0x0100 } [.startGen] { atStart p (sym :: p.wire) with snap := p.snap } := by
  obtain ⟨-, hserved, hon, hstart, hstop⟩ := cr1_start hp
  have hflags : (p.sr1 &&& ~~~0x00CF) ||| 0x0001 = 0x0001 := by
    rw [show p.sr1 &&& ~~~0x00CF = 0 from hsr1]
    rfl
  refine takes_one ((stepEnabled_startGen_iff _).2 ⟨hon, hstart, ?enabled⟩) ((startGen_eq _).trans ?effect)
  case enabled =>
    rcases h with ⟨hsr2, hph, -⟩ | ⟨hsr2, hph, hpend, -⟩
    · exact .inl ⟨by rw [hsr2]; decide, by rw [hsr2]; rfl, hph⟩
    · exact .inr ⟨by rw [hsr2]; rfl, hstop, .inl ⟨hph, hpend⟩⟩
  case effect =>
    dsimp only
    rw [hflags, hserved]
    rcases h with ⟨hsr2, -, rfl⟩ | ⟨hsr2, -, -, rfl⟩ <;> rw [hsr2] <;> rfl

theorem periphWriteDR_atStart (p : Periph) (b : Byte) (w : List BusSym) :
    periphWriteDR b (atStart p w) = addressing p b w := by
  simp [periphWriteDR_eq, atStart, addressing]

/-- The address byte is ACKed; it is no header of a 10-bit write address. -/
theorem takes_addrSend {p : Periph} (hp : p.cr1 &&& 0xFBFF = 0x0001) {b : Byte} (hb : isWriteHeader b = false)
    (w : List BusSym) :
    Takes (addressing p b w) [.addrSend .ack] { atAddr p b (b.getLsbD 0) (.ack :: .sent b :: w) with snap := 0 } :=
  takes_one ((stepEnabled_addrSend_iff _ _).2 (by simp [addressing, atStart, on_of_idle hp]))
    (by simp [stepEffect, drByte, addrOutcome, addrAcked, hb, sendDR, show_, addressing, atStart, atAddr, setBits, clearBits,
      Sr1.addr, Sr2.tra])

/-- The byte in DR is ACKed. -/
theorem takes_txByte {p : Periph} (hp : p.cr1 &&& 0xFBFF = 0x0001) (b : Byte) (w : List BusSym) :
    Takes (sending p b w) [.txByte .ack] { hasSent p b (.ack :: .sent b :: w) with snap := 0 } :=
  takes_one ((stepEnabled_txByte_iff _ _).2 (by simp [sending, on_of_idle hp]))
    (by simp [stepEffect, txOutcome, drByte, sendDR, show_, sending, hasSent, setBits, Sr1.txe, Sr1.btf])

section pieces

variable {c : Ctx} {s : State} (hr : HwReady c s) {p : Periph} (tmo : Word)
include hr

/-- ADDR cleared in a transmission. -/
theorem serves_clearAddr_tx (b : Byte) (w : List BusSym) :
    Serves c clearAddrOps [.block, .block] (hwClearTxEvents c.inst) s (atAddr p b false w) s (mayTransmit p b w) :=
  hr.readSR1.append (hr.readSR2 (by simp [periphReadSR2_eq, atAddr, mayTransmit]))

/-- ADDR cleared in a reception. -/
theorem serves_clearAddr_rx (cr1 : Half) (b : Byte) (w : List BusSym) :
    Serves c clearAddrOps [.block, .block] [.csrR c.inst .sr1 0x0002, .csrR c.inst .sr2 0x0003] s
      { atAddr p b true w with cr1 := cr1 } s (receiving p cr1 .rx b w) :=
  hr.readSR1.append (hr.readSR2 (by simp [periphReadSR2_eq, atAddr, receiving]))

/-- The first byte of a transmit body, up to its write to DR. -/
theorem serves_firstByte {src : Op} {b : Byte} {n : Nat} (h : Brings c s src b n) (b₀ : Byte) (w : List BusSym) :
    Serves c (hwTxByte src tmo) (.block :: .block :: List.replicate (n + 1) .block)
      [.csrR c.inst .sr1 0x0080, drEvent c.inst b] s (mayTransmit p b₀ w) s (sending p b w) :=
  (hr.waitFlag tmo 0x0080 (takes_none _) rfl rfl (by decide) rfl).append
    (hr.put h (by simp [periphWriteDR_eq, mayTransmit, sending]))

variable (hp : p.cr1 &&& 0xFBFF = 0x0001)
include hp

/-- A START on a free bus, or a repeated START of a transmitter at rest. -/
theorem serves_start {sym : BusSym} (hsr1 : p.sr1 &&& 0xFF30 = 0)
    (h : p.sr2 = 0 ∧ p.ph = .idle ∧ sym = .start ∨ p.sr2 = 0x0007 ∧ p.ph = .tx ∧ p.pendDR = false ∧ sym = .restart) :
    Serves c (hwStart tmo) [.block, .peri c.inst .startGen, .block, .block] (hwStartEvents c.inst) s p s
      (atStart p (sym :: p.wire)) :=
  (hr.csr (periphWrite_cr1_set (on_of_idle hp) (cr1_start hp).1 rfl rfl)).append
    (hr.waitFlag tmo 0x0001 (takes_startGen hp hsr1 h) rfl rfl (by decide) rfl)

/-- The address byte after a START, ACKed; it is no header of a 10-bit write address. -/
theorem serves_address {b : Byte} (hb : isWriteHeader b = false) (w : List BusSym) :
    Serves c (hwPut b .addr tmo) [.block, .peri c.inst (.addrSend .ack), .block, .block]
      [drEvent c.inst b, .csrR c.inst .sr1 0x0002] s (atStart p w) s
      (atAddr p b (b.getLsbD 0) (.ack :: .sent b :: w)) :=
  (hr.put (brings_byte b) (periphWriteDR_atStart p b w)).append
    (hr.waitFlag tmo 0x0002 (takes_addrSend hp hb w) rfl rfl (by decide) rfl)

/-- The header of a 10-bit write address, ACKed. -/
theorem serves_header {b : Byte} (hb : isWriteHeader b = true) (w : List BusSym) :
    Serves c (hwPut b .add10 tmo) [.block, .peri c.inst (.addrSend .ack), .block, .block]
      [drEvent c.inst b, .csrR c.inst .sr1 0x0008] s (atStart p w) s (atHeader p b (.ack :: .sent b :: w)) := by
  have hacked : Takes (addressing p b w) [.addrSend .ack] { atHeader p b (.ack :: .sent b :: w) with snap := 0 } :=
    takes_one ((stepEnabled_addrSend_iff _ _).2 (by simp [addressing, atStart, on_of_idle hp]))
      (by simp [stepEffect, drByte, addrOutcome, hb, sendDR, show_, addressing, atStart, atHeader, setBits, Sr1.add10])
  exact (hr.put (brings_byte b) (periphWriteDR_atStart p b w)).append
    (hr.waitFlag tmo 0x0008 hacked rfl rfl (by decide) rfl)

/-- The second byte of a 10-bit address, ACKed. -/
theorem serves_lowAddress (h b : Byte) (w : List BusSym) :
    Serves c (hwPut b .addr tmo) [.block, .peri c.inst (.loSend .ack), .block, .block]
      [drEvent c.inst b, .csrR c.inst .sr1 0x0002] s (atHeader p h w) s (atAddr p b false (.ack :: .sent b :: w)) := by
  have hwrite : periphWriteDR b (atHeader p h w) = addressing10 p b w := by
    simp [periphWriteDR_eq, atHeader, addressing10]
  have hacked : Takes (addressing10 p b w) [.loSend .ack] { atAddr p b false (.ack :: .sent b :: w) with snap := 0 } :=
    takes_one ((stepEnabled_loSend_iff _ _).2 (by simp [addressing10, atHeader, on_of_idle hp]))
      (by simp [stepEffect, drByte, loOutcome, addrAcked, sendDR, show_, addressing10, atHeader, atAddr, setBits, Sr1.addr,
        Sr2.tra])
  exact (hr.put (brings_byte b) hwrite).append (hr.waitFlag tmo 0x0002 hacked rfl rfl (by decide) rfl)

/-- The next byte of a transmit body, up to its write to DR. -/
theorem serves_nextByte {src : Op} {b : Byte} {n : Nat} (h : Brings c s src b n) (b₀ : Byte) (w : List BusSym) :
    Serves c (hwTxByte src tmo) (.peri c.inst (.txByte .ack) :: .block :: .block :: List.replicate (n + 1) .block)
      [.csrR c.inst .sr1 0x0084, drEvent c.inst b] s (sending p b₀ w) s (sending p b (.ack :: .sent b₀ :: w)) :=
  (hr.waitFlag tmo 0x0084 (takes_txByte hp b₀ w) rfl rfl (by decide) rfl).append
    (hr.put h (by simp [periphWriteDR_eq, hasSent, sending]))

/-- The end of a transmit body. -/
theorem serves_lastAck (b : Byte) (w : List BusSym) :
    Serves c [.waitFlag .btf tmo] [.peri c.inst (.txByte .ack), .block, .block] [.csrR c.inst .sr1 0x0084] s
      (sending p b w) s (hasSent p b (.ack :: .sent b :: w)) :=
  hr.waitFlag tmo 0x0084 (takes_txByte hp b w) rfl rfl (by decide) rfl

end pieces

end Sys2Proof.Machine
end

section
/-! The schedules of the statements, cut into the pieces above, and the addresses that are no 10-bit write header. -/

namespace Sys2Proof.Machine

theorem paced_nil (i n : Nat) : paced i [] n = List.replicate n .block := rfl

theorem paced_cons (i : Nat) (e : Nat × PeriphStep) (l : List (Nat × PeriphStep)) (n : Nat) :
    paced i (e :: l) n = List.replicate e.1 .block ++ .peri i e.2 :: paced i l n := by
  simp [paced]

theorem paced_append (i : Nat) (l l' : List (Nat × PeriphStep)) (n : Nat) :
    paced i (l ++ l') n = paced i l 0 ++ paced i l' n := by
  simp [paced]

theorem paced_add (i : Nat) (l : List (Nat × PeriphStep)) (m n : Nat) :
    paced i l (m + n) = paced i l m ++ List.replicate n .block := by
  rw [paced, paced, List.replicate_add, List.append_assoc]

/-- A write header of a 10-bit address by its number: 0xF0, 0xF2, 0xF4 or 0xF6 (43_hw_peripheral.md R253). -/
theorem isWriteHeader_iff_toNat : ∀ b : Byte, isWriteHeader b = true ↔
    b.toNat % 2 = 0 ∧ 0xF0 ≤ b.toNat ∧ b.toNat ≤ 0xF7 := by decide

theorem isWriteHeader_enc7_write {a : BitVec 10} (ha : a.toNat ≤ 127) (h : a.toNat < 0x78 ∨ 0x7B < a.toNat) :
    isWriteHeader (enc7 a .write) = false := by
  rw [← Bool.not_eq_true, isWriteHeader_iff_toNat, toNat_enc7]
  simp only [reduceCtorEq, if_false]
  omega

theorem isWriteHeader_hdr10_write (a : BitVec 10) : isWriteHeader (hdr10 a .write) = true := by
  have := toNat_hdr10_bounds a .write
  rw [isWriteHeader_iff_toNat, toNat_hdr10]
  simp only [reduceCtorEq, if_false]
  omega

theorem getLsbD_zero_enc7 (a : BitVec 10) (rw : Dir) : (enc7 a rw).getLsbD 0 = rw.bit := by
  rw [enc7_eq_concat]
  exact BitVec.getLsbD_concat_zero

theorem getLsbD_zero_hdr10 (a : BitVec 10) (rw : Dir) : (hdr10 a rw).getLsbD 0 = rw.bit := by
  rw [hdr10_eq_concat]
  exact BitVec.getLsbD_concat_zero

theorem getLsbD_zero_readByte (am : AddrMode) (a : BitVec 10) : (readByte am a).getLsbD 0 = true := by
  cases am
  · exact getLsbD_zero_enc7 a .read
  · exact getLsbD_zero_hdr10 a .read

theorem isWriteHeader_readByte (am : AddrMode) (a : BitVec 10) : isWriteHeader (readByte am a) = false := by
  rw [isWriteHeader, getLsbD_zero_readByte, Bool.not_true, Bool.and_false]

end Sys2Proof.Machine
end

section
/-! The address phases and the transmit body of a transfer (44_hw_blocking.md R283, R285). -/

namespace Sys2Proof.Machine

/-- The peripheral of a transfer about to begin, as INIT or a receive leaves it: enabled, idle, and no flag set but RxNE. -/
structure Idle (p : Periph) : Prop where
  cr1 : p.cr1 &&& 0xFBFF = 0x0001
  sr1 : p.sr1 &&& 0xFFBF = 0
  sr2 : p.sr2 = 0
  ph : p.ph = .idle

theorem Idle.flags {p : Periph} (hp : Idle p) : p.sr1 &&& 0xFF30 = 0 := by
  rw [show (0xFF30 : Half) = 0xFFBF &&& 0xFF30 from rfl, ← BitVec.and_assoc, hp.sr1]
  rfl

/-- ADDR is 0, so a read of SR2 only forgets the read of SR1. -/
theorem Idle.readSR2 {p : Periph} (hp : Idle p) : periphReadSR2 p = { p with snap := 0 } := by
  have haddr : ¬ p.sr1.getLsbD 1 = true := Bool.eq_false_iff.1 (getLsbD_of_and_eq_zero hp.sr1 (k := 1) rfl)
  rw [periphReadSR2_eq, if_neg fun h => haddr h.2]

/-- A byte of a transmit body: the operation that makes it the byte in hand, and that operation's micro-steps. -/
structure Source where
  op : Op
  byte : Byte
  steps : Nat

/-- The bytes in hand and then those of `buf[0..n-1]` (44_hw_blocking.md R285). -/
def txSources (s : State) (hand : List Byte) (buf : Word) (n : Nat) : List Source :=
  hand.map (fun b => ⟨.byte b, b, 0⟩) ++
    (List.range n).map fun k => ⟨.memRead buf k, memByte s.mem (cellAddr buf k), 1⟩

theorem hwTxBody_eq (s : State) (hand : List Byte) (buf : Word) (n : Nat) (tmo : Word) : hwTxBody hand buf n tmo =
    clearAddrOps ++ (txSources s hand buf n).flatMap (fun x => hwTxByte x.op tmo) ++ [.waitFlag .btf tmo] := by
  simp [hwTxBody, txSources, List.flatMap_map]

theorem bytes_txSources (s : State) (hand : List Byte) (buf : Word) (n : Nat) :
    (txSources s hand buf n).map Source.byte = hand ++ bufferBytes s buf n := by
  simp [txSources, bufferBytes, Function.comp_def]

theorem steps_txSources (s : State) (hand : List Byte) (buf : Word) (n : Nat) :
    (txSources s hand buf n).map Source.steps = List.replicate hand.length 0 ++ List.replicate n 1 := by
  simp [txSources, Function.comp_def, List.map_const']

theorem brings_txSources {c : Ctx} {s : State} {hand : List Byte} {buf : Word} {n : Nat} (hn : n ≤ bufSize s buf) :
    ∀ x ∈ txSources s hand buf n, Brings c s x.op x.byte x.steps := by
  intro x hx
  rcases List.mem_append.1 hx with h | h
  · obtain ⟨b, -, rfl⟩ := List.mem_map.1 h
    exact brings_byte b
  · obtain ⟨k, hk, rfl⟩ := List.mem_map.1 h
    exact brings_memRead (Nat.lt_of_lt_of_le (List.mem_range.1 hk) hn)

section phases

variable {c : Ctx} {s : State} (hr : HwReady c s) {p : Periph} (tmo : Word)
include hr

/-- The write address after a START on a free bus, ACKed. -/
theorem serves_writeAddress (hp : Idle p) {am : AddrMode} {a : BitVec 10}
    (ha : am = .seven → isWriteHeader (enc7 a .write) = false) :
    ∃ b, Serves c (hwStart tmo ++ hwAW am a tmo) (paced c.inst (startPaces am) 2).tail
      (hwStartEvents c.inst ++ hwAddressEvents c.inst am a) s p s
      (atAddr p b false ((.start :: sentSyms (addressBytes am a)).reverse ++ p.wire)) := by
  have hstart := serves_start hr tmo hp.cr1 (sym := .start) hp.flags (.inl ⟨hp.sr2, hp.ph, rfl⟩)
  cases am with
  | seven =>
    have haddr := serves_address hr (p := p) tmo hp.cr1 (ha rfl) (.start :: p.wire)
    rw [getLsbD_zero_enc7] at haddr
    exact ⟨_, hstart.append haddr⟩
  | ten =>
    have hhdr := serves_header hr (p := p) tmo hp.cr1 (isWriteHeader_hdr10_write a) (.start :: p.wire)
    exact ⟨_, hstart.append (hhdr.append (serves_lowAddress hr tmo hp.cr1 (hdr10 a .write) (lo10 a) _))⟩

variable (hcr1 : p.cr1 &&& 0xFBFF = 0x0001)
include hcr1

/-- The read address after a START or a repeated START, ACKed. -/
theorem serves_readAddress (am : AddrMode) (a : BitVec 10) (w : List BusSym) :
    Serves c (hwPut (readByte am a) .addr tmo) [.block, .peri c.inst (.addrSend .ack), .block, .block]
      [drEvent c.inst (readByte am a), .csrR c.inst .sr1 0x0002] s (atStart p w) s
      (atAddr p (readByte am a) true ((sentSyms [readByte am a]).reverse ++ w)) := by
  have haddr := serves_address hr tmo hcr1 (isWriteHeader_readByte am a) w
  rwa [getLsbD_zero_readByte] at haddr

/-- The bytes after the first, each ACKed, and the last wait. -/
theorem serves_moreBytes : ∀ {xs : List Source}, (∀ x ∈ xs, Brings c s x.op x.byte x.steps) → ∀ (b : Byte) (w : List BusSym),
    Serves c (xs.flatMap (fun x => hwTxByte x.op tmo) ++ [.waitFlag .btf tmo])
      (.peri c.inst (.txByte .ack) :: paced c.inst ((xs.map Source.steps).map fun k => (3 + k, .txByte .ack)) 2)
      ((xs.map Source.byte).flatMap (fun b => [.csrR c.inst .sr1 0x0084, drEvent c.inst b]) ++ [Event.csrR c.inst .sr1 0x0084])
      s (sending p b w) s
      (hasSent p ((xs.map Source.byte).getLast?.getD b) ((sentSyms (b :: xs.map Source.byte)).reverse ++ w))
  | [], _, b, w => serves_lastAck hr tmo hcr1 b w
  | x :: xs, hxs, b, w => by
    have hnext := serves_nextByte hr tmo hcr1 (hxs x List.mem_cons_self) b w
    have hmore := serves_moreBytes (fun y hy => hxs y (List.mem_cons_of_mem x hy)) x.byte (.ack :: .sent b :: w)
    have h := hnext.append hmore
    simpa [paced_cons, List.replicate_add, List.replicate_succ, sentSyms, List.getLast?_cons] using h

/-- A transmit body of at least one byte, each ACKed. -/
theorem serves_transmit {xs : List Source} (hne : xs ≠ []) (hxs : ∀ x ∈ xs, Brings c s x.op x.byte x.steps) (b₀ : Byte)
    (w : List BusSym) :
    Serves c (clearAddrOps ++ xs.flatMap (fun x => hwTxByte x.op tmo) ++ [.waitFlag .btf tmo])
      ((paced c.inst (sendPaces (xs.map Source.steps)) 2).drop 2) (hwSendEvents c.inst (xs.map Source.byte)) s
      (atAddr p b₀ false w) s
      (hasSent p ((xs.map Source.byte).getLast?.getD 0) ((sentSyms (xs.map Source.byte)).reverse ++ w)) := by
  obtain _ | ⟨x, xs⟩ := xs
  · exact absurd rfl hne
  have hfirst := serves_firstByte hr (p := p) tmo (hxs x List.mem_cons_self) b₀ w
  have hmore := serves_moreBytes hr tmo hcr1 (fun y hy => hxs y (List.mem_cons_of_mem x hy)) x.byte w
  have h := (serves_clearAddr_tx hr b₀ w).append (hfirst.append hmore)
  simpa [paced_cons, sendPaces, List.replicate_add, List.replicate_succ, hwSendEvents, List.getLast?_cons] using h

end phases

/-- The wait for a free bus ends at its first poll where the bus is free (44_hw_blocking.md R284). -/
theorem run_waitNotBusy_of_free {c : Ctx} {s : State} {p : Periph} {scr : Scratch} (ha : c.atomic = false)
    (hi : c.inst < s.peri.length) (ht : scr.t0 = none) (hb : p.sr2.getLsbD 1 = false) (tmo : Word) (ops : List Op)
    (rest : List Sched) (pre : List Event) :
    goOn c (.waitNotBusy tmo :: ops) scr
        (hwState s c.inst p (.block :: .block :: rest) pre) =
      goOn c ops { scr with t0 := none }
        (hwState (now s).2 c.inst (periphReadSR2 p) rest (pre ++ [Event.csrR c.inst .sr2 p.sr2])) := by
  have hbegin : BeginsWait (turn (lentBy c.cmd)) c scr (hwState s c.inst p (.block :: .block :: rest) pre) s.ticks
      (hwState (now s).2 c.inst p (.block :: rest) pre) :=
    beginsWait_first ha ht (HwTurn.block (.block :: rest) (lentBy c.cmd) pre)
  have hround := opStep_waitNotBusy (t := (now s).2) (lent := lentBy c.cmd) pre hi hbegin (.block rest) tmo
  rw [if_neg (by rw [hb]; exact Bool.false_ne_true)] at hround
  exact run_of_go hround rfl ops

/-- The return of a command that claimed instance `i` and read the clock: the row as before it but for `lastError`
(46_instance.md R368). -/
theorem finish_claimed {s : State} {i : Nat} {cmd : Instr} (hi : i < nInst s) (hopen : (row s i).opActive = false)
    (hc : recordsError cmd = true) (ws : Words) (m : List Host.Cell) (q : Periph) (rest : List Sched) (es : List Event) :
    finish ⟨i, cmd, ws, false⟩ .ok {} (hwState { (now (claimState s i)).2 with mem := m } i q rest es) =
      tracing (setDev { servedState s i rest with mem := m } i q) (es ++ [Event.resp cmd {}]) := by
  have hrow : { row (now (claimState s i)).2 i with lastError := .ok, opActive := false } =
      { row s i with lastError := .ok } := by
    rw [show row (now (claimState s i)).2 i = { row s i with opActive := true } from row_claimState hi, ← hopen]
  have hback : setRow { (now (claimState s i)).2 with mem := m } i { row s i with lastError := .ok } =
      setRow { (now s).2 with mem := m } i { row s i with lastError := .ok } :=
    congrArg (fun u => { u with mem := m }) (setRow_now_claimState s i { row s i with lastError := .ok })
  exact (finish_hwState (c := ⟨i, cmd, ws, false⟩) es hc .ok {} _ q rest).trans
    (congrArg (fun u => hwState u i q rest (es ++ [Event.resp cmd {}])) ((congrArg (setRow _ i) hrow).trans hback))

/-- A blocking transfer under the schedule that serves it returns Ok (42_transactions.md R200, 44_hw_blocking.md R284). -/
theorem exec_of_serves {s : State} {i : Nat} {cmd : Instr} {tmo : Word} {ops : List Op} {sch rest : List Sched}
    {es : List Event} {m : List Host.Cell} {q : Periph} (hr : RunsOnHw s i cmd) (hi : i < s.peri.length)
    (hp : Idle (dev s i)) (hprog : hwProgram s.par.scanProbeTimeoutMs cmd = .waitNotBusy tmo :: ops)
    (hsched : s.sched = .block :: (sch ++ rest))
    (h : Serves ⟨i, cmd, s.words, false⟩ ops sch es (now (claimState s i)).2 { dev s i with snap := 0 }
      { (now (claimState s i)).2 with mem := m } q) :
    exec cmd s = .next (tracing (setDev { servedState s i rest with mem := m } i q)
      ([Event.csrR i .sr2 0] ++ es ++ [.resp cmd {}])) := by
  obtain ⟨r, -, hresp, hrun⟩ := h [.csrR i .sr2 0] rest [] {} rfl
  have hself : { claimState s i with sched := .block :: s.sched } =
      hwState (claimState s i) i (dev s i) (.block :: .block :: (sch ++ rest)) [] := by
    rw [hsched]
    exact (hwState_self { claimState s i with sched := .block :: .block :: (sch ++ rest) } i).symm
  have hfree := run_waitNotBusy_of_free (c := ⟨i, cmd, s.words, false⟩) (s := claimState s i) (p := dev s i) (scr := {}) rfl hi
    rfl (by rw [hp.sr2]; rfl) tmo ops (sch ++ rest) []
  rw [hp.sr2, hp.readSR2] at hfree
  have hopen : (row s i).opActive = false := (hr.initialized i List.mem_cons_self).2.2.1
  rw [List.append_nil] at hrun
  rw [exec_eq_hwProgram hr, hprog, run_noTurn_waitNotBusy rfl rfl]
  refine (congrArg _ hself).trans (hfree.trans (hrun.trans (congrArg Host.Outcome.next ?_)))
  rw [hresp]
  exact finish_claimed hr.lt_nInst hopen (recordsError_of_isTransaction hr.transaction) s.words m q rest _

theorem Idle.forget {p : Periph} (hp : Idle p) : Idle { p with snap := 0 } := ⟨hp.cr1, hp.sr1, hp.sr2, hp.ph⟩

theorem hwReady_claimed {s : State} {i : Nat} {cmd : Instr} (hr : RunsOnHw s i cmd) (hi : i < s.peri.length) :
    HwReady ⟨i, cmd, s.words, false⟩ (now (claimState s i)).2 := by
  refine ⟨rfl, hi, ?_, rfl⟩
  rw [show row (now (claimState s i)).2 i = { row s i with opActive := true } from row_claimState hr.lt_nInst]
  exact hr.hw

/-- The schedule of a write in its pieces. -/
theorem paced_write (i : Nat) (am : AddrMode) {ks : List Nat} (h : ks ≠ []) :
    paced i (startPaces am ++ sendPaces ks) 3 =
      .block :: ((paced i (startPaces am) 2).tail ++ ((paced i (sendPaces ks) 2).drop 2 ++ [.block])) := by
  obtain _ | ⟨k, ks⟩ := ks
  · exact absurd rfl h
  rw [paced_append, paced_add i _ 2 1]
  cases am <;> simp [paced_cons, paced_nil, startPaces, sendPaces, List.replicate_add, List.replicate_succ]

/-- The program of a blocking write (44_hw_blocking.md R289, R291, R292). -/
def hwWriteOps (am : AddrMode) (a : BitVec 10) (hand : List Byte) (buf : Word) (n : Nat) (tmo : Word) : List Op :=
  hwStart tmo ++ hwAW am a tmo ++ (hwTxBody hand buf n tmo ++ hwStop)

theorem serves_write {c : Ctx} {s : State} {p : Periph} (hr : HwReady c s) (hp : Idle p) {am : AddrMode} {a : BitVec 10}
    (ha : am = .seven → isWriteHeader (enc7 a .write) = false) {hand : List Byte} {buf : Word} {n : Nat}
    (hne : txSources s hand buf n ≠ []) (hn : n ≤ bufSize s buf) (tmo : Word) :
    let bs := hand ++ bufferBytes s buf n
    let ks := List.replicate hand.length 0 ++ List.replicate n 1
    Serves c (hwWriteOps am a hand buf n tmo)
      ((paced c.inst (startPaces am) 2).tail ++ ((paced c.inst (sendPaces ks) 2).drop 2 ++ [.block]))
      (hwStartEvents c.inst ++ hwAddressEvents c.inst am a ++ (hwSendEvents c.inst bs ++ [Event.csrW c.inst .cr1 0x0200 0x0200])) s p s
      { hasSent p (bs.getLast?.getD 0) ((BusSym.start :: sentSyms (addressBytes am a ++ bs)).reverse ++ p.wire) with
        cr1 := p.cr1 ||| 0x0200 } := by
  intro bs ks
  obtain ⟨b, haddr⟩ := serves_writeAddress hr tmo hp ha
  have hbody := serves_transmit hr tmo hp.cr1 hne (brings_txSources hn) b
    ((.start :: sentSyms (addressBytes am a)).reverse ++ p.wire)
  have hwire : (sentSyms bs).reverse ++ ((.start :: sentSyms (addressBytes am a)).reverse ++ p.wire) =
      (BusSym.start :: sentSyms (addressBytes am a ++ bs)).reverse ++ p.wire := by simp [sentSyms]
  rw [bytes_txSources, steps_txSources, hwire] at hbody
  have hreset : p.cr1.getLsbD 15 = false := by rcases cr1_cases hp.cr1 with e | e <;> rw [e] <;> rfl
  have hstop := hr.csr (periphWrite_stop (p := hasSent p (bs.getLast?.getD 0)
    ((BusSym.start :: sentSyms (addressBytes am a ++ bs)).reverse ++ p.wire)) (on_of_idle hp.cr1) hreset)
  rw [hwWriteOps, hwTxBody_eq s]
  exact haddr.append (hbody.append hstop)

/-- The blocking writes run on the HW engine, each with its bytes (44_hw_blocking.md R289, R291, R292). -/
theorem runs_write {s : State} {i : Nat} {cmd : Instr} {am : AddrMode} {a : BitVec 10} {reg val : Byte} {buf : Word}
    {len : Half} {tmo : Word} {hand : List Byte} {n : Nat} (hinit : Initialized s [i]) (hk : (row s i).config.kind = .hw)
    (hp : pending s i = false) (ha : addressInRange am a)
    (hcmd : cmd = .masterWriteReg i am a reg val tmo ∧ hand = [reg, val] ∧ n = 0 ∨
      (buf ≠ 0 ∧ len ≠ 0 ∧ len.toNat ≤ bufSize s buf ∧ n = len.toNat) ∧
        (cmd = .masterTransmit i am a buf len tmo ∧ hand = [] ∧ (row s i).transferMode = .polling ∨
          cmd = .masterWriteRegs i am a reg buf len tmo ∧ hand = [reg])) :
    RunsOnHw s i cmd ∧ hwProgram s.par.scanProbeTimeoutMs cmd = .waitNotBusy tmo :: hwWriteOps am a hand buf n tmo ∧
      n ≤ bufSize s buf ∧ List.replicate hand.length 0 ++ List.replicate n 1 ≠ [] := by
  rcases hcmd with ⟨rfl, rfl, rfl⟩ | ⟨⟨hbuf, hlen, hsize, rfl⟩, ⟨rfl, rfl, hpoll⟩ | ⟨rfl, rfl⟩⟩
  · exact ⟨⟨rfl, rfl, hinit, hk, hp, ha, nofun⟩, by simp [hwProgram, hwWriteReg, hwWriteOps, hwTxBody], Nat.zero_le _, nofun⟩
  · have hn : len.toNat ≠ 0 := fun h => hlen (BitVec.eq_of_toNat_eq h)
    exact ⟨⟨rfl, rfl, hinit, hk, hp, ⟨hbuf, hlen, ha, nofun⟩, fun _ => hpoll⟩, by simp [hwProgram, hwTransmit, hwWriteOps],
      hsize, by simpa using hn⟩
  · exact ⟨⟨rfl, rfl, hinit, hk, hp, ⟨hbuf, hlen, ha⟩, nofun⟩, by simp [hwProgram, hwWriteRegs, hwWriteOps], hsize, nofun⟩

/-- Settles O58: the pieces of a write, one after another. -/
theorem hwWrite : Obligations.HwWrite := by
  intro s i cmd am a reg val buf len tmo hand n rest hinit hk hi _ hp hcr1 hsr1 hsr2 hph ha h78 hcmd hsched bs
  obtain ⟨hr, hprog, hn, hne⟩ := runs_write hinit hk hp ha hcmd
  have hidle : Idle (dev s i) := ⟨hcr1, hsr1, hsr2, hph⟩
  have hheader : am = .seven → isWriteHeader (enc7 a .write) = false := fun h =>
    isWriteHeader_enc7_write (ha.resolve_left (by rw [h]; nofun)) (h78 h)
  have hsources : txSources (now (claimState s i)).2 hand buf n ≠ [] := fun h =>
    hne (by rw [← steps_txSources (now (claimState s i)).2 hand buf n, h]; rfl)
  have hwrites := serves_write (hwReady_claimed hr hi) (hidle.forget) hheader hsources hn tmo
  have hexec := exec_of_serves (m := s.mem) (rest := rest) hr hi hidle hprog (by rw [hsched, paced_write i am hne]; rfl) hwrites
  rw [hexec]
  simp only [List.append_assoc]
  rfl

end Sys2Proof.Machine
end

section
/-! The receive bodies of a transfer (44_hw_blocking.md R286), and the reads (R290, R293, R294). -/

namespace Sys2Proof.Machine

theorem periphWrite_ack_off {p : Periph} (hp : p.cr1 &&& 0xFBFF = 0x0001) :
    periphWrite .cr1 0x0400 0 p = { p with cr1 := 0x0001 } := by
  have hv : setBits (written .cr1 p.cr1 0x0400 0) (p.cr1 &&& Cr1.requests) = 0x0001 := by
    rcases cr1_cases hp with e | e <;> rw [e] <;> rfl
  change periphWriteCR1 (written .cr1 p.cr1 0x0400 0) p = _
  rw [periphWriteCR1, hv]
  simp only [has_pe, on_of_idle hp]
  rfl

theorem periphWrite_ack_on {p : Periph} (hp : p.cr1 &&& 0xFBFF = 0x0001) :
    periphWrite .cr1 0x0400 0x0400 p = { p with cr1 := 0x0401 } := by
  obtain ⟨hreset, hv⟩ : p.cr1.getLsbD 15 = false ∧ p.cr1 ||| 0x0400 = 0x0401 := by
    rcases cr1_cases hp with e | e <;> rw [e] <;> decide
  rw [periphWrite_cr1_set (on_of_idle hp) hreset rfl rfl, hv]

/-- CR1 while byte `k` of `n` is awaited: ACK is 0 for the last one. -/
def rxCr1 (n k : Nat) : Half := if k + 1 < n then 0x0401 else 0x0001

/-- The phase while byte `k` of `n` is awaited: the bus rests after the last one. -/
def rxPhase (n k : Nat) : Phase := if k < n then .rx else .rxEnd

/-- The answer to byte `k` of `n`. -/
def rxAnswer (n k : Nat) : BusSym := if k + 1 < n then .ack else .nack

/-- The byte in DR after `k` bytes `d 0 ..` were received, `v` being there before. -/
def lastReceived (v : Byte) (d : Nat → Byte) : Nat → Byte
  | 0 => v
  | k + 1 => d k

/-- What the bus has shown of the first `k` of `n` bytes received. -/
def rxSyms (d : Nat → Byte) (n k : Nat) : List BusSym :=
  (List.range k).flatMap fun j => [.received (d j), rxAnswer n j]

/-- `s` with `k` bytes stored. -/
def stored (s : State) (buf : Word) (d : Nat → Byte) (k : Nat) : State := { s with mem := storeBytes s.mem buf d k }

/-- The accesses of byte `k` of `HW_RxMany` (44_hw_blocking.md R286). -/
def rxByteEvents (i : Nat) (d : Nat → Byte) (n k : Nat) : List Event :=
  [.csrR i .sr1 0x0040] ++ (if k + 2 = n then [.csrW i .cr1 0x0400 0] else []) ++ [Event.csrR i .dr ((d k).setWidth 16)]

/-- The schedule of byte `k` of `HW_RxMany`. -/
def rxByteSched (i : Nat) (d : Nat → Byte) (n k : Nat) : List Sched :=
  .peri i (.rxByte (d k)) :: List.replicate (if k + 2 = n then 5 else 4) .block

theorem rxCr1_idle (n k : Nat) : rxCr1 n k &&& 0xFBFF = 0x0001 := by
  rw [rxCr1]
  split_ifs <;> rfl

theorem getLsbD_ack_rxCr1 (n k : Nat) : (rxCr1 n k).getLsbD 10 = decide (k + 1 < n) := by
  rw [rxCr1]
  split_ifs with h <;> simp [h]

theorem getLsbD_stop_rxCr1 (n k : Nat) : (rxCr1 n k).getLsbD 9 = false := by
  rw [rxCr1]
  split_ifs <;> rfl

theorem rxSyms_succ (d : Nat → Byte) (n k : Nat) :
    rxSyms d n (k + 1) = rxSyms d n k ++ [.received (d k), rxAnswer n k] := by
  simp [rxSyms, List.range_succ]

/-- The schedule of `HW_RxMany` byte by byte, and as the statements pace it: after each byte the micro-steps up to the next. -/
theorem rxByteSched_eq_paced (i : Nat) (d : Nat → Byte) {n : Nat} (k : Nat) :
    List.replicate 5 .block ++ (List.range k).flatMap (rxByteSched i d n) =
      paced i ((List.range k).map fun k => (if k = 0 then 5 else if k + 1 = n then 5 else 4, .rxByte (d k)))
        (if k = 0 then 5 else if k + 1 = n then 5 else 4) := by
  induction k with
  | zero => rfl
  | succ k ih =>
    rw [List.range_succ, List.flatMap_append, ← List.append_assoc, ih, List.map_append, paced_append]
    simp [paced, rxByteSched]

theorem paced_receive {n : Nat} (hn : 1 < n) (i : Nat) (d : Nat → Byte) :
    paced i (receivePaces d n) (receiveEnd n) =
      .block :: .block :: .block :: .block :: .block :: ((List.range n).flatMap (rxByteSched i d n) ++ [.block]) := by
  have h := rxByteSched_eq_paced i d (n := n) n
  rw [if_neg (by omega), if_neg (by omega)] at h
  rw [receivePaces, receiveEnd, if_neg (by omega), if_neg (by omega), paced_add i _ 4 1, ← h]
  rfl

section receive

variable {c : Ctx} {s : State} (hr : HwReady c s) {p : Periph} (tmo : Word)
include hr

/-- A byte arrives, and RxNE is seen. -/
theorem serves_awaitByte {cr1 : Half} (hon : cr1.getLsbD 0 = true) (v₀ v : Byte) (w : List BusSym) :
    Serves c [.waitFlag .rxne tmo] [.peri c.inst (.rxByte v), .block, .block] [.csrR c.inst .sr1 0x0040] s
      (receiving p cr1 .rx v₀ w) s
      (hasReceived p cr1 (if cr1.getLsbD 10 = false ∨ cr1.getLsbD 9 = true then .rxEnd else .rx) v
        ((if cr1.getLsbD 10 then .ack else .nack) :: .received v :: w)) := by
  have harrives : Takes (receiving p cr1 .rx v₀ w) [.rxByte v] { hasReceived p cr1
      (if cr1.getLsbD 10 = false ∨ cr1.getLsbD 9 = true then .rxEnd else .rx) v
        ((if cr1.getLsbD 10 then .ack else .nack) :: .received v :: w) with snap := 0 } :=
    takes_one ((stepEnabled_rxByte_iff _ _).2 (by simpa [receiving] using hon))
      (by simp [stepEffect, rxByte_eq, receiving, hasReceived])
  exact hr.waitFlag tmo 0x0040 harrives rfl rfl (by decide) rfl

/-- The byte received is read and stored. -/
theorem serves_takeByte {buf : Word} {k : Nat} (hk : k < bufSize s buf) (cr1 : Half) (ph : Phase) (v : Byte)
    (w : List BusSym) :
    Serves c [.readDR, .memWrite buf k] [.block, .block] [.csrR c.inst .dr (v.setWidth 16)] s (hasReceived p cr1 ph v w)
      { s with mem := memPut s.mem (cellAddr buf k) v } (receiving p cr1 ph v w) := by
  have hread : periphReadDR (hasReceived p cr1 ph v w) = receiving p cr1 ph v w := by
    simp [periphReadDR_eq, hasReceived, receiving]
  have hv : (hasReceived p cr1 ph v w).dr.setWidth 8 = v :=
    (BitVec.setWidth_setWidth_of_le v (by decide)).trans (BitVec.setWidth_eq v)
  have h := hr.take hk hread
  rwa [hv] at h

/-- Byte `k` of `HW_RxMany` received: ACK is cleared before the last byte but one is read. -/
theorem serves_rxByte {buf : Word} {n k : Nat} (hk : k < n) (hsize : k < bufSize s buf) (d : Nat → Byte) (v : Byte)
    (w : List BusSym) :
    Serves c (hwRxByte buf n tmo k) (rxByteSched c.inst d n k) (rxByteEvents c.inst d n k) s
      (receiving p (rxCr1 n k) (rxPhase n k) v w) { s with mem := memPut s.mem (cellAddr buf k) (d k) }
      (receiving p (rxCr1 n (k + 1)) (rxPhase n (k + 1)) (d k) (rxAnswer n k :: .received (d k) :: w)) := by
  have hawait := serves_awaitByte hr (p := p) tmo (on_of_idle (rxCr1_idle n k)) v (d k) w
  have hphase : (if (rxCr1 n k).getLsbD 10 = false ∨ (rxCr1 n k).getLsbD 9 = true then Phase.rxEnd else .rx) =
      rxPhase n (k + 1) := by
    simp only [getLsbD_ack_rxCr1, getLsbD_stop_rxCr1, rxPhase, Bool.false_eq_true, or_false, decide_eq_false_iff_not]
    exact ite_not _ _ _
  have hanswer : (if (rxCr1 n k).getLsbD 10 then BusSym.ack else .nack) = rxAnswer n k := by
    simp only [getLsbD_ack_rxCr1, rxAnswer, decide_eq_true_eq]
  rw [hphase, hanswer] at hawait
  rw [hwRxByte, rxByteSched, rxByteEvents, show rxPhase n k = .rx from if_pos hk]
  by_cases hlast : k + 2 = n
  · have hclear := hr.csr (periphWrite_ack_off (p := hasReceived p (rxCr1 n k) (rxPhase n (k + 1)) (d k)
      (rxAnswer n k :: .received (d k) :: w)) (rxCr1_idle n k))
    have hcr1 : rxCr1 n (k + 1) = 0x0001 := if_neg (by omega)
    simp only [if_pos hlast, hcr1]
    exact (hawait.append hclear).append (serves_takeByte hr hsize 0x0001 _ (d k) _)
  · have hcr1 : rxCr1 n (k + 1) = rxCr1 n k := by
      rw [rxCr1, rxCr1]
      exact if_congr (by omega) rfl rfl
    simp only [if_neg hlast, hcr1]
    exact hawait.append (serves_takeByte hr hsize _ _ (d k) _)

/-- The first `k` bytes of `HW_RxMany` received. -/
theorem serves_rxBytes {buf : Word} {n : Nat} (hn : n ≤ bufSize s buf) (d : Nat → Byte) (v : Byte) (w : List BusSym) :
    ∀ {k : Nat}, k ≤ n → Serves c ((List.range k).flatMap (hwRxByte buf n tmo))
      ((List.range k).flatMap (rxByteSched c.inst d n)) ((List.range k).flatMap (rxByteEvents c.inst d n)) s
      (receiving p (rxCr1 n 0) (rxPhase n 0) v w) (stored s buf d k)
      (receiving p (rxCr1 n k) (rxPhase n k) (lastReceived v d k) ((rxSyms d n k).reverse ++ w))
  | 0, _ => serves_nil
  | k + 1, hk => by
    have hfirst := serves_rxBytes hn d v w (Nat.le_of_succ_le hk)
    have hnext := serves_rxByte (hr.withMem (storeBytes s.mem buf d k)) tmo (p := p) (buf := buf) hk
      (Nat.lt_of_lt_of_le hk hn) d (lastReceived v d k) ((rxSyms d n k).reverse ++ w)
    have h := hfirst.append hnext
    rw [stored, storeBytes_succ, rxSyms_succ]
    simpa [List.range_succ, lastReceived] using h

theorem serves_stopReceive (ph : Phase) (v : Byte) (w : List BusSym) :
    Serves c [.csr .cr1 Cr1.stop Cr1.stop] [.block] [.csrW c.inst .cr1 0x0200 0x0200] s (receiving p 0x0001 ph v w) s
      (receiving p 0x0201 ph v w) :=
  hr.csr ((periphWrite_stop (by simp [receiving]) (by simp [receiving])).trans (by simp [receiving]))

/-- `HW_RxOne` (44_hw_blocking.md R286). -/
theorem serves_rxOne (hp : p.cr1 &&& 0xFBFF = 0x0001) {buf : Word} (hsize : 0 < bufSize s buf) (d : Nat → Byte) (b : Byte)
    (w : List BusSym) :
    Serves c (hwRxOne buf tmo) ((paced c.inst (receivePaces d 1) (receiveEnd 1)).drop 2) (hwReceiveEvents c.inst d 1) s
      (atAddr p b true w) (stored s buf d 1) (receiving p 0x0201 .rxEnd (d 0) (.nack :: .received (d 0) :: w)) := by
  have hclear := hr.csr (periphWrite_ack_off (p := atAddr p b true w) hp)
  have hawait := serves_awaitByte hr (p := p) tmo (cr1 := 0x0201) rfl b (d 0) w
  exact (hclear.append (serves_clearAddr_rx hr 0x0001 b w)).append
    ((serves_stopReceive hr .rx b w).append (hawait.append (serves_takeByte hr hsize 0x0201 .rxEnd (d 0) _)))

/-- `HW_RxMany` (44_hw_blocking.md R286). -/
theorem serves_rxMany (hp : p.cr1 &&& 0xFBFF = 0x0001) {buf : Word} {n : Nat} (hn : 1 < n) (hsize : n ≤ bufSize s buf)
    (d : Nat → Byte) (b : Byte) (w : List BusSym) :
    Serves c (hwRxMany buf n tmo) (.block :: .block :: .block :: ((List.range n).flatMap (rxByteSched c.inst d n) ++ [.block]))
      (hwReceiveEvents c.inst d n) s (atAddr p b true w) (stored s buf d n)
      (receiving p 0x0201 .rxEnd (lastReceived b d n) ((receivedSyms d n).reverse ++ w)) := by
  have hset := hr.csr (periphWrite_ack_on (p := atAddr p b true w) hp)
  have hbytes := serves_rxBytes hr (p := p) tmo hsize d b w (Nat.le_refl n)
  rw [show rxCr1 n 0 = 0x0401 from if_pos hn, show rxPhase n 0 = .rx from if_pos (by omega),
    show rxCr1 n n = 0x0001 from if_neg (by omega), show rxPhase n n = .rxEnd from if_neg (by omega)] at hbytes
  have h := ((hset.append (serves_clearAddr_rx hr 0x0401 b w)).append hbytes).append
    (serves_stopReceive (hr.withMem (storeBytes s.mem buf d n)) .rxEnd (lastReceived b d n) ((rxSyms d n n).reverse ++ w))
  rw [hwReceiveEvents, if_neg (by omega)]
  exact h

/-- A receive body of at least one byte (44_hw_blocking.md R290, R294). -/
theorem serves_receive (hp : p.cr1 &&& 0xFBFF = 0x0001) {buf : Word} {n : Nat} (hn : n ≠ 0) (hsize : n ≤ bufSize s buf)
    (d : Nat → Byte) (b : Byte) (w : List BusSym) :
    Serves c (hwRx buf n tmo) ((paced c.inst (receivePaces d n) (receiveEnd n)).drop 2) (hwReceiveEvents c.inst d n) s
      (atAddr p b true w) (stored s buf d n) (receiving p 0x0201 .rxEnd (d (n - 1)) ((receivedSyms d n).reverse ++ w)) := by
  obtain _ | _ | n := n
  · exact absurd rfl hn
  · exact serves_rxOne hr tmo hp hsize d b w
  · rw [paced_receive (by omega), hwRx, if_neg (by omega)]
    exact serves_rxMany hr tmo hp (by omega) hsize d b w

end receive

/-! From the START of a read to its read address ACKed: direct for a 7-bit receive, else through the write address. -/

/-- The operations of a read up to its read address (44_hw_blocking.md R290, R293, R294). -/
def readOps (am : AddrMode) (a : BitVec 10) (regs : List Byte) (tmo : Word) : List Op :=
  (if am = .seven ∧ regs = [] then []
    else hwStart tmo ++ hwAW am a tmo ++ (if regs = [] then clearAddrOps else hwTxBody regs 0 0 tmo)) ++
    (hwStart tmo ++ hwPut (readByte am a) .addr tmo)

/-- The peripheral's steps in them, paced. -/
def readPaces (am : AddrMode) (regs : List Byte) : List (Nat × PeriphStep) :=
  (if am = .seven ∧ regs = [] then [(2, .startGen)]
    else startPaces am ++ (if regs = [] then [(5, .startGen)] else sendPaces [0] ++ [(3, .startGen)])) ++
    [(3, .addrSend .ack)]

/-- The accesses in them. -/
def readEvents (i : Nat) (am : AddrMode) (a : BitVec 10) (regs : List Byte) : List Event :=
  (if am = .seven ∧ regs = [] then [] else hwStartEvents i ++ hwAddressEvents i am a ++
    (if regs = [] then hwClearTxEvents i else hwSendEvents i regs)) ++
    (hwStartEvents i ++ [drEvent i (readByte am a), .csrR i .sr1 0x0002])

/-- What the bus shows of them. -/
def readSyms (am : AddrMode) (a : BitVec 10) (regs : List Byte) : List BusSym :=
  (if am = .seven ∧ regs = [] then [.start] else .start :: sentSyms (addressBytes am a ++ regs) ++ [.restart]) ++
    sentSyms [readByte am a]

section approach

variable {c : Ctx} {s : State} (hr : HwReady c s) {p : Periph} (tmo : Word)
include hr

/-- A repeated START and the read address after a transmission at rest. -/
theorem serves_repeatedStart {q : Periph} (hcr1 : q.cr1 &&& 0xFBFF = 0x0001) (hsr1 : q.sr1 &&& 0xFF30 = 0)
    (hrest : q.sr2 = 0x0007 ∧ q.ph = .tx ∧ q.pendDR = false) (am : AddrMode) (a : BitVec 10) :
    Serves c (hwStart tmo ++ hwPut (readByte am a) .addr tmo)
      [.block, .peri c.inst .startGen, .block, .block, .block, .peri c.inst (.addrSend .ack), .block, .block]
      (hwStartEvents c.inst ++ [drEvent c.inst (readByte am a), .csrR c.inst .sr1 0x0002]) s q s
      (atAddr q (readByte am a) true ((sentSyms [readByte am a]).reverse ++ .restart :: q.wire)) :=
  (serves_start hr tmo hcr1 hsr1 (.inr ⟨hrest.1, hrest.2.1, hrest.2.2, rfl⟩)).append
    (serves_readAddress hr tmo hcr1 am a (.restart :: q.wire))

theorem serves_approach (hp : Idle p) {am : AddrMode} {a : BitVec 10} {regs : List Byte}
    (hregs : regs = [] ∨ (am = .seven → isWriteHeader (enc7 a .write) = false) ∧ ∃ reg, regs = [reg]) :
    Serves c (readOps am a regs tmo) (paced c.inst (readPaces am regs) 2).tail (readEvents c.inst am a regs) s p s
      (atAddr p (readByte am a) true ((readSyms am a regs).reverse ++ p.wire)) := by
  obtain rfl | ⟨ha, reg, rfl⟩ := hregs
  · cases am with
    | seven =>
      have hstart := serves_start hr tmo hp.cr1 (sym := .start) hp.flags (.inl ⟨hp.sr2, hp.ph, rfl⟩)
      exact hstart.append (serves_readAddress hr tmo hp.cr1 .seven a (.start :: p.wire))
    | ten =>
      obtain ⟨b, haddr⟩ := serves_writeAddress hr tmo hp (am := .ten) (a := a) nofun
      have hclear := serves_clearAddr_tx hr b (p := p) ((.start :: sentSyms (addressBytes .ten a)).reverse ++ p.wire)
      have hread := serves_repeatedStart hr tmo (q := mayTransmit p b
        ((.start :: sentSyms (addressBytes .ten a)).reverse ++ p.wire)) hp.cr1 (by simp [mayTransmit]) ⟨rfl, rfl, rfl⟩ .ten a
      exact (haddr.append hclear).append hread
  · obtain ⟨b, haddr⟩ := serves_writeAddress hr tmo hp ha
    have hbody := serves_transmit hr tmo hp.cr1 (xs := txSources s [reg] 0 0) nofun (brings_txSources (Nat.zero_le _)) b
      ((.start :: sentSyms (addressBytes am a)).reverse ++ p.wire)
    rw [← hwTxBody_eq s] at hbody
    have hread := serves_repeatedStart hr tmo (q := hasSent p reg
        ((sentSyms [reg]).reverse ++ ((.start :: sentSyms (addressBytes am a)).reverse ++ p.wire))) hp.cr1 (by simp [hasSent])
        ⟨rfl, rfl, rfl⟩ am a
    have h := (haddr.append hbody).append hread
    cases am <;> exact h

end approach

theorem paced_read {n : Nat} (hn : n ≠ 0) (i : Nat) (am : AddrMode) (regs : List Byte) (d : Nat → Byte) :
    paced i (readPaces am regs ++ receivePaces d n) (receiveEnd n) = .block ::
      ((paced i (readPaces am regs) 2).tail ++ (paced i (receivePaces d n) (receiveEnd n)).drop 2) := by
  have hbody : paced i (receivePaces d n) (receiveEnd n) =
      .block :: .block :: (paced i (receivePaces d n) (receiveEnd n)).drop 2 := by
    obtain _ | _ | n := n
    · exact absurd rfl hn
    · rfl
    · rw [paced_receive (by omega)]
      rfl
  have hfirst : paced i (readPaces am regs) 0 ++ [.block, .block] = .block :: (paced i (readPaces am regs) 2).tail := by
    rw [readPaces]
    cases am <;> split_ifs <;> rfl
  rw [paced_append, hbody]
  exact (List.append_assoc _ [.block, .block] _).symm.trans
    (congrArg (· ++ (paced i (receivePaces d n) (receiveEnd n)).drop 2) hfirst)

theorem runs_read {s : State} {i : Nat} {cmd : Instr} {am : AddrMode} {a : BitVec 10} {reg : Byte} {buf : Word} {len : Half}
    {tmo : Word} {regs : List Byte} {n : Nat} (hinit : Initialized s [i]) (hk : (row s i).config.kind = .hw)
    (hp : pending s i = false) (ha : addressInRange am a) (hbuf : buf ≠ 0) (hn : n ≠ 0)
    (hcmd : cmd = .masterReceive i am a buf len tmo ∧ n = len.toNat ∧ regs = [] ∧ (row s i).transferMode = .polling ∨
      (am = .seven → a.toNat < 0x78 ∨ 0x7B < a.toNat) ∧ regs = [reg] ∧
        (cmd = .masterReadReg i am a reg buf tmo ∧ n = 1 ∨ cmd = .masterReadRegs i am a reg buf len tmo ∧ n = len.toNat)) :
    RunsOnHw s i cmd ∧
      hwProgram s.par.scanProbeTimeoutMs cmd = .waitNotBusy tmo :: (readOps am a regs tmo ++ hwRx buf n tmo) := by
  have hlen : n = len.toNat → len ≠ 0 := fun h h0 => hn (by rw [h, h0]; rfl)
  rcases hcmd with ⟨rfl, hnl, rfl, hpoll⟩ | ⟨-, rfl, ⟨rfl, rfl⟩ | ⟨rfl, hnl⟩⟩
  · refine ⟨⟨rfl, rfl, hinit, hk, hp, ⟨hbuf, hlen hnl, ha, nofun⟩, fun _ => hpoll⟩, ?_⟩
    cases am <;> simp [hwProgram, hwReceive, readOps, hwAR, readByte, hnl]
  · refine ⟨⟨rfl, rfl, hinit, hk, hp, ⟨hbuf, ha⟩, nofun⟩, ?_⟩
    cases am <;> simp [hwProgram, hwReadRegs, readOps, hwARPrime, arPrimeByte, readByte]
  · refine ⟨⟨rfl, rfl, hinit, hk, hp, ⟨hbuf, hlen hnl, ha⟩, nofun⟩, ?_⟩
    cases am <;> simp [hwProgram, hwReadRegs, readOps, hwARPrime, arPrimeByte, readByte, hnl]

/-- Settles O59: the pieces of a read, one after another. -/
theorem hwRead : Obligations.HwRead := by
  intro s i cmd am a reg buf len tmo regs n d rest hinit hk hi _ hp hcr1 hsr1 hsr2 hph ha hbuf hn hsize hcmd direct hsched
  obtain ⟨hr, hprog⟩ := runs_read hinit hk hp ha hbuf hn hcmd
  have hidle : Idle (dev s i) := ⟨hcr1, hsr1, hsr2, hph⟩
  have hregs : regs = [] ∨ (am = .seven → isWriteHeader (enc7 a .write) = false) ∧ ∃ reg, regs = [reg] := by
    rcases hcmd with ⟨-, -, h, -⟩ | ⟨h78, h, -⟩
    · exact .inl h
    · exact .inr ⟨fun h => isWriteHeader_enc7_write (ha.resolve_left (by rw [h]; nofun)) (h78 h), reg, h⟩
  have hready := hwReady_claimed hr hi
  have hserves := (serves_approach hready tmo hidle.forget (a := a) hregs).append
    (serves_receive hready tmo (p := { dev s i with snap := 0 }) hcr1 hn hsize d (readByte am a) _)
  have hwire : (receivedSyms d n).reverse ++ ((readSyms am a regs).reverse ++ (dev s i).wire) =
      ((if direct then [BusSym.start] else .start :: sentSyms (addressBytes am a ++ regs) ++ [.restart]) ++
        sentSyms [readByte am a] ++ receivedSyms d n).reverse ++ (dev s i).wire := by
    rw [← List.append_assoc, ← List.reverse_append]
    rfl
  dsimp only at hserves
  rw [hwire] at hserves
  have hexec := exec_of_serves (m := storeBytes s.mem buf d n) (rest := rest) hr hi hidle hprog
    (by rw [hsched]; exact congrArg (· ++ rest) (paced_read hn i am regs d)) hserves
  rw [hexec]
  simp only [readEvents, List.append_assoc]
  rfl

end Sys2Proof.Machine
end

section
/-! A probe of SCAN_BUS on an HW instance, operation by operation (44_hw_blocking.md R295). -/

namespace Sys2Proof.Machine

section probe

variable {c : Ctx} {s t : State} {p q : Periph} {sch rest : List Sched} {lent : Option (Nat × Word)} {scr : Scratch}
  (es : List Event)

/-! The operations that a probe whose result is not Ok passes over. -/

theorem run_probePoll_skip {y0 y : State → Out} (h : scr.p ≠ .ok) (f : Flag) (tmo : Word) (ops : List Op) (u : State) :
    run y0 y c (.probePoll f tmo :: ops) scr u = run y y c ops scr u := by
  refine run_of_go (op := .probePoll f tmo) ?_ rfl ops
  cases hp : scr.p with
  | ok => exact absurd hp h
  | timeout | err => simp only [opStep, hp]

theorem run_probeDR_skip {y0 y : State → Out} (h : scr.p ≠ .ok) (b : Byte) (ops : List Op) (u : State) :
    run y0 y c (.probeDR b :: ops) scr u = run y y c ops scr u := by
  refine run_of_go (op := .probeDR b) ?_ rfl ops
  cases hp : scr.p with
  | ok => exact absurd hp h
  | timeout | err => simp only [opStep, hp]

theorem opStep_probeDR {c : Ctx} {scr : Scratch} (y0 y : State → Out) (hp : scr.p = .ok) (b : Byte) (u : State) :
    opStep y0 y c (.probeDR b) scr u = thenOp (y0 u) fun u => .go scr (writeDR c.inst b u) := by
  simp only [opStep, hp]

/-! A poll of a probe, by what it reads. -/

/-- A poll's result is kept for the rest of the probe. -/
def keepResult (r : PollResult) (scr : Scratch) (s : State) : OpRes := .go { scr with p := r } s

theorem opStep_probePoll {c : Ctx} {scr : Scratch} (y0 y : State → Out) (hp : scr.p = .ok) (f : Flag) (tmo : Word) (u : State) :
    opStep y0 y c (.probePoll f tmo) scr u = pollRound y0 y c f tmo scr u keepResult := by
  simp only [opStep, hp]
  rfl

section poll

variable {u : State} {t0 : Word} {y0 : State → Out} (hp : scr.p = .ok) (hi : c.inst < t.peri.length)
  (hb : BeginsWait y0 c scr u t0 (hwState s c.inst p sch es)) (h : HwTurn c.inst s p sch t q rest) (f : Flag) (tmo : Word)
include hp hi hb h

theorem run_probePoll_of_error {v : Half} (hv : q.sr1 = v) (he : v &&& 0x0700 ≠ 0) (ops : List Op) :
    run y0 (turn lent) c (.probePoll f tmo :: ops) scr u =
      run (turn lent) (turn lent) c ops { scr with t0 := none, p := .err (v &&& 0x0700) }
        (hwState t c.inst { q with snap := v } rest (es ++ [Event.csrR c.inst .sr1 v])) := by
  subst hv
  exact run_of_go ((opStep_probePoll y0 _ hp f tmo u).trans (pollRound_of_error es hi hb h f tmo keepResult he)) rfl ops

theorem run_probePoll_of_flag {v : Half} (hv : q.sr1 = v) (he : v &&& 0x0700 = 0) (hf : v &&& flagMask f ≠ 0)
    (ops : List Op) :
    run y0 (turn lent) c (.probePoll f tmo :: ops) scr u =
      run (turn lent) (turn lent) c ops { scr with t0 := none }
        (hwState t c.inst { q with snap := v } rest (es ++ [Event.csrR c.inst .sr1 v])) := by
  subst hv
  have hkept : ({ scr with t0 := none, p := .ok } : Scratch) = { scr with t0 := none } := by rw [← hp]
  rw [← hkept]
  exact run_of_go ((opStep_probePoll y0 _ hp f tmo u).trans (pollRound_of_flag es hi hb h f tmo keepResult he hf)) rfl ops

/-- Nothing seen: the round ends with the time check. -/
theorem opStep_probePoll_of_nothing (he : q.sr1 &&& 0x0700 = 0) (hf : q.sr1 &&& flagMask f = 0) :
    opStep y0 (turn lent) c (.probePoll f tmo) scr u = checkTime (turn lent) t0 tmo scr
      (hwState t c.inst { q with snap := q.sr1 } rest (es ++ [Event.csrR c.inst .sr1 q.sr1]))
      (keepResult .timeout { scr with t0 := none }) :=
  (opStep_probePoll y0 _ hp f tmo u).trans (pollRound_of_nothing es hi hb h f tmo keepResult he hf)

end poll

/-! The end of a probe, by its result. The other agents leave the peripheral alone. -/

/-- A turn that leaves the peripheral and the state alone. -/
def QuietTurn (i : Nat) (s : State) (sch rest : List Sched) : Prop := ∀ q, HwTurn i s q sch s q rest

section ends

variable (hi : c.inst < s.peri.length) (hon : p.cr1.getLsbD 0 = true) (hreset : p.cr1.getLsbD 15 = false) (buf : Word)
  (a : Byte) (ops : List Op) {rest' : List Sched}
include hi

theorem setStop_hwState (hon : p.cr1.getLsbD 0 = true) (hreset : p.cr1.getLsbD 15 = false) :
    setCr1 c.inst Cr1.stop (hwState s c.inst p sch es) =
      hwState s c.inst { p with cr1 := p.cr1 ||| 0x0200 } sch (es ++ [Event.csrW c.inst .cr1 0x0200 0x0200]) := by
  rw [setCr1, csrWrite_hwState hi, periphWrite_stop hon hreset]
  rfl

include hon hreset

theorem run_probeEnd_of_timeout (hp : scr.p = .timeout) (h : QuietTurn c.inst s sch rest) :
    run (turn lent) (turn lent) c (.probeEnd buf a :: ops) scr (hwState s c.inst p sch es) =
      run (turn lent) (turn lent) c ops { scr with p := .ok }
        (hwState s c.inst { p with cr1 := p.cr1 ||| 0x0200 } rest (es ++ [Event.csrW c.inst .cr1 0x0200 0x0200])) := by
  refine run_of_go (op := .probeEnd buf a) ?_ rfl ops
  simp only [opStep, probeEnd, hp, (h p).thenOp, setStop_hwState _ hi hon hreset]

variable {g : Half} (hg : scr.p = .err g) (h : QuietTurn c.inst s sch rest)
include hg h

theorem run_probeEnd_of_nack (h8 : g.getLsbD 8 = false) (h9 : g.getLsbD 9 = false) (h' : QuietTurn c.inst s rest rest')
    {v : Half} (hv : p.sr1 &&& ~~~(g &&& 0x0700) = v) :
    run (turn lent) (turn lent) c (.probeEnd buf a :: ops) scr (hwState s c.inst p sch es) =
      run (turn lent) (turn lent) c ops { scr with p := .ok }
        (hwState s c.inst { p with sr1 := v, cr1 := p.cr1 ||| 0x0200 } rest'
          (es ++ [Event.csrW c.inst .sr1 0xFFFF (~~~g)] ++ [Event.csrW c.inst .cr1 0x0200 0x0200])) := by
  subst hv
  have hst : errorStatus g = .nack := by rw [errorStatus_eq, h8, h9]; rfl
  refine run_of_go (op := .probeEnd buf a) ?_ rfl ops
  simp only [opStep, probeEnd, hg, (h p).thenOp, clearErrors_hwState _ hi, hst]
  rw [(h' _).thenOp, setStop_hwState (p := { p with sr1 := p.sr1 &&& ~~~(g &&& 0x0700) }) _ hi hon hreset]

theorem run_probeEnd_of_berr (h8 : g.getLsbD 8 = true) (h' : QuietTurn c.inst s rest rest')
    {v : Half} (hv : p.sr1 &&& ~~~(g &&& 0x0700) = v) :
    run (turn lent) (turn lent) c (.probeEnd buf a :: ops) scr (hwState s c.inst p sch es) =
      .next (finish c .busError scr.resp
        (hwState s c.inst { p with sr1 := v, cr1 := p.cr1 ||| 0x0200 } rest'
          (es ++ [Event.csrW c.inst .sr1 0xFFFF (~~~g)] ++ [Event.csrW c.inst .cr1 0x0200 0x0200]))) := by
  subst hv
  have hst : errorStatus g = .busError := by rw [errorStatus_eq, h8]; rfl
  refine run_of_done (op := .probeEnd buf a) (r := { scr with p := .ok }) ?_ ops
  simp only [opStep, probeEnd, hg, (h p).thenOp, clearErrors_hwState _ hi, hst]
  exact stopAndReturn_hwState (q := { p with sr1 := p.sr1 &&& ~~~(g &&& 0x0700) }) _ hi (h' _) hon hreset _ _

omit hon hreset in
theorem run_probeEnd_of_arlo (h8 : g.getLsbD 8 = false) (h9 : g.getLsbD 9 = true)
    {v : Half} (hv : p.sr1 &&& ~~~(g &&& 0x0700) = v) :
    run (turn lent) (turn lent) c (.probeEnd buf a :: ops) scr (hwState s c.inst p sch es) =
      .next (finish c .arbitrationLost scr.resp
        (hwState s c.inst { p with sr1 := v } rest (es ++ [Event.csrW c.inst .sr1 0xFFFF (~~~g)]))) := by
  subst hv
  have hst : errorStatus g = .arbitrationLost := by rw [errorStatus_eq, h8, h9]; rfl
  refine run_of_done (op := .probeEnd buf a) (r := { scr with p := .ok }) ?_ ops
  simp only [opStep, probeEnd, hg, (h p).thenOp, clearErrors_hwState _ hi, hst]

end ends

end probe

end Sys2Proof.Machine
end

section
/-! The probes of SCAN_BUS under the schedules of R295: the START, the address, and each way a probe can go on or end. -/

namespace Sys2Proof.Machine

theorem succ16_of_ne {n : Half} (h : n ≠ 0xFFFF) : succ16 n = some (n + 1) := if_neg h

theorem recordFound_hwState (c : Ctx) {s : State} {buf : Word} (scr : Scratch) (hsize : scr.resp.found.toNat < bufSize s buf)
    (hmax : scr.resp.found ≠ 0xFFFF) (a : Byte) (p : Periph) (sch : List Sched) (es : List Event) :
    recordFound c buf a scr (hwState s c.inst p sch es) =
      .go { scr with resp := { scr.resp with found := scr.resp.found + 1 } }
        (hwState { s with mem := memPut s.mem (cellAddr buf scr.resp.found.toNat) a } c.inst p sch es) := by
  have hfits : scr.resp.found.toNat < bufSize (hwState s c.inst p sch es) buf := hsize
  rw [recordFound, memWrite, if_pos hfits]
  dsimp only
  rw [succ16_of_ne hmax]
  rfl

theorem probeEnd_of_ok {scr : Scratch} (h : scr.p = .ok) (y0 y : State → Out) (c : Ctx) (buf : Word) (a : Byte) (s : State) :
    probeEnd y0 y c buf a scr s = thenOp (y0 s) fun s => thenOp (y (readSR1 c.inst s).2) fun s =>
      thenOp (y (readSR2 c.inst s).2) fun s => thenOp (y (setCr1 c.inst Cr1.stop s)) fun s => recordFound c buf a scr s := by
  have hkept : ({ scr with p := .ok } : Scratch) = scr := by rw [← h]
  rw [probeEnd, hkept, h]

/-- A probe that ended with an ACK clears ADDR, requests STOP and records the address. -/
theorem run_probeEnd_of_ok {c : Ctx} {s : State} {p : Periph} {lent : Option (Nat × Word)} {scr : Scratch} {buf : Word}
    (hi : c.inst < s.peri.length) (hp : p.cr1 &&& 0xFBFF = 0x0001) (hok : scr.p = .ok)
    (hsize : scr.resp.found.toNat < bufSize s buf) (hmax : scr.resp.found ≠ 0xFFFF) (a b : Byte) (w : List BusSym)
    (ops : List Op) (rest : List Sched) (es : List Event) :
    run (turn lent) (turn lent) c (.probeEnd buf a :: ops) scr
        (hwState s c.inst (atAddr p b false w) (.block :: .block :: .block :: .block :: rest) es) =
      run (turn lent) (turn lent) c ops { scr with resp := { scr.resp with found := scr.resp.found + 1 } }
        (hwState { s with mem := memPut s.mem (cellAddr buf scr.resp.found.toNat) a } c.inst
          { mayTransmit p b w with cr1 := p.cr1 ||| 0x0200 } rest
          (es ++ (hwClearTxEvents c.inst ++ [Event.csrW c.inst .cr1 0x0200 0x0200]))) := by
  have hcleared : periphReadSR2 (periphReadSR1 (atAddr p b false w)) = mayTransmit p b w := by
    simp [periphReadSR1, periphReadSR2_eq, atAddr, mayTransmit]
  have hreset : p.cr1.getLsbD 15 = false := (cr1_start hp).1
  refine run_of_go (op := .probeEnd buf a) ((probeEnd_of_ok hok _ _ _ _ _ _).trans ?_) rfl ops
  rw [(HwTurn.block _).thenOp, readSR1_hwState hi, (HwTurn.block _).thenOp, readSR2_hwState hi, hcleared,
    (HwTurn.block _).thenOp, setStop_hwState (p := mayTransmit p b w) _ hi (on_of_idle hp) hreset,
    (HwTurn.block _).thenOp, recordFound_hwState c scr hsize hmax]
  simp only [List.append_assoc]
  rfl

/-- What a probe has left once it has requested START. -/
def afterStart (buf tmo : Word) (a : BitVec 10) (ops : List Op) : List Op :=
  .probePoll .sb tmo :: .probeDR (enc7 a .write) :: .probePoll .addr tmo :: .probeEnd buf (scanByte a) :: ops

theorem run_scanBreak_of_ne {c : Ctx} {scr : Scratch} {max : Half} (h : scr.resp.found ≠ max) (y : State → Out) (ops : List Op)
    (u : State) : run y y c (.scanBreak max :: ops) scr u = run y y c ops scr u := by
  simp only [run, opStep, if_neg h, ite_self]

/-- The flags of an idle peripheral: none but RxNE. -/
theorem sr1_cases {v : Half} (h : v &&& 0xFFBF = 0) : v = 0 ∨ v = 0x0040 := by
  have hrxne : v &&& 0x0040 = if v.getLsbD 6 then 0x0040 else 0 := BitVec.and_twoPow v 6
  have hv : v = (v &&& 0xFFBF) ||| (v &&& 0x0040) := by
    rw [← BitVec.and_or_distrib_left]
    exact BitVec.and_allOnes.symm
  rw [hv, h, hrxne]
  cases v.getLsbD 6
  · exact .inl rfl
  · exact .inr rfl

theorem cr1_start_stop {v : Half} (h : v &&& 0xFBFF = 0x0001) :
    (v ||| 0x0100).getLsbD 15 = false ∧ v ||| 0x0100 ||| 0x0200 = v ||| 0x0300 := by
  rcases cr1_cases h with e | e <;> rw [e] <;> decide

/-- A probe whose first poll does not see SB has only its end left. -/
theorem run_afterStart_skip {r : Scratch} (h : r.p ≠ .ok) (y : State → Out) (tmo : Word) (b a : Byte) (buf : Word)
    (ops : List Op) (u : State) :
    run y y c (.probeDR b :: .probePoll .addr tmo :: .probeEnd buf a :: ops) r u = run y y c (.probeEnd buf a :: ops) r u := by
  rw [run_probeDR_skip h, run_probePoll_skip h]

section schedules

variable {c : Ctx} {scr : Scratch} (ht : scr.t0 = none) (hok : scr.p = .ok) {p : Periph}
include ht

/-- A probe on a free bus requests START (44_hw_blocking.md R284, R295). -/
theorem run_hwProbe {s : State} (ha : c.atomic = false) (hi : c.inst < s.peri.length) (hp : Idle p) {max : Half}
    (hmax : scr.resp.found ≠ max) (buf tmo : Word) (a : BitVec 10) (ops : List Op) (rest : List Sched) :
    goOn c (hwProbe buf max tmo a ++ ops) scr
        (hwState s c.inst p (.block :: .block :: .block :: rest) []) =
      goOn c (afterStart buf tmo a ops) scr
        (hwState (now s).2 c.inst { p with cr1 := p.cr1 ||| 0x0100, snap := 0 } rest
          [.csrR c.inst .sr2 0, .csrW c.inst .cr1 0x0100 0x0100]) := by
  have hfree := run_waitNotBusy_of_free (p := p) ha hi ht (by rw [hp.sr2]; rfl) tmo
    (.csr .cr1 Cr1.start Cr1.start :: afterStart buf tmo a ops) (.block :: rest) []
  have hkept : ({ scr with t0 := none } : Scratch) = scr := by rw [← ht]
  rw [hp.sr2, hp.readSR2, hkept] at hfree
  refine (run_scanBreak_of_ne hmax _ _ _).trans (hfree.trans 
    (run_microStep (opStep_csr .cr1 Cr1.start Cr1.start _ _ _ _) ?_ rfl _))
  have hstart : periphWrite .cr1 Cr1.start Cr1.start { p with snap := 0 } = { p with cr1 := p.cr1 ||| 0x0100, snap := 0 } :=
    periphWrite_cr1_set (p := { p with snap := 0 }) (on_of_idle hp.cr1) (cr1_start hp.cr1).1 rfl rfl
  rw [csrWrite_hwState (s := (now s).2) hi, hstart]
  rfl

include hok

/-- The START is sent, and the address byte goes to DR. -/
theorem run_afterStart_of_sb {s : State} (hr : HwReady c s) (hp : Idle p) (buf tmo : Word) (a : BitVec 10) (ops : List Op)
    (rest : List Sched) (es : List Event) :
    goOn c (afterStart buf tmo a ops) scr
        (hwState s c.inst { p with cr1 := p.cr1 ||| 0x0100, snap := 0 }
          (.peri c.inst .startGen :: .block :: .block :: .block :: rest) es) =
      goOn c (.probePoll .addr tmo :: .probeEnd buf (scanByte a) :: ops) scr
        (hwState s c.inst (addressing p (enc7 a .write) (.start :: p.wire)) rest
          (es ++ [Event.csrR c.inst .sr1 0x0001, drEvent c.inst (enc7 a .write)])) := by
  have hgen : Takes { p with cr1 := p.cr1 ||| 0x0100, snap := 0 } [.startGen]
      { atStart p (.start :: p.wire) with snap := 0 } := takes_startGen (p := { p with snap := 0 }) hp.cr1 hp.flags (.inl ⟨hp.sr2, hp.ph, rfl⟩)
  have hpoll := run_probePoll_of_flag (lent := lentBy c.cmd) es hok hr.present (hr.beginsWait ht hgen (.block :: .block :: rest) es)
    (.block (.block :: rest)) .sb tmo (v := 0x0001) rfl rfl (by decide)
    (.probeDR (enc7 a .write) :: .probePoll .addr tmo :: .probeEnd buf (scanByte a) :: ops)
  have hkept : ({ scr with t0 := none } : Scratch) = scr := by rw [← ht]
  rw [hkept] at hpoll
  have hwrite := writeDR_hwState hr.present (periphWriteDR_atStart p (enc7 a .write) (.start :: p.wire)) rest
    (es ++ [Event.csrR c.inst .sr1 0x0001])
  rw [List.append_assoc] at hwrite
  exact hpoll.trans (run_microStep (opStep_probeDR _ _ hok (enc7 a .write) _) (congrArg (OpRes.go scr) hwrite) rfl _)

/-- A poll that sees nothing until its time has passed. -/
theorem run_probePoll_of_late {s : State} (hr : HwReady c s) {f : Flag} {tmo d : Word} (he : p.sr1 &&& 0x0700 = 0)
    (hf : p.sr1 &&& flagMask f = 0) (hd : tmo.toNat ≤ d.toNat) (hlt : d.toNat < 2 ^ 31) (ops : List Op) (rest : List Sched)
    (es : List Event) :
    goOn c (.probePoll f tmo :: ops) scr
        (hwState s c.inst p (.block :: .block :: .tick d :: .block :: rest) es) =
      goOn c ops { scr with p := .timeout }
        (hwState { s with ticks := s.ticks + d, lastNow := s.ticks + d } c.inst { p with snap := p.sr1 } rest
          (es ++ [Event.csrR c.inst .sr1 p.sr1])) := by
  have hfits : (elapsed s.ticks s.lastNow).toNat + d.toNat < 2 ^ 31 := by
    rw [hr.clockRead, elapsed, BitVec.sub_self]
    simpa using hlt
  have hlate : tmo.toNat ≤ (s.ticks + d - s.ticks).toNat := by
    rwa [add_sub_cancel_left]
  have hround := opStep_probePoll_of_nothing (lent := lentBy c.cmd) es hok hr.present (hr.beginsWait ht (takes_none p) _ es)
    (.block (.tick d :: .block :: rest)) f tmo he hf
  rw [checkTime_of_late _ (.tick hfits rest) hlate] at hround
  have hkept : ({ scr with t0 := none } : Scratch) = scr := by rw [← ht]
  rw [hkept] at hround
  exact run_of_go hround rfl ops

/-! The poll for ADDR, by what becomes of the address byte `b`, and the end of the probe. -/

section outcomes

variable {s : State} (hr : HwReady c s) (hcr1 : p.cr1 &&& 0xFBFF = 0x0001) (buf tmo : Word) (a b : Byte) (w : List BusSym)
  (ops : List Op) (rest : List Sched) (es : List Event)
include hr hcr1

theorem run_probe_of_ack (hb : isWriteHeader b = false) (hb0 : b.getLsbD 0 = false)
    (hsize : scr.resp.found.toNat < bufSize s buf) (hmax : scr.resp.found ≠ 0xFFFF) :
    goOn c (.probePoll .addr tmo :: .probeEnd buf a :: ops) scr
        (hwState s c.inst (addressing p b w)
          (.peri c.inst (.addrSend .ack) :: .block :: .block :: .block :: .block :: .block :: .block :: rest) es) =
      goOn c ops
        { scr with resp := { scr.resp with found := scr.resp.found + 1 } }
        (hwState { s with mem := memPut s.mem (cellAddr buf scr.resp.found.toNat) a } c.inst
          { mayTransmit p b (.ack :: .sent b :: w) with cr1 := p.cr1 ||| 0x0200 } rest
          (es ++ [Event.csrR c.inst .sr1 0x0002] ++ (hwClearTxEvents c.inst ++ [Event.csrW c.inst .cr1 0x0200 0x0200]))) := by
  have hsend := takes_addrSend hcr1 hb w
  rw [hb0] at hsend
  have hpoll := run_probePoll_of_flag (lent := lentBy c.cmd) es hok hr.present
    (hr.beginsWait ht hsend (.block :: .block :: .block :: .block :: .block :: rest) es) (.block _) .addr tmo (v := 0x0002)
    rfl rfl (by decide) (.probeEnd buf a :: ops)
  have hkept : ({ scr with t0 := none } : Scratch) = scr := by rw [← ht]
  rw [hkept] at hpoll
  exact hpoll.trans (run_probeEnd_of_ok hr.present hcr1 hok hsize hmax a b _ ops rest _)

theorem run_probe_of_nack :
    goOn c (.probePoll .addr tmo :: .probeEnd buf a :: ops) scr
        (hwState s c.inst (addressing p b w)
          (.peri c.inst (.addrSend .nack) :: .block :: .block :: .block :: .block :: rest) es) =
      goOn c ops scr
        (hwState s c.inst
          { addressing p b (.nack :: .sent b :: w) with
            cr1 := p.cr1 ||| 0x0200, ph := .held, pendDR := false, snap := 0x0400 } rest
          (es ++ [Event.csrR c.inst .sr1 0x0400] ++ [Event.csrW c.inst .sr1 0xFFFF (~~~0x0400)] ++
            [.csrW c.inst .cr1 0x0200 0x0200])) := by
  have hsend : Takes (addressing p b w) [.addrSend .nack]
      { addressing p b (.nack :: .sent b :: w) with sr1 := 0x0400, ph := .held, pendDR := false } :=
    takes_one ((stepEnabled_addrSend_iff _ _).2 (by simp [addressing, atStart, on_of_idle hcr1]))
      (by simp [stepEffect, drByte, addrOutcome, nackByte, sendDR, show_, addressing, atStart, setBits, Sr1.af])
  have hpoll := run_probePoll_of_error (lent := lentBy c.cmd) es hok hr.present
    (hr.beginsWait ht hsend (.block :: .block :: .block :: rest) es) (.block _) .addr tmo (v := 0x0400) rfl (by decide)
    (.probeEnd buf a :: ops)
  have hend := run_probeEnd_of_nack (lent := lentBy c.cmd) (scr := { scr with t0 := none, p := .err 0x0400 })
    (p := { addressing p b (.nack :: .sent b :: w) with sr1 := 0x0400, ph := .held, pendDR := false, snap := 0x0400 })
    (es ++ [Event.csrR c.inst .sr1 0x0400]) hr.present (on_of_idle hcr1) (cr1_start hcr1).1 buf a ops rfl
    (fun _ => HwTurn.block (.block :: rest)) rfl rfl (fun _ => HwTurn.block rest)
    (show (0x0400 : Half) &&& ~~~(0x0400 &&& 0x0700) = 0 from rfl)
  have hkept : ({ scr with t0 := none, p := .ok } : Scratch) = scr := by rw [← ht, ← hok]
  dsimp only at hend
  rw [hkept] at hend
  exact hpoll.trans hend

theorem run_probe_of_arlo :
    goOn c (.probePoll .addr tmo :: .probeEnd buf a :: ops) scr
        (hwState s c.inst (addressing p b w) (.peri c.inst (.addrSend .lost) :: .block :: .block :: .block :: rest) es) =
      .next (finish c .arbitrationLost scr.resp
        (hwState s c.inst
          { addressing p b (.sent b :: w) with sr2 := 0x0002, ph := .idle, pendDR := false, snap := 0x0200 } rest
          (es ++ [Event.csrR c.inst .sr1 0x0200] ++ [Event.csrW c.inst .sr1 0xFFFF (~~~0x0200)]))) := by
  have hsend : Takes (addressing p b w) [.addrSend .lost]
      { addressing p b (.sent b :: w) with sr1 := 0x0200, sr2 := 0x0002, ph := .idle, pendDR := false } :=
    takes_one ((stepEnabled_addrSend_iff _ _).2 (by simp [addressing, atStart, on_of_idle hcr1]))
      (by simp [stepEffect, drByte, addrOutcome, loseBus, sendDR, show_, addressing, atStart, setBits, clearBits, Sr1.arlo,
        Sr2.msl, Sr2.tra])
  have hpoll := run_probePoll_of_error (lent := lentBy c.cmd) es hok hr.present
    (hr.beginsWait ht hsend (.block :: .block :: rest) es) (.block _) .addr tmo (v := 0x0200) rfl (by decide)
    (.probeEnd buf a :: ops)
  have hend := run_probeEnd_of_arlo (lent := lentBy c.cmd) (scr := { scr with t0 := none, p := .err 0x0200 })
    (p := { addressing p b (.sent b :: w) with sr1 := 0x0200, sr2 := 0x0002, ph := .idle, pendDR := false, snap := 0x0200 })
    (es ++ [Event.csrR c.inst .sr1 0x0200]) hr.present buf a ops rfl (fun _ => HwTurn.block rest) rfl rfl
    (show (0x0200 : Half) &&& ~~~(0x0200 &&& 0x0700) = 0 from rfl)
  exact hpoll.trans hend

theorem run_probe_of_berr (hb : isWriteHeader b = false) (hb0 : b.getLsbD 0 = false) :
    goOn c (.probePoll .addr tmo :: .probeEnd buf a :: ops) scr
        (hwState s c.inst (addressing p b w)
          (.peri c.inst (.addrSend .ack) :: .peri c.inst .berr :: .block :: .block :: .block :: .block :: rest) es) =
      .next (finish c .busError scr.resp
        (hwState s c.inst { atAddr p b false (.ack :: .sent b :: w) with cr1 := p.cr1 ||| 0x0200, snap := 0x0102 } rest
          (es ++ [Event.csrR c.inst .sr1 0x0102] ++ [Event.csrW c.inst .sr1 0xFFFF (~~~0x0100)] ++
            [.csrW c.inst .cr1 0x0200 0x0200]))) := by
  have hack := takes_addrSend hcr1 hb w
  rw [hb0] at hack
  have hsend : Takes (addressing p b w) [.addrSend .ack, .berr]
      { atAddr p b false (.ack :: .sent b :: w) with sr1 := 0x0102, snap := 0 } :=
    ⟨hack.1, takes_one ((stepEnabled_berr_iff _).2 ((congrArg (·.cr1.getLsbD 0) hack.2).trans (on_of_idle hcr1)))
      ((congrArg (stepEffect .berr) hack.2).trans (by simp [stepEffect, atAddr, setBits, Sr1.berr]))⟩
  have hpoll := run_probePoll_of_error (lent := lentBy c.cmd) es hok hr.present
    (hr.beginsWait ht hsend (.block :: .block :: .block :: rest) es) (.block _) .addr tmo (v := 0x0102) rfl (by decide)
    (.probeEnd buf a :: ops)
  have hend := run_probeEnd_of_berr (lent := lentBy c.cmd) (scr := { scr with t0 := none, p := .err 0x0100 })
    (p := { atAddr p b false (.ack :: .sent b :: w) with sr1 := 0x0102, snap := 0x0102 })
    (es ++ [Event.csrR c.inst .sr1 0x0102]) hr.present (on_of_idle hcr1) (cr1_start hcr1).1 buf a ops rfl
    (fun _ => HwTurn.block (.block :: rest)) rfl (fun _ => HwTurn.block rest)
    (show (0x0102 : Half) &&& ~~~(0x0100 &&& 0x0700) = 0x0002 from rfl)
  exact hpoll.trans hend

theorem run_probe_of_noAnswer {d : Word} (hd : tmo.toNat ≤ d.toNat) (hlt : d.toNat < 2 ^ 31) :
    goOn c (.probePoll .addr tmo :: .probeEnd buf a :: ops) scr
        (hwState s c.inst (addressing p b w) (.block :: .block :: .tick d :: .block :: .block :: rest) es) =
      goOn c ops scr
        (hwState { s with ticks := s.ticks + d, lastNow := s.ticks + d } c.inst
          { addressing p b w with cr1 := p.cr1 ||| 0x0200 } rest
          (es ++ [Event.csrR c.inst .sr1 0] ++ [Event.csrW c.inst .cr1 0x0200 0x0200])) := by
  have hpoll := run_probePoll_of_late ht hok (p := addressing p b w) hr (f := .addr) (by simp [addressing])
    (by simp [addressing]) hd hlt (.probeEnd buf a :: ops) (.block :: rest) es
  have hend := run_probeEnd_of_timeout (lent := lentBy c.cmd) (scr := { scr with p := .timeout })
    (s := { s with ticks := s.ticks + d, lastNow := s.ticks + d }) (p := addressing p b w)
    (es ++ [Event.csrR c.inst .sr1 0]) hr.present (on_of_idle hcr1) (cr1_start hcr1).1 buf a ops rfl
    (fun _ => HwTurn.block rest)
  have hkept : ({ scr with p := .ok } : Scratch) = scr := by rw [← hok]
  dsimp only at hend
  rw [hkept] at hend
  exact hpoll.trans hend

end outcomes

/-! A probe whose START does not come. -/

section noStart

variable {s : State} (hr : HwReady c s) (hp : Idle p) (buf tmo : Word) (a : BitVec 10) (ops : List Op) (rest : List Sched)
  (es : List Event)
include hr hp

theorem run_afterStart_of_berr :
    goOn c (afterStart buf tmo a ops) scr
        (hwState s c.inst { p with cr1 := p.cr1 ||| 0x0100, snap := 0 }
          (.peri c.inst .berr :: .block :: .block :: .block :: .block :: rest) es) =
      .next (finish c .busError scr.resp
        (hwState s c.inst { p with cr1 := p.cr1 ||| 0x0300, snap := p.sr1 ||| 0x0100 } rest
          (es ++ [Event.csrR c.inst .sr1 (p.sr1 ||| 0x0100)] ++ [Event.csrW c.inst .sr1 0xFFFF (~~~0x0100)] ++
            [.csrW c.inst .cr1 0x0200 0x0200]))) := by
  obtain ⟨hseen, hg, hcleared⟩ : (p.sr1 ||| 0x0100) &&& 0x0700 ≠ 0 ∧ (p.sr1 ||| 0x0100) &&& 0x0700 = 0x0100 ∧
      (p.sr1 ||| 0x0100) &&& ~~~(0x0100 &&& 0x0700) = p.sr1 := by
    rcases sr1_cases hp.sr1 with e | e <;> rw [e] <;> decide
  obtain ⟨hreset, hstop⟩ := cr1_start_stop hp.cr1
  obtain ⟨-, -, hon, -⟩ := cr1_start hp.cr1
  have hberr : Takes { p with cr1 := p.cr1 ||| 0x0100, snap := 0 } [.berr]
      { p with cr1 := p.cr1 ||| 0x0100, snap := 0, sr1 := p.sr1 ||| 0x0100 } :=
    takes_one ((stepEnabled_berr_iff _).2 hon) rfl
  have hpoll := run_probePoll_of_error (lent := lentBy c.cmd) es hok hr.present
    (hr.beginsWait ht hberr (.block :: .block :: .block :: rest) es) (.block _) .sb tmo rfl hseen
    (.probeDR (enc7 a .write) :: .probePoll .addr tmo :: .probeEnd buf (scanByte a) :: ops)
  rw [hg] at hpoll
  have hend := run_probeEnd_of_berr (lent := lentBy c.cmd) (scr := { scr with t0 := none, p := .err 0x0100 })
    (p := { p with cr1 := p.cr1 ||| 0x0100, snap := p.sr1 ||| 0x0100, sr1 := p.sr1 ||| 0x0100 })
    (es ++ [Event.csrR c.inst .sr1 (p.sr1 ||| 0x0100)]) hr.present hon hreset buf (scanByte a) ops rfl
    (fun _ => HwTurn.block (.block :: rest)) rfl (fun _ => HwTurn.block rest) hcleared
  rw [hstop] at hend
  exact hpoll.trans ((run_afterStart_skip (r := { scr with t0 := none, p := .err 0x0100 }) nofun _ _ _ _ _ _ _).trans hend)

theorem run_afterStart_of_late {d : Word} (hd : tmo.toNat ≤ d.toNat) (hlt : d.toNat < 2 ^ 31) :
    goOn c (afterStart buf tmo a ops) scr
        (hwState s c.inst { p with cr1 := p.cr1 ||| 0x0100, snap := 0 }
          (.block :: .block :: .tick d :: .block :: .block :: rest) es) =
      goOn c ops scr
        (hwState { s with ticks := s.ticks + d, lastNow := s.ticks + d } c.inst
          { p with cr1 := p.cr1 ||| 0x0300, snap := p.sr1 } rest
          (es ++ [Event.csrR c.inst .sr1 p.sr1] ++ [Event.csrW c.inst .cr1 0x0200 0x0200])) := by
  obtain ⟨hnoError, hnoFlag⟩ : p.sr1 &&& 0x0700 = 0 ∧ p.sr1 &&& flagMask .sb = 0 := by
    rcases sr1_cases hp.sr1 with e | e <;> rw [e] <;> decide
  obtain ⟨hreset, hstop⟩ := cr1_start_stop hp.cr1
  obtain ⟨-, -, hon, -⟩ := cr1_start hp.cr1
  have hpoll := run_probePoll_of_late ht hok (p := { p with cr1 := p.cr1 ||| 0x0100, snap := 0 }) hr hnoError hnoFlag hd hlt
    (.probeDR (enc7 a .write) :: .probePoll .addr tmo :: .probeEnd buf (scanByte a) :: ops) (.block :: rest) es
  have hend := run_probeEnd_of_timeout (lent := lentBy c.cmd) (scr := { scr with p := .timeout })
    (s := { s with ticks := s.ticks + d, lastNow := s.ticks + d })
    (p := { p with cr1 := p.cr1 ||| 0x0100, snap := p.sr1 }) (es ++ [Event.csrR c.inst .sr1 p.sr1]) hr.present hon hreset buf
    (scanByte a) ops rfl (fun _ => HwTurn.block rest)
  have hkept : ({ scr with p := .ok } : Scratch) = scr := by rw [← hok]
  dsimp only at hend
  rw [hstop, hkept] at hend
  exact hpoll.trans ((run_afterStart_skip (r := { scr with p := .timeout }) nofun _ _ _ _ _ _ _).trans hend)

end noStart

end schedules

end Sys2Proof.Machine
end

section
/-! SCAN_BUS on an HW instance (44_hw_blocking.md R295): its program, its probes, and their rounds. -/

namespace Sys2Proof.Machine

/-- A command goes on in the same step from the state its operations leave. -/
theorem step_hwState {u : State} (hs : NoFault u) (i : Nat) (cmd : Instr) (ws : Words) (ops : List Op) (r : Scratch)
    (q : Periph) (rest : List Sched) (es : List Event) :
    step (withSeq (hwState u i q rest es) (some ⟨i, cmd, ws, ops, r⟩)) =
      run (turn (lentBy cmd)) (turn (lentBy cmd)) ⟨i, cmd, ws, false⟩ ops r (hwState (withSeq u none) i q rest es) :=
  step_withSeq (s := hwState u i q rest es) hs

/-- The same with the other agents still. -/
theorem step_hwState_still {s : State} (hs : NoFault s) (hsched : s.sched = []) (i : Nat) (cmd : Instr) (ws : Words)
    (ops : List Op) (r : Scratch) (q : Periph) (es : List Event) :
    step (withSeq (tracing (setDev s i q) es) (some ⟨i, cmd, ws, ops, r⟩)) =
      run (turn (lentBy cmd)) (turn (lentBy cmd)) ⟨i, cmd, ws, false⟩ ops r (hwState (withSeq s none) i q [] es) := by
  rw [← hwState_of_still hsched, step_hwState hs]

section probes

variable {s : State} {i : Nat} {buf : Word} {max : Half} {tmo : Word} {a : BitVec 10} {ws : Words} {ops : List Op}
  {scr : Scratch} (hs : NoFault s) (hi : i < s.peri.length) (hp : Idle (dev s i)) (ht : scr.t0 = none)
  (hne : scr.resp.found ≠ max)
  (hq : s.seq = some ⟨i, .scanBus i buf max, ws, hwProbe buf max tmo a ++ ops, scr⟩)
include hs hi hp ht hne hq

/-- A scan at a probe that may record requests START. -/
theorem step_probe_started {sch : List Sched} (hsched : s.sched = .block :: .block :: .block :: sch) :
    step s = goOn ⟨i, .scanBus i buf max, ws, false⟩ (afterStart buf tmo a ops) scr
      (hwState (now (withSeq s none)).2 i { dev s i with cr1 := (dev s i).cr1 ||| 0x0100, snap := 0 } sch
        [.csrR i .sr2 0, .csrW i .cr1 0x0100 0x0100]) := by
  have hself : hwState (withSeq s none) i (dev s i) (.block :: .block :: .block :: sch) [] = withSeq s none :=
    hsched ▸ hwState_self (withSeq s none) i
  rw [step_eq_run hs hq]
  exact (congrArg _ hself.symm).trans
    (run_hwProbe (s := withSeq s none) (c := ⟨i, .scanBus i buf max, ws, false⟩) ht rfl hi hp hne buf tmo a ops sch)

/-- The START served, the address byte goes to DR. -/
theorem step_probe_addressed (hk : (row s i).config.kind = .hw) (hok : scr.p = .ok) {sch : List Sched}
    (hsched : s.sched = .block :: .block :: .block :: .peri i .startGen :: .block :: .block :: .block :: sch) :
    step s = goOn ⟨i, .scanBus i buf max, ws, false⟩ (.probePoll .addr tmo :: .probeEnd buf (scanByte a) :: ops) scr
      (hwState (now (withSeq s none)).2 i (addressing (dev s i) (enc7 a .write) (.start :: (dev s i).wire)) sch
        ([Event.csrR i .sr2 0, .csrW i .cr1 0x0100 0x0100] ++ [.csrR i .sr1 0x0001, drEvent i (enc7 a .write)])) :=
  (step_probe_started hs hi hp ht hne hq hsched).trans
    (run_afterStart_of_sb ht hok ⟨rfl, hi, hk, rfl⟩ hp buf tmo a ops sch _)

end probes

/-- Settles O60: the program is the probes in turn; each probe by the outcomes above; the rounds by what a poll reads. -/
theorem hwScanProbe : Obligations.HwScanProbe := by
  refine ⟨?starts, ?probes, ?rounds⟩
  case starts =>
    intro s i buf max hs hq hinit hk hp hbuf hmax
    have hr : RunsOnHw s i (.scanBus i buf max) := ⟨rfl, rfl, hinit, hk, hp, ⟨hbuf, hmax⟩, nofun⟩
    have hprog : hwProgram s.par.scanProbeTimeoutMs (.scanBus i buf max) =
        (List.range 112).flatMap fun k => hwProbe buf max s.par.scanProbeTimeoutMs (BitVec.ofNat 10 (8 + k)) := by
      rw [hwProgram, hwScan, scanRange, List.flatMap_map]
    rw [exec_eq_step_hwProgram hr hs hq, hprog]
    rfl
  case probes =>
    intro s i buf max tmo a ws ops scr rest d hs hi hip hk ht hok cmd p w back
    refine ⟨fun hq => ?last, fun hq => ⟨fun hfull => ?full, ?served⟩⟩
    case last =>
      rw [step_eq_run hs hq]
      rfl
    case full =>
      rw [step_eq_run hs hq]
      exact run_of_done (op := .scanBreak max) (if_pos hfull) _
    case served =>
      intro hne h8 h77 hcr1 hsr1 hsr2 hph next sent stops addressed
      have hp : Idle p := ⟨hcr1, hsr1, hsr2, hph⟩
      have hr : HwReady ⟨i, cmd, ws, false⟩ (now (withSeq s none)).2 := ⟨rfl, hip, hk, rfl⟩
      have hheader : isWriteHeader w = false := isWriteHeader_enc7_write (by omega) (.inl (by omega))
      have hwrite : w.getLsbD 0 = false := getLsbD_zero_enc7 a .write
      have hstart := @step_probe_started s i buf max tmo a ws ops scr hs hip hp ht hne hq
      have hsent := @step_probe_addressed s i buf max tmo a ws ops scr hs hip hp ht hne hq hk hok
      have hnext : ∀ u q es n, NoFault u → next u q es n = goOn ⟨i, cmd, ws, false⟩ ops
          { scr with resp := { scr.resp with found := n } } (hwState (withSeq u none) i q rest
            ([.csrR i .sr2 0, .csrW i .cr1 0x0100 0x0100] ++ es)) := fun u q es n hu =>
        step_hwState hu i cmd ws ops _ q rest _
      have hstops : ∀ q es st, stops q es st = .next (finish ⟨i, cmd, ws, false⟩ st scr.resp
          (hwState (now (withSeq s none)).2 i q rest ([.csrR i .sr2 0, .csrW i .cr1 0x0100 0x0100] ++ es))) := fun q es st => by
        rw [finish_hwState (c := ⟨i, cmd, ws, false⟩) _ rfl, ← tracing_hwState]
        rfl
      refine ⟨fun hsize hmax hsched => ?ack, fun hsched => ?nack, fun hsched hd hlt => ?noStart, fun hsched hd hlt => ?noAnswer,
        fun hsched => ?berr, fun hsched => ?berrAtAddr, fun hsched => ?lost⟩
      case ack =>
        rw [hnext]
        · exact (hsent hsched).trans (run_probe_of_ack ht hok hr hcr1 buf tmo (scanByte a) w (.start :: p.wire) ops rest _
            hheader hwrite hsize hmax)
        · exact hs
      case nack =>
        rw [hnext]
        · exact (hsent hsched).trans (run_probe_of_nack ht hok hr hcr1 buf tmo (scanByte a) w (.start :: p.wire) ops rest _)
        · exact hs
      case noStart =>
        rw [hnext]
        · exact (hstart hsched).trans (run_afterStart_of_late ht hok hr hp buf tmo a ops rest _ hd hlt)
        · exact hs
      case noAnswer =>
        rw [hnext]
        · exact (hsent hsched).trans (run_probe_of_noAnswer ht hok hr hcr1 buf tmo (scanByte a) w (.start :: p.wire) ops rest _
            hd hlt)
        · exact hs
      case berr =>
        rw [hstops]
        exact (hstart hsched).trans (run_afterStart_of_berr ht hok hr hp buf tmo a ops rest _)
      case berrAtAddr =>
        rw [hstops]
        exact (hsent hsched).trans (run_probe_of_berr ht hok hr hcr1 buf tmo (scanByte a) w (.start :: p.wire) ops rest _
          hheader hwrite)
      case lost =>
        rw [hstops]
        exact (hsent hsched).trans (run_probe_of_arlo ht hok hr hcr1 buf tmo (scanByte a) w (.start :: p.wire) ops rest _)
  case rounds =>
    intro s i cmd ws f tmo buf a ops scr hs hi hip hc hsched hon hreset p e t0 u late seen
    refine ⟨fun hq => ?poll, ?ends⟩
    case poll =>
      have hstep := step_eq_run_still hs hsched hq
      have hbegin := beginsWait_still (c := ⟨i, cmd, ws, false⟩) (lent := lentBy cmd) [] rfl scr (withSeq s none) p
      have hu : waitBegun scr (withSeq s none) = withSeq u none := by
        simp only [waitBegun, u]
        split_ifs <;> rfl
      have hmark : NoFault u := by
        simp only [u]
        split_ifs <;> exact hs
      have hus : u.sched = [] := by
        simp only [u]
        split_ifs <;> exact hsched
      have hui : i < (waitBegun scr (withSeq s none)).peri.length := by rwa [peri_waitBegun]
      have hseen : ∀ r, step (seen u ops r) = goOn ⟨i, cmd, ws, false⟩ ops r
          (hwState (waitBegun scr (withSeq s none)) i { p with snap := p.sr1 } [] [.csrR i .sr1 p.sr1]) := fun r => by
        rw [hu]
        exact step_hwState_still hmark hus i cmd ws ops r _ _
      refine ⟨fun hne => ?skip, fun hok => ⟨fun he => ?error, fun he hf => ?flag, fun he hf hl => ?late, fun he hf hl => ?goesOn⟩⟩
      case skip =>
        rw [step_eq_run hs hq, run_probePoll_skip hne]
        exact (step_withSeq (s := s) hs).symm
      case error =>
        rw [hstep, hseen]
        exact run_probePoll_of_error (lent := lentBy cmd) [] hok hui hbegin .still f tmo rfl he ops
      case flag =>
        rw [hstep, hseen]
        exact run_probePoll_of_flag (lent := lentBy cmd) [] hok hui hbegin .still f tmo rfl he hf ops
      case late =>
        have hround := opStep_probePoll_of_nothing (lent := lentBy cmd) [] hok hui hbegin .still f tmo he hf
        rw [checkTime_still] at hround
        have hback := step_hwState_still (s := { s with lastNow := s.ticks }) hs hsched i cmd ws ops
          { scr with t0 := none, p := .timeout } { p with snap := p.sr1 } [.csrR i .sr1 p.sr1]
        rw [hstep]
        exact (run_of_go (op := .probePoll f tmo) (hround.trans (if_pos hl)) rfl ops).trans hback.symm
      case goesOn =>
        have hround := opStep_probePoll_of_nothing (lent := lentBy cmd) [] hok hui hbegin .still f tmo he hf
        rw [checkTime_still, hwState_of_still (s := (now (withSeq s none)).2) hsched] at hround
        rw [hstep]
        exact run_of_wait (op := .probePoll f tmo) (hround.trans (if_neg hl)) ops
    case ends =>
      intro hq stop on back
      have hstep := step_eq_run_still hs hsched hq
      have hgoes : ∀ (q : Periph) (es : List Event), on q es = goOn ⟨i, cmd, ws, false⟩ ops { scr with p := .ok }
          (hwState (withSeq s none) i q [] es) := step_hwState_still hs hsched i cmd ws ops _
      have hback : ∀ (q : Periph) (es : List Event) (st : Status), back q es st =
          .next (finish ⟨i, cmd, ws, false⟩ st scr.resp (hwState (withSeq s none) i q [] es)) := fun q es st => by
        rw [finish_hwState _ (recordsError_of_isTransaction hc), hwState_of_still]
        · rfl
        · exact hsched
      rw [hstep]
      refine ⟨fun htimeout => ?timeout, ?error⟩
      case timeout =>
        rw [hgoes]
        exact run_probeEnd_of_timeout [] hip hon hreset buf a ops htimeout (fun _ => .still)
      case error =>
        intro g hg q es
        refine ⟨fun h8 => ?berr, fun h8 h9 => ?arlo, fun h8 h9 => ?nack⟩
        case berr =>
          rw [hback]
          exact run_probeEnd_of_berr [] hip hon hreset buf a ops hg (fun _ => .still) h8 (fun _ => .still) rfl
        case arlo =>
          rw [hback]
          exact run_probeEnd_of_arlo [] hip buf a ops hg (fun _ => .still) h8 h9 rfl
        case nack =>
          rw [hgoes]
          exact run_probeEnd_of_nack [] hip hon hreset buf a ops hg (fun _ => .still) h8 h9 (fun _ => .still) rfl

end Sys2Proof.Machine
end

section
/-! Entry into the event handler (45_hw_interrupt.md R324, R330): which part of it runs for a state of the transfer and the
flags that its read of SR1 finds. -/

namespace Sys2Proof.Machine

@[simp] theorem has_txe (v : Half) : has v Sr1.txe = v.getLsbD 7 := has_twoPow v 7
@[simp] theorem has_btf (v : Half) : has v Sr1.btf = v.getLsbD 2 := has_twoPow v 2

theorem has_errors_iff (v : Half) : has v Sr1.errors = true ↔ v &&& 0x0700 ≠ 0 := by
  rw [has, bne_iff_ne]
  rfl

theorem has_errors_eq_false {v : Half} (h : v &&& 0x0700 = 0) : has v Sr1.errors = false :=
  Bool.eq_false_iff.2 fun he => (has_errors_iff v).1 he h

theorem exec_evIrq_of_hw {s : State} {i : Nat} (hi : i < nInst s) (hk : (row s i).config.kind = .hw) :
    exec (.evIrq i) s = evHandler (seqLent s) i s :=
  if_pos (by simp [hasHandlers, hi, hk])

theorem exec_evIrq_of_none {s : State} {i : Nat} (h : ¬ i < nInst s ∨ (row s i).config.kind = .sw) :
    exec (.evIrq i) s = unexpected (.evIrq i) i 324 :=
  if_neg (by rcases h with h | h <;> simp [hasHandlers, h])

theorem fst_readSR1 (i : Nat) (s : State) : (readSR1 i s).1 = (dev s i).sr1 := rfl

/-- The state in which a handler goes on: it has read SR1. -/
theorem snd_readSR1 (i : Nat) (s : State) : (readSR1 i s).2 =
    hwState s i { dev s i with snap := (dev s i).sr1 } s.sched [Event.csrR i .sr1 (dev s i).sr1] := rfl

theorem row_snd_readSR1 (i j : Nat) (s : State) : row (readSR1 i s).2 j = row s j := rfl

section evHandler

variable {lent : Option (Nat × Word)} {i : Nat} {s : State}

theorem evHandler_of_errors (he : (dev s i).sr1 &&& 0x0700 ≠ 0) : evHandler lent i s = .next (readSR1 i s).2 :=
  if_pos ((has_errors_iff _).2 he)

variable (he : (dev s i).sr1 &&& 0x0700 = 0)
include he

theorem evHandler_of_notPending (hx : (row s i).xfer.state = .idle ∨ (row s i).xfer.state = .complete) :
    evHandler lent i s = unexpected (.evIrq i) i 324 := by
  rcases hx with hx | hx <;> simp [evHandler, fst_readSR1, row_snd_readSR1, has_errors_eq_false he, hx]

theorem evHandler_of_startSent (hx : (row s i).xfer.state = .startSent) : evHandler lent i s =
    if (dev s i).sr1.getLsbD 0 = true then evStartSent i (readSR1 i s).2 else unexpected (.evIrq i) i 330 := by
  simp [evHandler, fst_readSR1, row_snd_readSR1, has_errors_eq_false he, hx]

theorem evHandler_of_addressPhase (hx : (row s i).xfer.state = .addressPhase) : evHandler lent i s =
    if (dev s i).sr1.getLsbD 1 = true then evAddress i (readSR1 i s).2 else unexpected (.evIrq i) i 330 := by
  simp [evHandler, fst_readSR1, row_snd_readSR1, has_errors_eq_false he, hx]

theorem evHandler_of_write (hx : (row s i).xfer.state = .dataPhase) (hd : (row s i).xfer.dir = .write) :
    evHandler lent i s =
      if (dev s i).sr1.getLsbD 7 = true ∧ (row s i).xfer.idx.toNat < (row s i).xfer.len.toNat then
        evTxByte ⟨some (encode (.evIrq i)), i, 81⟩ i (readSR1 i s).2
      else if (dev s i).sr1.getLsbD 2 = true ∧ (row s i).xfer.idx = (row s i).xfer.len then
        completeXfer lent i true (readSR1 i s).2
      else unexpected (.evIrq i) i 330 := by
  simp [evHandler, fst_readSR1, row_snd_readSR1, has_errors_eq_false he, hx, hd]

theorem evHandler_of_read (hx : (row s i).xfer.state = .dataPhase) (hd : (row s i).xfer.dir = .read) :
    evHandler lent i s =
      if (dev s i).sr1.getLsbD 6 = true then evRxByte lent ⟨some (encode (.evIrq i)), i, 81⟩ i (readSR1 i s).2
      else unexpected (.evIrq i) i 330 := by
  simp [evHandler, fst_readSR1, row_snd_readSR1, has_errors_eq_false he, hx, hd]

end evHandler

/-- Settles O50: the parts of the handler by state and flag, none of which fits these. -/
theorem evUnexpected : Obligations.EvUnexpected := by
  intro s i p x bad
  refine ⟨fun hi hk => ⟨fun he => ?errors, fun he => ?quiet⟩, exec_evIrq_of_none⟩
  case errors =>
    rw [exec_evIrq_of_hw hi hk, evHandler_of_errors he]
    rfl
  case quiet =>
    simp only [bad, exec_evIrq_of_hw hi hk]
    refine ⟨evHandler_of_notPending he, fun hx h0 => ?start, fun hx h1 => ?address, fun hx hd ht hb => ?write,
      fun hx hd h6 => ?read⟩
    case start => exact (evHandler_of_startSent he hx).trans (if_neg (ne_true_of_eq_false h0))
    case address => exact (evHandler_of_addressPhase he hx).trans (if_neg (ne_true_of_eq_false h1))
    case write => exact (evHandler_of_write he hx hd).trans ((if_neg ht).trans (if_neg hb))
    case read => exact (evHandler_of_read he hx hd).trans (if_neg (ne_true_of_eq_false h6))

end Sys2Proof.Machine
end

section
/-! What the handlers' register accesses do to the peripheral (43_hw_peripheral.md R256, 45_hw_interrupt.md R325 to R332), an
SR1 read having come just before. -/

namespace Sys2Proof.Machine

/-- Clearing those flags of a mask that a read has seen clears the mask. -/
theorem and_not_and_self (v m : Half) : v &&& ~~~(v &&& m) = v &&& ~~~m := by
  ext k hk
  simp only [BitVec.getElem_and, BitVec.getElem_not]
  cases v[k] <;> simp

theorem and_not_and_seen (v k m : Half) : v &&& ~~~k &&& ~~~(v &&& m) = v &&& ~~~(k ||| m) := by
  rw [BitVec.and_assoc, BitVec.and_comm (~~~k), ← BitVec.and_assoc, and_not_and_self, BitVec.and_assoc,
    BitVec.and_comm (~~~m), BitVec.not_or]

theorem and_not_and_not (v k m : Half) : v &&& ~~~k &&& ~~~m = v &&& ~~~(k ||| m) := by
  rw [BitVec.and_assoc, BitVec.not_or]

theorem written_zero (r : Reg) (old m : Half) : written r old m 0 = old &&& ~~~m := by simp [written, merge]

theorem written_self {r : Reg} {m : Half} (hm : m &&& writableBits r = m) (old : Half) : written r old m m = old ||| m := by
  rw [written, hm]
  ext k hk
  simp only [merge, BitVec.getElem_or, BitVec.getElem_and, BitVec.getElem_not]
  cases old[k] <;> cases m[k] <;> rfl

/-- Software clears ACK with the rest of CR1 as it is: START and STOP stay up (10_state.md R40, R50). -/
theorem periphWrite_ack_clear {p : Periph} (hon : p.cr1.getLsbD 0 = true) (hr : p.cr1.getLsbD 15 = false) :
    periphWrite .cr1 Cr1.ack 0 p = { p with cr1 := p.cr1 &&& ~~~0x0400 } := by
  have hc : setBits (written .cr1 p.cr1 Cr1.ack 0) (p.cr1 &&& Cr1.requests) = p.cr1 &&& ~~~Cr1.ack := by
    rw [written_zero, setBits, ← BitVec.and_or_distrib_left]
    rfl
  have h15 : (p.cr1 &&& ~~~Cr1.ack).getLsbD 15 = false := (getLsbD_clearBits _ rfl).trans hr
  have h0 : (p.cr1 &&& ~~~Cr1.ack).getLsbD 0 = true := (getLsbD_clearBits _ rfl).trans hon
  change periphWriteCR1 (written .cr1 p.cr1 Cr1.ack 0) p = _
  rw [periphWriteCR1, hc]
  simp only [has_swrst, has_pe, h15, h0, hon]
  rfl

theorem periphWrite_cr2_set {m : Half} (hm : m &&& writableBits .cr2 = m) (p : Periph) :
    periphWrite .cr2 m m p = { p with cr2 := p.cr2 ||| m } := by
  rw [periphWrite, written_self hm]

theorem periphWrite_cr2_clear (m : Half) (p : Periph) : periphWrite .cr2 m 0 p = { p with cr2 := p.cr2 &&& ~~~m } := by
  rw [periphWrite, written_zero]

/-! The state of a handler under way: `hwState` with its row. -/

theorem setRow_hwState (s : State) (i j : Nat) (r : Inst) (p : Periph) (sch : List Sched) (es : List Event) :
    setRow (hwState s i p sch es) j r = hwState (setRow s j r) i p sch es := rfl

theorem setXfer_hwState (s : State) (i : Nat) (x : Xfer) (p : Periph) (sch : List Sched) (es : List Event) :
    setXfer i x (hwState s i p sch es) = hwState (setRow s i { row s i with xfer := x }) i p sch es := rfl

section accesses

variable {s : State} {i : Nat} (hi : i < s.peri.length) {p : Periph} {sch : List Sched} {es : List Event}
include hi

theorem clearAck_hwState (hon : p.cr1.getLsbD 0 = true) (hr : p.cr1.getLsbD 15 = false) :
    csrWrite i .cr1 Cr1.ack 0 (hwState s i p sch es) =
      hwState s i { p with cr1 := p.cr1 &&& ~~~0x0400 } sch (es ++ [Event.csrW i .cr1 0x0400 0]) := by
  rw [csrWrite_hwState hi, periphWrite_ack_clear hon hr]
  rfl

theorem requestStop_hwState (hon : p.cr1.getLsbD 0 = true) (hr : p.cr1.getLsbD 15 = false) :
    setCr1 i Cr1.stop (hwState s i p sch es) =
      hwState s i { p with cr1 := p.cr1 ||| 0x0200 } sch (es ++ [Event.csrW i .cr1 0x0200 0x0200]) := by
  rw [setCr1, csrWrite_hwState hi, periphWrite_stop hon hr]
  rfl

theorem setCr2_hwState {m : Half} (hm : m &&& writableBits .cr2 = m) : csrWrite i .cr2 m m (hwState s i p sch es) =
    hwState s i { p with cr2 := p.cr2 ||| m } sch (es ++ [Event.csrW i .cr2 m m]) := by
  rw [csrWrite_hwState hi, periphWrite_cr2_set hm]

theorem clearCr2_hwState (m : Half) : csrWrite i .cr2 m 0 (hwState s i p sch es) =
    hwState s i { p with cr2 := p.cr2 &&& ~~~m } sch (es ++ [Event.csrW i .cr2 m 0]) := by
  rw [csrWrite_hwState hi, periphWrite_cr2_clear]

end accesses

/-! The address phase (45_hw_interrupt.md R325, R326). -/

/-- The address byte, as the number of 41_address_encoder.md R181. -/
theorem enc7_xferAddr (a : Half) (d : Dir) :
    enc7 (xferAddr a) d = BitVec.ofNat 8 (2 * a.toNat + if d = .read then 1 else 0) := by
  refine BitVec.eq_of_toNat_eq ?_
  rw [toNat_enc7, xferAddr, BitVec.extractLsb'_toNat, BitVec.toNat_ofNat]
  split_ifs <;> omega

/-- The address byte written in the Start phase of a master that has read SR1 with SB. -/
theorem periphWriteDR_start {p : Periph} (hph : p.ph = .start) (hm : p.sr2.getLsbD 0 = true) (b : Byte) :
    periphWriteDR b { p with snap := p.sr1 } =
      { p with dr := b.setWidth 16, sr1 := p.sr1 &&& ~~~0x000D, pendDR := true, snap := 0 } := by
  rw [periphWriteDR_eq]
  simp [hph, hm, and_not_and_self]

/-- SR2 read after an SR1 read that saw ADDR. -/
theorem periphReadSR2_addr {p : Periph} (h1 : p.sr1.getLsbD 1 = true) (c : Half) :
    periphReadSR2 { p with snap := p.sr1, cr1 := c } =
      { p with
        sr1 := if p.arw then p.sr1 &&& ~~~0x0002 else (p.sr1 &&& ~~~0x0002) ||| 0x0080
        ph := if p.arw then .rx else .tx
        cr1 := c, snap := 0 } := by
  rw [periphReadSR2_eq, if_pos ⟨h1, h1⟩]

theorem evAddress_of_one {s : State} {i : Nat} (h : (row s i).xfer.dir = .read ∧ (row s i).xfer.len = 1) :
    evAddress i s = .next (setXfer i { (row s i).xfer with state := .dataPhase } (csrWrite i .cr2 Cr2.itbufen Cr2.itbufen
      (setCr1 i Cr1.stop (readSR2 i (csrWrite i .cr1 Cr1.ack 0 s)).2))) := by
  unfold evAddress
  exact congrArg (fun t => Host.Outcome.next (setXfer i _ (csrWrite i .cr2 _ _ t))) (if_pos h)

theorem evAddress_of_more {s : State} {i : Nat} (h : ¬ ((row s i).xfer.dir = .read ∧ (row s i).xfer.len = 1)) :
    evAddress i s = .next (setXfer i { (row s i).xfer with state := .dataPhase } (csrWrite i .cr2 Cr2.itbufen Cr2.itbufen
      (readSR2 i s).2)) := by
  unfold evAddress
  exact congrArg (fun t => Host.Outcome.next (setXfer i _ (csrWrite i .cr2 _ _ t))) (if_neg h)

/-- The way from ADDR to the data phase, for a read of one byte and for any other transfer. -/
theorem evAddress_hwState {s : State} {i : Nat} {p : Periph} (hi : i < s.peri.length) (hon : p.cr1.getLsbD 0 = true)
    (hr : p.cr1.getLsbD 15 = false) (h1 : p.sr1.getLsbD 1 = true) (sch : List Sched) (es : List Event) :
    let x := (row s i).xfer
    let one := x.dir = .read ∧ x.len = 1
    evAddress i (hwState s i { p with snap := p.sr1 } sch es) =
      .next (hwState (setRow s i { row s i with xfer := { x with state := .dataPhase } }) i
        { p with
          sr1 := if p.arw then p.sr1 &&& ~~~0x0002 else (p.sr1 &&& ~~~0x0002) ||| 0x0080
          ph := if p.arw then .rx else .tx
          cr1 := if one then (p.cr1 &&& ~~~0x0400) ||| 0x0200 else p.cr1
          cr2 := p.cr2 ||| 0x0400
          snap := 0 } sch
        (es ++ ((if one then [Event.csrW i .cr1 0x0400 0] else []) ++ [Event.csrR i .sr2 p.sr2] ++
          (if one then [Event.csrW i .cr1 0x0200 0x0200] else []) ++ [Event.csrW i .cr2 0x0400 0x0400]))) := by
  intro x one
  by_cases hone : one
  · have hack0 : (p.cr1 &&& ~~~0x0400).getLsbD 0 = true := (getLsbD_clearBits (m := 0x0400) _ rfl).trans hon
    have hack15 : (p.cr1 &&& ~~~0x0400).getLsbD 15 = false := (getLsbD_clearBits (m := 0x0400) _ rfl).trans hr
    rw [evAddress_of_one (s := hwState s i _ sch es) hone, clearAck_hwState (p := { p with snap := p.sr1 }) hi hon hr,
      readSR2_hwState hi, periphReadSR2_addr h1]
    dsimp only
    rw [requestStop_hwState hi, setCr2_hwState hi rfl, setXfer_hwState]
    · simp only [if_pos hone, List.append_assoc]
      rfl
    · exact hack0
    · exact hack15
  · rw [evAddress_of_more (s := hwState s i _ sch es) hone, readSR2_hwState hi, periphReadSR2_addr h1,
      setCr2_hwState hi rfl, setXfer_hwState]
    simp only [if_neg hone, List.append_assoc]
    rfl

/-- Settles O47: the handler's parts for SB and for ADDR, on the state after its read of SR1. -/
theorem evAddressing : Obligations.EvAddressing := by
  intro s i hi hip hk he p x
  rw [exec_evIrq_of_hw hi hk]
  refine ⟨fun hx h0 hph hm => ?start, fun hx h1 hon hr => ?address⟩
  case start =>
    intro b
    rw [evHandler_of_startSent he hx, if_pos h0, snd_readSR1, evStartSent]
    simp only [row_hwState]
    rw [writeDR_hwState hip (periphWriteDR_start hph hm _), setXfer_hwState, enc7_xferAddr]
    rfl
  case address =>
    rw [evHandler_of_addressPhase he hx, if_pos h1, snd_readSR1, evAddress_hwState hip hon hr h1]
    simp only [List.append_assoc]
    rfl

end Sys2Proof.Machine
end

section
/-! The data phase (45_hw_interrupt.md R327 to R329, R331): one byte moved, and the end of the transfer with its callback. -/

namespace Sys2Proof.Machine

theorem add_one_eq_iff {a b : Half} (h : a.toNat < b.toNat) : a + 1 = b ↔ a.toNat + 1 = b.toNat := by
  bv_omega

theorem add_one_eq_sub_one_iff {a b : Half} (h : a.toNat < b.toNat) : a + 1 = b - 1 ↔ a.toNat + 2 = b.toNat := by
  bv_omega

/-! Each part of the handler by the index of the byte and the size of the buffer. -/

section parts

variable {site : Site} {i : Nat} {s : State}

theorem evTxByte_of_past (h : bufSize s (row s i).xfer.buf ≤ (row s i).xfer.idx.toNat) :
    evTxByte site i s = .fault (.bufferBounds site) := by
  simp only [evTxByte, memRead, if_neg (Nat.not_lt.2 h)]

/-- The state in which the byte of the buffer is in DR and the index has moved on. -/
def byteSent (i : Nat) (s : State) : State :=
  setXfer i { (row s i).xfer with idx := (row s i).xfer.idx + 1 }
    (writeDR i (memByte s.mem (cellAddr (row s i).xfer.buf (row s i).xfer.idx.toNat)) s)

theorem evTxByte_of_last (h : (row s i).xfer.idx.toNat < bufSize s (row s i).xfer.buf)
    (hlast : (row s i).xfer.idx.toNat + 1 = (row s i).xfer.len.toNat) :
    evTxByte site i s = .next (csrWrite i .cr2 Cr2.itbufen 0 (byteSent i s)) := by
  simp only [evTxByte, memRead, if_pos h, if_pos ((add_one_eq_iff (Nat.lt_of_succ_le hlast.le)).2 hlast)]
  rfl

theorem evTxByte_of_more (h : (row s i).xfer.idx.toNat < bufSize s (row s i).xfer.buf)
    (hmore : (row s i).xfer.idx.toNat + 1 < (row s i).xfer.len.toNat) : evTxByte site i s = .next (byteSent i s) := by
  simp only [evTxByte, memRead, if_pos h, if_neg (mt (add_one_eq_iff (Nat.lt_of_succ_lt hmore)).1 hmore.ne)]
  rfl

theorem evRxByte_of_past {lent : Option (Nat × Word)} (h : bufSize s (row s i).xfer.buf ≤ (row s i).xfer.idx.toNat) :
    evRxByte lent site i s = .fault (.bufferBounds site) := by
  have hw : memWrite site (row s i).xfer.buf (row s i).xfer.idx.toNat (readDR i s).1 (readDR i s).2 =
      .error (.bufferBounds site) := if_neg (Nat.not_lt.2 h)
  simp only [evRxByte, hw]

/-- The state in which the byte read stands in the buffer and the index has moved on. -/
def byteStored (i : Nat) (s : State) : State :=
  setXfer i { (row s i).xfer with idx := (row s i).xfer.idx + 1 }
    { (readDR i s).2 with mem := memPut s.mem (cellAddr (row s i).xfer.buf (row s i).xfer.idx.toNat) (readDR i s).1 }

/-- The state after a byte read, ACK cleared when one byte is left. -/
def byteTaken (i : Nat) (s : State) : State :=
  let x := (row s i).xfer
  if x.idx + 1 = x.len - 1 then csrWrite i .cr1 Cr1.ack 0 (byteStored i s) else byteStored i s

theorem evRxByte_of_room {lent : Option (Nat × Word)} (h : (row s i).xfer.idx.toNat < bufSize s (row s i).xfer.buf)
    (hidx : (row s i).xfer.idx ≠ 0xFFFF) (hlen : (row s i).xfer.len ≠ 0) : evRxByte lent site i s =
      if (row s i).xfer.idx + 1 = (row s i).xfer.len then
        completeXfer lent i (decide (2 ≤ (row s i).xfer.len.toNat)) (byteTaken i s)
      else .next (byteTaken i s) := by
  have hw : memWrite site (row s i).xfer.buf (row s i).xfer.idx.toNat (readDR i s).1 (readDR i s).2 =
      .ok { (readDR i s).2 with
        mem := memPut s.mem (cellAddr (row s i).xfer.buf (row s i).xfer.idx.toNat) (readDR i s).1 } := if_pos h
  simp only [evRxByte, hw, succ16_of_ne hidx, if_neg (show ¬ (row s i).xfer.len = 0#16 from hlen)]
  rfl

theorem evRxByte_of_bound {lent : Option (Nat × Word)} (h : (row s i).xfer.idx.toNat < bufSize s (row s i).xfer.buf)
    (hlt : (row s i).xfer.idx.toNat < (row s i).xfer.len.toNat) : evRxByte lent site i s =
      if (row s i).xfer.idx + 1 = (row s i).xfer.len then
        completeXfer lent i (decide (2 ≤ (row s i).xfer.len.toNat)) (byteTaken i s)
      else .next (byteTaken i s) := by
  refine evRxByte_of_room h (fun e => ?_) fun e => ?_
  · rw [e] at hlt
    exact Nat.not_lt.2 (Nat.le_of_lt_succ (row s i).xfer.len.isLt) hlt
  · rw [e] at hlt
    exact Nat.not_lt_zero _ hlt

theorem evRxByte_of_last {lent : Option (Nat × Word)} (h : (row s i).xfer.idx.toNat < bufSize s (row s i).xfer.buf)
    (hlast : (row s i).xfer.idx.toNat + 1 = (row s i).xfer.len.toNat) :
    evRxByte lent site i s = completeXfer lent i (decide (2 ≤ (row s i).xfer.len.toNat)) (byteStored i s) := by
  have hlt := Nat.lt_of_succ_le hlast.le
  rw [evRxByte_of_bound h hlt, if_pos ((add_one_eq_iff hlt).2 hlast), byteTaken]
  simp only [if_neg (mt (add_one_eq_sub_one_iff hlt).1 (by omega))]

theorem evRxByte_of_next {lent : Option (Nat × Word)} (h : (row s i).xfer.idx.toNat < bufSize s (row s i).xfer.buf)
    (hnext : (row s i).xfer.idx.toNat + 2 = (row s i).xfer.len.toNat) :
    evRxByte lent site i s = .next (csrWrite i .cr1 Cr1.ack 0 (byteStored i s)) := by
  have hlt : (row s i).xfer.idx.toNat < (row s i).xfer.len.toNat := by omega
  rw [evRxByte_of_bound h hlt, if_neg (mt (add_one_eq_iff hlt).1 (by omega)), byteTaken]
  simp only [if_pos ((add_one_eq_sub_one_iff hlt).2 hnext)]

theorem evRxByte_of_more {lent : Option (Nat × Word)} (h : (row s i).xfer.idx.toNat < bufSize s (row s i).xfer.buf)
    (hmore : (row s i).xfer.idx.toNat + 2 < (row s i).xfer.len.toNat) :
    evRxByte lent site i s = .next (byteStored i s) := by
  have hlt : (row s i).xfer.idx.toNat < (row s i).xfer.len.toNat := by omega
  rw [evRxByte_of_bound h hlt, if_neg (mt (add_one_eq_iff hlt).1 (by omega)), byteTaken]
  simp only [if_neg (mt (add_one_eq_sub_one_iff hlt).1 hmore.ne)]

end parts

/-! The end of a transfer (45_hw_interrupt.md R331, R335). -/

/-- The callback event, where a callback is registered. -/
def calledBack (r : Inst) (i : Nat) (st : Status) : List Event :=
  if r.callback = 0 then [] else [.callback i st r.userData]

theorem callback_of_idle {s : State} (h : s.env.calls = []) (lent : Option (Nat × Word)) (i : Nat) (st : Status) :
    callback lent i st s = .next (tracing s (calledBack (row s i) i st)) := by
  unfold callback calledBack
  split_ifs
  · rfl
  · simp only [drawCall, emit_env, h, nestedActs]
    rfl

section ends

variable {lent : Option (Nat × Word)} {s : State} {i : Nat} {p : Periph} {sch : List Sched} {es : List Event}

/-- How both ends of a transfer end: the status and the transfer state in the row, and the callback. -/
theorem callback_hwState (hi : i < nInst s) (hcalls : s.env.calls = []) (st e : Status) (x : Xfer) :
    callback lent i st (setRow (hwState s i p sch es) i { row s i with lastError := e, xfer := x }) =
      .next (hwState (setRow s i { row s i with lastError := e, xfer := x }) i p sch
        (es ++ calledBack (row s i) i st)) := by
  rw [setRow_hwState, callback_of_idle (by exact hcalls), tracing_hwState, row_hwState, row_setRow_self s i _ hi]
  rfl

theorem completeXfer_hwState (hi : i < nInst s) (hip : i < s.peri.length) (hcalls : s.env.calls = [])
    (hon : p.cr1.getLsbD 0 = true) (hr : p.cr1.getLsbD 15 = false) (stop : Bool) :
    completeXfer lent i stop (hwState s i p sch es) =
      .next (hwState (setRow s i { row s i with
          lastError := .ok, xfer := { (row s i).xfer with state := .complete, lastStatus := .ok, buf := 0 } }) i
        { p with cr1 := if stop then p.cr1 ||| 0x0200 else p.cr1, cr2 := p.cr2 &&& ~~~0x0700 } sch
        (es ++ ((if stop then [Event.csrW i .cr1 0x0200 0x0200] else []) ++ [Event.csrW i .cr2 0x0700 0] ++
          calledBack (row s i) i .ok))) := by
  unfold completeXfer clearEnables
  cases stop
  case false =>
    simp only [Bool.false_eq_true, if_false]
    rw [clearCr2_hwState hip, row_hwState]
    rw [callback_hwState hi hcalls]
    simp only [List.append_assoc]
    rfl
  case true =>
    simp only [if_true]
    rw [requestStop_hwState hip hon hr, clearCr2_hwState hip, row_hwState]
    rw [callback_hwState hi hcalls]
    simp only [List.append_assoc]
    rfl

end ends

/-! What the accesses to DR do in the data phase (43_hw_peripheral.md R256). -/

theorem periphWriteDR_tx {p : Periph} (hph : p.ph = .tx) (hm : p.sr2.getLsbD 0 = true) (b : Byte) :
    periphWriteDR b { p with snap := p.sr1 } =
      { p with dr := b.setWidth 16, sr1 := p.sr1 &&& ~~~0x008D, pendDR := true, snap := 0 } := by
  have hsends : p.sr2.getLsbD 0 = true ∧ (p.ph = .start ∨ p.ph = .hdr10 ∨ p.ph = .tx) := ⟨hm, .inr (.inr hph)⟩
  rw [periphWriteDR_eq]
  simp only [if_pos hsends, if_pos (And.intro hsends hph), and_not_and_self, and_not_and_not]
  rfl

theorem periphReadDR_seen (p : Periph) :
    periphReadDR { p with snap := p.sr1 } = { p with sr1 := p.sr1 &&& ~~~0x0044, snap := 0 } := by
  rw [periphReadDR_eq]
  simp only [and_not_and_seen]
  rfl

theorem byteSent_hwState {s : State} {i : Nat} {p : Periph} (hip : i < s.peri.length) (hph : p.ph = .tx)
    (hm : p.sr2.getLsbD 0 = true) (sch : List Sched) (es : List Event) :
    let x := (row s i).xfer
    let b := memByte s.mem (cellAddr x.buf x.idx.toNat)
    byteSent i (hwState s i { p with snap := p.sr1 } sch es) =
      hwState (setRow s i { row s i with xfer := { x with idx := x.idx + 1 } }) i
        { p with dr := b.setWidth 16, sr1 := p.sr1 &&& ~~~0x008D, pendDR := true, snap := 0 } sch
        (es ++ [Event.csrW i .dr 0x00FF (b.setWidth 16)]) := by
  rw [byteSent, writeDR_hwState hip (periphWriteDR_tx hph hm _)]
  rfl

theorem byteStored_hwState {s : State} {i : Nat} {p : Periph} (hip : i < s.peri.length) (sch : List Sched) (es : List Event) :
    let x := (row s i).xfer
    let b : Byte := p.dr.setWidth 8
    byteStored i (hwState s i { p with snap := p.sr1 } sch es) =
      hwState (setRow { s with mem := memPut s.mem (cellAddr x.buf x.idx.toNat) b } i
          { row s i with xfer := { x with idx := x.idx + 1 } }) i
        { p with sr1 := p.sr1 &&& ~~~0x0044, snap := 0 } sch (es ++ [Event.csrR i .dr (b.setWidth 16)]) := by
  rw [byteStored, readDR_hwState hip, periphReadDR_seen]
  rfl

/-- Settles O48: the parts for one byte, on the state after the handler's read of SR1. -/
theorem evData : Obligations.EvData := by
  intro s i hi hip hk he hon hr hx hlt p x k
  rw [exec_evIrq_of_hw hi hk]
  refine ⟨fun hd h7 hph hm hsize => ?write, fun hd h6 hmore hsize => ?read, ?past⟩
  case write =>
    intro b last
    rw [evHandler_of_write he hx hd, if_pos ⟨h7, hlt⟩, snd_readSR1]
    by_cases hlast : last
    · rw [evTxByte_of_last (s := hwState s i _ _ _) hsize hlast, byteSent_hwState hip hph hm,
        clearCr2_hwState (by exact hip)]
      simp only [if_pos hlast]
      rfl
    · rw [evTxByte_of_more (s := hwState s i _ _ _) hsize (Nat.lt_of_le_of_ne hlt hlast), byteSent_hwState hip hph hm]
      simp only [if_neg hlast]
      rfl
  case read =>
    intro b next
    rw [evHandler_of_read he hx hd, if_pos h6, snd_readSR1]
    by_cases hnext : next
    · rw [evRxByte_of_next (s := hwState s i _ _ _) hsize hnext, byteStored_hwState hip,
        clearAck_hwState (by exact hip)]
      · simp only [if_pos hnext]
        rfl
      · exact hon
      · exact hr
    · rw [evRxByte_of_more (s := hwState s i _ _ _) hsize (Nat.lt_of_le_of_ne hmore hnext), byteStored_hwState hip]
      simp only [if_neg hnext]
      rfl
  case past =>
    rintro (⟨hd, h7⟩ | ⟨hd, h6⟩) hpast
    · rw [evHandler_of_write he hx hd, if_pos ⟨h7, hlt⟩]
      exact evTxByte_of_past hpast
    · rw [evHandler_of_read he hx hd, if_pos h6]
      exact evRxByte_of_past hpast

/-- Settles O49: the end of a transfer, at BTF and after the last byte read. -/
theorem evComplete : Obligations.EvComplete := by
  intro s i hi hip hk he hon hr hx hcalls p x k called
  rw [exec_evIrq_of_hw hi hk]
  refine ⟨fun hd hlen h2 => ?write, fun hd h6 hlast hsize => ?read⟩
  case write =>
    have hsent : ¬ ((dev s i).sr1.getLsbD 7 = true ∧ (row s i).xfer.idx.toNat < (row s i).xfer.len.toNat) :=
      fun h => Nat.ne_of_lt h.2 (congrArg BitVec.toNat hlen)
    rw [evHandler_of_write he hx hd, if_neg hsent, if_pos ⟨h2, hlen⟩, snd_readSR1,
      completeXfer_hwState hi hip hcalls (by exact hon) (by exact hr)]
    rfl
  case read =>
    intro b two
    have hidx : (row s i).xfer.idx + 1 = (row s i).xfer.len := (add_one_eq_iff (Nat.lt_of_succ_le hlast.le)).2 hlast
    rw [evHandler_of_read he hx hd, if_pos h6, snd_readSR1, evRxByte_of_last (s := hwState s i _ _ _) hsize hlast,
      byteStored_hwState hip, completeXfer_hwState ?_ (by exact hip) (by exact hcalls)]
    · rw [row_setRow_self _ _ _ (by exact hi), setRow_setRow]
      simp only [decide_eq_true_eq, hidx, List.append_assoc]
      rfl
    · exact hon
    · exact hr
    · rwa [nInst_setRow]

end Sys2Proof.Machine
end

section
/-! The error handler (45_hw_interrupt.md R332). -/

namespace Sys2Proof.Machine

theorem exec_erIrq_of_hw {s : State} {i : Nat} (hi : i < nInst s) (hk : (row s i).config.kind = .hw) :
    exec (.erIrq i) s = erHandler (seqLent s) i s :=
  if_pos (by simp [hasHandlers, hi, hk])

theorem pending_eq_false_iff (s : State) (i : Nat) : pending s i = false ↔
    ¬ ((row s i).xfer.state = .startSent ∨ (row s i).xfer.state = .addressPhase ∨ (row s i).xfer.state = .dataPhase) := by
  rw [pending, ← xstate_pending_iff, Bool.not_eq_true]

theorem erHandler_of_unexpected {lent : Option (Nat × Word)} {s : State} {i : Nat}
    (h : (dev s i).sr1 &&& 0x0700 = 0 ∨ pending s i = false) : erHandler lent i s = unexpected (.erIrq i) i 332 :=
  if_pos h

/-- What the handler has done to the peripheral before its callback: the errors `e` cleared, STOP requested unless the
status is ArbitrationLost, the enables cleared one after another (log entry 14). -/
def errorEnd (i : Nat) (e : Half) (st : Status) (s : State) : State :=
  let u := clearErrors i e s
  csrWrite i .cr2 Cr2.iterren 0 (csrWrite i .cr2 Cr2.itbufen 0 (csrWrite i .cr2 Cr2.itevten 0
    (if st = .arbitrationLost then u else setCr1 i Cr1.stop u)))

/-- The row of a transfer that has failed with a status. -/
def failed (i : Nat) (st : Status) (s : State) : State :=
  setRow s i { row s i with lastError := st, xfer := { (row s i).xfer with state := .idle, lastStatus := st, buf := 0 } }

theorem erHandler_of_errors {lent : Option (Nat × Word)} {s : State} {i : Nat}
    (h : ¬ ((dev s i).sr1 &&& 0x0700 = 0 ∨ pending s i = false)) :
    let e := (dev s i).sr1 &&& 0x0700
    erHandler lent i s =
      callback lent i (errorStatus e) (failed i (errorStatus e) (errorEnd i e (errorStatus e) (readSR1 i s).2)) :=
  if_neg h

section ends

variable {s : State} {i : Nat} (hi : i < s.peri.length) {p : Periph} {sch : List Sched} {es : List Event}
include hi

theorem clearErrors_seen_hwState : clearErrors i (p.sr1 &&& 0x0700) (hwState s i p sch es) =
    hwState s i { p with sr1 := p.sr1 &&& ~~~0x0700 } sch (es ++ [Event.csrW i .sr1 0xFFFF (~~~(p.sr1 &&& 0x0700))]) := by
  rw [clearErrors, csrWrite_hwState hi, periphWrite, periphWriteSR1, BitVec.not_not]
  exact congrArg (fun v => hwState s i { p with sr1 := v } sch _) (clear_seen_errors p.sr1)

theorem clearEach_hwState : csrWrite i .cr2 Cr2.iterren 0 (csrWrite i .cr2 Cr2.itbufen 0 (csrWrite i .cr2 Cr2.itevten 0
      (hwState s i p sch es))) =
    hwState s i { p with cr2 := p.cr2 &&& ~~~0x0700 } sch
      (es ++ [Event.csrW i .cr2 0x0200 0, .csrW i .cr2 0x0400 0, .csrW i .cr2 0x0100 0]) := by
  simp only [clearCr2_hwState hi, and_not_and_not, List.append_assoc]
  rfl

theorem errorEnd_hwState (hon : p.cr1.getLsbD 0 = true) (hr : p.cr1.getLsbD 15 = false) (st : Status) :
    errorEnd i (p.sr1 &&& 0x0700) st (hwState s i p sch es) =
      hwState s i { p with
        sr1 := p.sr1 &&& ~~~0x0700, cr2 := p.cr2 &&& ~~~0x0700
        cr1 := if st = .arbitrationLost then p.cr1 else p.cr1 ||| 0x0200 } sch
      (es ++ ([Event.csrW i .sr1 0xFFFF (~~~(p.sr1 &&& 0x0700))] ++
        (if st = .arbitrationLost then [] else [Event.csrW i .cr1 0x0200 0x0200]) ++
        [Event.csrW i .cr2 0x0200 0, .csrW i .cr2 0x0400 0, .csrW i .cr2 0x0100 0])) := by
  rw [errorEnd, clearErrors_seen_hwState hi]
  by_cases hst : st = .arbitrationLost
  · simp only [if_pos hst, clearEach_hwState hi, List.append_assoc]
    rfl
  · simp only [if_neg hst]
    rw [requestStop_hwState hi (by exact hon) (by exact hr), clearEach_hwState hi]
    simp only [List.append_assoc]

end ends

/-- Settles O51: the handler by what SR1 shows and whether a transfer is pending. -/
theorem erIrq : Obligations.ErIrq := by
  intro s i hi hip hk hon hr hcalls p x e st busy
  rw [exec_erIrq_of_hw hi hk]
  refine ⟨fun he hbusy => ?error, fun h => ?quiet⟩
  case quiet =>
    exact erHandler_of_unexpected (h.imp id (pending_eq_false_iff s i).2)
  case error =>
    have hst : errorStatus ((dev s i).sr1 &&& 0x0700) = st := errorStatus_eq e
    rw [erHandler_of_errors (not_or.2 ⟨he, fun h => (pending_eq_false_iff s i).1 h hbusy⟩), snd_readSR1, hst,
      errorEnd_hwState (p := { dev s i with snap := (dev s i).sr1 }) hip hon hr]
    simp only [failed, row_hwState]
    rw [callback_hwState hi hcalls]
    simp only [List.append_assoc]
    rfl

end Sys2Proof.Machine
end

section
/-! The asynchronous start (45_hw_interrupt.md R321, R322). -/

namespace Sys2Proof.Machine

/-- What the two asynchronous starts write after their claim: ACK for a read, START, the enables. -/
def asyncRequests : Dir → List Op
  | .write => [.csr .cr1 Cr1.start Cr1.start, asyncEnable]
  | .read => [.csr .cr1 Cr1.ack Cr1.ack, .csr .cr1 Cr1.start Cr1.start, asyncEnable]

/-- The two commands that start asynchronously, with a 7-bit address. -/
def asyncCommand (i : Nat) (a : BitVec 10) (buf : Word) (len : Half) (tmo : Word) : Dir → Instr
  | .write => .masterTransmit i .seven a buf len tmo
  | .read => .masterReceive i .seven a buf len tmo

/-- A transaction that tests for a pending transfer in its claim runs its program, once its parameters are found good. -/
theorem transact_async {s : State} {c : Ctx} {ok async : Inst → Bool} {prog : State → List Op} (y : State → Out)
    (hi : c.inst < nInst s) (ho : (row s c.inst).opActive = false) (hn : (row s c.inst).initialized = true)
    (hok : ok { row s c.inst with opActive := true } = true) (hasync : async { row s c.inst with opActive := true } = true) :
    transact y c ok async prog s = run noTurn y c (prog (claimState s c.inst)) {} (claimState s c.inst) := by
  rw [transact_free y hi ho hn, if_pos hok, if_neg (by simp [hasync])]

theorem exec_asyncCommand {s : State} {i : Nat} {a : BitVec 10} {buf : Word} {len : Half} (hinit : Initialized s [i])
    (hk : (row s i).config.kind = .hw) (hm : (row s i).transferMode = .interrupt) (hbuf : buf ≠ 0) (hlen : len ≠ 0)
    (ha : a.toNat ≤ 127) (tmo : Word) (d : Dir) :
    exec (asyncCommand i a buf len tmo d) s = run noTurn (turn (lentBy (asyncCommand i a buf len tmo d)))
      ⟨i, asyncCommand i a buf len tmo d, s.words, false⟩ (.asyncClaim buf len a d :: asyncRequests d) {}
        (claimState s i) := by
  obtain ⟨hi, hn, ho, -⟩ := hinit i List.mem_cons_self
  have hasync : runsAsync { row s i with opActive := true } = true := by
    rw [runsAsync_eq, decide_eq_true_eq]
    exact ⟨hk, hm⟩
  have hparams : paramsOk (some buf) (some len) (some (.seven, a)) true = true :=
    (paramsOk_iff _ _ _ _).2 ⟨fun h => hbuf (Option.some.inj h), fun h => hlen (Option.some.inj h),
      by rintro am a' ⟨⟩; exact ⟨by simpa [addressInRange] using ha, fun _ => rfl⟩⟩
  let ok : Inst → Bool := fun r => paramsOk (some buf) (some len) (some (.seven, a)) (runsAsync r)
  have hok : ok { row s i with opActive := true } = true :=
    (congrArg (paramsOk (some buf) (some len) (some (.seven, a))) hasync).trans hparams
  have hrow : (row (claimState s i) i).config.kind = .hw := by rw [row_claimState hi]; exact hk
  have hclaimed : runsAsync (row (claimState s i) i) = true := by rw [row_claimState hi]; exact hasync
  cases d
  case write =>
    rw [exec_eq_commandWith rfl]
    dsimp only [asyncCommand, commandWith, cmdMasterTransmit]
    rw [transact_async _ hi ho hn hok hasync]
    simp only [hrow, hclaimed, if_true]
    rfl
  case read =>
    rw [exec_eq_commandWith rfl]
    dsimp only [asyncCommand, commandWith, cmdMasterReceive]
    rw [transact_async _ hi ho hn hok hasync]
    simp only [hrow, hclaimed, if_true]
    rfl

/-! The claim, with no turn before it, and the register writes after it, the other agents still. -/

section accesses

variable {c : Ctx} {s : State} {p : Periph} {sch : List Sched} {es : List Event} {y : State → Out}
  (hip : c.inst < s.peri.length) (hp : pending s c.inst = false)
include hip

theorem run_csr_still {r : Reg} {m v : Half} {ops : List Op} {scr : Scratch} :
    run noTurn noTurn c (.csr r m v :: ops) scr (hwState s c.inst p sch es) =
      run noTurn noTurn c ops scr (hwState s c.inst (periphWrite r m v p) sch (es ++ [Event.csrW c.inst r m v])) := by
  rw [run_of_go (op := .csr r m v) (opStep_csr r m v noTurn noTurn scr _) rfl, csrWrite_hwState hip]

include hp

theorem run_asyncClaim_of_busy (h : p.sr2.getLsbD 1 = true) (buf : Word) (len : Half) (a : BitVec 10) (d : Dir)
    (ops : List Op) : run noTurn y c (.asyncClaim buf len a d :: ops) {} (hwState s c.inst p sch es) =
      .next (finish c .busy {} (hwState s c.inst (periphReadSR2 p) sch (es ++ [Event.csrR c.inst .sr2 p.sr2]))) := by
  have hpending : pending (hwState s c.inst p sch es) c.inst = false := hp
  simp only [run, opStep, thenOp, noTurn, asyncClaim, hpending, readSR2_hwState hip, has_busy, h, if_true,
    Bool.false_eq_true, if_false]

theorem opStep_asyncClaim_of_free (h : p.sr2.getLsbD 1 = false) (buf : Word) (len : Half) (a : BitVec 10) (d : Dir)
    (scr : Scratch) : opStep noTurn y c (.asyncClaim buf len a d) scr (hwState s c.inst p sch es) =
      .go scr (hwState (setRow s c.inst { row s c.inst with xfer := { (row s c.inst).xfer with
          state := .startSent, buf := buf, len := len, idx := 0, addr := a.setWidth 16, dir := d } }) c.inst
        (periphReadSR2 p) sch (es ++ [Event.csrR c.inst .sr2 p.sr2])) := by
  have hpending : pending (hwState s c.inst p sch es) c.inst = false := hp
  simp only [opStep, thenOp, noTurn, asyncClaim, hpending, readSR2_hwState hip, has_busy, h, Bool.false_eq_true, if_false]
  rfl

theorem run_asyncClaim_of_free (h : p.sr2.getLsbD 1 = false) (buf : Word) (len : Half) (a : BitVec 10) (d : Dir)
    (ops : List Op) : run noTurn y c (.asyncClaim buf len a d :: ops) {} (hwState s c.inst p sch es) =
      run y y c ops {} (hwState (setRow s c.inst { row s c.inst with xfer := { (row s c.inst).xfer with
          state := .startSent, buf := buf, len := len, idx := 0, addr := a.setWidth 16, dir := d } }) c.inst
        (periphReadSR2 p) sch (es ++ [Event.csrR c.inst .sr2 p.sr2])) :=
  run_of_go (op := .asyncClaim buf len a d) (opStep_asyncClaim_of_free hip hp h buf len a d {}) rfl ops

end accesses

/-- Reading SR2 leaves the control registers as they are. -/
theorem periphReadSR2_control (p : Periph) : (periphReadSR2 p).cr1 = p.cr1 ∧ (periphReadSR2 p).cr2 = p.cr2 := by
  rw [periphReadSR2_eq]
  split_ifs <;> exact ⟨rfl, rfl⟩

/-- What follows the claim of an asynchronous start, the other agents still. -/
theorem run_asyncRequests {c : Ctx} {s : State} {p : Periph} {sch : List Sched} {es : List Event} (hip : c.inst < s.peri.length)
    (hc : recordsError c.cmd = true) (hon : p.cr1.getLsbD 0 = true) (hr : p.cr1.getLsbD 15 = false) (d : Dir) :
    run noTurn noTurn c (asyncRequests d) {} (hwState s c.inst p sch es) =
      .next (hwState (setRow s c.inst { row s c.inst with lastError := .ok, opActive := false }) c.inst
        { p with cr1 := p.cr1 ||| (if d = .write then 0x0100 else 0x0500), cr2 := p.cr2 ||| 0x0300 } sch
        (es ++ ((if d = .write then [] else [Event.csrW c.inst .cr1 0x0400 0x0400]) ++
          [Event.csrW c.inst .cr1 0x0100 0x0100, .csrW c.inst .cr2 0x0300 0x0300, .resp c.cmd {}]))) := by
  cases d
  case write =>
    rw [asyncRequests, run_csr_still hip, periphWrite_cr1_set hon hr rfl rfl, asyncEnable, run_csr_still hip,
      periphWrite_cr2_set rfl, run, finish_hwState _ hc]
    simp only [List.append_assoc]
    rfl
  case read =>
    have hor : p.cr1 ||| Cr1.ack ||| Cr1.start = p.cr1 ||| 0x0500 := BitVec.or_assoc _ _ _
    have hon' : (p.cr1 ||| Cr1.ack).getLsbD 0 = true := by rw [BitVec.getLsbD_or, hon, Bool.true_or]
    have hr' : (p.cr1 ||| Cr1.ack).getLsbD 15 = false := by rw [BitVec.getLsbD_or, hr]; rfl
    rw [asyncRequests, run_csr_still hip, periphWrite_cr1_set hon hr rfl rfl, run_csr_still hip,
      periphWrite_cr1_set (p := { p with cr1 := p.cr1 ||| Cr1.ack }) hon' hr' rfl rfl, asyncEnable, run_csr_still hip,
      periphWrite_cr2_set rfl, run, finish_hwState _ hc]
    simp only [List.append_assoc, hor]
    rfl

/-- Settles O46: the claim is the first micro-step; the other agents still, the rest goes through. `← ho` puts the row's own
`opActive` for the `false` that the return leaves there. -/
theorem asyncStart : Obligations.AsyncStart := by
  intro s i a buf len tmo d hinit hk hip hm hp hbuf hlen ha hon hr p q cmd
  obtain ⟨hi, -, ho, -⟩ := hinit i List.mem_cons_self
  have hcmd : cmd = asyncCommand i a buf len tmo d := by cases d <;> rfl
  have hc : recordsError (asyncCommand i a buf len tmo d) = true := by cases d <;> rfl
  have hpend : pending (claimState s i) i = false := (pending_claimState hi).trans hp
  have hstart : claimState s i = hwState (claimState s i) i p s.sched [] := (hwState_self (claimState s i) i).symm
  rw [hcmd, exec_asyncCommand hinit hk hm hbuf hlen ha, hstart]
  refine ⟨fun hbusy hsched => ?free, fun hbusy => ?busy⟩
  case busy =>
    rw [run_asyncClaim_of_busy (s := claimState s i) (by exact hip) (by exact hpend) hbusy,
      finish_hwState (c := ⟨i, asyncCommand i a buf len tmo d, s.words, false⟩) _ hc,
      row_claimState hi, claimState, setRow_setRow, ← ho]
    rfl
  case free =>
    obtain ⟨hcr1, hcr2⟩ := periphReadSR2_control p
    rw [run_quiet noTurn_still (turn_still _) _ _ _ (by exact hsched),
      run_asyncClaim_of_free (s := claimState s i) (by exact hip) (by exact hpend) hbusy,
      run_asyncRequests (by exact hip) hc (by rw [hcr1]; exact hon) (by rw [hcr1]; exact hr),
      row_setRow_self _ _ _ (by exact (nInst_claimState s i).symm ▸ hi), setRow_setRow, row_claimState hi, claimState,
      setRow_setRow, hcr1, hcr2, ← ho]
    simp only [List.append_assoc]
    rfl

end Sys2Proof.Machine
end

section
/-! What a handler does with the script of callbacks (45_hw_interrupt.md R335, log entry 11): it reads the script in its
callback alone, which is the last thing it does. -/

namespace Sys2Proof.Machine

/-- `s` with another script of callbacks. -/
def withCalls (l : List (List HostAct)) (s : State) : State := { s with env := { s.env with calls := l } }

def isCallback : Event → Bool
  | .callback _ _ _ => true
  | _ => false

/-- The last event is there and is not a callback. -/
def LastNotCallback (s : State) : Prop := ∃ e es, s.trace = e :: es ∧ isCallback e = false

/-- An answer `F` that depends on the script of callbacks in a callback at its end alone. -/
inductive CallsLast (lent : Option (Nat × Word)) (i : Nat) (F : List (List HostAct) → Out) : Prop
  | quiet (u : State) (hu : LastNotCallback u) (hF : ∀ l, F l = .next (withCalls l u))
  | calls (u : State) (st : Status) (hu : LastNotCallback u) (hF : ∀ l, F l = callback lent i st (withCalls l u))
  | stops (hF : ∀ l t, F l ≠ .next t)

theorem CallsLast.congr {lent : Option (Nat × Word)} {i : Nat} {F G : List (List HostAct) → Out} (h : CallsLast lent i G)
    (hF : ∀ l, F l = G l) : CallsLast lent i F := funext hF ▸ h

theorem CallsLast.ite {lent : Option (Nat × Word)} {i : Nat} {F G : List (List HostAct) → Out} (p : Prop) [Decidable p]
    (hF : p → CallsLast lent i F) (hG : ¬ p → CallsLast lent i G) : CallsLast lent i fun l => if p then F l else G l := by
  by_cases h : p
  · exact (hF h).congr fun l => if_pos h
  · exact (hG h).congr fun l => if_neg h

theorem CallsLast.of_next {lent : Option (Nat × Word)} {i : Nat} {E : State → Out} {s u : State} (_ : E s = .next u)
    (hu : LastNotCallback u) (hE : ∀ l, E (withCalls l s) = .next (withCalls l u)) :
    CallsLast lent i fun l => E (withCalls l s) := .quiet u hu hE

theorem CallsLast.of_fault {lent : Option (Nat × Word)} {i : Nat} {E : State → Out} {s : State} {f : Fault}
    (hE : ∀ l, E (withCalls l s) = .fault f) : CallsLast lent i fun l => E (withCalls l s) :=
  .stops fun l t h => by simp [hE] at h

/-- The state in which a transfer has ended well, the callback still to come. -/
def completed (i : Nat) (stop : Bool) (s : State) : State :=
  let u := clearEnables i (if stop then setCr1 i Cr1.stop s else s)
  setRow u i { row u i with
    xfer := { (row u i).xfer with state := .complete, lastStatus := .ok, buf := 0 }, lastError := .ok }

section parts

variable (lent : Option (Nat × Word)) (i : Nat) (s : State)

theorem completeXfer_callsLast (stop : Bool) : CallsLast lent i fun l => completeXfer lent i stop (withCalls l s) :=
  .calls (completed i stop s) .ok ⟨_, _, rfl, rfl⟩ fun l => by cases stop <;> rfl

theorem unexpected_callsLast (cmd : Instr) (rule : Nat) : CallsLast lent i fun _ => unexpected cmd i rule :=
  .stops fun _ _ => nofun

theorem evAddress_callsLast : CallsLast lent i fun l => evAddress i (withCalls l s) := by
  by_cases h : (row s i).xfer.dir = .read ∧ (row s i).xfer.len = 1
  · exact .of_next (evAddress_of_one h) ⟨_, _, rfl, rfl⟩ fun l => evAddress_of_one (s := withCalls l s) h
  · exact .of_next (evAddress_of_more h) ⟨_, _, rfl, rfl⟩ fun l => evAddress_of_more (s := withCalls l s) h

theorem evTxByte_callsLast (site : Site) (hlt : (row s i).xfer.idx.toNat < (row s i).xfer.len.toNat) :
    CallsLast lent i fun l => evTxByte site i (withCalls l s) := by
  by_cases h : (row s i).xfer.idx.toNat < bufSize s (row s i).xfer.buf
  · by_cases hlast : (row s i).xfer.idx.toNat + 1 = (row s i).xfer.len.toNat
    · exact .of_next (evTxByte_of_last h hlast) ⟨_, _, rfl, rfl⟩ fun l => evTxByte_of_last (s := withCalls l s) h hlast
    · have hmore := Nat.lt_of_le_of_ne hlt hlast
      exact .of_next (evTxByte_of_more h hmore) ⟨_, _, rfl, rfl⟩ fun l => evTxByte_of_more (s := withCalls l s) h hmore
  · exact .of_fault fun l => evTxByte_of_past (s := withCalls l s) (Nat.le_of_not_lt h)

theorem byteTaken_withCalls (l : List (List HostAct)) : byteTaken i (withCalls l s) = withCalls l (byteTaken i s) := by
  unfold byteTaken
  rw [apply_ite (withCalls l)]
  rfl

theorem byteTaken_last : LastNotCallback (byteTaken i s) := by
  unfold byteTaken
  dsimp only
  split_ifs <;> exact ⟨_, _, rfl, rfl⟩

theorem evRxByte_of_noRoom {site : Site} {s : State} (h : (row s i).xfer.idx.toNat < bufSize s (row s i).xfer.buf)
    (hroom : ¬ ((row s i).xfer.idx ≠ 0xFFFF ∧ (row s i).xfer.len ≠ 0)) :
    evRxByte lent site i s = .refused (.arithmetic site) := by
  have hw : memWrite site (row s i).xfer.buf (row s i).xfer.idx.toNat (readDR i s).1 (readDR i s).2 =
      .ok { (readDR i s).2 with
        mem := memPut s.mem (cellAddr (row s i).xfer.buf (row s i).xfer.idx.toNat) (readDR i s).1 } := if_pos h
  simp only [evRxByte, hw]
  by_cases hidx : (row s i).xfer.idx = 0xFFFF
  · rw [hidx]
    rfl
  · have hlen : (row s i).xfer.len = 0#16 := not_not.1 fun hn => hroom ⟨hidx, hn⟩
    simp only [succ16_of_ne hidx, if_pos hlen]

theorem evRxByte_callsLast (site : Site) : CallsLast lent i fun l => evRxByte lent site i (withCalls l s) := by
  by_cases h : (row s i).xfer.idx.toNat < bufSize s (row s i).xfer.buf
  · by_cases hroom : (row s i).xfer.idx ≠ 0xFFFF ∧ (row s i).xfer.len ≠ 0
    · by_cases hlast : (row s i).xfer.idx + 1 = (row s i).xfer.len
      · refine (completeXfer_callsLast lent i (byteTaken i s) (decide (2 ≤ (row s i).xfer.len.toNat))).congr fun l => ?_
        rw [evRxByte_of_room (s := withCalls l s) h hroom.1 hroom.2, if_pos (by exact hlast), byteTaken_withCalls]
        rfl
      · refine .quiet (byteTaken i s) (byteTaken_last i s) fun l => ?_
        rw [evRxByte_of_room (s := withCalls l s) h hroom.1 hroom.2, if_neg (by exact hlast), byteTaken_withCalls]
    · exact .stops fun l t ht => by
        rw [evRxByte_of_noRoom lent i (s := withCalls l s) h hroom] at ht
        cases ht
  · exact .of_fault fun l => evRxByte_of_past (s := withCalls l s) (Nat.le_of_not_lt h)

theorem evStartSent_callsLast : CallsLast lent i fun l => evStartSent i (withCalls l s) :=
  .of_next rfl ⟨_, _, rfl, rfl⟩ fun _ => rfl

/-- The event handler, part by part, each on the state after its read of SR1. -/
theorem evHandler_callsLast : CallsLast lent i fun l => evHandler lent i (withCalls l s) := by
  let t := (readSR1 i s).2
  have bad := unexpected_callsLast lent i (.evIrq i) 330
  by_cases he : (dev s i).sr1 &&& 0x0700 = 0
  case neg => exact .of_next (evHandler_of_errors he) ⟨_, _, rfl, rfl⟩ fun l => evHandler_of_errors (s := withCalls l s) he
  case pos =>
    cases hx : (row s i).xfer.state with
    | idle => exact .of_fault fun l => evHandler_of_notPending (s := withCalls l s) he (.inl hx)
    | complete => exact .of_fault fun l => evHandler_of_notPending (s := withCalls l s) he (.inr hx)
    | startSent =>
      exact (CallsLast.ite ((dev s i).sr1.getLsbD 0 = true) (fun _ => evStartSent_callsLast lent i t)
        fun _ => bad).congr fun l => evHandler_of_startSent (s := withCalls l s) he hx
    | addressPhase =>
      exact (CallsLast.ite ((dev s i).sr1.getLsbD 1 = true) (fun _ => evAddress_callsLast lent i t)
        fun _ => bad).congr fun l => evHandler_of_addressPhase (s := withCalls l s) he hx
    | dataPhase =>
      cases hd : (row s i).xfer.dir with
      | write =>
        exact (CallsLast.ite ((dev s i).sr1.getLsbD 7 = true ∧ (row s i).xfer.idx.toNat < (row s i).xfer.len.toNat)
          (fun h => evTxByte_callsLast lent i t ⟨some (encode (.evIrq i)), i, 81⟩ h.2) fun _ =>
          CallsLast.ite ((dev s i).sr1.getLsbD 2 = true ∧ (row s i).xfer.idx = (row s i).xfer.len)
            (fun _ => completeXfer_callsLast lent i t true) fun _ => bad).congr
          fun l => evHandler_of_write (s := withCalls l s) he hx hd
      | read =>
        exact (CallsLast.ite ((dev s i).sr1.getLsbD 6 = true)
          (fun _ => evRxByte_callsLast lent i t ⟨some (encode (.evIrq i)), i, 81⟩) fun _ => bad).congr
          fun l => evHandler_of_read (s := withCalls l s) he hx hd

theorem failed_withCalls (st : Status) (l : List (List HostAct)) :
    failed i st (withCalls l s) = withCalls l (failed i st s) := rfl

theorem failed_last (e : Half) (st : Status) : LastNotCallback (failed i st (errorEnd i e st s)) := ⟨_, _, rfl, rfl⟩

theorem errorEnd_withCalls (e : Half) (st : Status) (l : List (List HostAct)) :
    errorEnd i e st (withCalls l s) = withCalls l (errorEnd i e st s) := by
  unfold errorEnd
  by_cases hst : st = .arbitrationLost
  · simp only [if_pos hst]
    rfl
  · simp only [if_neg hst]
    rfl

theorem erHandler_callsLast : CallsLast lent i fun l => erHandler lent i (withCalls l s) := by
  by_cases h : (dev s i).sr1 &&& 0x0700 = 0 ∨ pending s i = false
  case pos => exact .of_fault fun l => erHandler_of_unexpected (s := withCalls l s) h
  case neg =>
    let e := (dev s i).sr1 &&& 0x0700
    refine .calls (failed i (errorStatus e) (errorEnd i e (errorStatus e) (readSR1 i s).2)) (errorStatus e)
      (failed_last i _ e _) fun l => ?_
    refine (erHandler_of_errors (s := withCalls l s) h).trans ?_
    change callback lent i (errorStatus e)
      (failed i (errorStatus e) (errorEnd i e (errorStatus e) (withCalls l (readSR1 i s).2))) = _
    rw [errorEnd_withCalls, failed_withCalls]

end parts

/-- The handlers read the script of callbacks in their callback alone. -/
theorem exec_callsLast {h : Instr} {i : Nat} (hh : h = .evIrq i ∨ h = .erIrq i) (s : State) :
    CallsLast (seqLent s) i fun l => exec h (withCalls l s) := by
  rcases hh with rfl | rfl
  · exact .ite (hasHandlers s i = true) (fun _ => evHandler_callsLast (seqLent s) i s)
      fun _ => unexpected_callsLast (seqLent s) i (.evIrq i) 324
  · exact .ite (hasHandlers s i = true) (fun _ => erHandler_callsLast (seqLent s) i s)
      fun _ => unexpected_callsLast (seqLent s) i (.erIrq i) 332

theorem callback_of_script {lent : Option (Nat × Word)} {i : Nat} {s : State} (h : (row s i).callback ≠ 0) (st : Status)
    (acts : List HostAct) (rest : List (List HostAct)) : callback lent i st (withCalls (acts :: rest) s) =
      nestedActs lent acts (withCalls rest (emit (.callback i st (row s i).userData) s)) :=
  if_neg h

theorem not_callback_of_last {s : State} (h : LastNotCallback s) (i : Nat) (st : Status) (ud : Word) :
    s.trace.head? ≠ some (.callback i st ud) := by
  obtain ⟨e, es, htrace, he⟩ := h
  rw [htrace]
  rintro ⟨⟩
  cases he

/-- What an answer with no script of callbacks says of the answer with one. -/
theorem CallsLast.answer {lent : Option (Nat × Word)} {i : Nat} {F : List (List HostAct) → Out} (hF : CallsLast lent i F)
    {t : State} (h : F [] = .next t) (acts : List HostAct) (rest : List (List HostAct)) :
    ((∃ st ud, t.trace.head? = some (.callback i st ud)) → F (acts :: rest) = nestedActs lent acts (withCalls rest t)) ∧
      ((∀ st ud, t.trace.head? ≠ some (.callback i st ud)) → F (acts :: rest) = .next (withCalls (acts :: rest) t)) := by
  cases hF with
  | stops hF => exact absurd h (hF _ _)
  | quiet u hu hF =>
    obtain rfl : withCalls [] u = t := Host.Outcome.next.inj ((hF []).symm.trans h)
    exact ⟨fun ⟨st, ud, hlast⟩ => absurd hlast (not_callback_of_last hu i st ud), fun _ => hF _⟩
  | calls u st hu hF =>
    rw [hF, callback_of_idle rfl] at h
    obtain rfl := Host.Outcome.next.inj h
    rw [hF]
    by_cases hc : (row u i).callback = 0
    · have hnone : calledBack (row (withCalls [] u) i) i st = [] := if_pos hc
      rw [hnone]
      exact ⟨fun ⟨st, ud, hlast⟩ => absurd hlast (not_callback_of_last hu i st ud), fun _ => if_pos hc⟩
    · have hsome : calledBack (row (withCalls [] u) i) i st = [.callback i st (row u i).userData] := if_neg hc
      rw [hsome]
      exact ⟨fun _ => callback_of_script hc st acts rest, fun hlast => absurd rfl (hlast st (row u i).userData)⟩

end Sys2Proof.Machine
end

section
/-! A command of a callback against the same command alone (45_hw_interrupt.md R335): inside the handler the schedule stays as
it is, and what would wait is a fault. -/

namespace Sys2Proof.Machine

/-- `s` with other choices of the scheduler to come. -/
def withSched (X : List Sched) (s : State) : State := { s with sched := X }

/-- What an operation alone answers, as a callback sees it: the schedule is `X`, a wait is the fault `f`. -/
def OpRes.inHandler (X : List Sched) (f : Fault) : OpRes → OpRes
  | .go r u => .go r (withSched X u)
  | .done st r u => .done st r (withSched X u)
  | .wait _ _ => .fault f
  | .fault g => .fault g
  | .refused r => .refused r

/-- What a command alone answers, as a callback sees it: the schedule is `X`, a command left waiting is the fault `f`. -/
def outInHandler (X : List Sched) (f : Fault) : Out → Out
  | .next u => if u.seq = none then .next (withSched X u) else .fault f
  | .fault g => .fault g
  | .refused r => .refused r

/-- The command inside a handler's atomic step. -/
def Ctx.inHandler (c : Ctx) : Ctx := { c with atomic := true }

/-- The fault of a wait inside a handler. -/
def blocks (c : Ctx) : Fault := .blockingInHandler (siteOf c 335)

/-- An operation that waits for a flag of the peripheral. -/
def polls : Op → Bool
  | .waitNotBusy _ => true
  | .waitFlag _ _ => true
  | .probePoll _ _ => true
  | _ => false

section withSched

variable (X : List Sched) (s : State) (i : Nat)

@[simp] theorem row_withSched : row (withSched X s) i = row s i := rfl
@[simp] theorem pending_withSched : pending (withSched X s) i = pending s i := rfl
@[simp] theorem setRow_withSched (r : Inst) : setRow (withSched X s) i r = withSched X (setRow s i r) := rfl
@[simp] theorem emit_withSched (e : Event) : emit e (withSched X s) = withSched X (emit e s) := rfl
@[simp] theorem respond_withSched (cmd : Instr) (r : Response) :
    respond cmd r (withSched X s) = withSched X (respond cmd r s) := rfl
@[simp] theorem writeLine_withSched (l : Line) (v : Bool) :
    writeLine i l v (withSched X s) = withSched X (writeLine i l v s) := rfl
@[simp] theorem enablePinClock_withSched (port : Nat) :
    enablePinClock port (withSched X s) = withSched X (enablePinClock port s) := rfl
@[simp] theorem now_withSched : now (withSched X s) = ((now s).1, withSched X (now s).2) := rfl
@[simp] theorem csrWrite_withSched (r : Reg) (m v : Half) :
    csrWrite i r m v (withSched X s) = withSched X (csrWrite i r m v s) := rfl
@[simp] theorem setCr1_withSched (f : Half) : setCr1 i f (withSched X s) = withSched X (setCr1 i f s) := rfl
@[simp] theorem writeDR_withSched (b : Byte) : writeDR i b (withSched X s) = withSched X (writeDR i b s) := rfl
@[simp] theorem readSR1_withSched : readSR1 i (withSched X s) = ((readSR1 i s).1, withSched X (readSR1 i s).2) := rfl
@[simp] theorem readSR2_withSched : readSR2 i (withSched X s) = ((readSR2 i s).1, withSched X (readSR2 i s).2) := rfl
@[simp] theorem readDR_withSched : readDR i (withSched X s) = ((readDR i s).1, withSched X (readDR i s).2) := rfl

@[simp] theorem readReg_withSched (r : Reg) :
    readReg i r (withSched X s) = ((readReg i r s).1, withSched X (readReg i r s).2) := by
  cases r <;> rfl

@[simp] theorem lineOp_withSched (l : LineOp) : lineOp i l (withSched X s) = withSched X (lineOp i l s) := by
  cases l <;> rfl

@[simp] theorem drawSample_withSched :
    drawSample (withSched X s) = ((drawSample s).1, withSched X (drawSample s).2) := by
  rw [drawSample_eq, drawSample_eq]
  rfl

@[simp] theorem readLine_withSched (l : Line) :
    readLine i l (withSched X s) = ((readLine i l s).1, withSched X (readLine i l s).2) := by
  simp [readLine]

@[simp] theorem configurePin_withSched (port pin : Nat) (m : PinMode) :
    configurePin port pin m (withSched X s) = ((configurePin port pin m s).1, withSched X (configurePin port pin m s).2) := by
  simp only [configurePin, drawPinResult, withSched]
  cases s.env.pinResults <;> rfl

@[simp] theorem memRead_withSched (site : Site) (buf : Word) (k : Nat) :
    memRead site buf k (withSched X s) = memRead site buf k s := rfl

@[simp] theorem memWrite_withSched (site : Site) (buf : Word) (k : Nat) (v : Byte) :
    memWrite site buf k v (withSched X s) = (memWrite site buf k v s).map (withSched X) := by
  unfold memWrite
  rw [show bufSize (withSched X s) buf = bufSize s buf from rfl]
  split_ifs <;> rfl

end withSched

@[simp] theorem inst_inHandler (c : Ctx) : c.inHandler.inst = c.inst := rfl
@[simp] theorem siteOf_inHandler (c : Ctx) (rule : Nat) : siteOf c.inHandler rule = siteOf c rule := rfl

section operations

variable (X : List Sched) (c : Ctx) (scr : Scratch) (s : State)

theorem runLines_withSched (i : Nat) (ops : List LineOp) :
    runLines noTurn i ops (withSched X s) = andThen (runLines noTurn i ops s) fun t => .next (withSched X t) := by
  induction ops generalizing s with
  | nil => rfl
  | cons op ops ih =>
    simp only [runLines, noTurn, andThen_next, lineOp_withSched]
    exact ih _

theorem recordFound_inHandler (buf : Word) (a : Byte) : recordFound c.inHandler buf a scr (withSched X s) =
    (recordFound c buf a scr s).inHandler X (blocks c) := by
  simp only [recordFound, memWrite_withSched, siteOf_inHandler]
  cases memWrite (siteOf c 81) buf scr.resp.found.toNat a s with
  | error f => rfl
  | ok t => cases succ16 scr.resp.found <;> rfl

theorem policyAct_inHandler (p : OpenParam) (a : PolicyAct) {k k' : Scratch → State → OpRes}
    (hk : ∀ r u, k' r (withSched X u) = (k r u).inHandler X (blocks c)) :
    policyAct c.inHandler p a scr (withSched X s) k' = (policyAct c p a scr s k).inHandler X (blocks c) := by
  cases a with
  | write f =>
    simp only [policyAct, row_withSched, inst_inHandler, csrWrite_withSched]
    split_ifs <;> exact hk _ _
  | memRead x b i =>
    simp only [policyAct, row_withSched, inst_inHandler, siteOf_inHandler, memRead_withSched]
    split
    · exact hk _ _
    · rfl
  | memWrite b i v =>
    simp only [policyAct, row_withSched, inst_inHandler, siteOf_inHandler, memWrite_withSched]
    cases memWrite (siteOf c 81) _ _ _ s with
    | ok t => exact hk _ _
    | error g => rfl
  | _ => simp [policyAct, hk]

theorem runProg_inHandler (p : OpenParam) (q : PolicyProg) : runProg noTurn c.inHandler p q noTurn scr (withSched X s) =
    (runProg noTurn c p q noTurn scr s).inHandler X (blocks c) := by
  induction q generalizing scr s with
  | refuse => rfl
  | ret st => rfl
  | rest => rfl
  | act a next ih =>
    simp only [runProg]
    split_ifs <;> exact policyAct_inHandler X c _ s p a fun r u => ih r u
  | test b yes no ih1 ih2 =>
    by_cases hb : testHolds (evalExpr scr.vars (row s c.inst)) b = true
    · simp only [runProg, row_withSched, inst_inHandler, hb, if_true]
      exact ih1 scr s
    · simp only [runProg, row_withSched, inst_inHandler, hb, Bool.false_eq_true, if_false]
      exact ih2 scr s
  | jump k =>
    simp only [runProg]
    cases c.atomic <;> rfl

/-- An operation that waits for no flag does in a callback what it does alone. -/
theorem opStep_inHandler {op : Op} (hop : polls op = false) : opStep noTurn noTurn c.inHandler op scr (withSched X s) =
    (opStep noTurn noTurn c op scr s).inHandler X (blocks c) := by
  cases op with
  | waitNotBusy tmo => cases hop
  | waitFlag f tmo => cases hop
  | probePoll f tmo => cases hop
  | needAck =>
    simp only [opStep, inst_inHandler, runLines_withSched]
    split_ifs
    · rfl
    · cases runLines noTurn c.inst stopLines s <;> rfl
  | swBusy =>
    simp only [opStep, noTurn, thenOp, inst_inHandler, readLine_withSched, apply_ite (OpRes.inHandler X (blocks c))]
    rfl
  | memRead buf k =>
    simp only [opStep, noTurn, thenOp, siteOf_inHandler, memRead_withSched]
    cases memRead (siteOf c 81) buf k s <;> rfl
  | memWrite buf k =>
    simp only [opStep, noTurn, thenOp, siteOf_inHandler, memWrite_withSched]
    cases memWrite (siteOf c 81) buf k scr.byte s <;> rfl
  | scanBreak max =>
    simp only [opStep, apply_ite (OpRes.inHandler X (blocks c))]
    rfl
  | scanRecord buf a =>
    simp only [opStep]
    split_ifs
    · exact recordFound_inHandler X c scr s buf a
    · rfl
  | probeDR b =>
    simp only [opStep]
    cases scr.p <;> rfl
  | probeEnd buf a =>
    simp only [opStep, probeEnd]
    cases scr.p with
    | ok =>
      simp only [noTurn, thenOp, inst_inHandler, readSR1_withSched, readSR2_withSched, setCr1_withSched]
      exact recordFound_inHandler X c _ _ buf a
    | timeout => rfl
    | err e =>
      simp only [noTurn, thenOp]
      cases errorStatus e <;> rfl
  | asyncClaim buf len a d =>
    simp only [opStep, noTurn, thenOp, asyncClaim, apply_ite (OpRes.inHandler X (blocks c))]
    rfl
  | configPin port pin m =>
    simp only [opStep, noTurn, thenOp, configurePin_withSched, apply_ite (OpRes.inHandler X (blocks c))]
    rfl
  | abandon =>
    simp only [opStep, inst_inHandler, pending_withSched, apply_ite (OpRes.inHandler X (blocks c))]
    rfl
  | shutDown =>
    simp only [opStep, shutDown, noTurn, thenOp, inst_inHandler, row_withSched, setRow_withSched, csrWrite_withSched,
      apply_ite (OpRes.inHandler X (blocks c))]
    rfl
  | apply p pol =>
    simp only [opStep, applyPolicy]
    cases scr.next with
    | none => exact runProg_inHandler X c scr s p _
    | some k => exact runProg_inHandler X c _ s p _
  | _ => simp [opStep, noTurn, thenOp, OpRes.inHandler]

end operations

end Sys2Proof.Machine
end

section
/-! Every command of a callback that waits for no flag, against the same command alone (45_hw_interrupt.md R335, log entry
26). -/

namespace Sys2Proof.Machine

/-- No command is in progress and the other agents are still. -/
def AtRest (s : State) : Prop := s.sched = [] ∧ s.seq = none

/-- An initialized instance that no command has claimed. -/
def FreeInst (s : State) (i : Nat) : Prop := i < nInst s ∧ (row s i).opActive = false ∧ (row s i).initialized = true

theorem steady_seq_none : Steady ∅ fun s => s.seq = none where
  setRow _ _ _ h := h
  change h := h
  store _ _ h := h

theorem storesOutside_empty (n : Half) (op : Op) : StoresOutside ∅ n op := by
  cases op <;> simp [StoresOutside]

theorem outInHandler_next {X : List Sched} {f : Fault} {u : State} (h : u.seq = none) :
    outInHandler X f (.next u) = .next (withSched X u) := if_pos h

section runs

variable (X : List Sched) {c : Ctx} {ops : List Op} (hops : ops.any polls = false)
include hops

theorem run_inHandler_noTurn (scr : Scratch) {s : State} (hs : s.seq = none) :
    run noTurn noTurn c.inHandler ops scr (withSched X s) = outInHandler X (blocks c) (run noTurn noTurn c ops scr s) := by
  induction ops generalizing scr s with
  | nil => exact (outInHandler_next (u := finish c .ok scr.resp s) hs).symm
  | cons op ops ih =>
    obtain ⟨hop, hrest⟩ := Bool.or_eq_false_iff.1 ((List.any_cons (f := polls)).symm.trans hops)
    have hkeeps := opStep_holds steady_seq_none (keptBy_noTurn _) (keptBy_noTurn _) c op scr (storesOutside_empty _ op) hs
    simp only [run, opStep_inHandler X c scr s hop, ite_self]
    cases hstep : opStep noTurn noTurn c op scr s with
    | go r u =>
      rw [hstep] at hkeeps
      exact ih hrest r hkeeps.1
    | done st r u =>
      rw [hstep] at hkeeps
      exact (outInHandler_next (u := finish c st r.resp u) hkeeps).symm
    | wait r u => rfl
    | fault f => rfl
    | refused f => rfl

theorem run_inHandler (lent : Option (Nat × Word)) (scr : Scratch) {s : State} (hs : AtRest s) :
    run noTurn noTurn c.inHandler ops scr (withSched X s) =
      outInHandler X (blocks c) (run noTurn (turn lent) c ops scr s) := by
  rw [run_quiet noTurn_still (turn_still lent) c ops scr hs.1, run_inHandler_noTurn X hops scr hs.2]

end runs

section commands

variable (X : List Sched) {s : State} (hs : AtRest s) (c : Ctx) (lent : Option (Nat × Word))
include hs

theorem finish_inHandler (f : Fault) (st : Status) (r : Response) : .next (finish c.inHandler st r (withSched X s)) =
    outInHandler X f (.next (finish c st r s)) :=
  (outInHandler_next (u := finish c st r s) hs.2).symm

theorem claimed_inHandler {k k' : State → Out}
    (hk : c.inst < nInst s → (row s c.inst).opActive = false → AtRest (claimState s c.inst) →
      k' (withSched X (claimState s c.inst)) = outInHandler X (blocks c) (k (claimState s c.inst))) :
    claimed c.inHandler (withSched X s) k' = outInHandler X (blocks c) (claimed c s k) := by
  unfold claimed
  rw [apply_ite (outInHandler X (blocks c)), apply_ite (outInHandler X (blocks c))]
  refine ite_congr rfl (fun hi => ite_congr rfl (fun _ => rfl) fun ho => hk hi (eq_false_of_ne_true ho) hs) fun _ => ?_
  exact (outInHandler_next (u := respond c.cmd _ s) hs.2).symm

theorem claimedInit_inHandler {k k' : State → Out}
    (hk : FreeInst s c.inst → AtRest (claimState s c.inst) →
      k' (withSched X (claimState s c.inst)) = outInHandler X (blocks c) (k (claimState s c.inst))) :
    claimedInit c.inHandler (withSched X s) k' = outInHandler X (blocks c) (claimedInit c s k) := by
  refine claimed_inHandler X hs c fun hi ho ht => ?_
  rw [apply_ite (outInHandler X (blocks c))]
  refine ite_congr rfl (fun hn => hk ⟨hi, ho, ?_⟩ ht) fun _ => finish_inHandler X ht c _ _ _
  rw [row_claimState hi] at hn
  exact hn

theorem indexed_inHandler (f : Fault) (cmd : Instr) (i : Nat) {k : State → State}
    (hk : k (withSched X s) = withSched X (k s)) (hseq : (k s).seq = none) : indexed cmd i (withSched X s) k = outInHandler X f (indexed cmd i s k) := by
  have h : (if i < nInst s then k s else respond cmd { status := .invalidParameter } s).seq = none := by
    split_ifs
    · exact hseq
    · exact hs.2
  rw [indexed, indexed, outInHandler_next h, hk, apply_ite (withSched X)]
  rfl

theorem cmdInit_inHandler (i : Nat) : cmdInit noTurn true i (withSched X s) =
    outInHandler X (blocks ⟨i, .init i, s.words, false⟩) (cmdInit (turn lent) false i s) := by
  unfold cmdInit
  refine claimed_inHandler X hs ⟨i, .init i, s.words, false⟩ fun _ _ ht => ?_
  simp only [row_withSched]
  rw [apply_ite (outInHandler X _), apply_ite (outInHandler X _)]
  refine ite_congr rfl (fun _ => finish_inHandler X ht ⟨i, .init i, s.words, false⟩ _ _ _) fun _ =>
    ite_congr rfl (fun _ => ?_) fun _ => finish_inHandler X ht ⟨i, .init i, s.words, false⟩ _ _ _
  cases (row (claimState s i) i).config.kind with
  | sw => exact run_inHandler X (c := ⟨i, .init i, s.words, false⟩) rfl lent _ ht
  | hw => exact run_inHandler X (c := ⟨i, .init i, s.words, false⟩) rfl lent _ ht

theorem cmdDeinit_inHandler (i : Nat) : cmdDeinit noTurn true i (withSched X s) =
    outInHandler X (blocks ⟨i, .deinit i, s.words, false⟩) (cmdDeinit (turn lent) false i s) := by
  have hops : ∀ r, (deinitOps r).any polls = false := fun r => by
    unfold deinitOps
    cases r.config.kind <;> cases r.initialized <;> rfl
  have happly : ∀ pol r, (Op.apply .deinitWhilePending pol :: deinitOps r).any polls = false := fun _ r => hops r
  unfold cmdDeinit
  refine claimed_inHandler X hs ⟨i, .deinit i, s.words, false⟩ fun _ _ ht => ?_
  simp only [row_withSched]
  rw [apply_ite (outInHandler X _)]
  exact ite_congr rfl (fun _ => run_inHandler X (c := ⟨i, .deinit i, s.words, false⟩) (happly _ _) lent _ ht)
    fun _ => run_inHandler X (c := ⟨i, .deinit i, s.words, false⟩) (hops _) lent _ ht

theorem cmdSetTransferMode_inHandler (i : Nat) (m : TransferMode) : cmdSetTransferMode noTurn true i m (withSched X s) =
    outInHandler X (blocks ⟨i, .setTransferMode i m, s.words, false⟩) (cmdSetTransferMode (turn lent) false i m s) := by
  have hops : ∀ k, (setModeOps k m).any polls = false := fun k => by cases k <;> cases m <;> rfl
  exact claimedInit_inHandler X hs ⟨i, .setTransferMode i m, s.words, false⟩ fun _ ht =>
    run_inHandler X (c := ⟨i, .setTransferMode i m, s.words, false⟩) (hops _) lent _ ht

theorem cmdSoftwareReset_inHandler (i : Nat) : cmdSoftwareReset noTurn true i (withSched X s) =
    outInHandler X (blocks ⟨i, .softwareReset i, s.words, false⟩) (cmdSoftwareReset (turn lent) false i s) := by
  refine claimedInit_inHandler X hs ⟨i, .softwareReset i, s.words, false⟩ fun _ ht => ?_
  simp only [row_withSched]
  cases (row (claimState s i) i).config.kind with
  | sw => exact run_inHandler X (c := ⟨i, .softwareReset i, s.words, false⟩) rfl lent _ ht
  | hw =>
    dsimp only
    rw [apply_ite (outInHandler X _)]
    exact ite_congr rfl (fun _ => finish_inHandler X ht ⟨i, .softwareReset i, s.words, false⟩ _ _ _)
      fun _ => run_inHandler X (c := ⟨i, .softwareReset i, s.words, false⟩) rfl lent _ ht

theorem bitCommand_inHandler (held : Bool) {ops : List Op} (hops : ops.any polls = false) :
    bitCommand noTurn c.inHandler held ops (withSched X s) =
      outInHandler X (blocks c) (bitCommand (turn lent) c held ops s) := by
  refine claimedInit_inHandler X hs c fun _ ht => ?_
  rw [apply_ite (outInHandler X _)]
  exact ite_congr rfl (fun _ => run_inHandler X hops lent _ ht) fun _ => finish_inHandler X ht c _ _ _

theorem swIsBusBusy_inHandler (f : Fault) (i : Nat) : swIsBusBusy noTurn i (withSched X s) =
    outInHandler X f (swIsBusBusy (turn lent) i s) := by
  have hquiet : (readLine i .sda s).2.sched = [] := (sched_drawSample s).trans hs.1
  have hseq : (readLine i .sda s).2.seq = none := steady_seq_none.readLine i .sda hs.2
  simp only [swIsBusBusy, noTurn, turn_quiet hquiet, andThen_next, readLine_withSched, respond_withSched]
  exact (outInHandler_next (steady_seq_none.change (steady_seq_none.readLine i .scl hseq))).symm

theorem cmdIsBusBusy_inHandler (f : Fault) (i : Nat) : cmdIsBusBusy noTurn i (withSched X s) =
    outInHandler X f (cmdIsBusBusy (turn lent) i s) := by
  unfold cmdIsBusBusy
  rw [apply_ite (outInHandler X _)]
  refine ite_congr rfl (fun _ => swIsBusBusy_inHandler X hs lent f i) fun _ => indexed_inHandler X hs f _ i ?_ ?_
  · rw [apply_ite (withSched X)]
    rfl
  · split_ifs <;> exact hs.2

/-- The preamble of a transaction, whose program, where it comes to run, waits for no flag. -/
theorem transact_inHandler {ok async : Inst → Bool} {prog : State → List Op} (hprog : ∀ t, prog (withSched X t) = prog t)
    (hops : FreeInst s c.inst → ok (row (claimState s c.inst) c.inst) = true →
      ¬ ((row (claimState s c.inst) c.inst).config.kind = .hw ∧ async (row (claimState s c.inst) c.inst) = false ∧
        pending (claimState s c.inst) c.inst = true) → (prog (claimState s c.inst)).any polls = false) :
    transact noTurn c.inHandler ok async prog (withSched X s) =
      outInHandler X (blocks c) (transact (turn lent) c ok async prog s) := by
  refine claimedInit_inHandler X hs c fun hfree ht => ?_
  rw [apply_ite (outInHandler X _), apply_ite (outInHandler X _), hprog]
  exact ite_congr rfl
    (fun hok => ite_congr rfl (fun _ => finish_inHandler X ht c _ _ _)
      fun hrun => run_inHandler X (hops hfree hok hrun) lent _ ht)
    fun _ => finish_inHandler X ht c _ _ _

end commands

end Sys2Proof.Machine
end

section
/-! Transactions of a callback (42_transactions.md R200, 45_hw_interrupt.md R335): on the SW engine and in an asynchronous
start they run as alone, on the HW engine they stop at their first wait. -/

namespace Sys2Proof.Machine

theorem polls_of_offBus {op : Op} (h : offBus op = true) : polls op = false := by
  cases op with
  | waitNotBusy _ => cases h
  | waitFlag _ _ => cases h
  | probePoll _ _ => cases h
  | _ => rfl

theorem any_polls_of_offBus {ops : List Op} (h : ops.all offBus = true) : ops.any polls = false :=
  List.any_eq_false.2 fun op hop => ne_true_of_eq_false (polls_of_offBus (List.all_eq_true.1 h op hop))

theorem swProgram_any_polls (cmd : Instr) : (swProgram cmd).any polls = false := by
  refine any_polls_of_offBus ?_
  cases cmd
  case masterTransmit => simp [swProgram, swTransmit, offBus]
  case masterReceive => simp [swProgram, swReceive, offBus]
  case masterWriteReg => simp [swProgram, swWriteReg, offBus]
  case masterWriteRegs => simp [swProgram, swWriteRegs, offBus]
  case masterReadReg | masterReadRegs => simp [swProgram, swReadRegs, offBus]
  case scanBus => exact offBus_scan _ _
  all_goals rfl

/-- The two commands that may start asynchronously. -/
def maybeAsync (cmd : Instr) : Prop :=
  ∃ a b c d e f, cmd = .masterTransmit a b c d e f ∨ cmd = .masterReceive a b c d e f

/-- What `transact` is given for a transaction: its checks, its pending test and its program, by the kind of the instance. -/
structure TransactionForm (cmd : Instr) (i : Nat) (ok async : Inst → Bool) (prog : State → List Op) : Prop where
  checks : ∀ r, ok r = true ↔ transactionOk (runsAsync r) cmd
  startsAsync : ∀ r, r.config.kind = .hw → (async r = false ↔ (maybeAsync cmd → r.transferMode = .polling))
  unscheduled : ∀ X t, prog (withSched X t) = prog t
  sw : ∀ t, (row t i).config.kind = .sw → prog t = swProgram cmd
  claims : ∀ t, (row t i).config.kind = .hw → async (row t i) = true → (prog t).any polls = false
  waits : ∀ t, (row t i).config.kind = .hw → async (row t i) = false → prog t = hwProgram t.par.scanProbeTimeoutMs cmd

theorem commandWith_eq_transaction {cmd : Instr} {i : Nat} (hc : isTransaction cmd = true) (hidx : cmd.index = some i) :
    ∃ (ok async : Inst → Bool) (prog : State → List Op),
      (∀ y b s, commandWith y b cmd s = transact y ⟨i, cmd, s.words, b⟩ ok async prog s) ∧
        TransactionForm cmd i ok async prog := by
  cases cmd
  case masterTransmit | masterReceive =>
    obtain rfl := Option.some.inj hidx
    dsimp only [commandWith]
    refine ⟨_, _, _, fun y b s => rfl, fun r => ?checks, fun r hk => ?async, fun X t => rfl, fun t hk => ?sw,
      fun t hk ha => ?claims, fun t hk ha => ?waits⟩
    case checks => simp [transactionOk, paramsOk_iff]
    case async => cases hm : r.transferMode <;> simp [runsAsync, hk, hm, maybeAsync]
    case sw => simp only [hk, swProgram]
    case claims => simp only [hk, ha, if_true]; rfl
    case waits => simp only [hk, ha, Bool.false_eq_true, if_false, hwProgram]
  case masterWriteReg | masterReadReg | masterWriteRegs | masterReadRegs | scanBus =>
    obtain rfl := Option.some.inj hidx
    dsimp only [commandWith]
    refine ⟨_, _, _, fun y b s => rfl, fun r => ?checks, fun r hk => ?async, fun X t => rfl, fun t hk => ?sw,
      fun t hk ha => absurd ha Bool.false_ne_true, fun t hk ha => ?waits⟩
    case checks => simp [transactionOk, paramsOk_iff]
    case async => simp [maybeAsync]
    case sw => simp only [hk, swProgram]
    case waits => simp only [hk, hwProgram]
  all_goals cases hc

/-- Checks that hold for an asynchronous start hold for a blocking one. -/
theorem transactionOk_blocking {b : Bool} {cmd : Instr} (h : transactionOk b cmd) : transactionOk false cmd := by
  cases cmd
  case masterTransmit | masterReceive =>
    obtain ⟨hbuf, hlen, haddr, -⟩ := h
    exact ⟨hbuf, hlen, haddr, nofun⟩
  all_goals exact h

theorem transactionOk_of_polling {cmd : Instr} {r : Inst} (h : transactionOk false cmd)
    (hm : maybeAsync cmd → r.transferMode = .polling) : transactionOk (runsAsync r) cmd := by
  cases cmd
  case masterTransmit | masterReceive =>
    rw [show runsAsync r = false by simp [runsAsync, hm (by simp [maybeAsync])]]
    exact h
  all_goals exact h

theorem index_of_isTransaction {cmd : Instr} (h : isTransaction cmd = true) : ∃ i, cmd.index = some i := by
  cases cmd
  case masterTransmit | masterReceive | masterWriteReg | masterReadReg | masterWriteRegs | masterReadRegs | scanBus =>
    exact ⟨_, rfl⟩
  all_goals cases h

/-- A transaction that waits on no peripheral does in a callback what it does alone. -/
theorem transaction_inHandler (X : List Sched) {s : State} (hs : AtRest s) (lent : Option (Nat × Word)) {cmd : Instr}
    (hc : isTransaction cmd = true) (hw : ¬ waitsOnHw s cmd) : commandWith noTurn true cmd (withSched X s) =
      outInHandler X (.blockingInHandler ⟨some s.words, cmd.index.getD 0, 335⟩) (commandWith (turn lent) false cmd s) := by
  obtain ⟨i, hidx⟩ := index_of_isTransaction hc
  obtain ⟨ok, async, prog, hform, hd⟩ := commandWith_eq_transaction hc hidx
  rw [hform, hform, hidx]
  refine transact_inHandler X hs ⟨i, cmd, s.words, false⟩ lent (hd.unscheduled X) fun hfree hok hrun => ?_
  obtain ⟨hi, ho, hn⟩ := hfree
  rw [row_claimState hi] at hok
  rw [row_claimState hi, pending_claimState hi] at hrun
  cases hk : (row s i).config.kind with
  | sw =>
    rw [hd.sw _ (by rw [row_claimState hi]; exact hk)]
    exact swProgram_any_polls cmd
  | hw =>
    have hkc : (row (claimState s i) i).config.kind = .hw := by rw [row_claimState hi]; exact hk
    refine hd.claims _ hkc (eq_true_of_ne_false fun ha => hw ?_)
    rw [row_claimState hi] at ha
    exact ⟨hc, transactionOk_blocking ((hd.checks _).1 hok), i, hidx, hi, hk, ho, hn,
      eq_false_of_ne_true fun hp => hrun ⟨hk, ha, hp⟩, (hd.startsAsync { row s i with opActive := true } hk).1 ha⟩

/-- A transaction that would wait on the HW peripheral is a fault in a callback, at its first wait. -/
theorem transaction_blocks {s : State} {cmd : Instr} (h : waitsOnHw s cmd) : commandWith noTurn true cmd s =
    .fault (.blockingInHandler ⟨some s.words, cmd.index.getD 0, 335⟩) := by
  obtain ⟨hc, hok, i, hidx, hi, hk, ho, hn, hp, hm⟩ := h
  obtain ⟨ok, async, prog, hform, hd⟩ := commandWith_eq_transaction hc hidx
  have hchecks : ok { row s i with opActive := true } = true := (hd.checks _).2 (transactionOk_of_polling hok hm)
  have hrow : row (claimState s i) i = { row s i with opActive := true } := row_claimState hi
  have hblocking := (hd.startsAsync { row s i with opActive := true } hk).2 hm
  have hprog := hd.waits (claimState s i) (by rw [hrow]; exact hk) (by rw [hrow]; exact hblocking)
  obtain ⟨-, rest, -, hrun⟩ := hwProgram_begins (t := (claimState s i).par.scanProbeTimeoutMs) hc hok
  rw [hform, transact_free _ hi ho hn, if_pos hchecks, if_neg (by simp [hp]), hprog, hrun, hidx]
  rfl

/-- A command of a callback that waits on no peripheral does what it does alone, the other agents still. -/
theorem commandWith_inHandler (X : List Sched) {s : State} (hs : AtRest s) (lent : Option (Nat × Word)) {cmd : Instr}
    (hc : cmd.internal = false) (hw : ¬ waitsOnHw s cmd) : commandWith noTurn true cmd (withSched X s) =
      outInHandler X (.blockingInHandler ⟨some s.words, cmd.index.getD 0, 335⟩) (commandWith (turn lent) false cmd s) := by
  cases cmd
  case evIrq | erIrq => cases hc
  case init i => exact cmdInit_inHandler X hs lent i
  case deinit i => exact cmdDeinit_inHandler X hs lent i
  case setTransferMode i m => exact cmdSetTransferMode_inHandler X hs lent i m
  case softwareReset i => exact cmdSoftwareReset_inHandler X hs lent i
  case isBusBusy i => exact cmdIsBusBusy_inHandler X hs lent _ i
  case setCallback | isInitialized | getConfig | getXferStatus =>
    dsimp only [commandWith, cmdSetCallback, cmdIsInitialized, cmdGetConfig, cmdGetXferStatus]
    refine indexed_inHandler X hs _ _ _ ?_ ?_
    exacts [rfl, hs.2]
  case encodeAddress am rw a => exact (outInHandler_next (u := respond (.encodeAddress am rw a) _ s) hs.2).symm
  case blStart i => exact bitCommand_inHandler X hs ⟨i, .blStart i, s.words, false⟩ lent _ rfl
  case blStop i => exact bitCommand_inHandler X hs ⟨i, .blStop i, s.words, false⟩ lent _ rfl
  case blRestart i => exact bitCommand_inHandler X hs ⟨i, .blRestart i, s.words, false⟩ lent _ rfl
  case blSendByte i v => exact bitCommand_inHandler X hs ⟨i, .blSendByte i v, s.words, false⟩ lent _ rfl
  case blReceiveByte i b =>
    exact bitCommand_inHandler X hs ⟨i, .blReceiveByte i b, s.words, false⟩ lent _ (by cases b <;> rfl)
  all_goals exact transaction_inHandler X hs lent rfl hw

end Sys2Proof.Machine
end

section
/-! O52 from its parts: the acts of a callback after its event, and each command among them. -/

namespace Sys2Proof.Machine

theorem withCalls_self {s : State} {l : List (List HostAct)} (h : s.env.calls = l) : withCalls l s = s := by
  rw [← h]
  rfl

theorem nestedAct_command {w : Words} {cmd : Instr} (h : decodeHost w = .ok cmd) (lent : Option (Nat × Word)) (s : State) :
    nestedAct lent (.command w) s = commandWith noTurn true cmd { s with words := w } := by
  simp only [nestedAct, h, nestedExec_eq_commandWith]

theorem nestedAct_undecoded {w : Words} {r : Reject} (h : decodeHost w = .error r) (lent : Option (Nat × Word)) (s : State) :
    nestedAct lent (.command w) s = .refused (.illegalCommand r) := by
  simp only [nestedAct, h]

/-- A command of a callback and what comes after it, from what the command alone answers with the other agents still. -/
theorem nestedActs_command {s : State} {cmd : Instr} {w : Words} (h : decodeHost w = .ok cmd) (hw : ¬ waitsOnHw s cmd)
    (hseq : s.seq = none) (lent : Option (Nat × Word)) (as : List HostAct) : nestedActs lent (.command w :: as) s =
      andThen (outInHandler s.sched (.blockingInHandler ⟨some w, cmd.index.getD 0, 335⟩)
        (exec cmd { s with words := w, sched := [] })) (nestedActs lent as) := by
  have hc := internal_of_decodeHost h
  rw [nestedActs, nestedAct_command h, exec_eq_commandWith hc]
  exact congrArg (fun o => andThen o (nestedActs lent as))
    (commandWith_inHandler s.sched (s := { s with words := w, sched := [] }) ⟨rfl, hseq⟩ (lentBy cmd) hc hw)

end Sys2Proof.Machine

namespace Sys2Proof.Interrupts
open Sys2Proof.Machine

/-- Settles O52: the handler's answer by the script of callbacks, and each act of a callback. -/
theorem callback : Obligations.Callback := by
  refine ⟨fun s t i h acts rest hh hcalls ht => ?script, fun s cmd w lent as hdec =>
    ⟨fun hw => ?blocks, fun hw hseq => ?alone⟩, fun s w r lent as hdec => ?undecoded, fun s t buf k v lent as ht => ?touch⟩
  case script =>
    have hlast := (exec_callsLast hh s).answer ht acts rest
    rwa [withCalls_self hcalls] at hlast
  case blocks =>
    rw [nestedActs, nestedAct_command hdec, transaction_blocks (s := { s with words := w }) hw]
    rfl
  case alone =>
    rw [nestedActs_command hdec hw hseq]
    cases exec cmd { s with words := w, sched := [] } with
    | next u =>
      by_cases hu : u.seq = none
      · rw [outInHandler_next hu, andThen_next]
        exact (if_pos hu).symm
      · rw [outInHandler, if_neg hu]
        exact (if_neg hu).symm
    | fault f => rfl
    | refused r => rfl
  case undecoded =>
    rw [nestedActs, nestedAct_undecoded hdec]
    rfl
  case touch =>
    rw [nestedActs, nestedAct_touch (buf := buf) (k := k) (v := v) (by cases v <;> rfl), ht, andThen_next]

end Sys2Proof.Interrupts
end

section
/-! How a command of an instance begins (46_instance.md R364 to R370): the commands that answer at once take the index check
alone, every other one the re-entry check too, said once for both. -/

namespace Sys2Proof.Machine

/-- The commands with an index that make no claim of their instance: what R369 calls single-step. -/
def singleStep : Instr → Bool
  | .setCallback _ _ _ => true
  | .isInitialized _ => true
  | .isBusBusy _ => true
  | .getConfig _ => true
  | .getXferStatus _ => true
  | _ => false

theorem claimedInit_eq_claimed (c : Ctx) (s : State) (k : State → Out) : ∃ k', claimedInit c s k = claimed c s k' :=
  ⟨_, rfl⟩

theorem transact_eq_claimed (y : State → Out) (c : Ctx) (ok async : Inst → Bool) (prog : State → List Op) (s : State) :
    ∃ k, transact y c ok async prog s = claimed c s k := claimedInit_eq_claimed c s _

theorem bitCommand_eq_claimed (y : State → Out) (c : Ctx) (held : Bool) (ops : List Op) (s : State) :
    ∃ k, bitCommand y c held ops s = claimed c s k := claimedInit_eq_claimed c s _

/-- Every other command with an index claims its instance before anything else. -/
theorem commandWith_eq_claimed {cmd : Instr} {i : Nat} (hc : cmd.internal = false) (hidx : cmd.index = some i)
    (hstep : singleStep cmd = false) (y : State → Out) (atomic : Bool) (s : State) :
    ∃ k, commandWith y atomic cmd s = claimed ⟨i, cmd, s.words, atomic⟩ s k := by
  cases cmd
  case setCallback | isInitialized | isBusBusy | getConfig | getXferStatus => cases hstep
  case evIrq | erIrq => cases hc
  case encodeAddress => cases hidx
  all_goals
    obtain rfl := Option.some.inj hidx
    dsimp only [commandWith]
  case init => unfold cmdInit; exact ⟨_, rfl⟩
  case deinit => unfold cmdDeinit; exact ⟨_, rfl⟩
  case setTransferMode | softwareReset => exact claimedInit_eq_claimed _ s _
  case blStart | blStop | blRestart | blSendByte | blReceiveByte => exact bitCommand_eq_claimed y _ _ _ s
  all_goals exact transact_eq_claimed y _ _ _ _ s

theorem claimed_of_bad_index {c : Ctx} {s : State} (h : nInst s ≤ c.inst) (k : State → Out) :
    claimed c s k = .next (respond c.cmd { status := .invalidParameter } s) :=
  if_neg (Nat.not_lt.2 h)

theorem claimed_of_active {c : Ctx} {s : State} (hi : c.inst < nInst s) (ho : (row s c.inst).opActive = true)
    (k : State → Out) : claimed c s k = .fault (.reentrant (siteOf c 369)) :=
  (if_pos hi).trans (if_pos ho)

theorem indexed_of_lt {s : State} {i : Nat} (hi : i < nInst s) (cmd : Instr) (k : State → State) :
    indexed cmd i s k = .next (k s) :=
  congrArg Host.Outcome.next (if_pos hi)

theorem indexed_of_bad_index {s : State} {i : Nat} (hi : nInst s ≤ i) (cmd : Instr) (k : State → State) :
    indexed cmd i s k = .next (respond cmd { status := .invalidParameter } s) :=
  congrArg Host.Outcome.next (if_neg (Nat.not_lt.2 hi))

/-- IS_BUS_BUSY but for the SW instance that it samples is a single-step command like the others. -/
theorem cmdIsBusBusy_of_not_sampling {s : State} {i : Nat}
    (h : ¬ (i < nInst s ∧ (row s i).initialized = true ∧ (row s i).config.kind = .sw)) (y : State → Out) :
    cmdIsBusBusy y i s = indexed (.isBusBusy i) i s fun s =>
      if (row s i).initialized then
        respond (.isBusBusy i) { flag := has (readSR2 i s).1 Sr2.busy } (readSR2 i s).2
      else respond (.isBusBusy i) { status := .notInitialized } s :=
  if_neg h

/-- Settles O31: the claim and the index check of the single-step commands turn such an index away. -/
theorem badIndex : Obligations.BadIndex := by
  intro cmd i s hc hidx hi
  rw [exec_eq_commandWith hc]
  cases hstep : singleStep cmd
  case false =>
    obtain ⟨k, hk⟩ := commandWith_eq_claimed hc hidx hstep (turn (lentBy cmd)) false s
    rw [hk, claimed_of_bad_index (by exact hi)]
    rfl
  case true =>
    cases cmd
    case setCallback | isInitialized | getConfig | getXferStatus =>
      obtain rfl := Option.some.inj hidx
      dsimp only [commandWith]
      exact indexed_of_bad_index hi _ _
    case isBusBusy j =>
      obtain rfl := Option.some.inj hidx
      exact (cmdIsBusBusy_of_not_sampling (fun h => Nat.not_lt.2 hi h.1) _).trans (indexed_of_bad_index hi _ _)
    all_goals cases hstep

/-- Settles O32: alone and from a callback, the command finds the instance claimed. -/
theorem reentrant : Obligations.Reentrant := by
  intro cmd i s hc hidx hi hcallback hinit hbusy hconfig hxfer ho
  have hstep : singleStep cmd = false := by
    cases cmd
    case setCallback j cb ud =>
      obtain rfl := Option.some.inj hidx
      exact absurd rfl (hcallback cb ud)
    case isInitialized | isBusBusy | getConfig | getXferStatus =>
      obtain rfl := Option.some.inj hidx
      contradiction
    all_goals rfl
  refine ⟨?alone, fun w lent as hdec => ?nested⟩
  case alone =>
    obtain ⟨k, hk⟩ := commandWith_eq_claimed hc hidx hstep (turn (lentBy cmd)) false s
    rw [exec_eq_commandWith hc, hk, claimed_of_active (by exact hi) (by exact ho)]
    rfl
  case nested =>
    obtain ⟨k, hk⟩ := commandWith_eq_claimed hc hidx hstep noTurn true { s with words := w }
    rw [nestedActs, nestedAct_command hdec, hk, claimed_of_active (by exact hi) (by exact ho)]
    rfl

/-- Settles O29: each command answers from the row that it finds. -/
theorem queriesAndCallback : Obligations.QueriesAndCallback := by
  intro s i cb ud hi
  have hpending : pending s i = decide ((row s i).xfer.state = .startSent ∨ (row s i).xfer.state = .addressPhase ∨
      (row s i).xfer.state = .dataPhase) := by
    rw [Bool.eq_iff_iff, decide_eq_true_eq, pending, xstate_pending_iff]
  simp only [exec_eq_commandWith (cmd := .setCallback i cb ud) rfl, exec_eq_commandWith (cmd := .isInitialized i) rfl,
    exec_eq_commandWith (cmd := .getConfig i) rfl, exec_eq_commandWith (cmd := .getXferStatus i) rfl, commandWith]
  refine ⟨indexed_of_lt hi _ _, indexed_of_lt hi _ _, indexed_of_lt hi _ _, ?status, by decide, by decide, by decide⟩
  case status =>
    rw [← hpending]
    exact indexed_of_lt hi (.getXferStatus i) _

/-- An outcome that is a next state but for the moves of the other agents is a next state. -/
theorem sameOut_next {v : State} {o : Out} (h : sameOut (.next v) o) : ∃ t, o = .next t ∧ AgentsMoved v t := by
  cases o with
  | next t => exact ⟨t, rfl, h⟩
  | fault f => exact h.elim
  | refused r => exact h.elim

/-- The two samples of an SW instance are the same whatever turn comes between them (42_transactions.md R201). -/
theorem swIsBusBusy_same {s : State} (hq : NoIrq s) (i : Nat) :
    sameOut (swIsBusBusy noTurn i s) (swIsBusBusy (turn none) i s) := by
  have hsampled : NoIrq (readLine i .sda s).2 := fun e he => hq e (by rwa [readLine, emit_sched, sched_drawSample] at he)
  simp only [swIsBusBusy]
  refine andThen_same (s := (readLine i .sda s).2) (turn_tame none) (.refl hsampled) fun u hu => ?_
  obtain ⟨hlevel, hm⟩ := readLine_moved i .scl hu
  simp only [hlevel]
  exact emit_moved _ hm

theorem swIsBusBusy_noTurn (s : State) (i : Nat) :
    let a := (row s i).drvSDA && (drawSample s).1
    let b := (row s i).drvSCL && (drawSample (drawSample s).2).1
    swIsBusBusy noTurn i s = .next (tracing { s with env := (drawSamples 2 s).2.env }
      [Event.sample i .sda a, .sample i .scl b, .resp (.isBusBusy i) { flag := !a || !b }]) := by
  simp only [swIsBusBusy, readLine, drawSamples_eq, drawSample_eq]
  rfl

/-- Settles O30: the two samples of an SW instance with the other agents' turn between them, and else the one read of SR2. -/
theorem isBusBusy : Obligations.IsBusBusy := by
  intro s i hi
  refine ⟨fun hn => ?notInitialized, fun hn hk hq => ?sw, fun hn hk => ?hw⟩
  case sw =>
    have hexec : exec (.isBusBusy i) s = swIsBusBusy (turn none) i s := if_pos ⟨hi, hn, hk⟩
    rw [hexec]
    exact sameOut_next (swIsBusBusy_noTurn s i ▸ swIsBusBusy_same hq i)
  all_goals rw [exec_eq_commandWith rfl, commandWith]
  case notInitialized =>
    rw [cmdIsBusBusy_of_not_sampling (by simp [hn]), indexed_of_lt hi, hn]
    rfl
  case hw =>
    rw [cmdIsBusBusy_of_not_sampling (by simp [hk]), indexed_of_lt hi, if_pos hn, has_busy]
    rfl

end Sys2Proof.Machine
end

section
/-! A command of an instance under way: its row as it stands, the events made so far, and its return (46_instance.md R368,
R369). -/

namespace Sys2Proof.Machine

theorem row_tracing (s : State) (es : List Event) (i : Nat) : row (tracing s es) i = row s i := rfl

theorem nInst_tracing (s : State) (es : List Event) : nInst (tracing s es) = nInst s := rfl

theorem setRow_tracing (s : State) (es : List Event) (i : Nat) (r : Inst) :
    setRow (tracing s es) i r = tracing (setRow s i r) es := rfl

theorem tracing_tracing (s : State) (es fs : List Event) : tracing (tracing s es) fs = tracing s (es ++ fs) := by
  simp [tracing]

theorem nInst_hwState (s : State) (i : Nat) (p : Periph) (sch : List Sched) (es : List Event) :
    nInst (hwState s i p sch es) = nInst s := rfl

theorem setRow_claimState (s : State) (i : Nat) (r : Inst) : setRow (claimState s i) i r = setRow s i r :=
  setRow_setRow s i _ r

/-- The row that a command leaves at its return, `q` being the row before it. -/
def finished (cmd : Instr) (st : Status) (q : Inst) : Inst :=
  { q with lastError := if recordsError cmd then st else q.lastError, opActive := false }

theorem finish_eq (c : Ctx) (st : Status) (r : Response) (s : State) : finish c st r s =
    tracing (setRow s c.inst (finished c.cmd st (row s c.inst))) [.resp c.cmd { r with status := st }] := rfl

theorem finish_setRow {c : Ctx} {s : State} (hi : c.inst < nInst s) (st : Status) (r : Response) (q : Inst)
    (es : List Event) : finish c st r (tracing (setRow s c.inst q) es) =
      tracing (setRow s c.inst (finished c.cmd st q)) (es ++ [.resp c.cmd { r with status := st }]) := by
  rw [finish_eq, row_tracing, row_setRow_self _ _ _ hi, setRow_tracing, setRow_setRow, tracing_tracing]

/-- Both lines released, as INIT and DEINIT of an SW instance do (46_instance.md R360, R362). -/
def releaseOps : List Op := [.line (.pin .scl true), .line (.pin .sda true)]

theorem run_release {c : Ctx} {s : State} (hi : c.inst < nInst s) (q : Inst) (ops : List Op) (scr : Scratch) :
    run noTurn noTurn c (releaseOps ++ ops) scr (setRow s c.inst q) =
      run noTurn noTurn c ops scr (tracing (setRow s c.inst { q with drvSCL := true, drvSDA := true })
        [.pin c.inst .scl true, .pin c.inst .sda true]) := by
  have hscl : writeLine c.inst .scl true (setRow s c.inst q) =
      tracing (setRow s c.inst { q with drvSCL := true }) [.pin c.inst .scl true] := by
    rw [writeLine, row_setRow_self _ _ _ hi, setRow_setRow]
    rfl
  have hsda : writeLine c.inst .sda true (tracing (setRow s c.inst { q with drvSCL := true }) [.pin c.inst .scl true]) =
      tracing (setRow s c.inst { q with drvSCL := true, drvSDA := true })
        [.pin c.inst .scl true, .pin c.inst .sda true] := by
    rw [writeLine, row_tracing, row_setRow_self _ _ _ hi, setRow_tracing, setRow_setRow]
    rfl
  simp only [releaseOps, List.cons_append, List.nil_append, run, opStep, thenOp, noTurn, lineOp, hscl, hsda, ite_self]

end Sys2Proof.Machine
end

section
/-! SET_TRANSFER_MODE (46_instance.md R363). -/

namespace Sys2Proof.Machine

theorem exec_setTransferMode {s : State} {i : Nat} (hi : i < nInst s) (hn : (row s i).initialized = true)
    (ho : (row s i).opActive = false) (m : TransferMode) : exec (.setTransferMode i m) s =
      run noTurn (turn none) ⟨i, .setTransferMode i m, s.words, false⟩ (setModeOps (row s i).config.kind m) {}
        (claimState s i) := by
  rw [exec_eq_commandWith rfl, commandWith, cmdSetTransferMode]
  simp only [claimedInit_free (c := ⟨i, .setTransferMode i m, s.words, false⟩) hi ho hn, row_claimState hi]
  rfl

/-- A transfer state once SET_TRANSFER_MODE to Polling has dropped what was pending (46_instance.md R363). -/
def abandoned (x : Xfer) : Xfer :=
  if x.state = .startSent ∨ x.state = .addressPhase ∨ x.state = .dataPhase then { x with state := .idle, buf := 0 } else x

theorem run_abandon (y0 y : State → Out) (c : Ctx) (ops : List Op) (scr : Scratch) (s : State) :
    run y0 y c (.abandon :: ops) scr s =
      run y0 y c ops scr (setRow s c.inst { row s c.inst with xfer := abandoned (row s c.inst).xfer }) := by
  by_cases h : pending s c.inst = true
  · simp only [run, opStep, abandoned, if_pos h, if_pos ((xstate_pending_iff _).1 h)]
    rfl
  · simp only [run, opStep, abandoned, if_neg h, if_neg (mt (xstate_pending_iff _).2 h)]
    exact congrArg (run y0 y c ops scr) (setRow_row s c.inst).symm

/-- The three clears of the CR2 enables (46_instance.md R363), the other agents still. -/
theorem run_disableOps {c : Ctx} {s : State} (hi : c.inst < s.peri.length) (p : Periph) (sch : List Sched)
    (es : List Event) (ops : List Op) (scr : Scratch) :
    run noTurn noTurn c (disableOps ++ ops) scr (hwState s c.inst p sch es) =
      run noTurn noTurn c ops scr (hwState s c.inst { p with cr2 := p.cr2 &&& ~~~0x0700 } sch
        (es ++ [Event.csrW c.inst .cr2 0x0200 0, .csrW c.inst .cr2 0x0400 0, .csrW c.inst .cr2 0x0100 0])) := by
  rw [← clearEach_hwState hi]
  rfl

/-- Settles O28: each program, run on the claimed instance. -/
theorem setTransferMode : Obligations.SetTransferMode := by
  intro s i m hi hn ho
  have hclaimed : ∀ q, row (setRow s i q) i = q := fun q => row_setRow_self s i q hi
  refine ⟨fun hk => ?sw, fun hk => ?interrupt, fun hk hip hs => ?polling⟩
  all_goals rw [exec_setTransferMode hi hn ho, hk]
  case sw =>
    simp only [setModeOps, run, opStep, finish_eq, claimState, hclaimed, setRow_setRow, finished]
    rw [← ho]
    rfl
  case interrupt =>
    simp only [setModeOps, run, opStep, finish_eq, claimState, hclaimed, setRow_setRow, finished]
    rw [← ho]
    rfl
  case polling =>
    have hstart : claimState s i = hwState (claimState s i) i (dev s i) [] [] := by
      rw [← hs]
      exact (hwState_self (claimState s i) i).symm
    have hops : setModeOps .hw .polling = .setNvic false :: (disableOps ++ [.abandon, .setMode .polling]) := rfl
    rw [run_quiet noTurn_still (turn_still _) _ _ _ (by exact hs), hstart, hops, run, opStep]
    simp only [ite_self, row_hwState, setRow_hwState]
    rw [run_disableOps (by exact hip), run_abandon]
    simp only [run, opStep, finish_eq, row_hwState, setRow_hwState, tracing_hwState, claimState, hclaimed, setRow_setRow,
      finished]
    rw [hwState_of_still (by exact hs), ← ho]
    rfl

end Sys2Proof.Machine
end

section
/-! DEINIT (46_instance.md R362). -/

namespace Sys2Proof.Machine

theorem exec_deinit {s : State} {i : Nat} (hi : i < nInst s) (ho : (row s i).opActive = false) : exec (.deinit i) s =
    if (row s i).config.kind = .hw ∧ pending s i = true then
      run noTurn (turn none) ⟨i, .deinit i, s.words, false⟩
        (.apply .deinitWhilePending (instParams s.par i).deinitWhilePending :: deinitOps (row s i)) {} (claimState s i)
    else run noTurn (turn none) ⟨i, .deinit i, s.words, false⟩ (deinitOps (row s i)) {} (claimState s i) := by
  rw [exec_eq_commandWith rfl, commandWith, cmdDeinit]
  simp only [claimed_free (c := ⟨i, .deinit i, s.words, false⟩) hi ho, row_claimState hi, pending_claimState hi]
  rfl

/-- The end of DEINIT: the row is as at reset, and so is the `lastError` that the return leaves alone. -/
theorem run_resetRow {y0 y : State → Out} {c : Ctx} {s : State} (hi : c.inst < nInst s)
    (hc : recordsError c.cmd = false) : run y0 y c [.resetRow] {} s =
      .next (tracing (setRow s c.inst (Inst.reset (row s c.inst).config)) [.resp c.cmd {}]) := by
  simp only [run, opStep, finish_eq, row_setRow_self _ _ _ hi, setRow_setRow, finished, hc]
  rfl

/-- A peripheral that DEINIT has shut down (43_hw_peripheral.md R264). -/
def shutPeriph (p : Periph) : Periph :=
  { p with
    cr1 := p.cr1 &&& ~~~0x0701, cr2 := p.cr2 &&& ~~~0x0700, sr1 := 0, sr2 := 0, ph := .idle
    pendDR := false, snap := 0, wire := if p.sr2.getLsbD 0 then .release :: p.wire else p.wire }

theorem shutDown_hwState {c : Ctx} {s : State} {p : Periph} (hi : c.inst < s.peri.length)
    (hon : p.cr1.getLsbD 0 = true) (hr : p.cr1.getLsbD 15 = false) (sch : List Sched) (scr : Scratch) :
    shutDown noTurn noTurn c scr (hwState s c.inst p sch []) =
      .go scr (hwState (setRow s c.inst { row s c.inst with nvicEn := false }) c.inst (shutPeriph p) sch
        [Event.csrW c.inst .cr2 0x0200 0, .csrW c.inst .cr2 0x0400 0, .csrW c.inst .cr2 0x0100 0,
          .csrW c.inst .cr1 0x0001 0]) := by
  simp only [shutDown, thenOp, noTurn, row_hwState, setRow_hwState]
  rw [clearEach_hwState (by exact hi), csrWrite_hwState (by exact hi)]
  exact congrArg (fun q => OpRes.go scr (hwState _ c.inst q sch _))
    (periphWrite_pe_off (p := { p with cr2 := p.cr2 &&& ~~~0x0700 }) hon hr)

/-- Settles O26: an SW instance releases its lines and resets its row; one that is not initialized only resets its row. -/
theorem deinitSW : Obligations.DeinitSW := by
  refine ⟨fun s i hinit hk hq => ?initialized, fun s i hi hn ho hp => ?not⟩
  case initialized =>
    obtain ⟨hi, hn, ho, -⟩ := hinit i List.mem_cons_self
    have hops : deinitOps (row s i) = releaseOps ++ [.resetRow] := by
      simp only [deinitOps, hk, hn, if_true]
      rfl
    rw [exec_deinit hi ho, if_neg (by simp [hk]), hops]
    have hrun : run noTurn noTurn ⟨i, .deinit i, s.words, false⟩ (releaseOps ++ [.resetRow]) {} (claimState s i) =
        .next (tracing (setRow s i (Inst.reset (row s i).config))
          [Event.pin i .scl true, .pin i .sda true, .resp (.deinit i) {}]) := by
      rw [claimState, run_release (by exact hi), run_resetRow (by simpa [nInst_tracing] using hi) rfl, row_tracing,
        row_setRow_self _ _ _ hi, setRow_tracing, setRow_setRow, tracing_tracing]
      rfl
    exact run_via noTurn_tame (turn_tame none) rfl hq hrun rfl
  case not =>
    have hrow : (row (claimState s i) i).initialized = false := by rw [row_claimState hi]; exact hn
    have hi' : i < nInst (claimState s i) := by rwa [nInst_claimState]
    have hend : ∀ y0, run y0 (turn none) ⟨i, .deinit i, s.words, false⟩ [.resetRow] {} (claimState s i) =
        .next (tracing (setRow s i (Inst.reset (row s i).config)) [.resp (.deinit i) {}]) := by
      intro y0
      rw [run_resetRow (by exact hi') rfl, row_claimState hi, claimState, setRow_setRow]
    rw [exec_deinit hi ho, if_neg (by simp [hp]), deinitOps]
    cases (row s i).config.kind with
    | sw =>
      rw [hn]
      exact hend noTurn
    | hw =>
      have hshut : opStep noTurn (turn none) ⟨i, .deinit i, s.words, false⟩ .shutDown {} (claimState s i) =
          .go {} (claimState s i) := if_neg (by simp [hrow])
      exact (run_of_go hshut rfl _).trans (hend (turn none))

/-- The end of DEINIT of an HW instance that the row says is not initialized. -/
theorem run_shutDown_of_not_initialized {c : Ctx} {s : State} (hi : c.inst < nInst s) (hc : recordsError c.cmd = false)
    (hn : (row s c.inst).initialized = false) (y : State → Out) : run noTurn y c [.shutDown, .resetRow] {} s =
      .next (tracing (setRow s c.inst (Inst.reset (row s c.inst).config)) [.resp c.cmd {}]) := by
  have hshut : opStep noTurn y c .shutDown {} s = .go {} s := if_neg (by simp [hn])
  rw [run_of_go hshut rfl, run_resetRow hi hc]

/-- The end of DEINIT of an initialized HW instance, the other agents still. -/
theorem run_shutDown {c : Ctx} {s : State} (hi : c.inst < nInst s) (hip : c.inst < s.peri.length)
    (hc : recordsError c.cmd = false) (hn : (row s c.inst).initialized = true) (hs : s.sched = [])
    (hon : (dev s c.inst).cr1.getLsbD 0 = true) (hr : (dev s c.inst).cr1.getLsbD 15 = false) :
    run noTurn (turn none) c [.shutDown, .resetRow] {} s =
      .next (tracing (setDev (setRow s c.inst (Inst.reset (row s c.inst).config)) c.inst (shutPeriph (dev s c.inst)))
        [Event.csrW c.inst .cr2 0x0200 0, .csrW c.inst .cr2 0x0400 0, .csrW c.inst .cr2 0x0100 0,
          .csrW c.inst .cr1 0x0001 0, .resp c.cmd {}]) := by
  have hstart : s = hwState s c.inst (dev s c.inst) [] [] := by rw [← hs, hwState_self]
  have hshut := shutDown_hwState hip hon hr [] {}
  rw [← hstart] at hshut
  have hstep : opStep noTurn noTurn c .shutDown {} s = _ := (if_pos hn).trans hshut
  rw [run_quiet noTurn_still (turn_still none) _ _ _ hs, run_of_go hstep rfl, run_resetRow (by rwa [nInst_hwState, nInst_setRow]) hc,
    row_hwState, row_setRow_self _ _ _ hi, setRow_hwState, setRow_setRow, tracing_hwState, hwState_of_still (by exact hs)]
  rfl

/-! Two values of DEINIT_WHILE_PENDING that go on with the command (log entry 10). -/

theorem run_apply_rest (y : State → Out) (c : Ctx) (p : OpenParam) (jumps : List PolicyProg) (ops : List Op) (s : State) :
    run noTurn y c (.apply p ⟨.rest, jumps⟩ :: ops) {} s = run noTurn y c ops {} s := rfl

theorem run_apply_store (y : State → Out) (c : Ctx) (p : OpenParam) (a : RowAct) (jumps : List PolicyProg) (ops : List Op)
    (s : State) : run noTurn y c (.apply p ⟨.act (.store a) .rest, jumps⟩ :: ops) {} s =
      run noTurn y c ops {} (setRow s c.inst (rowAct (evalExpr [] (row s c.inst)) a (row s c.inst))) := rfl

/-- Settles O27: the peripheral is shut down and the row reset, once DEINIT_WHILE_PENDING lets a pending instance go on; each
value of it that the statement names is followed to its end. -/
theorem deinitHW : Obligations.DeinitHW := by
  refine ⟨fun s i hinit hk hip hs hpol hon hr => ?idle, fun s i hi hk ho hp => ?pending⟩
  case idle =>
    obtain ⟨hi, hn, ho, -⟩ := hinit i List.mem_cons_self
    have hdown := run_shutDown (c := ⟨i, .deinit i, s.words, false⟩) (s := claimState s i)
      (by rwa [nInst_claimState]) hip rfl (by rw [row_claimState hi]; exact hn) hs hon hr
    rw [row_claimState hi, dev_claimState, setRow_claimState] at hdown
    rw [exec_deinit hi ho, deinitOps, hk]
    split_ifs with hcase
    · obtain ⟨jumps, hrest⟩ := hpol hcase.2
      rw [hrest, run_apply_rest]
      exact hdown
    · exact hdown
  case pending =>
    have hexec : exec (.deinit i) s = run noTurn (turn none) ⟨i, .deinit i, s.words, false⟩
        [.apply .deinitWhilePending (instParams s.par i).deinitWhilePending, .shutDown, .resetRow] {} (claimState s i) := by
      rw [exec_deinit hi ho, if_pos ⟨hk, hp⟩, deinitOps, hk]
    refine ⟨fun hpol => ?refuse, fun st jumps hpol => ?ret, fun jumps hpol => ?rest, hexec⟩
    case refuse =>
      rw [hexec, show (instParams s.par i).deinitWhilePending = _ from hpol, run, opStep, applyPolicy_refuse _ _ _ _ _ _ rfl]
      rfl
    case ret =>
      have hback : exec (.deinit i) s = .next (finish ⟨i, .deinit i, s.words, false⟩ st {} (claimState s i)) := by
        rw [hexec]
        rcases hpol with hpol | hpol <;> rw [show (instParams s.par i).deinitWhilePending = _ from hpol] <;> rfl
      rw [hback, finish_claimState hi ho]
      exact congrArg (fun u => Host.Outcome.next (tracing u _)) (setRow_row s i)
    case rest =>
      rw [hexec, show (instParams s.par i).deinitWhilePending = _ from hpol]
      have hdown := run_shutDown_of_not_initialized (c := ⟨i, .deinit i, s.words, false⟩)
        (s := setRow s i { row s i with opActive := true, initialized := false }) (by rwa [nInst_setRow]) rfl
        (by rw [row_setRow_self _ _ _ hi]) (turn none)
      rw [row_setRow_self _ _ _ hi, setRow_setRow] at hdown
      rw [run_apply_store, row_claimState hi, setRow_claimState]
      exact hdown

end Sys2Proof.Machine
end

section
/-! Operations of a command whose answer does not depend on the other agents, one at a time: with turns they answer the same,
but for what the agents move (20_memory.md R94). -/

namespace Sys2Proof.Machine

section turns

variable {y0 y : State → Out} (hy0 : Tame y0) (hy : Tame y) {c : Ctx} {op : Op} (hop : offBus op = true) {scr r : Scratch}
  {s t u : State} (hm : AgentsMoved s t)
include hy0 hy hop hm

theorem run_go_same (h : opStep noTurn noTurn c op scr s = .go r u) (hstep : makesNoStep op r = false) (ops : List Op) :
    ∃ v, run y0 y c (op :: ops) scr t = run y y c ops r v ∧ AgentsMoved u v := by
  have hsame := opStep_same hy0 hy c op hop scr hm
  rw [h] at hsame
  cases hv : opStep y0 y c op scr t with
  | go r' v =>
    rw [hv] at hsame
    obtain ⟨rfl, hmv⟩ := hsame
    exact ⟨v, run_of_go hv hstep ops, hmv⟩
  | _ => rw [hv] at hsame; exact hsame.elim

theorem run_done_same {st : Status} (h : opStep noTurn noTurn c op scr s = .done st r u) (ops : List Op) :
    ∃ v, run y0 y c (op :: ops) scr t = .next v ∧ AgentsMoved (finish c st r.resp u) v := by
  have hsame := opStep_same hy0 hy c op hop scr hm
  rw [h] at hsame
  cases hv : opStep y0 y c op scr t with
  | done st' r' v =>
    rw [hv] at hsame
    obtain ⟨rfl, rfl, hmv⟩ := hsame
    exact ⟨_, run_of_done hv ops, finish_moved c _ _ hmv⟩
  | _ => rw [hv] at hsame; exact hsame.elim

end turns

end Sys2Proof.Machine
end

section
/-! The pins of INIT (46_instance.md R360, R361): the two port clocks, and the two pins until one fails. -/

namespace Sys2Proof.Machine

/-- `s` once the pin collaborator has been called, newest call first, with the results `xs` still to come. -/
def pinState (s : State) (xs : List Bool) (calls : List PinCall) : State :=
  { s with env := { s.env with pinResults := xs }, pinLog := calls ++ s.pinLog }

theorem pinState_claimState (s : State) (i : Nat) (xs : List Bool) (calls : List PinCall) :
    pinState (claimState s i) xs calls = claimState (pinState s xs calls) i := rfl

theorem opStep_configPin (y : State → Out) (c : Ctx) {s : State} {b : Bool} {xs : List Bool} (port pin : Nat)
    (mode : PinMode) (calls : List PinCall) (scr : Scratch) :
    opStep noTurn y c (.configPin port pin mode) scr (pinState s (b :: xs) calls) =
      if b then .go scr (pinState s xs (.configure port pin mode s.par.pinSpeed true :: calls))
      else .done .gpioFailure scr (pinState s xs (.configure port pin mode s.par.pinSpeed false :: calls)) := by
  cases b <;> rfl

section pins

variable {k : Ctx} {s : State} {xs : List Bool} (hq : NoIrq s) (c : InstConfig) (mode : PinMode) (scr : Scratch) (ops : List Op)
include hq

/-- The calls of INIT before its first pin. -/
theorem run_pinClocks (a b : Nat) : ∃ t, run noTurn (turn none) k (.enableClock a :: .enableClock b :: ops) scr s =
      run (turn none) (turn none) k ops scr t ∧
    AgentsMoved (pinState s s.env.pinResults [.enableClock b, .enableClock a]) t := by
  obtain ⟨u, hrun, hu⟩ := run_go_same noTurn_tame (turn_tame none) (c := k) (op := .enableClock a) rfl (.refl hq) rfl rfl
    (.enableClock b :: ops)
  obtain ⟨t, hrun', ht⟩ := run_go_same (turn_tame none) (turn_tame none) (c := k) (op := .enableClock b) rfl hu rfl rfl ops
  exact ⟨t, hrun.trans hrun', ht⟩

theorem run_initPinOps_of_first_failed (h : s.env.pinResults = false :: xs) :
    ∃ t, run noTurn (turn none) k (initPinOps c mode ++ ops) scr s = .next t ∧
      AgentsMoved (finish k .gpioFailure scr.resp (pinState s xs
        [.configure c.sclPort c.sclPin mode s.par.pinSpeed false, .enableClock c.sdaPort, .enableClock c.sclPort])) t := by
  obtain ⟨u, hrun, hu⟩ := run_pinClocks hq scr _ c.sclPort c.sdaPort
  rw [h] at hu
  obtain ⟨t, hrun', ht⟩ := run_done_same (turn_tame none) (turn_tame none) rfl hu
    (opStep_configPin noTurn k c.sclPort c.sclPin mode _ scr) (.configPin c.sdaPort c.sdaPin mode :: ops)
  exact ⟨t, hrun.trans hrun', ht⟩

theorem run_initPinOps_of_first_ok (h : s.env.pinResults = true :: xs) :
    ∃ t, run noTurn (turn none) k (initPinOps c mode ++ ops) scr s =
        run (turn none) (turn none) k (.configPin c.sdaPort c.sdaPin mode :: ops) scr t ∧
      AgentsMoved (pinState s xs
        [.configure c.sclPort c.sclPin mode s.par.pinSpeed true, .enableClock c.sdaPort, .enableClock c.sclPort]) t := by
  obtain ⟨u, hrun, hu⟩ := run_pinClocks hq scr _ c.sclPort c.sdaPort
  rw [h] at hu
  obtain ⟨t, hrun', ht⟩ := run_go_same (turn_tame none) (turn_tame none) rfl hu
    (opStep_configPin noTurn k c.sclPort c.sclPin mode _ scr) rfl (.configPin c.sdaPort c.sdaPin mode :: ops)
  exact ⟨t, hrun.trans hrun', ht⟩

theorem run_initPinOps_of_second_failed (h : s.env.pinResults = true :: false :: xs) :
    ∃ t, run noTurn (turn none) k (initPinOps c mode ++ ops) scr s = .next t ∧
      AgentsMoved (finish k .gpioFailure scr.resp (pinState s xs
        [.configure c.sdaPort c.sdaPin mode s.par.pinSpeed false, .configure c.sclPort c.sclPin mode s.par.pinSpeed true,
          .enableClock c.sdaPort, .enableClock c.sclPort])) t := by
  obtain ⟨u, hrun, hu⟩ := run_initPinOps_of_first_ok hq c mode scr ops h
  obtain ⟨t, hrun', ht⟩ := run_done_same (turn_tame none) (turn_tame none) rfl hu
    (opStep_configPin noTurn k c.sdaPort c.sdaPin mode _ scr) ops
  exact ⟨t, hrun.trans hrun', ht⟩

theorem run_initPinOps_of_ok (h : s.env.pinResults = true :: true :: xs) :
    ∃ t, run noTurn (turn none) k (initPinOps c mode ++ ops) scr s = run (turn none) (turn none) k ops scr t ∧
      AgentsMoved (pinState s xs
        [.configure c.sdaPort c.sdaPin mode s.par.pinSpeed true, .configure c.sclPort c.sclPin mode s.par.pinSpeed true,
          .enableClock c.sdaPort, .enableClock c.sclPort]) t := by
  obtain ⟨u, hrun, hu⟩ := run_initPinOps_of_first_ok hq c mode scr ops h
  obtain ⟨t, hrun', ht⟩ := run_go_same (turn_tame none) (turn_tame none) rfl hu
    (opStep_configPin noTurn k c.sdaPort c.sdaPin mode _ scr) rfl ops
  exact ⟨t, hrun.trans hrun', ht⟩

end pins

end Sys2Proof.Machine
end

section
/-! INIT (46_instance.md R360, R361). -/

namespace Sys2Proof.Machine

theorem configAccepted_claimState (s : State) (i : Nat) : configAccepted (claimState s i) i = configAccepted s i := by
  rw [Bool.eq_iff_iff, ← accepted_iff, ← accepted_iff]
  simp only [Accepted, config_claimState, nInst_claimState]
  rfl

/-- The mode INIT asks of the pins. -/
def initMode (c : InstConfig) : PinMode := if c.kind = .sw then .openDrainOutput else .altFunctionOpenDrain

/-- The register writes of INIT (46_instance.md R361). -/
def initRegs (c : InstConfig) (r : SpeedRegs) : List Op :=
  [.csr .cr1 Cr1.pe 0, .csr .cr2 0xFFFF#16 (cr2Value r), .csr .ccr 0xFFFF#16 (ccrValue r),
    .csr .trise 0xFFFF#16 (triseValue r), .csr .oar1 0xFFFF#16 (oar1Value c), .csr .cr1 Cr1.pe Cr1.pe,
    .csr .cr1 Cr1.ack Cr1.ack]

/-- What INIT does after its pins. -/
def initRest (c : InstConfig) (r : SpeedRegs) : List Op :=
  match c.kind with
  | .sw => releaseOps ++ [.initRow]
  | .hw => initRegs c r ++ [.setNvic false, .initRow]

theorem cmdInit_of_initialized {s : State} {i : Nat} (hi : i < nInst s) (ho : (row s i).opActive = false)
    (hn : (row s i).initialized = true) (y : State → Out) (atomic : Bool) :
    cmdInit y atomic i s = .next (finish ⟨i, .init i, s.words, atomic⟩ .ok {} (claimState s i)) := by
  rw [cmdInit]
  simp only [claimed_free (c := ⟨i, .init i, s.words, atomic⟩) hi ho, row_claimState hi, hn, if_true]

theorem cmdInit_of_not_accepted {s : State} {i : Nat} (hi : i < nInst s) (ho : (row s i).opActive = false)
    (hn : (row s i).initialized = false) (ha : ¬ Accepted s i) (y : State → Out) (atomic : Bool) :
    cmdInit y atomic i s = .next (finish ⟨i, .init i, s.words, atomic⟩ .invalidParameter {} (claimState s i)) := by
  rw [accepted_iff, Bool.not_eq_true] at ha
  rw [cmdInit]
  simp only [claimed_free (c := ⟨i, .init i, s.words, atomic⟩) hi ho, row_claimState hi, hn, configAccepted_claimState, ha,
    Bool.false_eq_true, if_false]

theorem cmdInit_of_accepted {s : State} {i : Nat} (hi : i < nInst s) (ho : (row s i).opActive = false)
    (hn : (row s i).initialized = false) (ha : Accepted s i) (y : State → Out) (atomic : Bool) :
    cmdInit y atomic i s = run noTurn y ⟨i, .init i, s.words, atomic⟩
      (initPinOps (row s i).config (initMode (row s i).config) ++
        initRest (row s i).config (instParams s.par i).speed) {} (claimState s i) := by
  rw [accepted_iff] at ha
  rw [cmdInit]
  simp only [claimed_free (c := ⟨i, .init i, s.words, atomic⟩) hi ho, row_claimState hi, hn, configAccepted_claimState, ha,
    Bool.false_eq_true, if_false, if_true, initMode, initRest]
  cases (row s i).config.kind <;> rfl

/-- The row of an instance that INIT has initialized. -/
def initializedRow (q : Inst) : Inst := { q with initialized := true, transferMode := .polling, xfer := Xfer.reset }

theorem run_initRow (y0 y : State → Out) (c : Ctx) (s : State) : run y0 y c [.initRow] {} s =
    .next (finish c .ok {} (setRow s c.inst (initializedRow (row s c.inst)))) := rfl

/-- Settles O24: INIT returns before its pins, or at the pin that fails. -/
theorem initTurnedAway : Obligations.InitTurnedAway := by
  intro s i xs hi ho hq
  have hexec : exec (.init i) s = cmdInit (turn none) false i s := rfl
  refine ⟨fun hn => ?initialized, fun hn ha => ?rejected, fun hn ha hpins => ?first, fun hn ha hpins => ?second⟩
  case initialized => rw [hexec, cmdInit_of_initialized hi ho hn, finish_claimState hi ho]; rfl
  case rejected => rw [hexec, cmdInit_of_not_accepted hi ho hn ha, finish_claimState hi ho]; rfl
  case first =>
    rw [hexec, cmdInit_of_accepted hi ho hn ha]
    obtain ⟨t, hrun, ht⟩ := run_initPinOps_of_first_failed (k := ⟨i, .init i, s.words, false⟩) (s := claimState s i) hq
      (row s i).config (initMode (row s i).config) {} (initRest (row s i).config (instParams s.par i).speed) hpins
    rw [pinState_claimState, finish_claimState (by exact hi) (by exact ho)] at ht
    exact ⟨t, hrun, ht⟩
  case second =>
    rw [hexec, cmdInit_of_accepted hi ho hn ha]
    obtain ⟨t, hrun, ht⟩ := run_initPinOps_of_second_failed (k := ⟨i, .init i, s.words, false⟩) (s := claimState s i) hq
      (row s i).config (initMode (row s i).config) {} (initRest (row s i).config (instParams s.par i).speed) hpins
    rw [pinState_claimState, finish_claimState (by exact hi) (by exact ho)] at ht
    exact ⟨t, hrun, ht⟩

end Sys2Proof.Machine
end

section
/-! INIT with both pins configured, of an SW instance (46_instance.md R360) and of an HW instance (R361). -/

namespace Sys2Proof.Machine

/-- The calls that INIT makes of the pin collaborator where none fails, newest first. -/
def initCalls (s : State) (c : InstConfig) (mode : PinMode) : List PinCall :=
  [.configure c.sdaPort c.sdaPin mode s.par.pinSpeed true, .configure c.sclPort c.sclPin mode s.par.pinSpeed true,
    .enableClock c.sdaPort, .enableClock c.sclPort]

/-- INIT of an accepted configuration, up to the end of its pins. -/
theorem exec_init_of_pins {s : State} {i : Nat} {xs : List Bool} (hi : i < nInst s) (ho : (row s i).opActive = false)
    (hn : (row s i).initialized = false) (hq : NoIrq s) (ha : Accepted s i) (hpins : s.env.pinResults = true :: true :: xs) :
    let c := (row s i).config
    ∃ t, exec (.init i) s = run (turn none) (turn none) ⟨i, .init i, s.words, false⟩
        (initRest c (instParams s.par i).speed) {} t ∧
      AgentsMoved (claimState (pinState s xs (initCalls s c (initMode c))) i) t := by
  obtain ⟨t, hrun, ht⟩ := run_initPinOps_of_ok (k := ⟨i, .init i, s.words, false⟩) (s := claimState s i) hq
    (row s i).config (initMode (row s i).config) {} (initRest (row s i).config (instParams s.par i).speed) hpins
  exact ⟨t, (cmdInit_of_accepted hi ho hn ha _ _).trans hrun, ht⟩

/-- The end of INIT of an SW instance (46_instance.md R360). -/
theorem run_initRest_sw {k : Ctx} {s : State} (hi : k.inst < nInst s) (hc : recordsError k.cmd = true)
    (ho : (row s k.inst).opActive = false) : run noTurn noTurn k (releaseOps ++ [.initRow]) {} (claimState s k.inst) =
      .next (tracing (setRow s k.inst { initializedRow (row s k.inst) with
          drvSCL := true, drvSDA := true, lastError := .ok })
        [Event.pin k.inst .scl true, .pin k.inst .sda true, .resp k.cmd {}]) := by
  rw [claimState, run_release hi, run_initRow, row_tracing, row_setRow_self _ _ _ hi, setRow_tracing, setRow_setRow,
    finish_setRow hi, finished, hc, ← ho]
  rfl

/-- Settles O23: the lines are released and the row initialized, once both pins are configured. -/
theorem initSW : Obligations.InitSW := by
  intro s i xs hi hk hn ho hq ha hpins c
  obtain ⟨t, hexec, ht⟩ := exec_init_of_pins hi ho hn hq ha hpins
  have hmode : initMode (row s i).config = .openDrainOutput := if_pos hk
  have hrest : initRest (row s i).config (instParams s.par i).speed = releaseOps ++ [.initRow] := by rw [initRest, hk]
  rw [hmode] at ht
  rw [hexec, hrest]
  have hsame := run_same (turn_tame none) (turn_tame none) ⟨i, .init i, s.words, false⟩ (releaseOps ++ [.initRow])
    (List.all_eq_true.1 rfl) {} ht
  rw [run_initRest_sw (k := ⟨i, .init i, s.words, false⟩) (by exact hi) rfl (by exact ho)] at hsame
  exact sameOut_next hsame

/-! ## The registers -/

/-- PE written 0 where CR1 is 0 already (43_hw_peripheral.md R264). -/
theorem periphWrite_pe_off_of_reset {p : Periph} (h : p.cr1 = 0) : periphWrite .cr1 Cr1.pe 0 p = p := by
  change periphWriteCR1 (written .cr1 p.cr1 Cr1.pe 0) p = p
  rw [periphWriteCR1, h]
  cases p
  subst h
  rfl

/-- PE set where CR1 is 0: the peripheral is enabled, its phase Idle (43_hw_peripheral.md R264). -/
theorem periphWrite_pe_on_of_reset {p : Periph} (h : p.cr1 = 0) :
    periphWrite .cr1 Cr1.pe Cr1.pe p = { p with cr1 := 0x0001, ph := .idle } := by
  change periphWriteCR1 (written .cr1 p.cr1 Cr1.pe Cr1.pe) p = _
  rw [periphWriteCR1, h]
  rfl

theorem cr2Value_writable (r : SpeedRegs) : cr2Value r &&& writableBits .cr2 = cr2Value r := by
  have h : ∀ f : BitVec 6, f.setWidth 16 &&& 0x1F3F#16 = f.setWidth 16 := by decide
  exact h r.freq

theorem triseValue_writable (r : SpeedRegs) : triseValue r &&& writableBits .trise = triseValue r := by
  have h : ∀ f : BitVec 6, f.setWidth 16 &&& 0x003F#16 = f.setWidth 16 := by decide
  exact h r.trise

theorem ccrValue_writable (r : SpeedRegs) : ccrValue r &&& writableBits .ccr = ccrValue r := by
  have h : ∀ fast duty : Bool, (BitVec.ofBool fast ++ BitVec.ofBool duty ++ 0#2 : BitVec 4) &&& 0b1100#4 =
      BitVec.ofBool fast ++ BitVec.ofBool duty ++ 0#2 := by decide
  show (BitVec.ofBool r.fast ++ BitVec.ofBool r.duty ++ 0#2 ++ r.ccr : BitVec 16) &&& (0b1100#4 ++ BitVec.allOnes 12) =
    BitVec.ofBool r.fast ++ BitVec.ofBool r.duty ++ 0#2 ++ r.ccr
  rw [BitVec.and_append, BitVec.and_allOnes, h]

/-- OAR1 as a number: bit 14, and the own address in ADD[7:1] (10_state.md R43). -/
theorem oar1Value_eq (c : InstConfig) : oar1Value c = BitVec.ofNat 16 (0x4000 + 2 * (c.ownAddress.toNat % 128)) := by
  have h : ∀ a : BitVec 7, (0b01#2 ++ 0#6 ++ a ++ 0#1 : BitVec 16) = BitVec.ofNat 16 (0x4000 + 2 * a.toNat) := by decide
  have ha : (c.ownAddress.extractLsb' 0 7).toNat = c.ownAddress.toNat % 128 := by simp
  rw [oar1Value, h, ha]

theorem oar1Value_writable (c : InstConfig) : oar1Value c &&& writableBits .oar1 = oar1Value c := by
  have h : ∀ a : BitVec 7, (0b01#2 ++ 0#6 ++ a ++ 0#1 : BitVec 16) &&& 0xC3FF#16 = 0b01#2 ++ 0#6 ++ a ++ 0#1 := by decide
  exact h _

/-- The peripheral that INIT sets up (46_instance.md R361). -/
def initPeriph (c : InstConfig) (r : SpeedRegs) (p : Periph) : Periph :=
  { p with
    cr1 := 0x0401, cr2 := cr2Value r, ccr := ccrValue r, trise := triseValue r, oar1 := oar1Value c, ph := .idle }

/-- The seven writes of INIT, one after another, on a peripheral whose CR1 is 0. -/
theorem periphWrite_init {p : Periph} (hp : p.cr1 = 0) (c : InstConfig) (r : SpeedRegs) :
    periphWrite .cr1 Cr1.ack Cr1.ack (periphWrite .cr1 Cr1.pe Cr1.pe (periphWrite .oar1 0xFFFF (oar1Value c)
      (periphWrite .trise 0xFFFF (triseValue r) (periphWrite .ccr 0xFFFF (ccrValue r)
        (periphWrite .cr2 0xFFFF (cr2Value r) (periphWrite .cr1 Cr1.pe 0 p)))))) = initPeriph c r p := by
  have hcr2 : ∀ q, periphWrite .cr2 0xFFFF (cr2Value r) q = { q with cr2 := cr2Value r } := fun q => by
    rw [periphWrite, written_all, cr2Value_writable]
  have hccr : ∀ q, periphWrite .ccr 0xFFFF (ccrValue r) q = { q with ccr := ccrValue r } := fun q => by
    rw [periphWrite, written_all, ccrValue_writable]
  have htrise : ∀ q, periphWrite .trise 0xFFFF (triseValue r) q = { q with trise := triseValue r } := fun q => by
    rw [periphWrite, written_all, triseValue_writable]
  have hoar1 : ∀ q, periphWrite .oar1 0xFFFF (oar1Value c) q = { q with oar1 := oar1Value c } := fun q => by
    rw [periphWrite, written_all, oar1Value_writable]
  rw [periphWrite_pe_off_of_reset hp, hcr2, hccr, htrise, hoar1, periphWrite_pe_on_of_reset (by exact hp)]
  exact periphWrite_ack_on (show (0x0001 &&& 0xFBFF : BitVec 16) = 0x0001 by decide)

/-- The register writes of INIT, the other agents still. -/
theorem run_initRegs {k : Ctx} {s : State} {p : Periph} (hip : k.inst < s.peri.length) (hp : p.cr1 = 0) (c : InstConfig)
    (r : SpeedRegs) (sch : List Sched) (ops : List Op) (scr : Scratch) :
    run noTurn noTurn k (initRegs c r ++ ops) scr (hwState s k.inst p sch []) =
      run noTurn noTurn k ops scr (hwState s k.inst (initPeriph c r p) sch
        [Event.csrW k.inst .cr1 0x0001 0, .csrW k.inst .cr2 0xFFFF (cr2Value r), .csrW k.inst .ccr 0xFFFF (ccrValue r),
          .csrW k.inst .trise 0xFFFF (triseValue r), .csrW k.inst .oar1 0xFFFF (oar1Value c),
          .csrW k.inst .cr1 0x0001 0x0001, .csrW k.inst .cr1 0x0400 0x0400]) := by
  rw [← periphWrite_init hp]
  simp only [initRegs, List.cons_append, List.nil_append, run_csr_still hip]
  rfl

/-- The end of INIT of an HW instance (46_instance.md R361), the other agents still. -/
theorem run_initRest_hw {k : Ctx} {s : State} (hi : k.inst < nInst s) (hip : k.inst < s.peri.length)
    (hc : recordsError k.cmd = true) (ho : (row s k.inst).opActive = false) (hs : s.sched = [])
    (hcr1 : (dev s k.inst).cr1 = 0) (c : InstConfig) (r : SpeedRegs) :
    run noTurn noTurn k (initRegs c r ++ [.setNvic false, .initRow]) {} (claimState s k.inst) =
      .next (tracing (setDev (setRow s k.inst { initializedRow (row s k.inst) with nvicEn := false, lastError := .ok })
          k.inst (initPeriph c r (dev s k.inst)))
        [Event.csrW k.inst .cr1 0x0001 0, .csrW k.inst .cr2 0xFFFF (cr2Value r), .csrW k.inst .ccr 0xFFFF (ccrValue r),
          .csrW k.inst .trise 0xFFFF (triseValue r), .csrW k.inst .oar1 0xFFFF (oar1Value c),
          .csrW k.inst .cr1 0x0001 0x0001, .csrW k.inst .cr1 0x0400 0x0400, .resp k.cmd {}]) := by
  have hstart : claimState s k.inst = hwState (claimState s k.inst) k.inst (dev s k.inst) [] [] := by
    rw [← hs]
    exact (hwState_self (claimState s k.inst) k.inst).symm
  rw [hstart, run_initRegs (by exact hip) hcr1]
  simp only [run, opStep, finish_eq, row_hwState, setRow_hwState, tracing_hwState, setRow_claimState,
    setRow_setRow, row_setRow_self _ _ _ hi, row_claimState hi, finished, hc]
  rw [hwState_of_still (by exact hs), ← ho]
  rfl

/-- Settles O25: the registers are written and the row initialized, once both pins are configured. -/
theorem initHW : Obligations.InitHW := by
  intro s i xs hi hip hk hn ho hs ha hcr1 hpins c r own
  have hq : NoIrq s := fun e he => absurd (hs ▸ he) List.not_mem_nil
  obtain ⟨t, hexec, ht⟩ := exec_init_of_pins hi ho hn hq ha hpins
  obtain rfl := ht.still hs
  have hmode : initMode (row s i).config = .altFunctionOpenDrain := if_neg (by simp [hk])
  have hrest : initRest (row s i).config (instParams s.par i).speed =
      initRegs c r ++ [.setNvic false, .initRow] := by rw [initRest, hk]
  refine ⟨_, hexec.trans ?_, rfl⟩
  rw [hrest, hmode, run_quiet (turn_still _) (turn_still _) _ _ _ (by exact hs),
    run_initRest_hw (k := ⟨i, .init i, s.words, false⟩) (by exact hi) (by exact hip) rfl (by exact ho) (by exact hs)
      (by exact hcr1), initPeriph, oar1Value_eq]
  rfl

end Sys2Proof.Machine
end

section
/-! The power-on state (70_reset_and_hazards.md R450): each row and each peripheral at its reset value, and so the invariant
and the range of the parameters. -/

namespace Sys2Proof.Machine

section powerOn
variable (par : Params) (cs : List InstConfig)

theorem nInst_powerOn : nInst (State.powerOn par cs) = cs.length := List.length_map _

theorem length_peri_powerOn : (State.powerOn par cs).peri.length = cs.length := List.length_map _

theorem row_powerOn {i : Nat} (hi : i < cs.length) : row (State.powerOn par cs) i = Inst.reset cs[i] := by
  rw [row, State.powerOn, List.getD_eq_getElem _ _ (by rwa [List.length_map]), List.getElem_map]

theorem eq_reset_of_mem_peri_powerOn {p : Periph} (hp : p ∈ (State.powerOn par cs).peri) : p = Periph.reset := by
  obtain ⟨c, -, rfl⟩ := List.mem_map.mp hp
  rfl

theorem dev_powerOn (i : Nat) : dev (State.powerOn par cs) i = Periph.reset :=
  List.getD_map cs ⟨.sw, 0, 0, 0, 0, 0, 0, 0, 0⟩ fun _ => Periph.reset

theorem periphOk_reset : periphOk Periph.reset = true := by decide

theorem swRowOk_reset (c : InstConfig) : swRowOk (Inst.reset c) = true := by simp [swRowOk, Inst.reset]

theorem clockOk_of_ticks_eq {s : State} (h : s.ticks = s.lastNow) : clockOk s := by
  rw [clockOk, elapsed, h, BitVec.sub_self]
  decide

theorem powerOn_inv : Inv (State.powerOn par cs) := by
  refine ⟨by rintro q ⟨⟩, rfl, fun p hp => ?peri, fun r hr => ?rows, ?one, clockOk_of_ticks_eq rfl⟩
  case peri => exact eq_reset_of_mem_peri_powerOn par cs hp ▸ periphOk_reset
  case rows =>
    obtain ⟨c, -, rfl⟩ := List.mem_map.mp hr
    exact swRowOk_reset c
  case one => exact (length_peri_powerOn par cs).trans (nInst_powerOn par cs).symm

end powerOn

theorem powerOn_paramsOk {par : Params} {cs : List InstConfig} (hone : 1 ≤ cs.length) (hmax : cs.length ≤ 16)
    (hinsts : par.insts.length = cs.length) (hprio : par.prioEv < par.prioEr) : ParamsOk (State.powerOn par cs) := by
  rw [ParamsOk, nInst_powerOn]
  exact ⟨hone, hmax, hinsts, hprio⟩

/-- Settles O7: every row is `Inst.reset` of its configuration, every peripheral `Periph.reset`. -/
theorem powerOnValues : Obligations.PowerOnValues := by
  refine ⟨fun par cs i hi => ?_, rfl⟩
  dsimp only
  rw [row_powerOn par cs hi, dev_powerOn]
  refine ⟨nInst_powerOn par cs, length_peri_powerOn par cs, rfl, rfl, rfl, ?_⟩
  simp [Inst.reset, Xfer.reset, Periph.reset, Periph.resetWith]

/-- Settles O8: the reset values satisfy the invariant, and the common launch has two instances with their parameters. -/
theorem invAtReset : Obligations.InvAtReset :=
  ⟨powerOn_inv, powerOn_inv _ _, fun _ _ => powerOn_paramsOk,
    powerOn_paramsOk (by decide) (by decide) rfl Nat.zero_lt_one⟩

end Sys2Proof.Machine
end

section
/-! The interrupt lines (60_exceptions.md R404) in the bit masks of the statement, and the handler entered (R405,
45_hw_interrupt.md R333). -/

namespace Sys2Proof.Machine

theorem has_iff (v m : Half) : has v m = true ↔ v &&& m ≠ 0 := bne_iff_ne

theorem has_or (v m k : Half) : has v (m ||| k) = (has v m || has v k) := by
  rw [Bool.eq_iff_iff, Bool.or_eq_true, has_iff, has_iff, has_iff, BitVec.and_or_distrib_left, ← not_and_or]
  exact not_congr BitVec.or_eq_zero_iff

@[simp] theorem has_iterren (v : Half) : has v Cr2.iterren = v.getLsbD 8 := has_twoPow v 8
@[simp] theorem has_itevten (v : Half) : has v Cr2.itevten = v.getLsbD 9 := has_twoPow v 9
@[simp] theorem has_itbufen (v : Half) : has v Cr2.itbufen = v.getLsbD 10 := has_twoPow v 10

theorem erLine_iff (p : Periph) : erLine p = true ↔ p.cr2.getLsbD 8 = true ∧ p.sr1 &&& 0xDF00 ≠ 0 := by
  have hflags : (0xDF00 : Half) =
      Sr1.berr ||| Sr1.arlo ||| Sr1.af ||| Sr1.ovr ||| Sr1.pecerr ||| Sr1.timeout ||| Sr1.smbalert := by decide
  rw [← has_iff, hflags]
  simp only [erLine, has_or, has_iterren, Bool.and_eq_true]

theorem evLine_iff (p : Periph) : evLine p = true ↔ p.cr2.getLsbD 9 = true ∧
    (p.sr1 &&& 0x001F ≠ 0 ∨ p.cr2.getLsbD 10 = true ∧ p.sr1 &&& 0x00C0 ≠ 0) := by
  have hevents : (0x001F : Half) = Sr1.sb ||| Sr1.addr ||| Sr1.add10 ||| Sr1.stopf ||| Sr1.btf := by decide
  have hbuffer : (0x00C0 : Half) = Sr1.txe ||| Sr1.rxne := by decide
  rw [← has_iff, ← has_iff, hevents, hbuffer]
  simp only [evLine, has_or, has_itevten, has_itbufen, Bool.and_eq_true, Bool.or_eq_true]

/-! What an instance asks of the interrupt controller. -/

/-- The controller listens to the lines of row `j`: an HW instance with `nvicEn` set (45_hw_interrupt.md R333). -/
abbrev LinesOn (s : State) (j : Nat) : Prop := (row s j).config.kind = .hw ∧ (row s j).nvicEn = true

section takenAt
variable {s : State} {j : Nat} {h : Instr}

theorem takenAt_eq (s : State) (j : Nat) : takenAt s j = if LinesOn s j then
    if erLine (dev s j) then some (.erIrq j) else if evLine (dev s j) then some (.evIrq j) else none
  else none := rfl

theorem takenAt_eq_some_iff : takenAt s j = some h ↔ LinesOn s j ∧
    (erLine (dev s j) = true ∧ .erIrq j = h ∨ ¬ erLine (dev s j) = true ∧ evLine (dev s j) = true ∧ .evIrq j = h) := by
  rw [takenAt_eq]
  split_ifs with hon her hev
  · simp [LinesOn, hon, her]
  · simp [LinesOn, hon, her, hev]
  · simp [her, hev]
  · simp [hon]

theorem takenAt_eq_erIrq_iff : takenAt s j = some (.erIrq j) ↔ LinesOn s j ∧ erLine (dev s j) = true := by
  simp [takenAt_eq_some_iff]

theorem takenAt_eq_evIrq_iff : takenAt s j = some (.evIrq j) ↔
    LinesOn s j ∧ evLine (dev s j) = true ∧ ¬ erLine (dev s j) = true := by
  simp [takenAt_eq_some_iff, and_comm]

theorem takenAt_eq_none_iff : takenAt s j = none ↔
    ¬ (LinesOn s j ∧ (erLine (dev s j) = true ∨ evLine (dev s j) = true)) := by
  rw [takenAt_eq]
  split_ifs with hon her hev
  · simp [hon, her]
  · simp [hon, hev]
  · simp [her, hev]
  · simp [hon]

theorem eq_handler_of_takenAt (ht : takenAt s j = some h) : h = .erIrq j ∨ h = .evIrq j := by
  obtain ⟨-, ⟨-, rfl⟩ | ⟨-, -, rfl⟩⟩ := takenAt_eq_some_iff.1 ht
  · exact .inl rfl
  · exact .inr rfl

end takenAt

/-! Which instance is served, and its handler. -/

theorem findSome?_range_eq_some_iff {α : Type} {f : Nat → Option α} {a : α} (n : Nat) :
    (List.range n).findSome? f = some a ↔ ∃ i, i < n ∧ f i = some a ∧ ∀ j, j < i → f j = none := by
  induction n with
  | zero => simp
  | succ n ih =>
    have hbefore : (List.range n).findSome? f = none ↔ ∀ j, j < n → f j = none := by
      simp only [List.findSome?_eq_none_iff, List.mem_range]
    rw [List.range_succ, List.findSome?_append, Option.or_eq_some_iff, ih, hbefore, List.findSome?_singleton,
      and_comm (b := f n = some a)]
    exact Nat.exists_lt_succ_right.symm

theorem takeInterrupt_eq_some_iff {s : State} {h : Instr} : takeInterrupt s = some h ↔
    ∃ i, i < nInst s ∧ takenAt s i = some h ∧ ∀ j, j < i → takenAt s j = none :=
  findSome?_range_eq_some_iff (nInst s)

theorem takeInterrupt_eq_none_iff {s : State} : takeInterrupt s = none ↔ ∀ j, j < nInst s → takenAt s j = none := by
  simp only [takeInterrupt, List.findSome?_eq_none_iff, List.mem_range]

/-- A handler of instance `i` is entered exactly where `i` has it taken and no lower instance has one. -/
theorem takeInterrupt_eq_handler_iff {s : State} {h : Instr} {i : Nat} (hh : h = .erIrq i ∨ h = .evIrq i) :
    takeInterrupt s = some h ↔ i < nInst s ∧ takenAt s i = some h ∧ ∀ j, j < i → takenAt s j = none := by
  rw [takeInterrupt_eq_some_iff]
  refine ⟨fun ⟨k, hk⟩ => ?_, fun hi => ⟨i, hi⟩⟩
  have hki : i = k := by
    rcases hh with rfl | rfl <;> simpa using eq_handler_of_takenAt hk.2.1
  exact hki ▸ hk

theorem serveInterrupt_of_some {s : State} {h : Instr} (ht : takeInterrupt s = some h) :
    serveInterrupt (seqLent s) s = exec h s := by
  obtain ⟨i, -, hi, -⟩ := takeInterrupt_eq_some_iff.1 ht
  rcases eq_handler_of_takenAt hi with rfl | rfl <;> simp only [serveInterrupt, ht] <;> rfl

theorem serveInterrupt_of_none {s : State} (ht : takeInterrupt s = none) (lent : Option (Nat × Word)) :
    serveInterrupt lent s = .next s := by
  simp only [serveInterrupt, ht]

/-- Settles O53: the lowest instance with a line taken is served, its error handler first. -/
theorem interruptPriority : Obligations.InterruptPriority := by
  intro s i er ev on first
  have hnone (j : Nat) : takenAt s j = none ↔ ¬ (on j ∧ (er j ∨ ev j)) := by
    rw [takenAt_eq_none_iff, erLine_iff, evLine_iff]
  refine ⟨?error, ?event, ?none, fun h ht => serveInterrupt_of_some ht, fun lent ht => serveInterrupt_of_none ht lent⟩
  case error =>
    rw [takeInterrupt_eq_handler_iff (.inl rfl), takenAt_eq_erIrq_iff, erLine_iff]
    simp only [hnone, first]
    tauto
  case event =>
    rw [takeInterrupt_eq_handler_iff (.inr rfl), takenAt_eq_evIrq_iff, evLine_iff, erLine_iff]
    simp only [hnone, first]
    tauto
  case none => simp only [takeInterrupt_eq_none_iff, hnone]

end Sys2Proof.Machine
end
